-- ==== Sys2Proof/Word.lean ====
section
/-! DEFINITION. The word types of CORE: every ring word, table word, command word and response word is 32 bits
(20_memory.md R52, 30_encoding.md R70); a bin of a spectrum is a pair of them (10_state.md R34). -/

namespace Sys2Proof

/-- A 32-bit word: a binary32 value, a command word or a response word (R52, R70, R211). -/
abbrev Word := BitVec 32

/-- A byte, met only where a platform serialises words (R52). -/
abbrev Byte := BitVec 8

/-- One complex bin of a spectrum: the pair (re, im) of binary32 words (10_state.md R34, 20_memory.md R59). -/
structure Bin where
  re : Word
  im : Word
deriving DecidableEq, Repr, Inhabited

end Sys2Proof
end

