-- ==== Sys2Proof/Syntax.lean ====
section
/-! DEFINITION. The commands of CORE: one constructor of `Instr` for each row of opcode_table.json. The rows MAG.*, PH.*,
BYP and INVPH are sub-decodes of the first word of a TICK (30_encoding.md R87): each is a TICK with the field the row
fixes left out and every other field an operand. `Instr.command?` is what the machine needs to see (R79). -/

namespace Sys2Proof

/-- The four operand words W1 to W4 of a TICK, bit for bit (30_encoding.md R74, R75). -/
structure Operands where
  /-- W1, the morph factor -/
  m : Word
  /-- W2, the formant-shift factor, ignored (R38) -/
  formant : Word
  /-- W3, the main sample -/
  main : Word
  /-- W4, the aux sample -/
  aux : Word
deriving DecidableEq, Repr

/-- The configuration record of a TICK (10_state.md R35, 30_encoding.md R79); the selectors stay numbers. -/
structure Cfg where
  byp : Bool
  invph : Bool
  msel : BitVec 8
  psel : BitVec 8
  m : Word
  formant : Word
deriving DecidableEq, Repr

/-- The decoded command, one of three values (R79). -/
inductive Command where
  | reset
  | latency
  | tick (main aux : Word) (cfg : Cfg)
deriving DecidableEq, Repr

/-- One constructor for each row of opcode_table.json. -/
inductive Instr where
  /-- RESET (R100) -/
  | reset
  /-- TICK (R101), every field an operand -/
  | tick (msel psel : BitVec 8) (bp iv : Bool) (o : Operands)
  /-- LAT (R102) -/
  | lat
  /-- a TICK with MSEL = 0 (R164) -/
  | magAdd (psel : BitVec 8) (bp iv : Bool) (o : Operands)
  /-- a TICK with MSEL = 1 (R165) -/
  | magSubtract (psel : BitVec 8) (bp iv : Bool) (o : Operands)
  /-- a TICK with MSEL = 2 (R166) -/
  | magMultiply (psel : BitVec 8) (bp iv : Bool) (o : Operands)
  /-- a TICK with MSEL = 3 (R167) -/
  | magDivide (psel : BitVec 8) (bp iv : Bool) (o : Operands)
  /-- a TICK with MSEL = 4 (R168) -/
  | magLinearBlend (psel : BitVec 8) (bp iv : Bool) (o : Operands)
  /-- a TICK with MSEL = 5 (R169) -/
  | magAllPass (psel : BitVec 8) (bp iv : Bool) (o : Operands)
  /-- a TICK with MSEL in 6..255 (R170) -/
  | magOutOfRange (msel psel : BitVec 8) (bp iv : Bool) (o : Operands)
  /-- a TICK with PSEL = 0 (R171) -/
  | phAdd (msel : BitVec 8) (bp iv : Bool) (o : Operands)
  /-- a TICK with PSEL = 1 (R172) -/
  | phLinear (msel : BitVec 8) (bp iv : Bool) (o : Operands)
  /-- a TICK with PSEL = 2 (R173) -/
  | phLinearNatural (msel : BitVec 8) (bp iv : Bool) (o : Operands)
  /-- a TICK with PSEL = 3 (R174) -/
  | phSmoothStep (msel : BitVec 8) (bp iv : Bool) (o : Operands)
  /-- a TICK with PSEL = 4 (R175) -/
  | phPreserveMainIn (msel : BitVec 8) (bp iv : Bool) (o : Operands)
  /-- a TICK with PSEL = 5 (R176) -/
  | phPreserveAuxIn (msel : BitVec 8) (bp iv : Bool) (o : Operands)
  /-- a TICK with PSEL in 6..255 (R177) -/
  | phOutOfRange (msel psel : BitVec 8) (bp iv : Bool) (o : Operands)
  /-- a TICK with BYP = 1 (R204) -/
  | byp (msel psel : BitVec 8) (iv : Bool) (o : Operands)
  /-- a TICK with INVPH = 1 (R178) -/
  | invph (msel psel : BitVec 8) (bp : Bool) (o : Operands)
  /-- a first word whose opcode is none of 1, 2, 3 (R81) -/
  | reservedOpcode (w : Word)
deriving DecidableEq, Repr

/-- The fields of a TICK as the decoded command (R79). -/
def tickCommand (msel psel : BitVec 8) (bp iv : Bool) (o : Operands) : Command :=
  .tick o.main o.aux ⟨bp, iv, msel, psel, o.m, o.formant⟩

/-- The command an instruction stands for, whatever row names it; a reserved opcode spells none (R79, R81). -/
def Instr.command? : Instr → Option Command
  | .reset => some .reset
  | .lat => some .latency
  | .tick msel psel bp iv o => some (tickCommand msel psel bp iv o)
  | .magAdd psel bp iv o => some (tickCommand 0 psel bp iv o)
  | .magSubtract psel bp iv o => some (tickCommand 1 psel bp iv o)
  | .magMultiply psel bp iv o => some (tickCommand 2 psel bp iv o)
  | .magDivide psel bp iv o => some (tickCommand 3 psel bp iv o)
  | .magLinearBlend psel bp iv o => some (tickCommand 4 psel bp iv o)
  | .magAllPass psel bp iv o => some (tickCommand 5 psel bp iv o)
  | .magOutOfRange msel psel bp iv o => some (tickCommand msel psel bp iv o)
  | .phAdd msel bp iv o => some (tickCommand msel 0 bp iv o)
  | .phLinear msel bp iv o => some (tickCommand msel 1 bp iv o)
  | .phLinearNatural msel bp iv o => some (tickCommand msel 2 bp iv o)
  | .phSmoothStep msel bp iv o => some (tickCommand msel 3 bp iv o)
  | .phPreserveMainIn msel bp iv o => some (tickCommand msel 4 bp iv o)
  | .phPreserveAuxIn msel bp iv o => some (tickCommand msel 5 bp iv o)
  | .phOutOfRange msel psel bp iv o => some (tickCommand msel psel bp iv o)
  | .byp msel psel iv o => some (tickCommand msel psel true iv o)
  | .invph msel psel bp o => some (tickCommand msel psel bp true o)
  | .reservedOpcode _ => none

end Sys2Proof
end

