-- ==== Sys2Proof/WellFormed.lean ====
section
/-! DEFINITION. Which terms of `Instr` the encoding of 30_encoding.md can spell: an out-of-range row needs a selector out
of range (R170, R177), the reserved row an opcode that no command has (R81). Every other operand takes every value. -/

namespace Sys2Proof

/-- `OPC`, bits 31:28 of a first word (R72). -/
def opcode (w : Word) : Nat := (w.extractLsb' 28 4).toNat

/-- The opcode is that of a command: 1 RESET, 2 TICK, 3 LAT (R73). -/
def isCommandOpcode (w : Word) : Bool := opcode w == 1 || opcode w == 2 || opcode w == 3

/-- A selector value that names no strategy: 6..255 (R39, R40). -/
def selectorOutOfRange (sel : BitVec 8) : Bool := decide (6 ≤ sel.toNat)

/-- The term is one the encoding can spell. -/
def Instr.wf : Instr → Bool
  | .magOutOfRange msel _ _ _ _ => selectorOutOfRange msel
  | .phOutOfRange _ psel _ _ _ => selectorOutOfRange psel
  | .reservedOpcode w => !isCommandOpcode w
  | .reset | .lat | .tick .. => true
  | .magAdd .. | .magSubtract .. | .magMultiply .. | .magDivide .. | .magLinearBlend .. | .magAllPass .. => true
  | .phAdd .. | .phLinear .. | .phLinearNatural .. | .phSmoothStep .. | .phPreserveMainIn .. | .phPreserveAuxIn .. => true
  | .byp .. | .invph .. => true

end Sys2Proof
end

