-- ==== Sys2Proof/Decode.lean ====
section
/-! DEFINITION. The decoder of 30_encoding.md, total on every list of words, and the encoder written from the same
tables (R72 to R82). A word of TICK belongs to several rows of opcode_table.json; `nameTick` gives it the one name the
decoder answers with (DESIGN CHOICE, log 10); what it does never depends on the name. -/

namespace Sys2Proof

/-! ## Fields of the first word (R72) -/

/-- `RSV`, bits 27:18. -/
def rsvField (w : Word) : BitVec 10 := w.extractLsb' 18 10

/-- `INVPH`, bit 17. -/
def invphField (w : Word) : Bool := w.getLsbD 17

/-- `BYP`, bit 16. -/
def bypField (w : Word) : Bool := w.getLsbD 16

/-- `PSEL`, bits 15:8. -/
def pselField (w : Word) : BitVec 8 := w.extractLsb' 8 8

/-- `MSEL`, bits 7:0. -/
def mselField (w : Word) : BitVec 8 := w.extractLsb' 0 8

/-- Bits 27:0, which must be zero in RESET and LAT (R74, R80). -/
def shortZero (w : Word) : Bool := w.extractLsb' 0 28 == 0#28

/-- How many words a command has, told from its first word: 5 for TICK, 1 otherwise (R74). -/
def commandLength (w : Word) : Nat := if opcode w = 2 then 5 else 1

/-! ## The name of a TICK (log 10) -/

/-- A TICK with PSEL = 0 and MSEL at least 1. -/
def nameByMag (msel : BitVec 8) (o : Operands) : Instr :=
  match msel.toNat with
  | 1 => .magSubtract 0 false false o
  | 2 => .magMultiply 0 false false o
  | 3 => .magDivide 0 false false o
  | 4 => .magLinearBlend 0 false false o
  | 5 => .magAllPass 0 false false o
  | _ => .phAdd msel false false o

/-- A TICK with MSEL = 0 and PSEL at least 1. -/
def nameByPhase (psel : BitVec 8) (o : Operands) : Instr :=
  match psel.toNat with
  | 1 => .phLinear 0 false false o
  | 2 => .phLinearNatural 0 false false o
  | 3 => .phSmoothStep 0 false false o
  | 4 => .phPreserveMainIn 0 false false o
  | 5 => .phPreserveAuxIn 0 false false o
  | _ => .magAdd psel false false o

/-- The row of opcode_table.json by which the decoder names a TICK. A set modifier bit names it, bypass first (60_exceptions.md
R248). Otherwise the one selector that is not 0 names it (an out-of-range selector names no strategy, so there the
other axis, at `add`, does); both 0 is the bare TICK; both not 0 is an out-of-range row if one is out of range, MSEL
first, else the general TICK. -/
def nameTick (msel psel : BitVec 8) (bp iv : Bool) (o : Operands) : Instr :=
  if bp then .byp msel psel iv o
  else if iv then .invph msel psel false o
  else if psel = 0 then (if msel = 0 then .tick 0 0 false false o else nameByMag msel o)
  else if msel = 0 then nameByPhase psel o
  else if selectorOutOfRange msel then .magOutOfRange msel psel false false o
  else if selectorOutOfRange psel then .phOutOfRange msel psel false false o
  else .tick msel psel false false o

/-- The instruction the decoder answers with for the words of `i`: the same command under the decoder's name. -/
def Instr.named : Instr → Instr
  | .reset => .reset
  | .lat => .lat
  | .tick msel psel bp iv o => nameTick msel psel bp iv o
  | .magAdd psel bp iv o => nameTick 0 psel bp iv o
  | .magSubtract psel bp iv o => nameTick 1 psel bp iv o
  | .magMultiply psel bp iv o => nameTick 2 psel bp iv o
  | .magDivide psel bp iv o => nameTick 3 psel bp iv o
  | .magLinearBlend psel bp iv o => nameTick 4 psel bp iv o
  | .magAllPass psel bp iv o => nameTick 5 psel bp iv o
  | .magOutOfRange msel psel bp iv o => nameTick msel psel bp iv o
  | .phAdd msel bp iv o => nameTick msel 0 bp iv o
  | .phLinear msel bp iv o => nameTick msel 1 bp iv o
  | .phLinearNatural msel bp iv o => nameTick msel 2 bp iv o
  | .phSmoothStep msel bp iv o => nameTick msel 3 bp iv o
  | .phPreserveMainIn msel bp iv o => nameTick msel 4 bp iv o
  | .phPreserveAuxIn msel bp iv o => nameTick msel 5 bp iv o
  | .phOutOfRange msel psel bp iv o => nameTick msel psel bp iv o
  | .byp msel psel iv o => nameTick msel psel true iv o
  | .invph msel psel bp o => nameTick msel psel bp true o
  | .reservedOpcode w => .reservedOpcode w

/-! ## The decoder -/

/-- Why a list of words gives no instruction. -/
inductive DecodeError where
  /-- the stream is empty: no command has been issued -/
  | noCommand
  /-- a first word with a reserved bit set (R80) -/
  | reservedBits (w : Word)
  /-- the stream ends inside the five words of a TICK (60_exceptions.md R245); the words received -/
  | truncated (ws : List Word)
deriving DecidableEq, Repr

/-- A TICK whose first word is `w`, its operands from the words after it (R74, R75, R245). -/
def decodeTick (w : Word) (rest : List Word) : Except DecodeError (Instr × List Word) :=
  match rest with
  | m :: formant :: main :: aux :: rest =>
    .ok (nameTick (mselField w) (pselField w) (bypField w) (invphField w) ⟨m, formant, main, aux⟩, rest)
  | _ => .error (.truncated (w :: rest))

/-- The instruction at the head of a stream of words, and the words after it. The opcode is examined first, then the
reserved bits, then whether all words have arrived (60_exceptions.md R248). -/
def decode (ws : List Word) : Except DecodeError (Instr × List Word) :=
  match ws with
  | [] => .error .noCommand
  | w :: rest =>
    if opcode w = 1 then (if shortZero w then .ok (.reset, rest) else .error (.reservedBits w))
    else if opcode w = 2 then (if rsvField w = 0 then decodeTick w rest else .error (.reservedBits w))
    else if opcode w = 3 then (if shortZero w then .ok (.lat, rest) else .error (.reservedBits w))
    else .ok (.reservedOpcode w, rest)

/-! ## The encoder -/

/-- The first word of a TICK (R72): OPC = 2, RSV = 0, INVPH, BYP, PSEL, MSEL from the top down. -/
def tickWord0 (msel psel : BitVec 8) (bp iv : Bool) : Word :=
  2#4 ++ 0#10 ++ BitVec.ofBool iv ++ BitVec.ofBool bp ++ psel ++ msel

/-- The five words of a TICK (R74, R75). -/
def encodeTick (msel psel : BitVec 8) (bp iv : Bool) (o : Operands) : List Word :=
  [tickWord0 msel psel bp iv, o.m, o.formant, o.main, o.aux]

/-- The words of an instruction. -/
def encode : Instr → List Word
  | .reset => [0x10000000#32]
  | .lat => [0x30000000#32]
  | .tick msel psel bp iv o => encodeTick msel psel bp iv o
  | .magAdd psel bp iv o => encodeTick 0 psel bp iv o
  | .magSubtract psel bp iv o => encodeTick 1 psel bp iv o
  | .magMultiply psel bp iv o => encodeTick 2 psel bp iv o
  | .magDivide psel bp iv o => encodeTick 3 psel bp iv o
  | .magLinearBlend psel bp iv o => encodeTick 4 psel bp iv o
  | .magAllPass psel bp iv o => encodeTick 5 psel bp iv o
  | .magOutOfRange msel psel bp iv o => encodeTick msel psel bp iv o
  | .phAdd msel bp iv o => encodeTick msel 0 bp iv o
  | .phLinear msel bp iv o => encodeTick msel 1 bp iv o
  | .phLinearNatural msel bp iv o => encodeTick msel 2 bp iv o
  | .phSmoothStep msel bp iv o => encodeTick msel 3 bp iv o
  | .phPreserveMainIn msel bp iv o => encodeTick msel 4 bp iv o
  | .phPreserveAuxIn msel bp iv o => encodeTick msel 5 bp iv o
  | .phOutOfRange msel psel bp iv o => encodeTick msel psel bp iv o
  | .byp msel psel iv o => encodeTick msel psel true iv o
  | .invph msel psel bp o => encodeTick msel psel bp true o
  | .reservedOpcode w => [w]

/-! ## Words as bytes, where a platform serialises them (20_memory.md R52: little-endian) -/

/-- The four bytes of a word, least significant first. -/
def bytesOfWord (w : Word) : List Byte :=
  [w.extractLsb' 0 8, w.extractLsb' 8 8, w.extractLsb' 16 8, w.extractLsb' 24 8]

/-- The bytes of a stream of words. -/
def bytesOfWords (ws : List Word) : List Byte := ws.flatMap bytesOfWord

/-- The words of a stream of bytes; a word whose four bytes have not all arrived is not there yet. -/
def wordsOfBytes : List Byte → List Word
  | b0 :: b1 :: b2 :: b3 :: rest => (b3 ++ b2 ++ b1 ++ b0 : Word) :: wordsOfBytes rest
  | _ => []

/-- The instruction at the head of a stream of bytes. -/
def decodeBytes (bs : List Byte) : Except DecodeError (Instr × List Word) := decode (wordsOfBytes bs)

/-! ## A row of the opcode table as one number -/

/-- The five words of the number `w` of which `nbits` bits count, bit 0 the least significant bit of the first word. -/
def tableWords (nbits w : Nat) : List Word :=
  (List.range 5).map fun i => BitVec.ofNat 32 (w % 2 ^ nbits / 2 ^ (32 * i))

/-- The instruction the decoder reads from an instruction whose bits are `w`, every bit above `nbits` zero. -/
def decodeTableWord (nbits w : Nat) : Option Instr :=
  match decodeBytes (bytesOfWords (tableWords nbits w)) with
  | .ok (i, _) => some i
  | .error _ => none

end Sys2Proof
end

