-- ==== Sys2Proof/Config.lean ====
section
/-! DEFINITION. What an instance of CORE fixes, and the values the spec leaves open that need nothing but words:
the default frame size, the overlap factor, the defaults of NUM's tolerances, which quiet NaN an operation returns, and what
NUM_IDEAL makes of input that is not finite. The numerics record NUM and its tolerances, the other open values, are
`Sys2Proof.Config.num` and `Sys2Proof.Config.tol` in Machine/NumConfig.lean. -/

namespace Sys2Proof.Config

/-- The default frame size is `N = 2^10 = 1024` (00_scope.md R9). -/
def defaultLogN : Nat := 10

/-- `overlapFactor = 4`, a constant of the hardware (00_scope.md R10). -/
def overlapFactor : Nat := 4

/-- `TOL_FFT = 2^-20`, the default (45_numerics.md R231); this is the 20. -/
def defaultTolFftExp : Nat := 20

/-- `TOL_TRIG = 2^-23`, the default (45_numerics.md R231); this is the 23. -/
def defaultTolTrigExp : Nat := 23

/-- The functions whose NaN results the spec leaves open (45_numerics.md R219, R222, R223, 43_morph.md R180). -/
inductive FpOp where
  | add | sub | mul | div | sqrt | wrap | sin | cos | atan2
deriving DecidableEq, Repr

/-- FREE VALUE (DESIGN CHOICE, log 6): which quiet NaN a primitive returns on these operands, its sign in bit 22 and
the 22 payload bits below the quiet bit. "Which quiet NaN (sign and payload) is not specified" (45_numerics.md R219). -/
opaque nanBits : FpOp → Word → Word → BitVec 23

/-- FREE VALUE (DESIGN CHOICE, log 14): word `i` of what NUM_IDEAL makes of a transform input that is not finite, given as
its words. "Non-finite inputs give unspecified outputs (any binary32 values)" (42_transform.md R148, P4). -/
opaque nonFiniteWord : List Word → Nat → Word

end Sys2Proof.Config
end

