-- ==== Sys2Proof/Machine/State.lean ====
section
/-! DEFINITION. The state of one instance of CORE as plain data (10_state.md R20), the state after RESET (R45, R272), the
power-on state (70_reset_and_hazards.md R271), and the reasons a step can stop. -/

namespace Sys2Proof.Machine

/-- The three ring address spaces (20_memory.md R50). -/
inductive Space where
  | inMain | inAux | out
deriving DecidableEq, Repr

/-- The rings, the block's only data memories (R21 to R24, R50): word addressed, N words each, element i at place i. -/
structure Memory where
  inMain : List Word
  inAux : List Word
  out : List Word
deriving DecidableEq, Repr

/-- The ring of a space. -/
def Memory.ring (m : Memory) : Space → List Word
  | .inMain => m.inMain
  | .inAux => m.inAux
  | .out => m.out

/-- The memory with the ring of one space replaced. -/
def Memory.setRing (m : Memory) (sp : Space) (r : List Word) : Memory :=
  match sp with
  | .inMain => { m with inMain := r }
  | .inAux => { m with inAux := r }
  | .out => { m with out := r }

/-- The canonical form: every ring is a list of exactly n words, so equal memories are equal data (log 4). -/
def Memory.wf (n : Nat) (m : Memory) : Bool :=
  m.inMain.length == n && m.inAux.length == n && m.out.length == n

/-- Every ring word `+0.0` (R45, R100). -/
def Memory.zero (n : Nat) : Memory :=
  ⟨List.replicate n 0#32, List.replicate n 0#32, List.replicate n 0#32⟩

/-- The sequencer: Idle, or FrameReady inside the TICK that reaches a hop boundary (R29). -/
inductive Seq where
  | idle | frameReady
deriving DecidableEq, Repr

/-- The state of one instance. -/
structure State where
  /-- the p of `N = 2^p`: a parameter of the instance, not architectural state; no command writes it (R9, R47, R284, log 3) -/
  logN : Nat
  /-- the rings `inMain`, `inAux`, `out` (R20 to R23) -/
  mem : Memory
  /-- the one ring index (R25) -/
  pos : Nat
  /-- the hop counter (R27) -/
  hopCount : Nat
  /-- the sequencer, Idle between commands (R29) -/
  seq : Seq
  /-- the mark that RESET was executed (R44) -/
  valid : Bool
  /-- command words presented by the host and not yet accepted, first first (30_encoding.md R70, log 1) -/
  cmds : List Word
  /-- response words produced, in the order of their commands (R70, R84, log 1) -/
  resps : List Word
deriving DecidableEq, Repr

/-- CORE raises no exception (60_exceptions.md R240), so no step ends in a fault: the type has no constructor (log 12). -/
inductive Fault where
deriving DecidableEq, Repr

/-- The model-level refusals (60_exceptions.md R243, R244): no next state, no response. Each is safe: where the spec
defines no behaviour the model proves none. -/
inductive Refusal where
  /-- raised by exec's arm of an instruction that has no meaning yet; none is left; safe -/
  | notModelled (mnemonic : String)
  /-- raised by the meaning of a first word with a reserved opcode; records the word (R81); safe -/
  | reservedOpcode (w : Word)
  /-- raised by the step on a first word with a reserved bit set; records the word (R80); safe -/
  | reservedBits (w : Word)
  /-- raised by the step on a stream that ends inside a TICK; records the words received (R245); safe -/
  | truncatedCommand (ws : List Word)
  /-- raised by every meaning of a TICK while `valid = 0` (R113); safe -/
  | tickBeforeReset
deriving DecidableEq, Repr

/-- The instance of frame size `2^p` right after RESET, its streams empty (R45, R272). -/
def State.resetOf (p : Nat) : State where
  logN := p
  mem := Memory.zero (2 ^ p)
  pos := 0
  hopCount := 0
  seq := .idle
  valid := true
  cmds := []
  resps := []

/-- The machine right after reset, at the default frame size 1024 (R9, R45, R272). -/
def State.reset : State := State.resetOf Config.defaultLogN

/-- An instance of frame size `2^p` at power-on, before the first RESET: the rings, `pos` and `hopCount` hold anything,
so they are arguments (R271, log 5). -/
def State.powerOn (p : Nat) (mem : Memory) (pos hopCount : Nat) : State where
  logN := p
  mem := mem
  pos := pos
  hopCount := hopCount
  seq := .idle
  valid := false
  cmds := []
  resps := []

end Sys2Proof.Machine
end

