-- ==== Sys2Proof/Machine/Float.lean ====
section
/-! DEFINITION. The binary32 primitives of 45_numerics.md sections 1 and 2 (R211 to R224), exact and computable.
A finite binary32 value is an integer multiple of 2^-149, the smallest subnormal: `units` is that integer. Each
rounding primitive computes its exact real result as a quotient of integers in these units and rounds it ONCE, to
nearest, ties to even (R212), by `roundMag`. Nothing is flushed to zero (R220), nothing sets a flag or traps (R224). -/

namespace Sys2Proof.Machine

/-! ## Fields of a binary32 word (R211) -/

/-- The word without its sign bit: exponent and fraction as one number. -/
def absBits (w : Word) : Nat := w.toNat % 2 ^ 31

/-- Bit 31, the sign (R211). -/
def signBit (w : Word) : Bool := w.msb

/-- The magnitude bits of an infinity (exponent all ones, fraction zero). -/
def infBits : Nat := 0x7F800000

/-- Exponent all ones and a non-zero fraction. -/
def isNaN (w : Word) : Bool := decide (infBits < absBits w)

/-- An infinity of either sign. -/
def isInf (w : Word) : Bool := decide (absBits w = infBits)

/-- Neither a NaN nor an infinity. -/
def isFinite (w : Word) : Bool := decide (absBits w < infBits)

/-- A zero of either sign. -/
def isZero (w : Word) : Bool := decide (absBits w = 0)

/-- The word with the given sign and magnitude bits. -/
def mkWord (neg : Bool) (m : Nat) : Word := BitVec.ofNat 32 (if neg then 2 ^ 31 + m else m)

/-! ## Values -/

/-- The magnitude of a finite value in units of 2^-149, from its magnitude bits (R211): exponent field 0 is a
subnormal, exponent field e > 0 has the implicit leading one and scale 2^(e-1). -/
def unitsOfBits (m : Nat) : Nat :=
  if m < 2 ^ 23 then m else (2 ^ 23 + m % 2 ^ 23) * 2 ^ (m / 2 ^ 23 - 1)

/-- The magnitude of a finite word in units of 2^-149. -/
def mag (w : Word) : Nat := unitsOfBits (absBits w)

/-- The signed value of a finite word in units of 2^-149. -/
def units (w : Word) : Int := if signBit w then -(mag w : Int) else (mag w : Int)

/-! ## Rounding (R212, R220) -/

/-- `n / d` rounded to the nearest integer, ties to even. -/
def roundEven (n d : Nat) : Nat :=
  let q := n / d
  let r := n % d
  if d < 2 * r ∨ (2 * r = d ∧ q % 2 = 1) then q + 1 else q

/-- The magnitude bits of RN32 of the value `n / d` units: 24 significant bits are kept, or all the bits above one unit
for a subnormal; past the largest finite value the result is an infinity (R212, R213, R220). -/
def roundMag (n d : Nat) : Nat :=
  let k := Nat.log2 (n / d) - 23
  min (k * 2 ^ 23 + roundEven n (d * 2 ^ k)) infBits

/-- RN32 of the value of sign `neg` and magnitude `n / d` units. -/
def rnd (neg : Bool) (n d : Nat) : Word := mkWord neg (roundMag n d)

/-- RN32 of the value `x / d` units; an exact zero is `+0.0` (00_scope.md R17). -/
def rn32 (x : Int) (d : Nat) : Word := rnd (decide (x < 0)) x.natAbs d

/-! ## Constants as bit patterns (R221) -/

def posZero : Word := 0x00000000#32
def negZero : Word := 0x80000000#32
def halfW : Word := 0x3F000000#32
def oneW : Word := 0x3F800000#32
def twoW : Word := 0x40000000#32
def threeW : Word := 0x40400000#32
/-- `G = RN32(2/3)`, the window-correction gain (R202, R221). -/
def gainW : Word := 0x3F2AAAAB#32
/-- `EPS = RN32(1e-6)` (R221). -/
def epsW : Word := 0x358637BD#32
/-- `PI_F = RN32(pi)` (R221). -/
def piW : Word := 0x40490FDB#32
/-- `TWO_PI_F = RN32(2*pi)` (R221). -/
def twoPiW : Word := 0x40C90FDB#32
/-- `PI_F / 2` (R223). -/
def halfPiW : Word := 0x3FC90FDB#32

/-! ## NaN results (R219) -/

/-- The quiet NaN whose sign and payload are the given 23 bits. -/
def quietNaN (b : BitVec 23) : Word := mkWord b.msb (0x7FC00000 + b.toNat % 2 ^ 22)

/-- A quiet NaN that the spec does not name: its sign and payload are free (R219, log 6). -/
def freeNaN (op : Config.FpOp) (a b : Word) : Word := quietNaN (Config.nanBits op a b)

/-! ## Sign operations, comparisons, selection (R216, R217, R218) -/

/-- `fneg` flips the sign bit of any bit pattern (R216). -/
def fneg (a : Word) : Word := a ^^^ 0x80000000#32

/-- `fabs` clears the sign bit of any bit pattern (R216). -/
def fabs (a : Word) : Word := a &&& 0x7FFFFFFF#32

/-- The order key of a non-NaN value: its magnitude bits with its sign; both zeros have key 0 (R217). -/
def orderKey (a : Word) : Int := if signBit a then -(absBits a : Int) else (absBits a : Int)

/-- `a < b`: the ordered comparison, false if an operand is a NaN (R217). -/
def flt (a b : Word) : Bool := !isNaN a && !isNaN b && decide (orderKey a < orderKey b)

/-- `a <= b`: the ordered comparison, false if an operand is a NaN (R217). -/
def fle (a b : Word) : Bool := !isNaN a && !isNaN b && decide (orderKey a ≤ orderKey b)

/-- `fmax(a, b) = if a < b then b else a` (R218). -/
def fmax (a b : Word) : Word := if flt a b then b else a

/-- `fmin(a, b) = if b < a then b else a` (R218). -/
def fmin (a b : Word) : Word := if flt b a then b else a

/-! ## Arithmetic (R213, R214, R215) -/

/-- The exact sum of two finite values, rounded once; a zero sum is `-0.0` only of two negative zeros (R213). -/
def addFinite (a b : Word) : Word :=
  let x := units a + units b
  if x = 0 then (if signBit a && signBit b then negZero else posZero) else rn32 x 1

/-- IEEE 754 addition (R213). -/
def fadd (a b : Word) : Word :=
  if isNaN a || isNaN b then freeNaN .add a b
  else if isInf a then (if isInf b && (signBit a != signBit b) then freeNaN .add a b else a)
  else if isInf b then b
  else addFinite a b

/-- IEEE 754 subtraction (R213): the addition of the negated operand, whose NaN is one of its own. -/
def fsub (a b : Word) : Word :=
  if isNaN a || isNaN b then freeNaN .sub a b
  else if isInf a && isInf b && (signBit a == signBit b) then freeNaN .sub a b
  else fadd a (fneg b)

/-- IEEE 754 multiplication (R213). -/
def fmul (a b : Word) : Word :=
  let s := signBit a != signBit b
  if isNaN a || isNaN b then freeNaN .mul a b
  else if isInf a || isInf b then
    (if isZero a || isZero b then freeNaN .mul a b else mkWord s infBits)
  else rnd s (mag a * mag b) (2 ^ 149)

/-- IEEE 754 division (R214). -/
def fdiv (a b : Word) : Word :=
  let s := signBit a != signBit b
  if isNaN a || isNaN b then freeNaN .div a b
  else if isInf a then (if isInf b then freeNaN .div a b else mkWord s infBits)
  else if isInf b then mkWord s 0
  else if isZero b then (if isZero a then freeNaN .div a b else mkWord s infBits)
  else rnd s (mag a * 2 ^ 149) (mag b)

/-- Digit recursion for the integer square root, `fuel` base-4 digits deep. -/
def isqrtFuel : Nat → Nat → Nat
  | 0, _ => 0
  | fuel + 1, n =>
    let r := 2 * isqrtFuel fuel (n / 4)
    if (r + 1) * (r + 1) ≤ n then r + 1 else r

/-- The integer square root: the greatest r with r*r at most n. -/
def isqrt (n : Nat) : Nat := isqrtFuel (Nat.log2 n / 2 + 1) n

/-- IEEE 754 square root, correctly rounded (R215). In units the root of M is the root of the integer M * 2^149; an
inexact root lies strictly between two integers, far from a rounding boundary, so the half between them stands for it. -/
def fsqrt (a : Word) : Word :=
  if isNaN a then freeNaN .sqrt a a
  else if isZero a then a
  else if signBit a then freeNaN .sqrt a a
  else if isInf a then a
  else
    let x := mag a * 2 ^ 149
    let r := isqrt x
    rnd false (2 * r + (if r * r = x then 0 else 1)) 2

end Sys2Proof.Machine
end

