-- ==== Sys2Proof/Machine/Trig.lean ====
section
/-! DEFINITION. Sine, cosine and arctangent as exact quotients of integers, the means by which the constant tables
(Machine/Tables.lean) and the computable instances of NUM (Machine/Transform.lean) evaluate the real functions that
spec/ names. A value is a numerator over a positive denominator; only the last step rounds (log 9, log 14). -/

namespace Sys2Proof.Machine

/-- The integer part of pi * 2^192. -/
def piNum : Nat := 19720096697726538562396133364228268891463450865190089732560

/-- The integer part of pi * 2^512, for the reduction of large arguments. -/
def piNumWide : Nat :=
  42121870893450636219446821484559388105255997313489254605594685088103805782276098919793885372247726346443771296916333485327292916625599161542353774203832599

/-- Partial sum of the exponential of i*(a/d) by Horner's rule: after `f` levels starting at divisor `k` the triple
(c, s, q) stands for `c/q + i*s/q`, each level being `1 + (i*a/(d*k)) * (the next level)`. -/
def expTurn (a : Int) (d : Nat) : Nat → Nat → Int × Int × Nat
  | 0, _ => (1, 0, 1)
  | f + 1, k =>
    let t := expTurn a d f (k + 1)
    let q := t.2.2 * d * k
    ((q : Int) - a * t.2.1, a * t.1, q)

/-- Cosine, sine and their common denominator for the angle `2*pi*r/2^p`, meant for an angle of at most an octant. -/
def octant (p r : Nat) : Int × Int × Nat :=
  expTurn (2 * piNum * r : Nat) (2 ^ 192 * 2 ^ p) 32 1

/-- The common denominator of `octant p r` for every r. -/
def turnDen (p : Nat) : Nat := (octant p 0).2.2

/-- `cos(2*pi*r/2^p)` over `turnDen p`, for a first-quadrant index r (`4*r` at most `2^p`). The cosine and the sine of
an eighth of a turn are one and the same number, and those of 0 and of a quarter turn are exact (45_numerics.md R232:
"reduced to the first octant"). -/
def cosQuadrant (p r : Nat) : Int :=
  if 8 * r < 2 ^ p then (octant p r).1
  else if 8 * r = 2 ^ p then (turnDen p * isqrt (2 ^ 511) / 2 ^ 256 : Nat)
  else (octant p (2 ^ p / 4 - r)).2.1

/-- `cos(2*pi*r/2^p)` over `turnDen p`, for every r: periodic, even, and odd about a quarter turn. -/
def cosTurn (p r : Nat) : Int :=
  let n := 2 ^ p
  let r := r % n
  let r := if n < 2 * r then n - r else r
  if n < 4 * r then -(cosQuadrant p (n / 2 - r)) else cosQuadrant p r

/-- `sin(2*pi*r/2^p)` over `turnDen p`: the cosine three quarters of a turn on. -/
def sinTurn (p r : Nat) : Int := cosTurn p (r + 3 * (2 ^ p / 4))

/-- Partial sum of the arctangent series over its first power: `f` terms from index `k` on of
`1/(2k+1) - (a/b)^2/(2k+3) + ...`, as a quotient. -/
def atanTail (a b : Nat) : Nat → Nat → Int × Nat
  | 0, _ => (0, 1)
  | f + 1, k =>
    let t := atanTail a b f (k + 1)
    ((b * b * t.2 : Nat) - ((2 * k + 1) * (a * a) : Nat) * t.1, (2 * k + 1) * (b * b) * t.2)

/-- `arctan(a/b)` by its series, meant for `2*a` at most `b`. -/
def atanSeries (a b : Nat) : Int × Nat :=
  let t := atanTail a b 48 0
  ((a : Int) * t.1, b * t.2)

/-- `arctan(a/b)` for `a` at most `b`: above one half it is `pi/4 - arctan((b-a)/(b+a))`. -/
def atanUnit (a b : Nat) : Int × Nat :=
  if 2 * a ≤ b then atanSeries a b
  else
    let t := atanSeries (b - a) (b + a)
    ((piNum * t.2 : Nat) - t.1 * (2 ^ 194 : Nat), 2 ^ 194 * t.2)

/-- The angle of a point off both axes, given by integers of one scale, as a quotient. -/
def atan2Frac (y x : Int) : Int × Nat :=
  let a := y.natAbs
  let b := x.natAbs
  let t :=
    if a ≤ b then atanUnit a b
    else
      let u := atanUnit b a
      ((piNum * u.2 : Nat) - u.1 * (2 ^ 193 : Nat), 2 ^ 193 * u.2)
  let t := if x < 0 then ((piNum * t.2 : Nat) - t.1 * (2 ^ 192 : Nat), 2 ^ 192 * t.2) else t
  (if y < 0 then -t.1 else t.1, t.2)

/-- An angle of `u` units of 2^-149, as a quotient: itself up to 8, past that less the nearest multiple of 2*pi. -/
def reduceAngle (u : Int) : Int × Nat :=
  if u.natAbs ≤ 8 * 2 ^ 149 then (u, 2 ^ 149)
  else
    let t : Int := (2 * piNumWide * 2 ^ 149 : Nat)
    let q := (2 * u * (2 ^ 512 : Nat) + t) / (2 * t)
    (u * (2 ^ 512 : Nat) - q * t, 2 ^ 661)

/-- A value rounded to binary32 and its magnitude limited to that of the word with magnitude bits `lim`. -/
def roundLimited (lim : Nat) (n : Int) (d : Nat) : Word :=
  let w := rn32 (n * (2 ^ 149 : Nat)) d
  mkWord (signBit w) (min (absBits w) lim)

end Sys2Proof.Machine
end

