-- ==== Sys2Proof/Machine/Tables.lean ====
section
/-! DEFINITION. The constant tables of CORE as functions of the frame size `2^p` and the index: the window `W`
(41_frame_window.md R123 to R125), the crossfade weights `BLEND` (10_state.md R31), the phase ramp `RAMP` (R32), and the
twiddle table of the reference transform (42_transform.md R151). No command writes them (20_memory.md R65); each entry
is one rounding of its real value (log 9). -/

namespace Sys2Proof.Machine

/-- The frame size `N = 2^p` (00_scope.md R9). -/
def frameSize (p : Nat) : Nat := 2 ^ p

/-- `hopSize = N / overlapFactor` (R10). -/
def hopSizeOf (p : Nat) : Nat := frameSize p / Config.overlapFactor

/-- `numBins = N/2 + 1` (R11). -/
def numBinsOf (p : Nat) : Nat := frameSize p / 2 + 1

/-- `W[n] = RN32(0.5 - 0.5*cos(2*pi*n/N))` (R125). -/
def window (p n : Nat) : Word :=
  rn32 (((turnDen p : Int) - cosTurn p n) * (2 ^ 149 : Nat)) (2 * turnDen p)

/-- `BLEND[i] = RN32(2*i/N)` (R31). -/
def blend (p i : Nat) : Word := rn32 ((2 * i * 2 ^ 149 : Nat) : Int) (frameSize p)

/-- `RAMP[i] = RN32(pi*(4*i - N)/N)` (R32). -/
def ramp (p i : Nat) : Word :=
  rn32 (((4 * i : Nat) - (frameSize p : Int)) * (piNum * 2 ^ 149 : Nat)) (2 ^ 192 * frameSize p)

/-- `TW[t] = (RN32(cos(2*pi*t/N)), RN32(-sin(2*pi*t/N)))`, exact zeros as `+0.0` (R151). -/
def twiddle (p t : Nat) : Bin where
  re := rn32 (cosTurn p t * (2 ^ 149 : Nat)) (turnDen p)
  im := rn32 (-(sinTurn p t) * (2 ^ 149 : Nat)) (turnDen p)

end Sys2Proof.Machine
end

