-- ==== Sys2Proof/Machine/Ops.lean ====
section
/-! DEFINITION. The named operations on the state: one word of a ring read or written (00_scope.md R16), the steps of a
TICK outside FRAME (40_host_commands.md R104 to R108), the entry into FrameReady and the return from it, which is the one
event of this hardware and stands where taking an exception and returning from one stand (60_exceptions.md R249, R250),
the response, and the fetch of a command. -/

namespace Sys2Proof.Machine

/-! ## Parameters of the instance -/

/-- `N` of the instance (R9). -/
def State.frameSize (s : State) : Nat := Machine.frameSize s.logN

/-- `hopSize` of the instance (R10). -/
def State.hopSize (s : State) : Nat := hopSizeOf s.logN

/-! ## Ring accesses (R16, 20_memory.md R52) -/

/-- `MemRead(space, i)`: one whole word. -/
def memRead (sp : Space) (i : Nat) (s : State) : Word := (s.mem.ring sp).getD i 0#32

/-- `MemWrite(space, i, v)`: one whole word, bit for bit. -/
def memWrite (sp : Space) (i : Nat) (v : Word) (s : State) : State :=
  { s with mem := s.mem.setRing sp ((s.mem.ring sp).set i v) }

/-- The effective index of chronological sample k: `EA(k) = (pos + k) mod N` (R56, R57). -/
def rotatedIndex (s : State) (k : Nat) : Nat := (s.pos + k) % s.frameSize

/-! ## The steps of a TICK (R104 to R108) -/

/-- The input write: both samples at `pos`, bit for bit (R104). -/
def inputWrite (main aux : Word) (s : State) : State :=
  memWrite .inAux s.pos aux (memWrite .inMain s.pos main s)

/-- The output read: the word at `pos` of the output ring (R105). -/
def outputRead (s : State) : Word := memRead .out s.pos s

/-- The zeroing of the slot just read (R106). -/
def outputZero (s : State) : State := memWrite .out s.pos 0#32 s

/-- The position advance (R107). -/
def advancePos (s : State) : State := { s with pos := (s.pos + 1) % s.frameSize }

/-- The hop increment (R108). -/
def countHop (s : State) : State := { s with hopCount := s.hopCount + 1 }

/-! ## The hop boundary (60_exceptions.md R249, R250) -/

/-- Entry into FrameReady: nothing is saved; the sequencer changes (R249). -/
def enterFrameReady (s : State) : State := { s with seq := .frameReady }

/-- Return from FrameReady: the hop counter is cleared, the sequencer is Idle again, nothing is restored (R250). -/
def returnIdle (s : State) : State := { s with hopCount := 0, seq := .idle }

/-! ## Responses (30_encoding.md R84) -/

/-- One response word, after those of the commands before. -/
def respond (w : Word) (s : State) : State := { s with resps := s.resps ++ [w] }

/-! ## RESET (R100) -/

/-- RESET: zero the rings, the position and the hop counter, Idle, valid. -/
def resetState (s : State) : State :=
  { s with mem := Memory.zero s.frameSize, pos := 0, hopCount := 0, seq := .idle, valid := true }

/-! ## Fetch (R70, R74) -/

/-- The next command of the stream and the state with its words accepted. -/
def fetch (s : State) : Except DecodeError (Instr × State) :=
  match decode s.cmds with
  | .ok (i, rest) => .ok (i, { s with cmds := rest })
  | .error e => .error e

end Sys2Proof.Machine
end

