-- ==== Sys2Proof/Machine/Flags.lean ====
section
/-! DEFINITION. CORE has no status flags, condition codes or sticky bits (10_state.md R43) and its primitives raise none
(45_numerics.md R224). "The only condition the block evaluates is `hopCount = hopSize`, inside TICK": this one. -/

namespace Sys2Proof.Machine

/-- The hop test: equality of the incremented counter with `hopSize` (40_host_commands.md R108). -/
def hopDue (s : State) : Bool := s.hopCount == s.hopSize

end Sys2Proof.Machine
end

