-- ==== Sys2Proof/Machine/Magnitude.lean ====
section
/-! DEFINITION. The magnitude strategies of 43_morph.md R164 to R170 and their selection (R163), every formula as the
sequence of binary32 primitives the rule writes, `om = fsub(1.0, m)` computed once. -/

namespace Sys2Proof.Machine

/-- `om = fsub(1.0, m)`, the weight of the aux term. -/
def oneMinus (m : Word) : Word := fsub oneW m

/-- MAG.add (R164). -/
def magAdd (m magA magB : Word) : Word := fadd (fmul m magA) (fmul (oneMinus m) magB)

/-- MAG.subtract (R165). -/
def magSubtract (m magA magB : Word) : Word := fabs (fsub (fmul m magA) (fmul (oneMinus m) magB))

/-- MAG.multiply (R166). -/
def magMultiply (m magA magB : Word) : Word :=
  fdiv (fabs (fmul (fmul m magA) (fmul (oneMinus m) magB))) (fmax (fmul magA magB) oneW)

/-- MAG.divide (R167). -/
def magDivide (m magA magB : Word) : Word :=
  fmin (fdiv (fmul m magA) (fmax (fmul (oneMinus m) magB) epsW)) oneW

/-- MAG.linearBlend with the crossfade weight b of the bin (R168). -/
def magLinearBlend (b magA magB : Word) : Word := fadd (fmul b magB) (fmul (fsub oneW b) magA)

/-- MAG.allPass (R169). -/
def magAllPass (magA : Word) : Word := magA

/-- MAG out of range (R170). -/
def magOutOfRange (magA : Word) : Word := magA

/-- `MAG[sel](i, magA, magB, m)` for the frame size `2^p` (R163). -/
def magnitude (p i : Nat) (sel : BitVec 8) (m magA magB : Word) : Word :=
  match sel.toNat with
  | 0 => magAdd m magA magB
  | 1 => magSubtract m magA magB
  | 2 => magMultiply m magA magB
  | 3 => magDivide m magA magB
  | 4 => magLinearBlend (blend p i) magA magB
  | 5 => magAllPass magA
  | _ => magOutOfRange magA

end Sys2Proof.Machine
end

