-- ==== Sys2Proof/Machine/Phase.lean ====
section
/-! DEFINITION. The phase strategies of 43_morph.md R171 to R177, their selection (R163), the invert-phase pass (R178)
and the wrap function (R180). -/

namespace Sys2Proof.Machine

/-- `wrap(phi)` (R180): exact arithmetic on the binary32 values, one rounding, the result limited to [-PI_F, PI_F]. -/
def wrap (phi : Word) : Word :=
  if isNaN phi || isInf phi then freeNaN .wrap phi phi
  else if fle (fneg piW) phi && fle phi piW then phi
  else
    let q := (units phi + units piW) / units twoPiW
    let r := rn32 (units phi - q * units twoPiW) 1
    if flt piW r then piW else if flt r (fneg piW) then fneg piW else r

/-- PH.add (R171): not wrapped. -/
def phAdd (m phA phB : Word) : Word := fadd (fmul m phA) (fmul (oneMinus m) phB)

/-- PH.linear with the ramp value r of the bin (R172). -/
def phLinear (r : Word) : Word := wrap r

/-- PH.linearNatural with the ramp value r of the bin (R173). -/
def phLinearNatural (r m phA phB : Word) : Word :=
  wrap (fadd (fmul m (fmul (fadd phA phB) halfW)) (fmul (oneMinus m) r))

/-- The cubic weight `c = 3m^2 - 2m^3` of PH.smoothStep (R174). -/
def smoothWeight (m : Word) : Word := fsub (fmul threeW (fmul m m)) (fmul twoW (fmul (fmul m m) m))

/-- PH.smoothStep (R174): not wrapped. -/
def phSmoothStep (m phA phB : Word) : Word :=
  fadd (fmul (smoothWeight m) phA) (fmul (fsub oneW (smoothWeight m)) phB)

/-- PH.preserveMainIn (R175). -/
def phPreserveMainIn (phA : Word) : Word := phA

/-- PH.preserveAuxIn (R176). -/
def phPreserveAuxIn (phB : Word) : Word := phB

/-- PH out of range (R177). -/
def phOutOfRange (phA : Word) : Word := phA

/-- `PH[sel](i, phA, phB, m)` for the frame size `2^p` (R163). -/
def phase (p i : Nat) (sel : BitVec 8) (m phA phB : Word) : Word :=
  match sel.toNat with
  | 0 => phAdd m phA phB
  | 1 => phLinear (ramp p i)
  | 2 => phLinearNatural (ramp p i) m phA phB
  | 3 => phSmoothStep m phA phB
  | 4 => phPreserveMainIn phA
  | 5 => phPreserveAuxIn phB
  | _ => phOutOfRange phA

/-- The invert-phase pass, after the strategy and before reconstruction (R178). -/
def invertPhase (on : Bool) (ph : Word) : Word := if on then fneg ph else ph

end Sys2Proof.Machine
end

