-- ==== Sys2Proof/Machine/Transform.lean ====
section
/-! DEFINITION. The numerics record NUM as a type (45_numerics.md R230), the transforms of the radix-2 butterfly network
(R233, 42_transform.md R149 to R151), and `numSeries`, a computable stand-in for NUM_IDEAL in the manner of the spec's
reference program (R232). NUM_IDEAL and NUM_RADIX2 themselves, which take real sines and cosines, are in
Machine/NamedNumerics.lean. The machine itself runs with the open `Config.num`. -/

namespace Sys2Proof.Machine

/-- NUM: the five functions the spec does not fix to the bit (R230). The transforms take the p of `N = 2^p`; a frame is
N words (R33), a spectrum `N/2 + 1` bins (R34). Each is a function of its arguments alone (P1, R147). -/
structure Numerics where
  /-- forward real transform, a frame to a spectrum (R140) -/
  rfft : Nat → List Word → List Bin
  /-- inverse real transform, a spectrum to a frame (R143) -/
  irfft : Nat → List Bin → List Word
  /-- sine (R222) -/
  fsin : Word → Word
  /-- cosine (R222) -/
  fcos : Word → Word
  /-- `fatan2 y x`, the angle of the point (x, y) (R223) -/
  fatan2 : Word → Word → Word

/-- Element i of a frame; a frame has no element past its end, which no rule reads (R53). -/
def frameAt (x : List Word) (i : Nat) : Word := x.getD i posZero

/-- Bin i of a spectrum. -/
def binAt (x : List Bin) (i : Nat) : Bin := x.getD i ⟨posZero, posZero⟩

/-- The NaN that `numSeries` returns; the open NUM promises only some NaN (R222, R223, P4). -/
def defaultNaN : Word := 0x7FC00000#32

/-! ## The computable stand-in for NUM_IDEAL

Each output is a quotient of integers near the real value, rounded once: "the reference program evaluates the real-arithmetic
result in binary64 ... this decides the binary32 rounding in all but vanishingly rare cases" (R232, log 14). -/

/-- Real part of forward bin k, before rounding, over `turnDen p` (R141). -/
def seriesRe (p : Nat) (x : List Word) (k : Nat) : Int :=
  ((List.range (frameSize p)).map fun n => units (frameAt x n) * cosTurn p (k * n)).sum

/-- Imaginary part of forward bin k, before rounding, over `turnDen p` (R141). -/
def seriesIm (p : Nat) (x : List Word) (k : Nat) : Int :=
  -((List.range (frameSize p)).map fun n => units (frameAt x n) * sinTurn p (k * n)).sum

/-- The forward transform; of a frame that is not finite, NaNs (P4 promises nothing there). -/
def seriesRfft (p : Nat) (x : List Word) : List Bin :=
  (List.range (numBinsOf p)).map fun k =>
    if x.all isFinite then ⟨rn32 (seriesRe p x k) (turnDen p), rn32 (seriesIm p x k) (turnDen p)⟩
    else ⟨defaultNaN, defaultNaN⟩

/-- Sample n of the inverse transform, before rounding, over `N * turnDen p` (R144): the imaginary parts of bin 0 and of
bin N/2 do not enter (R145). -/
def seriesSample (p : Nat) (s : List Bin) (n : Nat) : Int :=
  let h := frameSize p / 2
  let ends := units (binAt s 0).re + (if n % 2 = 0 then 1 else -1) * units (binAt s h).re
  ends * (turnDen p : Int) +
    2 * ((List.range (h - 1)).map fun j =>
      units (binAt s (j + 1)).re * cosTurn p ((j + 1) * n) - units (binAt s (j + 1)).im * sinTurn p ((j + 1) * n)).sum

/-- The inverse transform. -/
def seriesIrfft (p : Nat) (s : List Bin) : List Word :=
  (List.range (frameSize p)).map fun n =>
    if s.all (fun b => isFinite b.re && isFinite b.im) then
      rn32 (seriesSample p s n) (frameSize p * turnDen p)
    else defaultNaN

/-- The sine (R222). -/
def seriesSin (a : Word) : Word :=
  if isFinite a then
    (if isZero a then a
     else
      let u := reduceAngle (units a)
      let t := expTurn u.1 u.2 64 1
      roundLimited (absBits oneW) t.2.1 t.2.2)
  else defaultNaN

/-- The cosine (R222). -/
def seriesCos (a : Word) : Word :=
  if isFinite a then
    (if isZero a then oneW
     else
      let u := reduceAngle (units a)
      let t := expTurn u.1 u.2 64 1
      roundLimited (absBits oneW) t.1 t.2.2)
  else defaultNaN

/-- The arctangent (R223): the axis values by the sign rules of the zeros, the limits of the C function for infinite
operands (DEDUCED, log 13), elsewhere the angle rounded once and limited to PI_F in magnitude. -/
def seriesAtan2 (y x : Word) : Word :=
  let s := signBit y
  if isNaN y || isNaN x then defaultNaN
  else if isZero y then (if signBit x then mkWord s (absBits piW) else y)
  else if isZero x then mkWord s (absBits halfPiW)
  else if isInf y then
    (if isInf x then mkWord s (if signBit x then 0x4016CBE4 else 0x3F490FDB) else mkWord s (absBits halfPiW))
  else if isInf x then (if signBit x then mkWord s (absBits piW) else mkWord s 0)
  else
    let t := atan2Frac (units y) (units x)
    roundLimited (absBits piW) t.1 t.2

/-- The computable stand-in for NUM_IDEAL (log 14). -/
def numSeries : Numerics where
  rfft := seriesRfft
  irfft := seriesIrfft
  fsin := seriesSin
  fcos := seriesCos
  fatan2 := seriesAtan2

/-! ## The transforms of NUM_RADIX2 (R149 to R151, R233) -/

/-- `rev_p(i)`: the p-bit number whose bits are those of i in reverse order (R149). -/
def bitReverse : Nat → Nat → Nat
  | 0, _ => 0
  | p + 1, i => (i % 2) * 2 ^ p + bitReverse p (i / 2)

/-- One butterfly on elements `start + j` and `start + j + half`, every operation one binary32 primitive (R149). -/
def butterfly (p : Nat) (inverse : Bool) (half start j : Nat) (v : List Bin) : List Bin :=
  let w := twiddle p (j * (frameSize p / (2 * half)))
  let ti := if inverse then fneg w.im else w.im
  let va := binAt v (start + j)
  let vb := binAt v (start + j + half)
  let pr := fsub (fmul vb.re w.re) (fmul vb.im ti)
  let pm := fadd (fmul vb.re ti) (fmul vb.im w.re)
  (v.set (start + j + half) ⟨fsub va.re pr, fsub va.im pm⟩).set (start + j) ⟨fadd va.re pr, fadd va.im pm⟩

/-- The butterfly stage with the given half size: every group, every butterfly of the group (R149). -/
def butterflyStage (p : Nat) (inverse : Bool) (half : Nat) (v : List Bin) : List Bin :=
  (List.range (frameSize p / (2 * half))).foldl (fun v g =>
    (List.range half).foldl (fun v j => butterfly p inverse half (2 * half * g) j v) v) v

/-- `CFFT`: the bit-reversal permutation, then p stages with half sizes 1, 2, 4, ... (R149). -/
def cfft (p : Nat) (inverse : Bool) (v : List Bin) : List Bin :=
  (List.range p).foldl (fun v s => butterflyStage p inverse (2 ^ s) v)
    ((List.range (frameSize p)).map fun i => binAt v (bitReverse p i))

/-- The forward real wrapper (R150). -/
def radix2Rfft (p : Nat) (x : List Word) : List Bin :=
  (cfft p false ((List.range (frameSize p)).map fun n => ⟨frameAt x n, posZero⟩)).take (numBinsOf p)

/-- `INV_N = RN32(1/N)`, exact (R150). -/
def invFrameSize (p : Nat) : Word := rn32 ((2 ^ 149 : Nat) : Int) (frameSize p)

/-- The inverse real wrapper: the conjugate extension, the inverse transform, the scale (R150). -/
def radix2Irfft (p : Nat) (s : List Bin) : List Word :=
  let full := (List.range (frameSize p)).map fun k =>
    if k ≤ frameSize p / 2 then binAt s k
    else
      let b := binAt s (frameSize p - k)
      ⟨b.re, fneg b.im⟩
  (cfft p true full).map fun b => fmul b.re (invFrameSize p)

end Sys2Proof.Machine
end

