-- ==== Sys2Proof/Machine/Morph.lean ====
section
/-! DEFINITION. The spectral morph engine (43_morph.md R160 to R163, R178, R179): bin by bin, to polar form, one magnitude
and one phase strategy, the invert-phase pass, back to rectangular form. -/

namespace Sys2Proof.Machine

/-- The magnitude and the phase of a bin. -/
structure Polar where
  mag : Word
  ph : Word
deriving DecidableEq, Repr

/-- `POLAR(re, im)` (R162). -/
def polar (num : Numerics) (b : Bin) : Polar :=
  ⟨fsqrt (fadd (fmul b.re b.re) (fmul b.im b.im)), num.fatan2 b.im b.re⟩

/-- Reconstruction, polar to rectangular (R179). -/
def rectangular (num : Numerics) (q : Polar) : Bin :=
  ⟨fmul q.mag (num.fcos q.ph), fmul q.mag (num.fsin q.ph)⟩

/-- The polar result of bin i: magnitude strategy, phase strategy, invert phase (R160). -/
def morphPolar (p i : Nat) (a b : Polar) (cfg : Cfg) : Polar :=
  ⟨magnitude p i cfg.msel cfg.m a.mag b.mag, invertPhase cfg.invph (phase p i cfg.psel cfg.m a.ph b.ph)⟩

/-- `MORPH_BIN(i, XM[i], XA[i], cfg)` (R160). -/
def morphBin (num : Numerics) (p i : Nat) (a b : Bin) (cfg : Cfg) : Bin :=
  rectangular num (morphPolar p i (polar num a) (polar num b) cfg)

/-- The morphed spectrum: every bin 0..N/2 with the same configuration (R161, R187). -/
def morph (num : Numerics) (p : Nat) (xm xa : List Bin) (cfg : Cfg) : List Bin :=
  (List.range (numBinsOf p)).map fun i => morphBin num p i (binAt xm i) (binAt xa i) cfg

end Sys2Proof.Machine
end

