-- ==== Sys2Proof/Machine/Frame.lean ====
section
/-! DEFINITION. FRAME, the operation a TICK runs at a hop boundary (41_frame_window.md R120): assemble (R121), window
(R126), transform, morph and inverse transform or the bypass path (44_overlap_add.md R204), then window, gain and
overlap-add (R201 to R203). It writes `out` only. -/

namespace Sys2Proof.Machine

/-- The chronologically ordered frame of a ring, oldest sample first (R121). -/
def assemble (sp : Space) (s : State) : List Word :=
  (List.range s.frameSize).map fun k => memRead sp (rotatedIndex s k) s

/-- A frame times the window, element by element (R126). -/
def windowed (p : Nat) (x : List Word) : List Word :=
  (List.range (frameSize p)).map fun k => fmul (frameAt x k) (window p k)

/-- The spectral path: forward transforms, morph, inverse transform (R120 stages 2 to 4). -/
def spectralPath (num : Numerics) (p : Nat) (cfg : Cfg) (fm fa : List Word) : List Word :=
  num.irfft p (morph num p (num.rfft p fm) (num.rfft p fa) cfg)

/-- The resynthesised frame `y`: the windowed main frame on the bypass path, else the spectral path (R120, R204). -/
def resynthesised (num : Numerics) (p : Nat) (cfg : Cfg) (fm fa : List Word) : List Word :=
  if cfg.byp then fm else spectralPath num p cfg fm fa

/-- `c[k] = fmul(fmul(y[k], W[k]), G)`: window first, then gain (R203). -/
def contribution (p : Nat) (y : List Word) (k : Nat) : Word := fmul (fmul (frameAt y k) (window p k)) gainW

/-- The chronological number k of ring element e, the inverse of `e = (pos + k) mod N` (R57). -/
def chronological (s : State) (e : Nat) : Nat := (e + (s.frameSize - s.pos)) % s.frameSize

/-- The word of ring element e after the overlap-add (R203). -/
def overlapAddAt (y : List Word) (s : State) (e : Nat) : Word :=
  fadd (memRead .out e s) (contribution s.logN y (chronological s e))

/-- The overlap-add: for every k, `out[(pos + k) mod N] <- fadd(out[(pos + k) mod N], c[k])` (R203), written by ring
element, since the N read-modify-writes touch N different words and their order is not observable (R57). -/
def overlapAdd (y : List Word) (s : State) : State :=
  { s with mem := s.mem.setRing .out ((List.range s.frameSize).map (overlapAddAt y s)) }

/-- FRAME(cfg), with `pos` already advanced (R120). -/
def frame (num : Numerics) (cfg : Cfg) (s : State) : State :=
  overlapAdd (resynthesised num s.logN cfg
    (windowed s.logN (assemble .inMain s)) (windowed s.logN (assemble .inAux s))) s

end Sys2Proof.Machine
end

