-- ==== Sys2Proof/Machine/NumSpec.lean ====
section
/-! DEFINITION. What the spec promises of NUM, over the real numbers: the value of a word and RN32 of a real number
(00_scope.md R17, 45_numerics.md R211, R212), the transforms in real arithmetic (42_transform.md R141, R144), the
tolerances, and the properties P1 to P6 of 45_numerics.md R231 as `Numerics.Admissible`. Nothing here runs. -/

namespace Sys2Proof.Machine

open Finset

/-! ## Words and real numbers -/

/-- The real value of a finite word (R211). -/
noncomputable def toReal (w : Word) : ℝ := (units w : ℝ) / 2 ^ 149

/-- A real number that is not negative, rounded to the nearest integer, ties to even. -/
noncomputable def roundEvenReal (y : ℝ) : Nat :=
  let q := ⌊y⌋₊
  open Classical in if 1 / 2 < y - q ∨ (y - q = 1 / 2 ∧ q % 2 = 1) then q + 1 else q

/-- The magnitude bits of RN32 of a real number of `m` units of 2^-149, in the manner of `roundMag` (R212, R213, R220). -/
noncomputable def roundMagReal (m : ℝ) : Nat :=
  let k := Nat.log2 ⌊m⌋₊ - 23
  min (k * 2 ^ 23 + roundEvenReal (m / 2 ^ k)) infBits

/-- `RN32(v)` of a real number: "the real number `x` rounded to binary32, to nearest, ties to even" (R17); zero gives
`+0.0`. The spec names no sign where a number that is not zero rounds to zero: the sign of the number is kept, so that a
small negative one gives `-0.0` (DESIGN CHOICE, log 21). `rn32` is this on the quotients that the machine rounds. -/
noncomputable def rnReal (v : ℝ) : Word :=
  open Classical in mkWord (decide (v < 0)) (roundMagReal (|v| * 2 ^ 149))

/-- The magnitude from which on RN32 gives an infinity: half a step past the largest finite value (R213). -/
noncomputable def overflowBound : ℝ := (2 ^ 25 - 1) * 2 ^ 103

/-- `r` is the exact real result `v` rounded once (R212, R213): below the bound of overflow it is finite, no finite value
is nearer, and of two at the same distance it is the one with an even magnitude; from the bound on it is an infinity of
the result's sign. The sign of a zero is a matter of the operation. -/
def IsRounded (r : Word) (v : ℝ) : Prop :=
  (|v| < overflowBound → isFinite r = true ∧
    ∀ w : Word, isFinite w = true → |toReal r - v| ≤ |toReal w - v| ∧
      (|toReal r - v| = |toReal w - v| → absBits w = absBits r ∨ absBits r % 2 = 0)) ∧
  (overflowBound ≤ |v| → isInf r = true ∧ (signBit r = true ↔ v < 0))

/-! ## The transforms in real arithmetic -/

/-- The angle `2*pi*r/N` for `N = 2^p`. -/
noncomputable def turnAngle (p r : Nat) : ℝ := 2 * Real.pi * r / 2 ^ p

/-- `re X[k]` of a real frame in real arithmetic (R141). -/
noncomputable def realRfftRe (p : Nat) (x : Nat → ℝ) (k : Nat) : ℝ :=
  ∑ n ∈ range (frameSize p), x n * Real.cos (turnAngle p (k * n))

/-- `im X[k]` of a real frame in real arithmetic (R141). -/
noncomputable def realRfftIm (p : Nat) (x : Nat → ℝ) (k : Nat) : ℝ :=
  -∑ n ∈ range (frameSize p), x n * Real.sin (turnAngle p (k * n))

/-- `y[n]` of a spectrum of real and imaginary parts in real arithmetic: scale 1/N, the imaginary parts of bins 0 and N/2
absent (R144, R145). -/
noncomputable def realIrfft (p : Nat) (re im : Nat → ℝ) (n : Nat) : ℝ :=
  (re 0 + (-1) ^ n * re (frameSize p / 2) +
    2 * ∑ j ∈ range (frameSize p / 2 - 1),
      (re (j + 1) * Real.cos (turnAngle p ((j + 1) * n)) - im (j + 1) * Real.sin (turnAngle p ((j + 1) * n)))) /
    frameSize p

/-- `re X[k]` of a frame of words in real arithmetic (R141). -/
noncomputable def dftRe (p : Nat) (x : List Word) (k : Nat) : ℝ := realRfftRe p (fun n => toReal (frameAt x n)) k

/-- `im X[k]` of a frame of words in real arithmetic (R141). -/
noncomputable def dftIm (p : Nat) (x : List Word) (k : Nat) : ℝ := realRfftIm p (fun n => toReal (frameAt x n)) k

/-- `y[n]` of a spectrum of words in real arithmetic (R144, R145). -/
noncomputable def idft (p : Nat) (s : List Bin) (n : Nat) : ℝ :=
  realIrfft p (fun k => toReal (binAt s k).re) (fun k => toReal (binAt s k).im) n

/-- `L1(x)`, the sum of the magnitudes of a frame (R148). -/
noncomputable def l1Frame (p : Nat) (x : List Word) : ℝ :=
  ∑ n ∈ range (frameSize p), |toReal (frameAt x n)|

/-- `L1(X)`, the sum of the magnitudes of the components of a spectrum (R148). -/
noncomputable def l1Spectrum (p : Nat) (s : List Bin) : ℝ :=
  ∑ k ∈ range (numBinsOf p), (|toReal (binAt s k).re| + |toReal (binAt s k).im|)

/-! ## The angle of a point -/

/-- The angle of the point (x, y) for operands that are no NaN and no zero (R223): of a finite point its argument, of an
infinite one the limit that the C library function `atan2` takes, whose conventions R223 says these are (log 13). -/
noncomputable def pointAngle (y x : Word) : ℝ :=
  let side : ℝ := if signBit y then -1 else 1
  if isInf y then
    side * (if isInf x then (if signBit x then 3 * Real.pi / 4 else Real.pi / 4) else Real.pi / 2)
  else if isInf x then side * (if signBit x then Real.pi else 0)
  else Complex.arg ⟨toReal x, toReal y⟩

/-! ## The tolerances, parameters of an instance -/

/-- `TOL_FFT` and `TOL_TRIG`, positive real parameters of an instance (R231, 92_eei_decisions.md D12). -/
structure Tolerances where
  fft : ℝ
  trig : ℝ
  fft_pos : 0 < fft
  trig_pos : 0 < trig

/-- The default of `TOL_FFT` (R231). -/
noncomputable def defaultTolFft : ℝ := 1 / 2 ^ Config.defaultTolFftExp

/-- The default of `TOL_TRIG` (R231). -/
noncomputable def defaultTolTrig : ℝ := 1 / 2 ^ Config.defaultTolTrigExp

/-- The default tolerances (R231). -/
noncomputable def Tolerances.default : Tolerances where
  fft := defaultTolFft
  trig := defaultTolTrig
  fft_pos := by unfold defaultTolFft; positivity
  trig_pos := by unfold defaultTolTrig; positivity

/-- A word is finite and no farther than `bound` from the real number `v`: P3 of one component or sample (R148). -/
def Within (w : Word) (v bound : ℝ) : Prop := isFinite w ∧ |toReal w - v| ≤ bound

/-- P3 of one component or sample, as the model asks it of NUM: within the bound of R148, or the very word of a named instance
there, `rnReal v` of NUM_IDEAL or `r` of NUM_RADIX2, and that one within `slack`. The second case is there because R148 calls
the two instances admissible, and near the subnormals no record of functions on binary32 meets the bound (DEDUCED, log 8). -/
def Close (w r : Word) (v bound slack : ℝ) : Prop :=
  Within w v bound ∨ (w = rnReal v ∨ w = r) ∧ Within w v slack

/-- `TOL_FFT * L1(x)`, the bound of P3 on a forward component (R148). -/
noncomputable def forwardLetter (p : Nat) (tol : Tolerances) (x : List Word) : ℝ := tol.fft * l1Frame p x

/-- `TOL_FFT * (2/N) * L1(X)`, the bound of P3 on an inverse sample (R148). -/
noncomputable def inverseLetter (p : Nat) (tol : Tolerances) (s : List Bin) : ℝ := tol.fft * (2 / frameSize p) * l1Spectrum p s

/-- How far from the exact value a forward component of a named instance may be where it is not within the bound: 8 units of
2^-149 a sample (DEDUCED, log 8). -/
noncomputable def forwardSlack (p : Nat) : ℝ := 8 * frameSize p / 2 ^ 149

/-- How far from the exact value an inverse sample of a named instance may be where it is not within the bound: 8 units of
2^-149 (DEDUCED, log 8). -/
noncomputable def inverseSlack : ℝ := 8 / 2 ^ 149

/-- The distance that no forward component exceeds under P3. -/
noncomputable def forwardBound (p : Nat) (tol : Tolerances) (x : List Word) : ℝ := max (forwardLetter p tol x) (forwardSlack p)

/-- The distance that no finite inverse sample exceeds under P3. -/
noncomputable def inverseBound (p : Nat) (tol : Tolerances) (s : List Bin) : ℝ := max (inverseLetter p tol s) inverseSlack

/-- The frames that P3 speaks of: "finite inputs whose real-arithmetic results are all below 2^127 in magnitude" (R148). -/
def ForwardRange (p : Nat) (x : List Word) : Prop :=
  x.length = frameSize p ∧ (∀ w ∈ x, isFinite w) ∧ ∀ k < numBinsOf p, |dftRe p x k| < 2 ^ 127 ∧ |dftIm p x k| < 2 ^ 127

/-! ## The properties P1 to P6 -/

/-- A bin with both components finite. -/
def binFinite (b : Bin) : Bool := Machine.isFinite b.re && Machine.isFinite b.im

/-- A bin with both components a zero of either sign. -/
def binZero (b : Bin) : Bool := Machine.isZero b.re && Machine.isZero b.im

/-- The spectra that P3 speaks of: "finite inputs whose real-arithmetic results are all below 2^127 in magnitude" (R148). -/
def InverseRange (p : Nat) (s : List Bin) : Prop :=
  s.length = numBinsOf p ∧ (∀ b ∈ s, binFinite b) ∧ ∀ n < frameSize p, |idft p s n| < 2 ^ 127

/-- P3 to the letter of a forward transform, on one frame (R148). -/
def Numerics.MeetsForward (num : Numerics) (p : Nat) (tol : Tolerances) (x : List Word) : Prop :=
  ∀ k < numBinsOf p, Within (binAt (num.rfft p x) k).re (dftRe p x k) (forwardLetter p tol x) ∧
    Within (binAt (num.rfft p x) k).im (dftIm p x k) (forwardLetter p tol x)

/-- P3 to the letter of an inverse transform, on one sample of one spectrum (R148). -/
def Numerics.MeetsInverse (num : Numerics) (p : Nat) (tol : Tolerances) (s : List Bin) (n : Nat) : Prop :=
  Within (frameAt (num.irfft p s) n) (idft p s n) (inverseLetter p tol s)

/-- The properties every admissible NUM of an instance with frame size `2^p` and the tolerances `tol` has, and the only ones
a proof may assume of the open one (R231). P1 holds of any record of functions; P4 promises nothing. -/
structure Numerics.Admissible (num : Numerics) (p : Nat) (tol : Tolerances) : Prop where
  /-- a spectrum has numBins bins (R140) -/
  rfft_length : ∀ x, (num.rfft p x).length = numBinsOf p
  /-- a frame has N samples (R143) -/
  irfft_length : ∀ s, (num.irfft p s).length = frameSize p
  /-- P2, forward: zeros of either sign give zeros of either sign -/
  rfft_zero : ∀ x, (∀ w ∈ x, isZero w) → ∀ b ∈ num.rfft p x, binZero b
  /-- P2, inverse -/
  irfft_zero : ∀ s, (∀ b ∈ s, binZero b) → ∀ w ∈ num.irfft p s, isZero w
  /-- P3, forward -/
  rfft_close : ∀ x, ForwardRange p x → ∀ k < numBinsOf p,
    Close (binAt (num.rfft p x) k).re (binAt (radix2Rfft p x) k).re (dftRe p x k) (forwardLetter p tol x) (forwardSlack p) ∧
    Close (binAt (num.rfft p x) k).im (binAt (radix2Rfft p x) k).im (dftIm p x k) (forwardLetter p tol x) (forwardSlack p)
  /-- P3, inverse; where a sample of NUM_RADIX2, which sums before it scales, overflows, that word is admitted too (log 20) -/
  irfft_close : ∀ s, InverseRange p s → ∀ n < frameSize p,
    Close (frameAt (num.irfft p s) n) (frameAt (radix2Irfft p s) n) (idft p s n) (inverseLetter p tol s) inverseSlack ∨
    isFinite (frameAt (radix2Irfft p s) n) = false ∧ frameAt (num.irfft p s) n = frameAt (radix2Irfft p s) n
  /-- P5: `fsin(±0) = ±0` (R222) -/
  fsin_zero : ∀ a, isZero a → num.fsin a = a
  /-- P5: `fcos(±0) = 1.0` (R222) -/
  fcos_zero : ∀ a, isZero a → num.fcos a = oneW
  /-- P5: results in [-1, 1] (R222) -/
  fsin_range : ∀ a, isFinite a → absBits (num.fsin a) ≤ absBits oneW
  fcos_range : ∀ a, isFinite a → absBits (num.fcos a) ≤ absBits oneW
  /-- P5: NaN for NaN or infinite arguments (R222) -/
  fsin_nonfinite : ∀ a, isFinite a = false → isNaN (num.fsin a)
  fcos_nonfinite : ∀ a, isFinite a = false → isNaN (num.fcos a)
  /-- P6, for arguments in [-4, 4] (R222) -/
  fsin_close : ∀ a, isFinite a → |toReal a| ≤ 4 → |toReal (num.fsin a) - Real.sin (toReal a)| ≤ tol.trig
  fcos_close : ∀ a, isFinite a → |toReal a| ≤ 4 → |toReal (num.fcos a) - Real.cos (toReal a)| ≤ tol.trig
  /-- P5: `fatan2(±0, x) = ±0` for x > 0 and x = +0 (R223) -/
  fatan2_zero_right : ∀ y x, isZero y → isNaN x = false → signBit x = false → num.fatan2 y x = y
  /-- P5: `fatan2(±0, x) = ±PI_F` for x < 0 and x = -0 (R223) -/
  fatan2_zero_left : ∀ y x, isZero y → isNaN x = false → signBit x = true →
    num.fatan2 y x = mkWord (signBit y) (absBits piW)
  /-- P5: `fatan2(y, ±0) = ±PI_F/2` for y not zero (R223) -/
  fatan2_axis : ∀ y x, isNaN y = false → isZero y = false → isZero x →
    num.fatan2 y x = mkWord (signBit y) (absBits halfPiW)
  /-- P5: the magnitude never exceeds PI_F (R223) -/
  fatan2_range : ∀ y x, isNaN y = false → isNaN x = false → absBits (num.fatan2 y x) ≤ absBits piW
  /-- P5: NaN if an operand is a NaN (R223) -/
  fatan2_nan : ∀ y x, (isNaN y || isNaN x) → isNaN (num.fatan2 y x)
  /-- P6, for all other operands: within 4 * TOL_TRIG of the angle of the point, a point at infinity included (R223) -/
  fatan2_close : ∀ y x, isNaN y = false → isNaN x = false → isZero y = false → isZero x = false →
    |toReal (num.fatan2 y x) - pointAngle y x| ≤ 4 * tol.trig

/-! ## The round trip -/

/-- `NUM.irfft(NUM.rfft(x))` (R152). -/
def Numerics.roundTrip (num : Numerics) (p : Nat) (x : List Word) : List Word := num.irfft p (num.rfft p x)

/-- P3 applies twice: to the frame, and to the spectrum that NUM makes of it (R152). -/
def Numerics.AppliesTwice (num : Numerics) (p : Nat) (x : List Word) : Prop :=
  ForwardRange p x ∧ InverseRange p (num.rfft p x)

end Sys2Proof.Machine
end

