-- ==== Sys2Proof/Machine/RoundingFacts.lean ====
section
/-! DEFINITION. Facts about the rounding of Machine/Float.lean over the real numbers: the error of one rounding, of one
limited rounding, and of the integer square root. They show that `numSeries` is admissible (Machine/NumSeriesFacts.lean). -/

namespace Sys2Proof.Machine

/-! ## Words from sign and magnitude bits -/

theorem toNat_mkWord (neg : Bool) (m : Nat) (h : m < 2 ^ 31) :
    (mkWord neg m).toNat = (if neg then 2 ^ 31 + m else m) := by
  unfold mkWord
  rw [BitVec.toNat_ofNat, Nat.mod_eq_of_lt]
  split <;> omega

theorem absBits_mkWord (neg : Bool) (m : Nat) (h : m < 2 ^ 31) : absBits (mkWord neg m) = m := by
  unfold absBits
  rw [toNat_mkWord neg m h]
  split <;> omega

theorem signBit_mkWord (neg : Bool) (m : Nat) (h : m < 2 ^ 31) : signBit (mkWord neg m) = neg := by
  unfold signBit
  rw [BitVec.msb_eq_decide, toNat_mkWord neg m h]
  cases neg
  · simpa using h
  · simp

theorem absBits_lt (w : Word) : absBits w < 2 ^ 31 := Nat.mod_lt _ (by norm_num)

theorem mkWord_absBits (w : Word) : mkWord (signBit w) (absBits w) = w := by
  apply BitVec.eq_of_toNat_eq
  rw [toNat_mkWord _ _ (absBits_lt w)]
  unfold signBit absBits
  rw [BitVec.msb_eq_decide]
  have := w.isLt
  by_cases h : 2 ^ 31 ≤ w.toNat
  · rw [if_pos (by simpa using h)]
    omega
  · rw [if_neg (by simpa using h)]
    omega

/-! ## The value of magnitude bits -/

theorem unitsOfBits_normal (k r : Nat) (hlo : k = 0 ∨ 2 ^ 23 ≤ r) (hhi : r ≤ 2 ^ 24) :
    unitsOfBits (k * 2 ^ 23 + r) = r * 2 ^ k := by
  unfold unitsOfBits
  rcases Nat.lt_or_ge r (2 ^ 23) with h | h
  · have hk : k = 0 := by omega
    subst hk
    rw [if_pos (by omega), Nat.zero_mul, Nat.zero_add, pow_zero, Nat.mul_one]
  · rcases Nat.lt_or_ge r (2 ^ 24) with h2 | h2
    · have hd : (k * 2 ^ 23 + r) / 2 ^ 23 = k + 1 := by omega
      have hm : (k * 2 ^ 23 + r) % 2 ^ 23 = r - 2 ^ 23 := by omega
      have hr : 2 ^ 23 + (r - 2 ^ 23) = r := by omega
      rw [if_neg (by omega), hd, hm, hr, Nat.add_sub_cancel]
    · have hr : r = 2 ^ 24 := by omega
      subst hr
      have hd : (k * 2 ^ 23 + 2 ^ 24) / 2 ^ 23 = k + 2 := by omega
      have hm : (k * 2 ^ 23 + 2 ^ 24) % 2 ^ 23 = 0 := by omega
      rw [if_neg (by omega), hd, hm]
      have : k + 2 - 1 = k + 1 := by omega
      rw [this, pow_succ]
      ring

theorem unitsOfBits_mono {a b : Nat} (h : a ≤ b) : unitsOfBits a ≤ unitsOfBits b := by
  unfold unitsOfBits
  by_cases hb : b < 2 ^ 23
  · rw [if_pos hb, if_pos (by omega)]
    exact h
  · rw [if_neg hb]
    have hbd : 1 ≤ b / 2 ^ 23 := by omega
    by_cases ha : a < 2 ^ 23
    · rw [if_pos ha]
      calc a ≤ 2 ^ 23 + b % 2 ^ 23 := by omega
        _ ≤ (2 ^ 23 + b % 2 ^ 23) * 2 ^ (b / 2 ^ 23 - 1) := Nat.le_mul_of_pos_right _ (by positivity)
    · rw [if_neg ha]
      have had : 1 ≤ a / 2 ^ 23 := by omega
      rcases Nat.lt_or_ge (a / 2 ^ 23) (b / 2 ^ 23) with hlt | hge
      · calc (2 ^ 23 + a % 2 ^ 23) * 2 ^ (a / 2 ^ 23 - 1)
            ≤ 2 ^ 24 * 2 ^ (a / 2 ^ 23 - 1) := Nat.mul_le_mul_right _ (by omega)
          _ = 2 ^ 23 * 2 ^ (a / 2 ^ 23) := by
              obtain ⟨j, hj⟩ : ∃ j, a / 2 ^ 23 = j + 1 := ⟨a / 2 ^ 23 - 1, by omega⟩
              rw [hj, Nat.add_sub_cancel, pow_succ 2 j]
              ring
          _ ≤ 2 ^ 23 * 2 ^ (b / 2 ^ 23 - 1) :=
              Nat.mul_le_mul_left _ (Nat.pow_le_pow_right (by norm_num) (by omega))
          _ ≤ (2 ^ 23 + b % 2 ^ 23) * 2 ^ (b / 2 ^ 23 - 1) := Nat.mul_le_mul_right _ (by omega)
      · have he : a / 2 ^ 23 = b / 2 ^ 23 := by
          have := Nat.div_le_div_right (c := 2 ^ 23) h
          omega
        rw [he]
        exact Nat.mul_le_mul_right _ (by omega)

/-! ## One rounding -/

theorem roundEven_close (n d : Nat) (hd : 0 < d) :
    |(roundEven n d : ℝ) - n / d| ≤ 1 / 2 := by
  have hdr : (0 : ℝ) < d := by exact_mod_cast hd
  have hn : (n : ℝ) = d * (n / d : Nat) + (n % d : Nat) := by exact_mod_cast (Nat.div_add_mod n d).symm
  have hq : (n : ℝ) / d = (n / d : Nat) + ((n % d : Nat) : ℝ) / d := by
    rw [eq_comm, hn]
    field_simp
  rw [hq]
  unfold roundEven
  have hm : n % d < d := Nat.mod_lt _ hd
  simp only
  split
  · next h =>
    have h2 : (d : ℝ) ≤ 2 * ((n % d : Nat) : ℝ) := by
      have : d ≤ 2 * (n % d) := by omega
      exact_mod_cast this
    have h1 : 1 / 2 ≤ ((n % d : Nat) : ℝ) / d := by
      rw [le_div_iff₀ hdr]; linarith
    have h3 : ((n % d : Nat) : ℝ) / d ≤ 1 := by
      rw [div_le_one hdr]; exact_mod_cast hm.le
    push_cast
    rw [abs_le]
    constructor <;> linarith
  · next h =>
    have h2 : 2 * ((n % d : Nat) : ℝ) ≤ d := by
      have : 2 * (n % d) ≤ d := by omega
      exact_mod_cast this
    have h1 : ((n % d : Nat) : ℝ) / d ≤ 1 / 2 := by
      rw [div_le_iff₀ hdr]; linarith
    have h0 : 0 ≤ ((n % d : Nat) : ℝ) / d := by positivity
    rw [abs_le]
    constructor <;> linarith

theorem roundEven_bounds (n d : Nat) : n / d ≤ roundEven n d ∧ roundEven n d ≤ n / d + 1 := by
  unfold roundEven
  simp only
  split <;> omega

/-- The significand that `roundMag` keeps has at most 24 bits and, past the subnormals, exactly 24. -/
theorem roundMag_significand (n d : Nat) :
    let k := Nat.log2 (n / d) - 23
    (k = 0 ∨ 2 ^ 23 ≤ roundEven n (d * 2 ^ k)) ∧ roundEven n (d * 2 ^ k) ≤ 2 ^ 24 ∧
      (k = 0 ∨ 2 ^ (k + 23) ≤ n / d) := by
  intro k
  have hb := roundEven_bounds n (d * 2 ^ k)
  have hdd : n / (d * 2 ^ k) = n / d / 2 ^ k := by rw [Nat.div_div_eq_div_mul]
  rw [hdd] at hb
  have hup : n / d < 2 ^ (k + 24) := by
    rcases Nat.eq_zero_or_pos (n / d) with h0 | hp
    · rw [h0]; positivity
    · have h := Nat.lt_log2_self (n := n / d)
      exact lt_of_lt_of_le h (Nat.pow_le_pow_right (by norm_num) (by omega))
  have hup2 : n / d / 2 ^ k < 2 ^ 24 := by
    rw [Nat.div_lt_iff_lt_mul (by positivity)]
    rw [pow_add, mul_comm] at hup
    exact hup
  rcases Nat.eq_zero_or_pos k with hk | hk
  · exact ⟨Or.inl hk, by omega, Or.inl hk⟩
  · have hne : n / d ≠ 0 := by
      intro h0
      simp only [k, h0] at hk
      simp [Nat.log2] at hk
    have hlo : 2 ^ (k + 23) ≤ n / d := by
      have h := Nat.log2_self_le hne
      have : k + 23 = Nat.log2 (n / d) := by omega
      rw [this]
      exact h
    have hlo2 : 2 ^ 23 ≤ n / d / 2 ^ k := by
      rw [Nat.le_div_iff_mul_le (by positivity), ← pow_add, add_comm 23 k]
      exact hlo
    exact ⟨Or.inr (by omega), by omega, Or.inr hlo⟩

/-- One rounding moves a value by at most half a unit of 2^-149 or 2^-24 of itself, whichever is more. -/
theorem roundMag_close (n d : Nat) (hd : 0 < d) (hfin : roundMag n d < infBits) :
    |(unitsOfBits (roundMag n d) : ℝ) - n / d| ≤ 1 / 2 + n / d / 2 ^ 24 := by
  obtain ⟨hlo, hhi, hk⟩ := roundMag_significand n d
  have hr : roundMag n d = (Nat.log2 (n / d) - 23) * 2 ^ 23 + roundEven n (d * 2 ^ (Nat.log2 (n / d) - 23)) := by
    unfold roundMag at hfin ⊢
    simp only at hfin ⊢
    omega
  rw [hr]
  revert hlo hhi hk
  generalize Nat.log2 (n / d) - 23 = k
  intro hlo hhi hk
  rw [unitsOfBits_normal _ _ hlo hhi]
  have hdr : (0 : ℝ) < d := by exact_mod_cast hd
  have h2k : (0 : ℝ) < 2 ^ k := by positivity
  have hc := roundEven_close n (d * 2 ^ k) (by positivity)
  push_cast at hc ⊢
  have hx : (n : ℝ) / (d * 2 ^ k) = n / d / 2 ^ k := by rw [div_div]
  rw [hx] at hc
  have hscale : |(roundEven n (d * 2 ^ k) : ℝ) * 2 ^ k - n / d| ≤ 1 / 2 * 2 ^ k := by
    have : (roundEven n (d * 2 ^ k) : ℝ) * 2 ^ k - n / d
        = ((roundEven n (d * 2 ^ k) : ℝ) - n / d / 2 ^ k) * 2 ^ k := by
      field_simp
    rw [this, abs_mul, abs_of_pos h2k]
    exact mul_le_mul_of_nonneg_right hc h2k.le
  refine hscale.trans ?_
  have hnd : 0 ≤ (n : ℝ) / d := by positivity
  rcases hk with h0 | h1
  · subst h0
    have : 0 ≤ (n : ℝ) / d / 2 ^ 24 := by positivity
    simp only [pow_zero, mul_one]
    linarith
  · have hq : (2 : ℝ) ^ (k + 23) ≤ n / d := by
      have h2 : ((2 ^ (k + 23) : Nat) : ℝ) ≤ ((n / d : Nat) : ℝ) := by exact_mod_cast h1
      push_cast at h2
      exact h2.trans Nat.cast_div_le
    have : (1 : ℝ) / 2 * 2 ^ k = 2 ^ (k + 23) / 2 ^ 24 := by
      rw [pow_add]
      field_simp
    rw [this]
    have := div_le_div_of_nonneg_right hq (by positivity : (0 : ℝ) ≤ 2 ^ 24)
    linarith

/-- A value of at most 1.5 * 2^276 units (1.5 * 2^127) rounds to a finite value. -/
theorem roundMag_finite (n d : Nat) (hd : 0 < d) (h : n ≤ 3 * 2 ^ 275 * d) : roundMag n d < infBits := by
  have hq : n / d ≤ 3 * 2 ^ 275 := by
    calc n / d ≤ 3 * 2 ^ 275 * d / d := Nat.div_le_div_right h
      _ = 3 * 2 ^ 275 := Nat.mul_div_cancel _ hd
  have hlt : n / d < 2 ^ 277 := by
    have h4 : 3 * 2 ^ 275 < (2 : Nat) ^ 277 := by
      rw [show 277 = 2 + 275 from rfl, pow_add]
      exact Nat.mul_lt_mul_of_pos_right (by norm_num) (by positivity)
    exact lt_of_le_of_lt hq h4
  have hlog : Nat.log2 (n / d) ≤ 276 := by
    rcases Nat.eq_zero_or_pos (n / d) with h0 | hp
    · rw [h0]; simp [Nat.log2]
    · have := (Nat.log2_lt (n := n / d) (k := 277) hp.ne').2 hlt
      omega
  obtain ⟨-, hhi, -⟩ := roundMag_significand n d
  have hb := (roundEven_bounds n (d * 2 ^ (Nat.log2 (n / d) - 23))).2
  unfold roundMag infBits
  simp only
  clear h hlt
  rcases Nat.lt_or_ge (Nat.log2 (n / d) - 23) 253 with hk | hk
  · clear hq
    omega
  · have hk2 : Nat.log2 (n / d) - 23 = 253 := by omega
    rw [hk2] at hb ⊢
    have h3 : n / (d * 2 ^ 253) ≤ 3 * 2 ^ 22 := by
      rw [← Nat.div_div_eq_div_mul]
      refine (Nat.div_le_div_right hq).trans (le_of_eq ?_)
      rw [show 275 = 22 + 253 from rfl, pow_add, ← Nat.mul_assoc, Nat.mul_div_cancel _ (by positivity)]
    clear hq
    omega

theorem roundMag_le_inf (n d : Nat) : roundMag n d ≤ infBits := by
  unfold roundMag
  exact min_le_right _ _

theorem roundMag_lt (n d : Nat) : roundMag n d < 2 ^ 31 :=
  lt_of_le_of_lt (roundMag_le_inf n d) (by unfold infBits; norm_num)

theorem roundMag_zero (d : Nat) : roundMag 0 d = 0 := by
  simp [roundMag, roundEven, Nat.log2]

/-! ## Signed rounding -/

theorem mag_mkWord (neg : Bool) (m : Nat) (h : m < 2 ^ 31) : mag (mkWord neg m) = unitsOfBits m := by
  unfold mag
  rw [absBits_mkWord neg m h]

theorem units_mkWord (neg : Bool) (m : Nat) (h : m < 2 ^ 31) :
    units (mkWord neg m) = if neg then -(unitsOfBits m : Int) else (unitsOfBits m : Int) := by
  unfold units
  rw [signBit_mkWord neg m h, mag_mkWord neg m h]

theorem absBits_rn32 (x : Int) (d : Nat) : absBits (rn32 x d) = roundMag x.natAbs d :=
  absBits_mkWord _ _ (roundMag_lt _ _)

theorem signBit_rn32 (x : Int) (d : Nat) : signBit (rn32 x d) = decide (x < 0) :=
  signBit_mkWord _ _ (roundMag_lt _ _)

theorem rn32_zero (d : Nat) : rn32 0 d = posZero := by
  simp [rn32, rnd, roundMag_zero, mkWord, posZero]

theorem rn32_finite (x : Int) (d : Nat) (hd : 0 < d) (h : |(x : ℝ) / d| ≤ 3 * 2 ^ 275) : isFinite (rn32 x d) = true := by
  unfold isFinite
  rw [absBits_rn32, decide_eq_true_eq]
  apply roundMag_finite _ _ hd
  have hdr : (0 : ℝ) < d := by exact_mod_cast hd
  rw [abs_div, abs_of_pos hdr, div_le_iff₀ hdr] at h
  have h2 : ((x.natAbs : Nat) : ℝ) ≤ ((3 * 2 ^ 275 * d : Nat) : ℝ) := by
    rw [Nat.cast_natAbs]
    push_cast
    exact h
  exact_mod_cast h2

/-- One rounding of `x / d` units, with its sign. -/
theorem rn32_close (x : Int) (d : Nat) (hd : 0 < d) (h : |(x : ℝ) / d| ≤ 3 * 2 ^ 275) :
    |(units (rn32 x d) : ℝ) - x / d| ≤ 1 / 2 + |(x : ℝ) / d| / 2 ^ 24 := by
  have hf := rn32_finite x d hd h
  unfold isFinite at hf
  rw [absBits_rn32, decide_eq_true_eq] at hf
  have hc := roundMag_close x.natAbs d hd hf
  unfold rn32 rnd
  rw [units_mkWord _ _ (roundMag_lt _ _)]
  have hdr : (0 : ℝ) < d := by exact_mod_cast hd
  by_cases hx : x < 0
  · have hxr : (x : ℝ) < 0 := by exact_mod_cast hx
    have hna : ((x.natAbs : Nat) : ℝ) = -x := by
      rw [Nat.cast_natAbs]; push_cast; exact abs_of_neg hxr
    have hax : |(x : ℝ) / d| = -x / d := by
      rw [abs_div, abs_of_pos hdr, abs_of_neg hxr]
    simp only [hx, decide_true, if_true]
    rw [hna] at hc
    rw [hax]
    push_cast
    have : -(unitsOfBits (roundMag x.natAbs d) : ℝ) - x / d
        = -((unitsOfBits (roundMag x.natAbs d) : ℝ) - -x / d) := by ring
    rw [this, abs_neg]
    exact hc
  · have hxr : (0 : ℝ) ≤ x := by exact_mod_cast not_lt.mp hx
    have hna : ((x.natAbs : Nat) : ℝ) = x := by
      rw [Nat.cast_natAbs]; push_cast; exact abs_of_nonneg hxr
    have hax : |(x : ℝ) / d| = x / d := abs_of_nonneg (by positivity)
    simp only [hx, decide_false]
    rw [hna] at hc
    rw [hax]
    exact_mod_cast hc

/-- One rounding of a real value given as a quotient `n / d`: relative error 2^-24, absolute error half the smallest
subnormal. -/
theorem toReal_rn32_close (n : Int) (d : Nat) (hd : 0 < d) (h : |(n : ℝ) / d| ≤ 3 * 2 ^ 126) :
    isFinite (rn32 (n * (2 ^ 149 : Nat)) d) = true ∧
      |toReal (rn32 (n * (2 ^ 149 : Nat)) d) - n / d| ≤ |(n : ℝ) / d| / 2 ^ 24 + 1 / 2 ^ 150 := by
  have hdr : (0 : ℝ) < d := by exact_mod_cast hd
  have he : ((n * (2 ^ 149 : Nat) : Int) : ℝ) / d = (n : ℝ) / d * 2 ^ 149 := by
    push_cast
    ring
  have hb : |((n * (2 ^ 149 : Nat) : Int) : ℝ) / d| ≤ 3 * 2 ^ 275 := by
    rw [he, abs_mul, abs_of_pos (by positivity : (0 : ℝ) < 2 ^ 149)]
    calc |(n : ℝ) / d| * 2 ^ 149 ≤ 3 * 2 ^ 126 * 2 ^ 149 := mul_le_mul_of_nonneg_right h (by positivity)
      _ = 3 * 2 ^ 275 := by rw [mul_assoc, ← pow_add]
  refine ⟨rn32_finite _ _ hd hb, ?_⟩
  have hc := rn32_close _ _ hd hb
  rw [he] at hc
  unfold toReal
  have : (units (rn32 (n * (2 ^ 149 : Nat)) d) : ℝ) / 2 ^ 149 - n / d
      = ((units (rn32 (n * (2 ^ 149 : Nat)) d) : ℝ) - n / d * 2 ^ 149) / 2 ^ 149 := by
    field_simp
  rw [this, abs_div, abs_of_pos (by positivity : (0 : ℝ) < 2 ^ 149), div_le_iff₀ (by positivity)]
  refine hc.trans (le_of_eq ?_)
  rw [abs_mul, abs_of_pos (by positivity : (0 : ℝ) < 2 ^ 149)]
  ring

/-! ## Limited rounding -/

theorem absBits_roundLimited (lim : Nat) (n : Int) (d : Nat) :
    absBits (roundLimited lim n d) = min (absBits (rn32 (n * (2 ^ 149 : Nat)) d)) lim := by
  unfold roundLimited
  exact absBits_mkWord _ _ (lt_of_le_of_lt (min_le_left _ _) (absBits_lt _))

theorem absBits_roundLimited_le (lim : Nat) (n : Int) (d : Nat) : absBits (roundLimited lim n d) ≤ lim := by
  rw [absBits_roundLimited]
  exact min_le_right _ _

/-- Limiting the magnitude of a rounded value brings it no further from a target within the limit. -/
theorem toReal_roundLimited_close (lim : Nat) (n : Int) (d : Nat) (v : ℝ)
    (hv : |v| ≤ unitsOfBits lim / 2 ^ 149) :
    |toReal (roundLimited lim n d) - v| ≤ |toReal (rn32 (n * (2 ^ 149 : Nat)) d) - v| := by
  generalize hw : rn32 (n * (2 ^ 149 : Nat)) d = w
  have hdef : roundLimited lim n d = mkWord (signBit w) (min (absBits w) lim) := by
    rw [← hw]; rfl
  rw [hdef]
  rcases Nat.le_total (absBits w) lim with h | h
  · rw [min_eq_left h, mkWord_absBits]
  · rw [min_eq_right h]
    have hl : lim < 2 ^ 31 := lt_of_le_of_lt h (absBits_lt w)
    have hm : (unitsOfBits lim : ℝ) ≤ (unitsOfBits (absBits w) : ℝ) := by
      exact_mod_cast unitsOfBits_mono h
    have hm2 : (unitsOfBits lim : ℝ) / 2 ^ 149 ≤ (unitsOfBits (absBits w) : ℝ) / 2 ^ 149 := by
      gcongr
    unfold toReal
    rw [units_mkWord _ _ hl]
    have hu : units w = if signBit w then -(unitsOfBits (absBits w) : Int) else (unitsOfBits (absBits w) : Int) := rfl
    rw [hu]
    rw [abs_le] at hv
    cases signBit w
    · simp only [Bool.false_eq_true, if_false, Int.cast_natCast]
      rw [abs_of_nonneg (by linarith [hv.2]), abs_of_nonneg (by linarith [hv.2])]
      linarith
    · simp only [if_true, Int.cast_neg, Int.cast_natCast, neg_div]
      rw [abs_of_nonpos (by linarith [hv.1]), abs_of_nonpos (by linarith [hv.1])]
      linarith

/-! ## The integer square root -/

theorem isqrtFuel_spec (f n : Nat) (h : n < 4 ^ f) :
    isqrtFuel f n * isqrtFuel f n ≤ n ∧ n < (isqrtFuel f n + 1) * (isqrtFuel f n + 1) := by
  induction f generalizing n with
  | zero =>
    have : n = 0 := by simpa using h
    subst this
    simp [isqrtFuel]
  | succ f ih =>
    have h4 : n / 4 < 4 ^ f := by
      rw [pow_succ] at h
      omega
    obtain ⟨h1, h2⟩ := ih (n / 4) h4
    unfold isqrtFuel
    simp only
    generalize isqrtFuel f (n / 4) = r at h1 h2
    have hn : n < 4 * (n / 4) + 4 := by omega
    have hn2 : 4 * (n / 4) ≤ n := by omega
    split
    · next hc =>
      refine ⟨hc, ?_⟩
      nlinarith
    · next hc =>
      refine ⟨?_, by omega⟩
      nlinarith

/-- The integer square root: `r*r` is at most n and n is less than `(r+1)*(r+1)`. -/
theorem isqrt_spec (n : Nat) : isqrt n * isqrt n ≤ n ∧ n < (isqrt n + 1) * (isqrt n + 1) := by
  apply isqrtFuel_spec
  have h := Nat.lt_log2_self (n := n)
  calc n < 2 ^ (Nat.log2 n + 1) := h
    _ ≤ 2 ^ (2 * (Nat.log2 n / 2 + 1)) := Nat.pow_le_pow_right (by norm_num) (by omega)
    _ = 4 ^ (Nat.log2 n / 2 + 1) := by rw [pow_mul]; norm_num

end Sys2Proof.Machine
end

