-- ==== Sys2Proof/Machine/TrigFacts.lean ====
section
/-! DEFINITION. Facts about the series of Machine/Trig.lean over the real numbers: how near they come to the cosine, the
sine and the arctangent. They show that `numSeries` is admissible (Machine/NumSeriesFacts.lean). -/

namespace Sys2Proof.Machine

/-! ## The exponential series -/

/-- The complex number that a triple of `expTurn` stands for. -/
noncomputable def turnValue (t : Int × Int × Nat) : ℂ := ⟨(t.1 : ℝ) / t.2.2, (t.2.1 : ℝ) / t.2.2⟩

theorem expTurn_den_pos (a : Int) (d f k : Nat) (hd : 0 < d) (hk : 0 < k) : 0 < (expTurn a d f k).2.2 := by
  induction f generalizing k with
  | zero => simp [expTurn]
  | succ f ih =>
    have := ih (k + 1) (by omega)
    simp only [expTurn]
    positivity

/-- The denominator does not depend on the angle. -/
theorem expTurn_den_eq (a b : Int) (d f k : Nat) : (expTurn a d f k).2.2 = (expTurn b d f k).2.2 := by
  induction f generalizing k with
  | zero => rfl
  | succ f ih =>
    simp only [expTurn]
    rw [ih (k + 1)]

theorem expTurn_den_ge (a : Int) (d f k : Nat) (hk : 0 < k) : d ^ f ≤ (expTurn a d f k).2.2 := by
  induction f generalizing k with
  | zero => simp [expTurn]
  | succ f ih =>
    have := ih (k + 1) (by omega)
    simp only [expTurn]
    calc d ^ (f + 1) = d ^ f * d * 1 := by rw [pow_succ, mul_one]
      _ ≤ (expTurn a d f (k + 1)).2.2 * d * k := Nat.mul_le_mul (Nat.mul_le_mul_right _ this) hk

theorem turnValue_succ (a : Int) (d f k : Nat) (hd : 0 < d) (hk : 0 < k) :
    turnValue (expTurn a d (f + 1) k) =
      1 + (((a : ℝ) / d : ℝ) : ℂ) * Complex.I / (k : ℂ) * turnValue (expTurn a d f (k + 1)) := by
  have hq := expTurn_den_pos a d f (k + 1) hd (by omega)
  have hq' : ((expTurn a d f (k + 1)).2.2 : ℝ) ≠ 0 := by exact_mod_cast hq.ne'
  have hd' : (d : ℝ) ≠ 0 := by exact_mod_cast hd.ne'
  have hk' : (k : ℝ) ≠ 0 := by exact_mod_cast hk.ne'
  have hkc : (((a : ℝ) / d : ℝ) : ℂ) * Complex.I / (k : ℂ) = (((a : ℝ) / d / k : ℝ) : ℂ) * Complex.I := by
    push_cast
    ring
  rw [hkc]
  apply Complex.ext
  · simp only [turnValue, expTurn, Complex.add_re, Complex.mul_re, Complex.mul_im, Complex.ofReal_re, Complex.ofReal_im,
      Complex.I_re, Complex.I_im, Complex.one_re]
    push_cast
    field_simp
    ring
  · simp only [turnValue, expTurn, Complex.add_im, Complex.mul_re, Complex.mul_im, Complex.ofReal_re, Complex.ofReal_im,
      Complex.I_re, Complex.I_im, Complex.one_im]
    push_cast
    field_simp
    ring

theorem turnValue_partial (a : Int) (d f j : Nat) (hd : 0 < d) :
    ((((a : ℝ) / d : ℝ) : ℂ) * Complex.I) ^ j / (j.factorial : ℂ) * turnValue (expTurn a d f (j + 1)) =
      ∑ m ∈ Finset.range (f + 1), ((((a : ℝ) / d : ℝ) : ℂ) * Complex.I) ^ (m + j) / ((m + j).factorial : ℂ) := by
  induction f generalizing j with
  | zero => simp [turnValue, expTurn, Complex.ext_iff]
  | succ f ih =>
    rw [turnValue_succ a d f (j + 1) hd (by omega), Finset.sum_range_succ']
    have h := ih (j + 1)
    simp only [Nat.zero_add] at h ⊢
    have hs : ∑ m ∈ Finset.range (f + 1), ((((a : ℝ) / d : ℝ) : ℂ) * Complex.I) ^ (m + 1 + j) / ((m + 1 + j).factorial : ℂ)
        = ∑ m ∈ Finset.range (f + 1),
            ((((a : ℝ) / d : ℝ) : ℂ) * Complex.I) ^ (m + (j + 1)) / ((m + (j + 1)).factorial : ℂ) := by
      apply Finset.sum_congr rfl
      intro m _
      rw [show m + 1 + j = m + (j + 1) by omega]
    rw [hs, ← h, Nat.factorial_succ]
    have hj : ((j : ℂ) + 1) ≠ 0 := by exact_mod_cast Nat.succ_ne_zero j
    have hf : (j.factorial : ℂ) ≠ 0 := by exact_mod_cast Nat.factorial_ne_zero j
    push_cast
    field_simp
    ring

/-- The partial sums of `expTurn` near the cosine and the sine of the angle. -/
theorem expTurn_close (a : Int) (d f : Nat) (hd : 0 < d) (hx : |(a : ℝ) / d| / (f + 2 : Nat) ≤ 1 / 2) :
    |((expTurn a d f 1).1 : ℝ) / (expTurn a d f 1).2.2 - Real.cos ((a : ℝ) / d)|
        ≤ |(a : ℝ) / d| ^ (f + 1) / (f + 1).factorial * 2 ∧
      |((expTurn a d f 1).2.1 : ℝ) / (expTurn a d f 1).2.2 - Real.sin ((a : ℝ) / d)|
        ≤ |(a : ℝ) / d| ^ (f + 1) / (f + 1).factorial * 2 := by
  have h := turnValue_partial a d f 0 hd
  simp only [pow_zero, Nat.factorial_zero, Nat.cast_one, div_one, one_mul, Nat.zero_add, Nat.add_zero] at h
  generalize hθ : (a : ℝ) / d = θ at *
  have hn : ‖(θ : ℂ) * Complex.I‖ = |θ| := by simp
  have hb := Complex.exp_bound' (x := (θ : ℂ) * Complex.I) (n := f + 1) (by rw [hn]; exact hx)
  rw [← h, hn, Complex.exp_mul_I] at hb
  constructor
  · have := (Complex.abs_re_le_norm _).trans hb
    rw [abs_sub_comm]
    simpa [turnValue, Complex.cos_ofReal_re, Complex.sin_ofReal_im] using this
  · have := (Complex.abs_im_le_norm _).trans hb
    rw [abs_sub_comm]
    simpa [turnValue, Complex.cos_ofReal_im, Complex.sin_ofReal_re] using this

/-! ## pi -/

theorem piNum_close : |(piNum : ℝ) / 2 ^ 192 - Real.pi| ≤ 1 / 10 ^ 20 := by
  have h1 := Real.pi_gt_d20
  have h2 := Real.pi_lt_d20
  have h3 : (3.14159265358979323846 : ℝ) ≤ (piNum : ℝ) / 2 ^ 192 := by
    unfold piNum
    norm_num
  have h4 : (piNum : ℝ) / 2 ^ 192 ≤ 3.14159265358979323847 := by
    unfold piNum
    norm_num
  rw [abs_le]
  constructor <;> norm_num at * <;> linarith

/-! ## The cosine and the sine of a fraction of a turn -/

/-- How near the quotients of `cosTurn` and `sinTurn` are to the real functions. -/
noncomputable def turnErr : ℝ := 1 / 2 ^ 60

theorem turnDen_pos (p : Nat) : 0 < turnDen p := expTurn_den_pos _ _ _ _ (by positivity) (by norm_num)

theorem octant_den (p r : Nat) : (octant p r).2.2 = turnDen p := expTurn_den_eq _ _ _ _ _

theorem octant_close (p r : Nat) (h : 8 * r ≤ 2 ^ p) :
    |((octant p r).1 : ℝ) / turnDen p - Real.cos (turnAngle p r)| ≤ turnErr ∧
      |((octant p r).2.1 : ℝ) / turnDen p - Real.sin (turnAngle p r)| ≤ turnErr := by
  rw [← octant_den p r]
  have hr : (r : ℝ) / 2 ^ p ≤ 1 / 8 := by
    rw [div_le_iff₀ (by positivity)]
    have : (8 : ℝ) * r ≤ 2 ^ p := by exact_mod_cast h
    linarith
  have hr0 : 0 ≤ (r : ℝ) / 2 ^ p := by positivity
  have hpi := abs_le.1 piNum_close
  have hang : (((2 * piNum * r : Nat) : Int) : ℝ) / ((2 ^ 192 * 2 ^ p : Nat) : ℝ)
      = 2 * (piNum / 2 ^ 192) * (r / 2 ^ p) := by
    simp only [Int.cast_mul, Int.cast_ofNat, Int.cast_natCast, Nat.cast_mul, Nat.cast_pow, Nat.cast_ofNat]
    have hA : (2 : ℝ) ^ 192 ≠ 0 := by positivity
    generalize (2 : ℝ) ^ 192 = A at hA
    field_simp
  have hang' : turnAngle p r = 2 * Real.pi * (r / 2 ^ p) := by
    unfold turnAngle
    ring
  have hdiff : |2 * ((piNum : ℝ) / 2 ^ 192) * (r / 2 ^ p) - turnAngle p r| ≤ 1 / 10 ^ 20 := by
    rw [hang']
    have : 2 * ((piNum : ℝ) / 2 ^ 192) * (r / 2 ^ p) - 2 * Real.pi * (r / 2 ^ p)
        = ((piNum : ℝ) / 2 ^ 192 - Real.pi) * (2 * (r / 2 ^ p)) := by ring
    rw [this, abs_mul, abs_of_nonneg (by positivity : (0 : ℝ) ≤ 2 * (r / 2 ^ p))]
    calc _ ≤ 1 / 10 ^ 20 * (1 : ℝ) :=
          mul_le_mul piNum_close (by linarith) (by positivity) (by positivity)
      _ = _ := by ring
  have hle : 2 * ((piNum : ℝ) / 2 ^ 192) * (r / 2 ^ p) ≤ 1 := by
    have := Real.pi_lt_d20
    nlinarith [hpi.2]
  have h0 : 0 ≤ 2 * ((piNum : ℝ) / 2 ^ 192) * (r / 2 ^ p) := by positivity
  have hc := expTurn_close ((2 * piNum * r : Nat) : Int) (2 ^ 192 * 2 ^ p) 32 (by positivity)
    (by rw [hang, abs_of_nonneg h0]; norm_num; linarith)
  rw [hang, abs_of_nonneg h0] at hc
  have hrem : (2 * ((piNum : ℝ) / 2 ^ 192) * (r / 2 ^ p)) ^ (32 + 1) / ((32 + 1).factorial : ℝ) * 2 ≤ 1 / 10 ^ 20 := by
    have : (2 * ((piNum : ℝ) / 2 ^ 192) * (r / 2 ^ p)) ^ (32 + 1) ≤ 1 := pow_le_one₀ h0 hle
    have hf : ((32 + 1).factorial : ℝ) = 8683317618811886495518194401280000000 := by
      norm_num [Nat.factorial]
    rw [hf]
    calc _ ≤ (1 : ℝ) / 8683317618811886495518194401280000000 * 2 := by gcongr
      _ ≤ _ := by norm_num
  have htol : (1 : ℝ) / 10 ^ 20 + 1 / 10 ^ 20 ≤ turnErr := by
    unfold turnErr
    norm_num
  have h1 := Real.abs_cos_sub_cos_le (2 * ((piNum : ℝ) / 2 ^ 192) * (r / 2 ^ p)) (turnAngle p r)
  have h2 := Real.abs_sin_sub_sin_le (2 * ((piNum : ℝ) / 2 ^ 192) * (r / 2 ^ p)) (turnAngle p r)
  unfold octant
  exact ⟨(abs_sub_le _ _ _).trans ((add_le_add (hc.1.trans hrem) (h1.trans hdiff)).trans htol),
    (abs_sub_le _ _ _).trans ((add_le_add (hc.2.trans hrem) (h2.trans hdiff)).trans htol)⟩

theorem isqrt_two_pow (k : Nat) :
    |((isqrt (2 ^ (2 * k + 1)) : Nat) : ℝ) / 2 ^ (k + 1) - Real.sqrt 2 / 2| ≤ 1 / 2 ^ (k + 1) := by
  obtain ⟨h1, h2⟩ := isqrt_spec (2 ^ (2 * k + 1))
  generalize isqrt (2 ^ (2 * k + 1)) = r at h1 h2
  have h1' : (r : ℝ) * r ≤ 2 ^ (2 * k + 1) := by exact_mod_cast h1
  have h2' : (2 : ℝ) ^ (2 * k + 1) < (r + 1) * (r + 1) := by exact_mod_cast h2
  have hs : Real.sqrt 2 / 2 * 2 ^ (k + 1) = Real.sqrt (2 ^ (2 * k + 1)) := by
    have : (2 : ℝ) ^ (2 * k + 1) = 2 * (2 ^ k) ^ 2 := by ring
    rw [this, Real.sqrt_mul (by norm_num), Real.sqrt_sq (by positivity), pow_succ]
    ring
  have hlo : (r : ℝ) ≤ Real.sqrt (2 ^ (2 * k + 1)) := Real.le_sqrt_of_sq_le (by nlinarith)
  have hhi : Real.sqrt (2 ^ (2 * k + 1)) ≤ r + 1 := Real.sqrt_le_iff.2 ⟨by positivity, by nlinarith⟩
  have : (r : ℝ) / 2 ^ (k + 1) - Real.sqrt 2 / 2 = (r - Real.sqrt 2 / 2 * 2 ^ (k + 1)) / 2 ^ (k + 1) := by
    field_simp
  rw [this, hs, abs_div, abs_of_pos (by positivity : (0 : ℝ) < 2 ^ (k + 1))]
  apply div_le_div_of_nonneg_right _ (by positivity)
  rw [abs_le]
  constructor <;> linarith

theorem eighth_close : |((isqrt (2 ^ 511) : Nat) : ℝ) / 2 ^ 256 - Real.sqrt 2 / 2| ≤ 1 / 2 ^ 256 := isqrt_two_pow 255

theorem turnAngle_add (p a b : Nat) : turnAngle p (a + b) = turnAngle p a + turnAngle p b := by
  unfold turnAngle
  push_cast
  ring

theorem turnAngle_mul_pow (p k : Nat) : turnAngle p (k * 2 ^ p) = k * (2 * Real.pi) := by
  unfold turnAngle
  push_cast
  field_simp

theorem turnAngle_quarter (p : Nat) (hp : 2 ≤ p) : turnAngle p (2 ^ p / 4) = Real.pi / 2 := by
  obtain ⟨q, rfl⟩ : ∃ q, p = q + 2 := ⟨p - 2, by omega⟩
  have : 2 ^ (q + 2) / 4 = 2 ^ q := by
    rw [pow_add]
    exact Nat.mul_div_cancel _ (by norm_num)
  rw [this]
  unfold turnAngle
  push_cast
  rw [pow_add]
  field_simp

theorem cosQuadrant_close (p r : Nat) (hp : 2 ≤ p) (h : 4 * r ≤ 2 ^ p) :
    |(cosQuadrant p r : ℝ) / turnDen p - Real.cos (turnAngle p r)| ≤ turnErr := by
  unfold cosQuadrant
  split
  · exact (octant_close p r (by omega)).1
  split
  · next _ he =>
    have hang : turnAngle p r = Real.pi / 4 := by
      unfold turnAngle
      have : (2 : ℝ) ^ p = 8 * r := by exact_mod_cast he.symm
      have hr : (r : ℝ) ≠ 0 := by
        intro h0
        rw [h0] at this
        have : (0 : ℝ) < 2 ^ p := by positivity
        linarith
      rw [this]
      field_simp
      norm_num
    rw [hang, Real.cos_pi_div_four]
    have hd := turnDen_pos p
    have hbig : 2 ^ 192 ≤ turnDen p := by
      have h1 := expTurn_den_ge ((2 * piNum * 0 : Nat) : Int) (2 ^ 192 * 2 ^ p) 32 1 (by norm_num)
      have h2 : 2 ^ 192 ≤ (2 ^ 192 * 2 ^ p) ^ 32 := by
        calc 2 ^ 192 ≤ 2 ^ 192 * 2 ^ p := Nat.le_mul_of_pos_right _ (by positivity)
          _ ≤ (2 ^ 192 * 2 ^ p) ^ 32 := Nat.le_self_pow (by norm_num) _
      exact h2.trans h1
    have hbig' : (2 : ℝ) ^ 192 ≤ turnDen p := by exact_mod_cast hbig
    have hdr : (0 : ℝ) < turnDen p := by exact_mod_cast hd
    have h1 : ((turnDen p * isqrt (2 ^ 511) / 2 ^ 256 : Nat) : ℝ)
        ≤ turnDen p * isqrt (2 ^ 511) / 2 ^ 256 := by
      refine Nat.cast_div_le.trans (le_of_eq ?_)
      rw [Nat.cast_mul, Nat.cast_pow, Nat.cast_ofNat]
    have h2 : (turnDen p * isqrt (2 ^ 511) : ℝ) / 2 ^ 256 - 1
        ≤ ((turnDen p * isqrt (2 ^ 511) / 2 ^ 256 : Nat) : ℝ) := by
      have h3 := Nat.lt_div_mul_add (a := turnDen p * isqrt (2 ^ 511)) (b := 2 ^ 256) (by positivity)
      have h4 : (turnDen p * isqrt (2 ^ 511) : ℝ)
          < ((turnDen p * isqrt (2 ^ 511) / 2 ^ 256 : Nat) : ℝ) * 2 ^ 256 + 2 ^ 256 := by exact_mod_cast h3
      rw [sub_le_iff_le_add, div_le_iff₀ (by positivity)]
      linarith
    rw [Int.cast_natCast]
    have h3 := abs_le.1 eighth_close
    generalize ((turnDen p * isqrt (2 ^ 511) / 2 ^ 256 : Nat) : ℝ) = u at h1 h2 ⊢
    have hx : (turnDen p * isqrt (2 ^ 511) : ℝ) / 2 ^ 256 = turnDen p * (isqrt (2 ^ 511) / 2 ^ 256) := by ring
    rw [hx] at h1 h2
    generalize ((isqrt (2 ^ 511) : Nat) : ℝ) / 2 ^ 256 = v at h1 h2 h3
    have hu : u / turnDen p ≤ v := by
      rw [div_le_iff₀ hdr]
      linarith
    have hl : v - 1 / 2 ^ 192 ≤ u / turnDen p := by
      rw [le_div_iff₀ hdr]
      have : 1 ≤ 1 / 2 ^ 192 * (turnDen p : ℝ) := by
        rw [one_div, ← div_eq_inv_mul, le_div_iff₀ (by positivity)]
        linarith
      linarith
    have htol : (1 : ℝ) / 2 ^ 256 + 1 / 2 ^ 192 ≤ turnErr := by
      unfold turnErr
      norm_num
    rw [abs_le]
    constructor <;> linarith [h3.1, h3.2]
  · have h4 : 8 * (2 ^ p / 4 - r) ≤ 2 ^ p := by omega
    have hq := turnAngle_quarter p hp
    have hs : turnAngle p (2 ^ p / 4) = turnAngle p (2 ^ p / 4 - r) + turnAngle p r := by
      rw [← turnAngle_add]
      congr 1
      have : 2 ^ p = 4 * 2 ^ (p - 2) := by
        rw [show (4 : Nat) = 2 ^ 2 from rfl, ← pow_add]
        congr 1
        omega
      omega
    have : turnAngle p r = Real.pi / 2 - turnAngle p (2 ^ p / 4 - r) := by linarith
    rw [this, Real.cos_pi_div_two_sub]
    exact (octant_close p _ h4).2

/-- `cosTurn` is within 2^-60 of the cosine. -/
theorem cosTurn_close (p r : Nat) (hp : 2 ≤ p) :
    |(cosTurn p r : ℝ) / turnDen p - Real.cos (turnAngle p r)| ≤ turnErr := by
  have h4 : 2 ^ p = 4 * 2 ^ (p - 2) := by
    rw [show (4 : Nat) = 2 ^ 2 from rfl, ← pow_add]
    congr 1
    omega
  have hpos : 0 < 2 ^ (p - 2) := by positivity
  have hhalf : turnAngle p (2 ^ p / 2) = Real.pi := by
    have := turnAngle_add p (2 ^ p / 4) (2 ^ p / 4)
    rw [turnAngle_quarter p hp] at this
    have he : 2 ^ p / 2 = 2 ^ p / 4 + 2 ^ p / 4 := by omega
    rw [he, this]
    ring
  have hfull : turnAngle p (2 ^ p) = 2 * Real.pi := by
    have := turnAngle_mul_pow p 1
    simpa using this
  have hper : Real.cos (turnAngle p r) = Real.cos (turnAngle p (r % 2 ^ p)) := by
    have h := turnAngle_add p (r % 2 ^ p) (r / 2 ^ p * 2 ^ p)
    rw [Nat.mod_add_div' r (2 ^ p), turnAngle_mul_pow] at h
    rw [h]
    exact Real.cos_add_nat_mul_two_pi _ _
  rw [hper]
  unfold cosTurn
  simp only
  have hm : r % 2 ^ p < 2 ^ p := Nat.mod_lt _ (by positivity)
  generalize r % 2 ^ p = t at hm
  -- the second half of the turn mirrors the first
  have hev : Real.cos (turnAngle p t) = Real.cos (turnAngle p (if 2 ^ p < 2 * t then 2 ^ p - t else t)) := by
    split
    · have h := turnAngle_add p (2 ^ p - t) t
      rw [Nat.sub_add_cancel hm.le, hfull] at h
      have : turnAngle p (2 ^ p - t) = 2 * Real.pi - turnAngle p t := by linarith
      rw [this, Real.cos_two_pi_sub]
    · rfl
  rw [hev]
  have hu : 2 * (if 2 ^ p < 2 * t then 2 ^ p - t else t) ≤ 2 ^ p := by
    split <;> omega
  generalize (if 2 ^ p < 2 * t then 2 ^ p - t else t) = u at hu
  split
  · have h := turnAngle_add p (2 ^ p / 2 - u) u
    rw [Nat.sub_add_cancel (by omega), hhalf] at h
    have : turnAngle p u = Real.pi - turnAngle p (2 ^ p / 2 - u) := by linarith
    rw [this, Real.cos_pi_sub]
    have hc := cosQuadrant_close p (2 ^ p / 2 - u) hp (by omega)
    push_cast
    rw [neg_div, neg_sub_neg, abs_sub_comm]
    exact hc
  · exact cosQuadrant_close p u hp (by omega)

/-- `sinTurn` is within 2^-60 of the sine. -/
theorem sinTurn_close (p r : Nat) (hp : 2 ≤ p) :
    |(sinTurn p r : ℝ) / turnDen p - Real.sin (turnAngle p r)| ≤ turnErr := by
  have h := cosTurn_close p (r + 3 * (2 ^ p / 4)) hp
  have ha : turnAngle p (r + 3 * (2 ^ p / 4)) = turnAngle p r - Real.pi / 2 + 2 * Real.pi := by
    rw [turnAngle_add, show 3 * (2 ^ p / 4) = 2 ^ p / 4 + (2 ^ p / 4 + 2 ^ p / 4) by ring, turnAngle_add, turnAngle_add,
      turnAngle_quarter p hp]
    ring
  rw [ha, Real.cos_add_two_pi, Real.cos_sub_pi_div_two] at h
  exact h

end Sys2Proof.Machine
end

