-- ==== Sys2Proof/Machine/ArctanFacts.lean ====
section
/-! DEFINITION. Facts about the arctangent quotients of Machine/Trig.lean over the real numbers. They show that `numSeries` is
admissible (Machine/NumSeriesFacts.lean). -/

namespace Sys2Proof.Machine

/-- The value of a quotient. -/
noncomputable def fracValue (t : Int × Nat) : ℝ := (t.1 : ℝ) / t.2

theorem atanTail_den_pos (a b f k : Nat) (hb : 0 < b) : 0 < (atanTail a b f k).2 := by
  induction f generalizing k with
  | zero => simp [atanTail]
  | succ f ih =>
    have := ih (k + 1)
    simp only [atanTail]
    positivity

theorem fracValue_atanTail (a b f k : Nat) (hb : 0 < b) :
    fracValue (atanTail a b f k) =
      ∑ m ∈ Finset.range f, (-1) ^ m * ((a : ℝ) / b) ^ (2 * m) / (2 * (k + m) + 1 : Nat) := by
  induction f generalizing k with
  | zero => simp [fracValue, atanTail]
  | succ f ih =>
    have hq := atanTail_den_pos a b f (k + 1) hb
    have hq' : ((atanTail a b f (k + 1)).2 : ℝ) ≠ 0 := by exact_mod_cast hq.ne'
    have hb' : (b : ℝ) ≠ 0 := by exact_mod_cast hb.ne'
    have hk' : (2 * (k : ℝ) + 1) ≠ 0 := by positivity
    have h : fracValue (atanTail a b (f + 1) k)
        = 1 / (2 * k + 1) - ((a : ℝ) / b) ^ 2 * fracValue (atanTail a b f (k + 1)) := by
      simp only [fracValue, atanTail]
      push_cast
      field_simp
    rw [h, ih (k + 1), Finset.sum_range_succ', Finset.mul_sum]
    have hs : ∀ m, (-1 : ℝ) ^ (m + 1) * ((a : ℝ) / b) ^ (2 * (m + 1)) / ((2 * (k + (m + 1)) + 1 : Nat) : ℝ)
        = -(((a : ℝ) / b) ^ 2 * ((-1) ^ m * ((a : ℝ) / b) ^ (2 * m) / ((2 * (k + 1 + m) + 1 : Nat) : ℝ))) := by
      intro m
      rw [show 2 * (k + (m + 1)) + 1 = 2 * (k + 1 + m) + 1 by ring]
      ring
    rw [Finset.sum_congr rfl fun m _ => hs m, Finset.sum_neg_distrib]
    push_cast
    ring

/-- The series of the arctangent, cut after 48 terms. -/
theorem atanSeries_close (a b : Nat) (hb : 0 < b) (h : 2 * a ≤ b) :
    |fracValue (atanSeries a b) - Real.arctan ((a : ℝ) / b)| ≤ 1 / 2 ^ 97 := by
  have hbr : (0 : ℝ) < b := by exact_mod_cast hb
  have hx1 : (a : ℝ) / b ≤ 1 / 2 := by
    rw [div_le_iff₀ hbr]
    have : (2 : ℝ) * a ≤ b := by exact_mod_cast h
    linarith
  have hx0 : 0 ≤ (a : ℝ) / b := by positivity
  have hval : fracValue (atanSeries a b)
      = ∑ m ∈ Finset.range 48, (-1) ^ m * (((a : ℝ) / b) ^ (2 * m + 1) / ((2 * m + 1 : Nat) : ℝ)) := by
    have h1 : fracValue (atanSeries a b) = (a : ℝ) / b * fracValue (atanTail a b 48 0) := by
      simp only [fracValue, atanSeries]
      push_cast
      rw [div_mul_div_comm]
    rw [h1, fracValue_atanTail a b 48 0 hb, Finset.mul_sum]
    apply Finset.sum_congr rfl
    intro m _
    rw [Nat.zero_add]
    ring
  rw [hval]
  generalize (a : ℝ) / b = x at hx0 hx1
  have hsum := Real.hasSum_arctan (x := x) (by rw [Real.norm_of_nonneg hx0]; linarith)
  have hterm : (fun n : ℕ => (-1 : ℝ) ^ n * x ^ (2 * n + 1) / ((2 * n + 1 : Nat) : ℝ))
      = fun n : ℕ => (-1 : ℝ) ^ n * (x ^ (2 * n + 1) / ((2 * n + 1 : Nat) : ℝ)) := by
    funext n
    ring
  rw [hterm] at hsum
  have hf0 : ∀ n : ℕ, 0 ≤ x ^ (2 * n + 1) / ((2 * n + 1 : Nat) : ℝ) := fun n => by positivity
  have hsm : Summable fun n : ℕ => x ^ (2 * n + 1) / ((2 * n + 1 : Nat) : ℝ) := by
    have := hsum.summable.abs
    refine this.congr fun n => ?_
    rw [abs_mul, abs_pow, abs_neg, abs_one, one_pow, one_mul, abs_of_nonneg (hf0 n)]
  have hanti : Antitone fun n : ℕ => x ^ (2 * n + 1) / ((2 * n + 1 : Nat) : ℝ) := by
    refine antitone_nat_of_succ_le fun n => ?_
    apply div_le_div₀ (by positivity) _ (by positivity) (by push_cast; linarith)
    exact pow_le_pow_of_le_one hx0 (by linarith) (by omega)
  have hb := alternating_series_error_bound _ hanti hsm 48
  rw [hsum.tsum_eq] at hb
  rw [abs_sub_comm]
  have h1 : ∀ m : ℕ, x ^ (2 * m + 1) / ((2 * m + 1 : Nat) : ℝ) ≤ 1 / 2 ^ (2 * m + 1) := by
    intro m
    rw [← one_div_pow]
    exact (div_le_self (by positivity) (by push_cast; linarith)).trans (pow_le_pow_left₀ hx0 hx1 _)
  exact hb.trans (h1 48)

theorem atanSeries_den_pos (a b : Nat) (hb : 0 < b) : 0 < (atanSeries a b).2 :=
  Nat.mul_pos hb (atanTail_den_pos a b 48 0 hb)

theorem atanUnit_den_pos (a b : Nat) (hb : 0 < b) : 0 < (atanUnit a b).2 := by
  unfold atanUnit
  split
  · exact atanSeries_den_pos a b hb
  · exact Nat.mul_pos (by positivity) (atanSeries_den_pos _ _ (by omega))

/-- A quotient taken from a fraction of pi. -/
theorem fracValue_piSub (k : Nat) (t : Int × Nat) (hd : 0 < t.2) :
    fracValue ((piNum * t.2 : Nat) - t.1 * (2 ^ k : Nat), 2 ^ k * t.2) = (piNum : ℝ) / 2 ^ k - fracValue t := by
  have : (t.2 : ℝ) ≠ 0 := by exact_mod_cast hd.ne'
  unfold fracValue
  simp only [Int.cast_sub, Int.cast_mul, Int.cast_natCast, Int.cast_pow, Int.cast_ofNat, Nat.cast_mul, Nat.cast_pow,
    Nat.cast_ofNat]
  field_simp

theorem piNum_quarter : |(piNum : ℝ) / 2 ^ 194 - Real.pi / 4| ≤ 1 / 10 ^ 20 := by
  have h := abs_le.1 piNum_close
  have : (piNum : ℝ) / 2 ^ 194 = piNum / 2 ^ 192 / 4 := by
    rw [show (194 : Nat) = 192 + 2 from rfl, pow_add, div_div]
    norm_num
  rw [this, abs_le]
  constructor <;> norm_num at * <;> linarith [h.1, h.2]

theorem piNum_half : |(piNum : ℝ) / 2 ^ 193 - Real.pi / 2| ≤ 1 / 10 ^ 20 := by
  have h := abs_le.1 piNum_close
  have : (piNum : ℝ) / 2 ^ 193 = piNum / 2 ^ 192 / 2 := by
    rw [show (193 : Nat) = 192 + 1 from rfl, pow_add, div_div]
    norm_num
  rw [this, abs_le]
  constructor <;> norm_num at * <;> linarith [h.1, h.2]

theorem atanUnit_close (a b : Nat) (hb : 0 < b) (h : a ≤ b) :
    |fracValue (atanUnit a b) - Real.arctan ((a : ℝ) / b)| ≤ 2 / 10 ^ 20 := by
  have hbr : (0 : ℝ) < b := by exact_mod_cast hb
  have h97 : (1 : ℝ) / 2 ^ 97 ≤ 1 / 10 ^ 20 := by norm_num
  unfold atanUnit
  split
  · next h2 =>
    refine (atanSeries_close a b hb h2).trans (h97.trans ?_)
    norm_num
  · next h2 =>
    rw [fracValue_piSub _ _ (atanSeries_den_pos _ _ (by omega))]
    have hs := atanSeries_close (b - a) (b + a) (by omega) (by omega)
    have hid : Real.arctan ((a : ℝ) / b) = Real.pi / 4 - Real.arctan (((b - a : Nat) : ℝ) / ((b + a : Nat) : ℝ)) := by
      rw [← Real.arctan_one, eq_sub_iff_add_eq, Nat.cast_sub h, Nat.cast_add]
      have har : (0 : ℝ) ≤ a := by positivity
      have hab : (a : ℝ) ≤ b := by exact_mod_cast h
      have hlt : (a : ℝ) / b * (((b : ℝ) - a) / (b + a)) < 1 := by
        rw [div_mul_div_comm, div_lt_one (by positivity)]
        nlinarith [sq_nonneg ((a : ℝ)), mul_pos hbr hbr]
      rw [Real.arctan_add hlt]
      congr 1
      have h1 : (b : ℝ) * (b + a) - a * (b - a) ≠ 0 := by nlinarith [mul_pos hbr hbr, sq_nonneg ((a : ℝ))]
      have h2 : (b : ℝ) + a ≠ 0 := by positivity
      rw [div_eq_one_iff_eq]
      · field_simp
        ring
      · exact (sub_pos.2 hlt).ne'
    rw [hid]
    have hq := piNum_quarter
    calc _ = |((piNum : ℝ) / 2 ^ 194 - Real.pi / 4) - (fracValue (atanSeries (b - a) (b + a)) -
            Real.arctan (((b - a : Nat) : ℝ) / ((b + a : Nat) : ℝ)))| := by
          congr 1
          ring
      _ ≤ _ := abs_sub _ _
      _ ≤ 1 / 10 ^ 20 + 1 / 10 ^ 20 := add_le_add hq (hs.trans h97)
      _ = _ := by norm_num

/-! ## The angle of a point -/

theorem arg_of_re_pos (x y : ℝ) (hx : 0 < x) : Complex.arg ⟨x, y⟩ = Real.arctan (y / x) := by
  have h := Complex.tan_arg ⟨x, y⟩
  have hl := Complex.abs_arg_lt_pi_div_two_iff.2 (Or.inl hx : 0 < (⟨x, y⟩ : ℂ).re ∨ (⟨x, y⟩ : ℂ) = 0)
  rw [abs_lt] at hl
  rw [← h, Real.arctan_tan hl.1 hl.2]

theorem arg_of_re_neg (x y : ℝ) (hx : x < 0) (hy : y ≠ 0) :
    Complex.arg ⟨x, y⟩ = Real.arctan (y / x) + (if y < 0 then -Real.pi else Real.pi) := by
  have hz : (⟨x, y⟩ : ℂ) = -⟨-x, -y⟩ := by apply Complex.ext <;> simp
  have ha := arg_of_re_pos (-x) (-y) (by linarith)
  rw [neg_div_neg_eq] at ha
  split
  · next h =>
    rw [hz, Complex.arg_neg_eq_arg_sub_pi_of_im_pos (by simpa using h), ha]
    ring
  · next h =>
    have : 0 < y := lt_of_le_of_ne (not_lt.1 h) (Ne.symm hy)
    rw [hz, Complex.arg_neg_eq_arg_add_pi_of_im_neg (by simpa using this), ha]

/-- The quotient of `atan2Frac` is within 4e-20 of the angle of the point. -/
theorem atan2Frac_close (y x : Int) (hy : y ≠ 0) (hx : x ≠ 0) (s : ℝ) (hs : 0 < s) :
    0 < (atan2Frac y x).2 ∧ |fracValue (atan2Frac y x) - Complex.arg ⟨x / s, y / s⟩| ≤ 4 / 10 ^ 20 := by
  have ha : 0 < y.natAbs := Int.natAbs_pos.2 hy
  have hb : 0 < x.natAbs := Int.natAbs_pos.2 hx
  -- the first-quadrant angle
  obtain ⟨t, ht, hpos, hT⟩ : ∃ t : Int × Nat,
      t = (if y.natAbs ≤ x.natAbs then atanUnit y.natAbs x.natAbs
        else ((piNum * (atanUnit x.natAbs y.natAbs).2 : Nat) - (atanUnit x.natAbs y.natAbs).1 * (2 ^ 193 : Nat),
          2 ^ 193 * (atanUnit x.natAbs y.natAbs).2)) ∧ 0 < t.2 ∧
      |fracValue t - Real.arctan ((y.natAbs : ℝ) / x.natAbs)| ≤ 3 / 10 ^ 20 := by
    refine ⟨_, rfl, ?_⟩
    split
    · next h =>
      refine ⟨atanUnit_den_pos _ _ hb, (atanUnit_close _ _ hb h).trans ?_⟩
      norm_num
    · next h =>
      refine ⟨Nat.mul_pos (by positivity) (atanUnit_den_pos _ _ ha), ?_⟩
      rw [fracValue_piSub _ _ (atanUnit_den_pos _ _ ha)]
      have hc := atanUnit_close x.natAbs y.natAbs ha (by omega)
      have hinv : Real.arctan ((y.natAbs : ℝ) / x.natAbs)
          = Real.pi / 2 - Real.arctan ((x.natAbs : ℝ) / y.natAbs) := by
        rw [← Real.arctan_inv_of_pos (by positivity), inv_div]
      rw [hinv]
      calc _ = |((piNum : ℝ) / 2 ^ 193 - Real.pi / 2) - (fracValue (atanUnit x.natAbs y.natAbs) -
              Real.arctan ((x.natAbs : ℝ) / y.natAbs))| := by
            congr 1
            ring
        _ ≤ _ := abs_sub _ _
        _ ≤ 1 / 10 ^ 20 + 2 / 10 ^ 20 := add_le_add piNum_half hc
        _ = _ := by norm_num
  have hdef : atan2Frac y x =
      (if y < 0 then -(if x < 0 then (((piNum * t.2 : Nat) - t.1 * (2 ^ 192 : Nat) : Int), 2 ^ 192 * t.2) else t).1
        else (if x < 0 then (((piNum * t.2 : Nat) - t.1 * (2 ^ 192 : Nat) : Int), 2 ^ 192 * t.2) else t).1,
        (if x < 0 then (((piNum * t.2 : Nat) - t.1 * (2 ^ 192 : Nat) : Int), 2 ^ 192 * t.2) else t).2) := by
    rw [ht]
    rfl
  obtain ⟨u, hu, hupos, hU⟩ : ∃ u : Int × Nat,
      u = (if x < 0 then (((piNum * t.2 : Nat) - t.1 * (2 ^ 192 : Nat) : Int), 2 ^ 192 * t.2) else t) ∧ 0 < u.2 ∧
      |fracValue u - (if x < 0 then Real.pi - Real.arctan ((y.natAbs : ℝ) / x.natAbs)
        else Real.arctan ((y.natAbs : ℝ) / x.natAbs))| ≤ 4 / 10 ^ 20 := by
    refine ⟨_, rfl, ?_⟩
    split
    · refine ⟨Nat.mul_pos (by positivity) hpos, ?_⟩
      rw [fracValue_piSub _ _ hpos]
      calc _ = |((piNum : ℝ) / 2 ^ 192 - Real.pi) - (fracValue t -
              Real.arctan ((y.natAbs : ℝ) / x.natAbs))| := by
            congr 1
            ring
        _ ≤ _ := abs_sub _ _
        _ ≤ 1 / 10 ^ 20 + 3 / 10 ^ 20 := add_le_add piNum_close hT
        _ = _ := by norm_num
    · refine ⟨hpos, hT.trans ?_⟩
      norm_num
  rw [← hu] at hdef
  rw [hdef]
  refine ⟨hupos, ?_⟩
  have hratio : (y : ℝ) / s / (x / s) = y / x := by
    field_simp
  have harg : Complex.arg ⟨x / s, y / s⟩ = if y < 0 then
        -(if x < 0 then Real.pi - Real.arctan ((y.natAbs : ℝ) / x.natAbs) else Real.arctan ((y.natAbs : ℝ) / x.natAbs))
      else (if x < 0 then Real.pi - Real.arctan ((y.natAbs : ℝ) / x.natAbs)
        else Real.arctan ((y.natAbs : ℝ) / x.natAbs)) := by
    have hyr : (y : ℝ) ≠ 0 := by exact_mod_cast hy
    have hxr : (x : ℝ) ≠ 0 := by exact_mod_cast hx
    simp only [Nat.cast_natAbs, Int.cast_abs]
    by_cases hx0 : x < 0
    · have hx1 : (x : ℝ) < 0 := by exact_mod_cast hx0
      rw [arg_of_re_neg _ _ (div_neg_of_neg_of_pos hx1 hs) (div_ne_zero hyr hs.ne'), hratio, abs_of_neg hx1]
      by_cases hy0 : y < 0
      · have hy1 : (y : ℝ) < 0 := by exact_mod_cast hy0
        rw [if_pos (div_neg_of_neg_of_pos hy1 hs), if_pos hy0, if_pos hx0, abs_of_neg hy1, neg_div_neg_eq]
        ring
      · have hy1 : (0 : ℝ) ≤ y := by exact_mod_cast not_lt.1 hy0
        rw [if_neg (not_lt.2 (div_nonneg hy1 hs.le)), if_neg hy0, if_pos hx0, abs_of_nonneg hy1, div_neg,
          Real.arctan_neg]
        ring
    · have hx1 : (0 : ℝ) < x := lt_of_le_of_ne (by exact_mod_cast not_lt.1 hx0) (Ne.symm hxr)
      rw [arg_of_re_pos _ _ (div_pos hx1 hs), hratio, abs_of_pos hx1]
      by_cases hy0 : y < 0
      · have hy1 : (y : ℝ) < 0 := by exact_mod_cast hy0
        rw [if_pos hy0, if_neg hx0, abs_of_neg hy1, neg_div, Real.arctan_neg, neg_neg]
      · have hy1 : (0 : ℝ) ≤ y := by exact_mod_cast not_lt.1 hy0
        rw [if_neg hy0, if_neg hx0, abs_of_nonneg hy1]
  rw [harg]
  revert hU
  generalize (if x < 0 then Real.pi - Real.arctan ((y.natAbs : ℝ) / x.natAbs)
    else Real.arctan ((y.natAbs : ℝ) / x.natAbs)) = v
  intro hU
  unfold fracValue at hU ⊢
  by_cases hy0 : y < 0
  · simp only [if_pos hy0]
    push_cast
    rw [neg_div, neg_sub_neg, abs_sub_comm]
    exact hU
  · simp only [if_neg hy0]
    exact hU

end Sys2Proof.Machine
end

