-- ==== Sys2Proof/Machine/NumSeriesFacts.lean ====
section
/-! DEFINITION. The computable stand-in for NUM_IDEAL has the properties P1 to P6 (`numSeries_admissible`), so that they are
properties a machine can have, and Machine/NumConfig.lean can give them to the open NUM. -/

namespace Sys2Proof.Machine

open Finset

/-! ## Sizes of values -/

theorem unitsOfBits_lt (m : Nat) (h : m < infBits) : unitsOfBits m < 2 ^ 277 := by
  unfold infBits at h
  unfold unitsOfBits
  split
  · next hs => exact lt_of_lt_of_le hs (Nat.pow_le_pow_right (by norm_num) (by norm_num))
  · have hm : 2 ^ 23 + m % 2 ^ 23 < 2 ^ 24 := by omega
    have he : m / 2 ^ 23 - 1 ≤ 253 := by omega
    calc (2 ^ 23 + m % 2 ^ 23) * 2 ^ (m / 2 ^ 23 - 1)
        ≤ (2 ^ 23 + m % 2 ^ 23) * 2 ^ 253 :=
          Nat.mul_le_mul_left _ (Nat.pow_le_pow_right (by norm_num) he)
      _ < 2 ^ 24 * 2 ^ 253 := Nat.mul_lt_mul_of_pos_right hm (by positivity)
      _ = 2 ^ 277 := by rw [← pow_add]

theorem abs_units (w : Word) : |(units w : ℝ)| = mag w := by
  unfold units
  split <;> simp

theorem abs_toReal_le (w : Word) (h : isFinite w = true) : |toReal w| ≤ 2 ^ 128 := by
  unfold isFinite at h
  rw [decide_eq_true_eq] at h
  unfold toReal
  rw [abs_div, abs_units, abs_of_pos (by positivity : (0 : ℝ) < 2 ^ 149), div_le_iff₀ (by positivity), ← pow_add]
  have : mag w < 2 ^ 277 := unitsOfBits_lt _ h
  exact_mod_cast this.le

theorem frameAt_finite (x : List Word) (h : ∀ w ∈ x, isFinite w = true) (i : Nat) : isFinite (frameAt x i) = true := by
  unfold frameAt
  rw [List.getD_eq_getElem?_getD]
  cases hi : x[i]? with
  | none => rfl
  | some w => exact h w (List.mem_of_getElem? hi)

theorem binFinite_iff (b : Bin) : binFinite b = true ↔ isFinite b.re = true ∧ isFinite b.im = true := by
  unfold binFinite
  rw [Bool.and_eq_true]

theorem binZero_iff (b : Bin) : binZero b = true ↔ isZero b.re = true ∧ isZero b.im = true := by
  unfold binZero
  rw [Bool.and_eq_true]

theorem binAt_finite (s : List Bin) (h : ∀ b ∈ s, binFinite b = true) (i : Nat) : binFinite (binAt s i) = true := by
  unfold binAt
  rw [List.getD_eq_getElem?_getD]
  cases hi : s[i]? with
  | none => rfl
  | some w => exact h w (List.mem_of_getElem? hi)

theorem frameAt_zero (x : List Word) (h : ∀ w ∈ x, isZero w = true) (i : Nat) : isZero (frameAt x i) = true := by
  unfold frameAt
  rw [List.getD_eq_getElem?_getD]
  cases hi : x[i]? with
  | none => rfl
  | some w => exact h w (List.mem_of_getElem? hi)

theorem binAt_zero (s : List Bin) (h : ∀ b ∈ s, binZero b = true) (i : Nat) : binZero (binAt s i) = true := by
  unfold binAt
  rw [List.getD_eq_getElem?_getD]
  cases hi : s[i]? with
  | none => rfl
  | some w => exact h w (List.mem_of_getElem? hi)

theorem units_zero (w : Word) (h : isZero w = true) : units w = 0 := by
  unfold isZero at h
  rw [decide_eq_true_eq] at h
  unfold units mag
  rw [h]
  simp [unitsOfBits]

theorem isFinite_of_isZero (w : Word) (h : isZero w = true) : isFinite w = true := by
  unfold isZero at h
  rw [decide_eq_true_eq] at h
  simp [isFinite, h, infBits]

theorem mag_pos (w : Word) (h : isZero w = false) : 0 < mag w := by
  unfold isZero at h
  rw [decide_eq_false_iff_not] at h
  unfold mag unitsOfBits
  split
  · omega
  · positivity

theorem units_ne_zero (w : Word) (h : isZero w = false) : units w ≠ 0 := by
  have := mag_pos w h
  unfold units
  split <;> omega

/-! ## Sums near sums -/

/-- A list sum over `range` as a finset sum. -/
theorem list_sum_range (f : Nat → Int) (n : Nat) : (((List.range n).map f).sum : Int) = ∑ i ∈ range n, f i := by
  induction n with
  | zero => rfl
  | succ n ih => rw [List.range_succ, List.map_append, List.sum_append, ih, Finset.sum_range_succ]; simp

/-- A sum with perturbed weights. -/
theorem sum_close (n : Nat) (u c c' : Nat → ℝ) (e : ℝ) (h : ∀ i, |c i - c' i| ≤ e) :
    |∑ i ∈ range n, u i * c i - ∑ i ∈ range n, u i * c' i| ≤ e * ∑ i ∈ range n, |u i| := by
  rw [← Finset.sum_sub_distrib, Finset.mul_sum]
  refine (Finset.abs_sum_le_sum_abs _ _).trans (Finset.sum_le_sum fun i _ => ?_)
  rw [← mul_sub, abs_mul, mul_comm]
  exact mul_le_mul_of_nonneg_right (h i) (abs_nonneg _)

theorem sum_le_l1 (n : Nat) (u c : Nat → ℝ) (h : ∀ i, |c i| ≤ 1) :
    |∑ i ∈ range n, u i * c i| ≤ ∑ i ∈ range n, |u i| := by
  refine (Finset.abs_sum_le_sum_abs _ _).trans (Finset.sum_le_sum fun i _ => ?_)
  rw [abs_mul]
  exact mul_le_of_le_one_right (abs_nonneg _) (h i)

theorem half_add_half_le_max (a b : ℝ) : a / 2 + b / 2 ≤ max a b := by
  have h1 := le_max_left a b
  have h2 := le_max_right a b
  linarith

/-- The rounding of a quotient in units near a real target. -/
theorem rn32_near (x : Int) (d : Nat) (hd : 0 < d) (v e l : ℝ) (hv : |v| < 2 ^ 127) (hvl : |v| ≤ l)
    (hx : |(x : ℝ) / d / 2 ^ 149 - v| ≤ e) (he : e ≤ 2 ^ 126) (hel : e ≤ l / 2 ^ 30) :
    isFinite (rn32 x d) = true ∧ |toReal (rn32 x d) - v| ≤ max (defaultTolFft * l) (1 / 2 ^ 149) := by
  have hA : (0 : ℝ) < 2 ^ 149 := by positivity
  have hb : |(x : ℝ) / d / 2 ^ 149| ≤ |v| + e := by
    have := abs_sub_abs_le_abs_sub ((x : ℝ) / d / 2 ^ 149) v
    linarith
  have hmul : |(x : ℝ) / d| = |(x : ℝ) / d / 2 ^ 149| * 2 ^ 149 := by
    rw [abs_div _ ((2 : ℝ) ^ 149), abs_of_pos hA, div_mul_cancel₀ _ hA.ne']
  have hbound : |(x : ℝ) / d| ≤ 3 * 2 ^ 275 := by
    rw [hmul]
    calc _ ≤ (3 * 2 ^ 126 : ℝ) * 2 ^ 149 := by
          apply mul_le_mul_of_nonneg_right _ hA.le
          have : (3 * 2 ^ 126 : ℝ) = 2 ^ 127 + 2 ^ 126 := by norm_num
          linarith
      _ = 3 * 2 ^ 275 := by rw [mul_assoc, ← pow_add]
  refine ⟨rn32_finite _ _ hd hbound, ?_⟩
  have hc := rn32_close x d hd hbound
  have h1 : |toReal (rn32 x d) - (x : ℝ) / d / 2 ^ 149| ≤ 1 / 2 ^ 150 + |(x : ℝ) / d / 2 ^ 149| / 2 ^ 24 := by
    unfold toReal
    rw [← sub_div, abs_div, abs_of_pos hA, div_le_iff₀ hA]
    refine hc.trans (le_of_eq ?_)
    have h150 : (2 : ℝ) ^ 150 = 2 ^ 149 * 2 := pow_succ 2 149
    rw [hmul, h150]
    generalize |(x : ℝ) / d / 2 ^ 149| = X
    generalize (2 : ℝ) ^ 149 = A at hA
    field_simp
  have h2 := abs_sub_le (toReal (rn32 x d)) ((x : ℝ) / d / 2 ^ 149) v
  have hl0 : 0 ≤ l := (abs_nonneg v).trans hvl
  have h3 : |(x : ℝ) / d / 2 ^ 149| / 2 ^ 24 ≤ (l + l / 2 ^ 30) / 2 ^ 24 := by
    apply div_le_div_of_nonneg_right _ (by positivity)
    linarith
  have h4 : (l + l / 2 ^ 30) / 2 ^ 24 + l / 2 ^ 30 ≤ defaultTolFft * l / 2 := by
    unfold defaultTolFft Config.defaultTolFftExp
    norm_num
    linarith
  have h5 : (1 : ℝ) / 2 ^ 150 = 1 / 2 ^ 149 / 2 := by norm_num
  have h6 := half_add_half_le_max (defaultTolFft * l) (1 / 2 ^ 149)
  linarith

/-! ## The transforms -/

theorem l1Frame_nonneg (p : Nat) (x : List Word) : 0 ≤ l1Frame p x := Finset.sum_nonneg fun _ _ => abs_nonneg _

theorem l1Frame_le (p : Nat) (x : List Word) (hp : p ≤ 31) (hx : ∀ w ∈ x, isFinite w = true) :
    l1Frame p x ≤ 2 ^ 159 := by
  unfold l1Frame
  calc _ ≤ ∑ _n ∈ range (frameSize p), (2 : ℝ) ^ 128 :=
        Finset.sum_le_sum fun i _ => abs_toReal_le _ (frameAt_finite x hx i)
    _ = (frameSize p : ℝ) * 2 ^ 128 := by rw [Finset.sum_const, card_range, nsmul_eq_mul]
    _ ≤ 2 ^ 31 * 2 ^ 128 := by
        apply mul_le_mul_of_nonneg_right _ (by positivity)
        unfold frameSize
        have : 2 ^ p ≤ 2 ^ 31 := Nat.pow_le_pow_right (by norm_num) hp
        exact_mod_cast this
    _ = 2 ^ 159 := by rw [← pow_add]

theorem seriesRe_real (p : Nat) (x : List Word) (k : Nat) :
    (seriesRe p x k : ℝ) / turnDen p / 2 ^ 149 =
      ∑ n ∈ range (frameSize p), toReal (frameAt x n) * ((cosTurn p (k * n) : ℝ) / turnDen p) := by
  unfold seriesRe
  rw [list_sum_range, Int.cast_sum, Finset.sum_div, Finset.sum_div]
  apply Finset.sum_congr rfl
  intro n _
  unfold toReal
  rw [Int.cast_mul]
  ring

theorem seriesIm_real (p : Nat) (x : List Word) (k : Nat) :
    (seriesIm p x k : ℝ) / turnDen p / 2 ^ 149 =
      -∑ n ∈ range (frameSize p), toReal (frameAt x n) * ((sinTurn p (k * n) : ℝ) / turnDen p) := by
  unfold seriesIm
  rw [list_sum_range, Int.cast_neg, Int.cast_sum, neg_div, neg_div, Finset.sum_div, Finset.sum_div]
  congr 1
  apply Finset.sum_congr rfl
  intro n _
  unfold toReal
  rw [Int.cast_mul]
  ring

theorem seriesRfft_at (p : Nat) (x : List Word) (k : Nat) (hk : k < numBinsOf p) (hx : ∀ w ∈ x, isFinite w = true) :
    binAt (seriesRfft p x) k = ⟨rn32 (seriesRe p x k) (turnDen p), rn32 (seriesIm p x k) (turnDen p)⟩ := by
  have : x.all isFinite = true := List.all_eq_true.2 hx
  unfold binAt seriesRfft
  rw [List.getD_eq_getElem?_getD, List.getElem?_map, List.getElem?_range hk]
  simp [this]

theorem turnErr_pos : 0 < turnErr := by
  unfold turnErr
  positivity

theorem numSeries_rfft_close (p : Nat) (x : List Word) (hp : 2 ≤ p) (hp31 : p ≤ 31) (hx : ∀ w ∈ x, isFinite w = true)
    (k : Nat) (hk : k < numBinsOf p) (hre : |dftRe p x k| < 2 ^ 127) (him : |dftIm p x k| < 2 ^ 127) :
    binFinite (binAt (seriesRfft p x) k) = true ∧
      |toReal (binAt (seriesRfft p x) k).re - dftRe p x k| ≤ max (defaultTolFft * l1Frame p x) (1 / 2 ^ 149) ∧
      |toReal (binAt (seriesRfft p x) k).im - dftIm p x k| ≤ max (defaultTolFft * l1Frame p x) (1 / 2 ^ 149) := by
  rw [seriesRfft_at p x k hk hx]
  have hL := l1Frame_le p x hp31 hx
  have hL0 := l1Frame_nonneg p x
  have he : turnErr * l1Frame p x ≤ 2 ^ 126 := by
    calc _ ≤ turnErr * 2 ^ 159 := mul_le_mul_of_nonneg_left hL turnErr_pos.le
      _ ≤ 2 ^ 126 := by unfold turnErr; norm_num
  have hel : turnErr * l1Frame p x ≤ l1Frame p x / 2 ^ 30 := by
    rw [mul_comm, div_eq_mul_one_div]
    apply mul_le_mul_of_nonneg_left _ hL0
    unfold turnErr
    norm_num
  obtain ⟨f1, c1⟩ := rn32_near (seriesRe p x k) (turnDen p) (turnDen_pos p) (dftRe p x k) (turnErr * l1Frame p x)
    (l1Frame p x) hre (sum_le_l1 _ _ _ fun i => Real.abs_cos_le_one _)
    (by rw [seriesRe_real]; exact sum_close _ _ _ _ _ fun i => cosTurn_close p _ hp) he hel
  obtain ⟨f2, c2⟩ := rn32_near (seriesIm p x k) (turnDen p) (turnDen_pos p) (dftIm p x k) (turnErr * l1Frame p x)
    (l1Frame p x) him
    (by unfold dftIm realRfftIm; rw [abs_neg]; exact sum_le_l1 _ _ _ fun i => Real.abs_sin_le_one _)
    (by
      rw [seriesIm_real]
      unfold dftIm realRfftIm
      rw [neg_sub_neg, abs_sub_comm]
      exact sum_close _ _ _ _ _ fun i => sinTurn_close p _ hp) he hel
  refine ⟨?_, c1, c2⟩
  unfold binFinite
  rw [f1, f2]
  rfl

theorem l1Spectrum_nonneg (p : Nat) (s : List Bin) : 0 ≤ l1Spectrum p s :=
  Finset.sum_nonneg fun _ _ => by positivity

theorem l1Spectrum_le (p : Nat) (s : List Bin) (hp : 2 ≤ p) (hs : ∀ b ∈ s, binFinite b = true) :
    l1Spectrum p s ≤ frameSize p * 2 ^ 129 := by
  unfold l1Spectrum
  have hn : numBinsOf p ≤ frameSize p := by
    have : 2 ^ 2 ≤ 2 ^ p := Nat.pow_le_pow_right (by norm_num) hp
    unfold numBinsOf frameSize
    omega
  calc _ ≤ ∑ _k ∈ range (numBinsOf p), (2 : ℝ) ^ 129 := by
        refine Finset.sum_le_sum fun i _ => ?_
        have h := binAt_finite s hs i
        unfold binFinite at h
        rw [Bool.and_eq_true] at h
        have h1 := abs_toReal_le _ h.1
        have h2 := abs_toReal_le _ h.2
        have : (2 : ℝ) ^ 129 = 2 ^ 128 + 2 ^ 128 := by rw [show (129 : Nat) = 128 + 1 from rfl, pow_succ]; ring
        linarith
    _ = (numBinsOf p : ℝ) * 2 ^ 129 := by rw [Finset.sum_const, card_range, nsmul_eq_mul]
    _ ≤ _ := by
        apply mul_le_mul_of_nonneg_right _ (by positivity)
        exact_mod_cast hn

/-- The sum of R144 with weights `c` and `s` in place of the cosines and the sines. -/
noncomputable def idftSum (p : Nat) (s : List Bin) (n : Nat) (c sn : Nat → ℝ) : ℝ :=
  toReal (binAt s 0).re + (-1) ^ n * toReal (binAt s (frameSize p / 2)).re +
    2 * ∑ j ∈ range (frameSize p / 2 - 1),
      (toReal (binAt s (j + 1)).re * c ((j + 1) * n) - toReal (binAt s (j + 1)).im * sn ((j + 1) * n))

theorem seriesSample_real (p : Nat) (s : List Bin) (n : Nat) :
    (seriesSample p s n : ℝ) / (frameSize p * turnDen p : Nat) / 2 ^ 149 =
      idftSum p s n (fun r => (cosTurn p r : ℝ) / turnDen p) (fun r => (sinTurn p r : ℝ) / turnDen p) / frameSize p := by
  have hd : (turnDen p : ℝ) ≠ 0 := by exact_mod_cast (turnDen_pos p).ne'
  have hn : (frameSize p : ℝ) ≠ 0 := by
    unfold frameSize
    positivity
  have hA : (2 : ℝ) ^ 149 ≠ 0 := by positivity
  have hsum : ((((List.range (frameSize p / 2 - 1)).map fun j =>
      units (binAt s (j + 1)).re * cosTurn p ((j + 1) * n) - units (binAt s (j + 1)).im * sinTurn p ((j + 1) * n)).sum : Int) : ℝ)
      = (∑ j ∈ range (frameSize p / 2 - 1), (toReal (binAt s (j + 1)).re * ((cosTurn p ((j + 1) * n) : ℝ) / turnDen p) -
        toReal (binAt s (j + 1)).im * ((sinTurn p ((j + 1) * n) : ℝ) / turnDen p))) * (turnDen p * 2 ^ 149) := by
    rw [list_sum_range, Int.cast_sum, Finset.sum_mul]
    apply Finset.sum_congr rfl
    intro j _
    unfold toReal
    rw [Int.cast_sub, Int.cast_mul, Int.cast_mul]
    generalize (2 : ℝ) ^ 149 = A at hA
    field_simp
  have hsgn : (((if n % 2 = 0 then 1 else -1 : Int)) : ℝ) = (-1) ^ n := by
    rcases Nat.mod_two_eq_zero_or_one n with h | h
    · rw [if_pos h, Even.neg_one_pow (Nat.even_iff.2 h)]
      norm_num
    · rw [if_neg (by omega), Odd.neg_one_pow (Nat.odd_iff.2 h)]
      norm_num
  unfold seriesSample idftSum
  simp only
  rw [Int.cast_add, Int.cast_mul, Int.cast_mul, hsum, Int.cast_add, Int.cast_mul, hsgn, Nat.cast_mul]
  unfold toReal
  generalize (2 : ℝ) ^ 149 = A at hA
  simp only [Int.cast_natCast, Int.cast_ofNat]
  field_simp

/-- The components that enter the sum of R144 are among those of `l1Spectrum`. -/
theorem idft_weights_le (p : Nat) (s : List Bin) (hp : 2 ≤ p) :
    |toReal (binAt s 0).re| + |toReal (binAt s (frameSize p / 2)).re| +
      ∑ j ∈ range (frameSize p / 2 - 1), (|toReal (binAt s (j + 1)).re| + |toReal (binAt s (j + 1)).im|)
      ≤ l1Spectrum p s := by
  have h4 : 4 ≤ frameSize p := by
    have : 2 ^ 2 ≤ 2 ^ p := Nat.pow_le_pow_right (by norm_num) hp
    unfold frameSize
    omega
  obtain ⟨h, hh⟩ : ∃ h, frameSize p / 2 = h + 1 := ⟨frameSize p / 2 - 1, by omega⟩
  unfold l1Spectrum numBinsOf
  rw [hh, Finset.sum_range_succ, Finset.sum_range_succ', Nat.add_sub_cancel]
  have h1 := abs_nonneg (toReal (binAt s 0).im)
  have h2 := abs_nonneg (toReal (binAt s (h + 1)).im)
  linarith

theorem idftSum_close (p : Nat) (s : List Bin) (n : Nat) (hp : 2 ≤ p) (c c' sn sn' : Nat → ℝ) (e : ℝ)
    (he : 0 ≤ e) (hc : ∀ r, |c r - c' r| ≤ e) (hs : ∀ r, |sn r - sn' r| ≤ e) :
    |idftSum p s n c sn - idftSum p s n c' sn'| ≤ 2 * e * l1Spectrum p s := by
  have hw := idft_weights_le p s hp
  have h0 := abs_nonneg (toReal (binAt s 0).re)
  have h1 := abs_nonneg (toReal (binAt s (frameSize p / 2)).re)
  unfold idftSum
  rw [add_sub_add_left_eq_sub, ← mul_sub, abs_mul, abs_two, ← Finset.sum_sub_distrib, mul_assoc]
  apply mul_le_mul_of_nonneg_left _ (by norm_num)
  refine (Finset.abs_sum_le_sum_abs _ _).trans ?_
  calc _ ≤ ∑ j ∈ range (frameSize p / 2 - 1),
          e * (|toReal (binAt s (j + 1)).re| + |toReal (binAt s (j + 1)).im|) := by
        refine Finset.sum_le_sum fun j _ => ?_
        have : ∀ a b x x' y y' : ℝ, a * x - b * y - (a * x' - b * y') = a * (x - x') - b * (y - y') := by
          intros; ring
        rw [this]
        refine (abs_sub _ _).trans ?_
        rw [abs_mul, abs_mul, mul_add, mul_comm e, mul_comm e]
        exact add_le_add (mul_le_mul_of_nonneg_left (hc _) (abs_nonneg _))
          (mul_le_mul_of_nonneg_left (hs _) (abs_nonneg _))
    _ = e * ∑ j ∈ range (frameSize p / 2 - 1), (|toReal (binAt s (j + 1)).re| + |toReal (binAt s (j + 1)).im|) := by
        rw [Finset.mul_sum]
    _ ≤ e * l1Spectrum p s := mul_le_mul_of_nonneg_left (by linarith) he

theorem idftSum_le (p : Nat) (s : List Bin) (n : Nat) (hp : 2 ≤ p) (c sn : Nat → ℝ)
    (hc : ∀ r, |c r| ≤ 1) (hs : ∀ r, |sn r| ≤ 1) :
    |idftSum p s n c sn| ≤ 2 * l1Spectrum p s := by
  have hw := idft_weights_le p s hp
  have h0 := abs_nonneg (toReal (binAt s 0).re)
  have h1 := abs_nonneg (toReal (binAt s (frameSize p / 2)).re)
  have h2 : |(-1) ^ n * toReal (binAt s (frameSize p / 2)).re| = |toReal (binAt s (frameSize p / 2)).re| := by
    rw [abs_mul, abs_pow, abs_neg, abs_one, one_pow, one_mul]
  have h3 : |∑ j ∈ range (frameSize p / 2 - 1),
      (toReal (binAt s (j + 1)).re * c ((j + 1) * n) - toReal (binAt s (j + 1)).im * sn ((j + 1) * n))|
      ≤ ∑ j ∈ range (frameSize p / 2 - 1), (|toReal (binAt s (j + 1)).re| + |toReal (binAt s (j + 1)).im|) := by
    refine (Finset.abs_sum_le_sum_abs _ _).trans (Finset.sum_le_sum fun j _ => (abs_sub _ _).trans ?_)
    rw [abs_mul, abs_mul]
    exact add_le_add (mul_le_of_le_one_right (abs_nonneg _) (hc _)) (mul_le_of_le_one_right (abs_nonneg _) (hs _))
  have h4 : 0 ≤ ∑ j ∈ range (frameSize p / 2 - 1), (|toReal (binAt s (j + 1)).re| + |toReal (binAt s (j + 1)).im|) :=
    Finset.sum_nonneg fun _ _ => by positivity
  unfold idftSum
  refine (abs_add_le _ _).trans ?_
  refine (add_le_add (abs_add_le _ _) (le_refl _)).trans ?_
  rw [h2, abs_mul, abs_two]
  linarith

theorem seriesIrfft_at (p : Nat) (s : List Bin) (n : Nat) (hn : n < frameSize p) (hs : ∀ b ∈ s, binFinite b = true) :
    frameAt (seriesIrfft p s) n = rn32 (seriesSample p s n) (frameSize p * turnDen p) := by
  have : s.all (fun b => isFinite b.re && isFinite b.im) = true := List.all_eq_true.2 hs
  unfold frameAt seriesIrfft
  rw [List.getD_eq_getElem?_getD, List.getElem?_map, List.getElem?_range hn]
  simp [this]

theorem numSeries_irfft_close (p : Nat) (s : List Bin) (hp : 2 ≤ p) (hs : ∀ b ∈ s, binFinite b = true)
    (n : Nat) (hn : n < frameSize p) (hy : |idft p s n| < 2 ^ 127) :
    isFinite (frameAt (seriesIrfft p s) n) = true ∧
      |toReal (frameAt (seriesIrfft p s) n) - idft p s n|
        ≤ max (defaultTolFft * (2 / frameSize p) * l1Spectrum p s) (1 / 2 ^ 149) := by
  rw [seriesIrfft_at p s n hn hs, mul_assoc defaultTolFft]
  have hN : (0 : ℝ) < frameSize p := by
    unfold frameSize
    positivity
  have hL := l1Spectrum_le p s hp hs
  have hL0 := l1Spectrum_nonneg p s
  have hid : idft p s n
      = idftSum p s n (fun r => Real.cos (turnAngle p r)) (fun r => Real.sin (turnAngle p r)) / frameSize p := rfl
  have hl : 2 / frameSize p * l1Spectrum p s ≤ 2 ^ 130 := by
    rw [div_mul_eq_mul_div, div_le_iff₀ hN, show (130 : Nat) = 129 + 1 from rfl, pow_succ]
    linarith
  have hl0 : 0 ≤ 2 / frameSize p * l1Spectrum p s := by positivity
  refine rn32_near _ _ (Nat.mul_pos (by exact_mod_cast hN) (turnDen_pos p)) _ (turnErr * (2 / frameSize p * l1Spectrum p s))
    _ hy ?_ ?_ ?_ ?_
  · rw [hid, abs_div, abs_of_pos hN, div_le_iff₀ hN]
    refine (idftSum_le p s n hp _ _ (fun r => Real.abs_cos_le_one _) (fun r => Real.abs_sin_le_one _)).trans
      (le_of_eq ?_)
    field_simp
  · rw [seriesSample_real, hid, ← sub_div, abs_div, abs_of_pos hN, div_le_iff₀ hN]
    refine (idftSum_close p s n hp _ _ _ _ turnErr turnErr_pos.le (fun r => cosTurn_close p r hp)
      (fun r => sinTurn_close p r hp)).trans (le_of_eq ?_)
    field_simp
  · calc _ ≤ turnErr * 2 ^ 130 := mul_le_mul_of_nonneg_left hl turnErr_pos.le
      _ ≤ 2 ^ 126 := by unfold turnErr; norm_num
  · rw [mul_comm, div_eq_mul_one_div (2 / (frameSize p : ℝ) * l1Spectrum p s)]
    apply mul_le_mul_of_nonneg_left _ hl0
    unfold turnErr
    norm_num

theorem seriesRe_of_zero (p : Nat) (x : List Word) (k : Nat) (h : ∀ w ∈ x, isZero w = true) : seriesRe p x k = 0 := by
  unfold seriesRe
  rw [list_sum_range]
  exact Finset.sum_eq_zero fun i _ => by rw [units_zero _ (frameAt_zero x h i), zero_mul]

theorem seriesIm_of_zero (p : Nat) (x : List Word) (k : Nat) (h : ∀ w ∈ x, isZero w = true) : seriesIm p x k = 0 := by
  unfold seriesIm
  rw [list_sum_range, Finset.sum_eq_zero fun i _ => by rw [units_zero _ (frameAt_zero x h i), zero_mul]]
  rfl

theorem seriesSample_of_zero (p : Nat) (s : List Bin) (n : Nat) (h : ∀ b ∈ s, binZero b = true) : seriesSample p s n = 0 := by
  have hz : ∀ i, units (binAt s i).re = 0 ∧ units (binAt s i).im = 0 := by
    intro i
    have := binAt_zero s h i
    unfold binZero at this
    rw [Bool.and_eq_true] at this
    exact ⟨units_zero _ this.1, units_zero _ this.2⟩
  unfold seriesSample
  simp only
  rw [list_sum_range, Finset.sum_eq_zero fun i _ => by rw [(hz _).1, (hz _).2, zero_mul, zero_mul, sub_zero],
    (hz _).1, (hz _).1]
  simp

theorem numSeries_rfft_zero (p : Nat) (x : List Word) (h : ∀ w ∈ x, isZero w = true) (b : Bin)
    (hb : b ∈ seriesRfft p x) : binZero b = true := by
  have hf : x.all isFinite = true := List.all_eq_true.2 fun w hw => isFinite_of_isZero w (h w hw)
  unfold seriesRfft at hb
  rw [List.mem_map] at hb
  obtain ⟨k, -, rfl⟩ := hb
  rw [if_pos hf, seriesRe_of_zero p x k h, seriesIm_of_zero p x k h, rn32_zero]
  rfl

theorem numSeries_irfft_zero (p : Nat) (s : List Bin) (h : ∀ b ∈ s, binZero b = true) (w : Word)
    (hw : w ∈ seriesIrfft p s) : isZero w = true := by
  have hf : s.all (fun b => isFinite b.re && isFinite b.im) = true := by
    refine List.all_eq_true.2 fun b hb => ?_
    have := h b hb
    unfold binZero at this
    rw [Bool.and_eq_true] at this
    rw [isFinite_of_isZero _ this.1, isFinite_of_isZero _ this.2]
    rfl
  unfold seriesIrfft at hw
  rw [List.mem_map] at hw
  obtain ⟨k, -, rfl⟩ := hw
  rw [if_pos hf, seriesSample_of_zero p s k h, rn32_zero]
  rfl

/-! ## The functions of an angle -/

theorem isNaN_defaultNaN : isNaN defaultNaN = true := by decide

theorem one_units : (unitsOfBits (absBits oneW) : ℝ) / 2 ^ 149 = 1 := by
  have : unitsOfBits (absBits oneW) = 2 ^ 149 := by decide +kernel
  rw [this, Nat.cast_pow, Nat.cast_ofNat]
  exact div_self (pow_ne_zero _ two_ne_zero)

/-- A limited rounding near a target of magnitude at most the limit. -/
theorem roundLimited_near (lim : Nat) (n : Int) (d : Nat) (hd : 0 < d) (v e : ℝ)
    (hv : |v| ≤ unitsOfBits lim / 2 ^ 149) (hv4 : |v| ≤ 4) (hn : |(n : ℝ) / d - v| ≤ e) (he : e ≤ 1 / 2 ^ 40) :
    |toReal (roundLimited lim n d) - v| ≤ |v| / 2 ^ 24 + 1 / 2 ^ 39 := by
  have hb : |(n : ℝ) / d| ≤ |v| + e := by
    have := abs_sub_abs_le_abs_sub ((n : ℝ) / d) v
    linarith
  have hc := (toReal_rn32_close n d hd (by
    refine hb.trans ?_
    have : (1 : ℝ) / 2 ^ 40 ≤ 1 := by norm_num
    have : (5 : ℝ) ≤ 3 * 2 ^ 126 := by norm_num
    linarith)).2
  refine (toReal_roundLimited_close lim n d v hv).trans ((abs_sub_le _ ((n : ℝ) / d) _).trans ?_)
  have h1 : |(n : ℝ) / d| / 2 ^ 24 ≤ (|v| + 1 / 2 ^ 40) / 2 ^ 24 := by
    apply div_le_div_of_nonneg_right _ (by positivity)
    linarith
  have h2 : (1 / 2 ^ 40 : ℝ) / 2 ^ 24 + 1 / 2 ^ 150 + 1 / 2 ^ 40 ≤ 1 / 2 ^ 39 := by norm_num
  rw [add_div] at h1
  linarith

theorem angle_close (a : Word) (h4 : |toReal a| ≤ 4) :
    0 < (expTurn (reduceAngle (units a)).1 (reduceAngle (units a)).2 64 1).2.2 ∧
    |((expTurn (reduceAngle (units a)).1 (reduceAngle (units a)).2 64 1).1 : ℝ) /
        (expTurn (reduceAngle (units a)).1 (reduceAngle (units a)).2 64 1).2.2 - Real.cos (toReal a)| ≤ 1 / 2 ^ 40 ∧
    |((expTurn (reduceAngle (units a)).1 (reduceAngle (units a)).2 64 1).2.1 : ℝ) /
        (expTurn (reduceAngle (units a)).1 (reduceAngle (units a)).2 64 1).2.2 - Real.sin (toReal a)| ≤ 1 / 2 ^ 40 := by
  have hu : (units a).natAbs ≤ 8 * 2 ^ 149 := by
    unfold toReal at h4
    rw [abs_div, abs_of_pos (by positivity : (0 : ℝ) < 2 ^ 149), div_le_iff₀ (by positivity)] at h4
    have : (((units a).natAbs : Nat) : ℝ) ≤ ((8 * 2 ^ 149 : Nat) : ℝ) := by
      rw [Nat.cast_natAbs]
      push_cast
      linarith
    exact_mod_cast this
  have hr : reduceAngle (units a) = (units a, 2 ^ 149) := by
    unfold reduceAngle
    rw [if_pos hu]
  rw [hr]
  simp only
  have hv : (units a : ℝ) / ((2 ^ 149 : Nat) : ℝ) = toReal a := by
    unfold toReal
    rw [Nat.cast_pow, Nat.cast_ofNat]
  have hc := expTurn_close (units a) (2 ^ 149) 64 (by positivity) (by
    rw [hv]
    norm_num
    linarith)
  rw [hv] at hc
  have hrem : |toReal a| ^ (64 + 1) / ((64 + 1).factorial : ℝ) * 2 ≤ 1 / 2 ^ 40 := by
    calc _ ≤ (4 : ℝ) ^ (64 + 1) / ((64 + 1).factorial : ℝ) * 2 := by gcongr
      _ ≤ _ := by norm_num [Nat.factorial]
  exact ⟨expTurn_den_pos _ _ _ _ (by positivity) (by norm_num), hc.1.trans hrem, hc.2.trans hrem⟩

theorem defaultTolTrig_one : (1 : ℝ) / 2 ^ 24 + 1 / 2 ^ 39 ≤ defaultTolTrig := by
  unfold defaultTolTrig Config.defaultTolTrigExp
  norm_num

theorem numSeries_fsin_close (a : Word) (hf : isFinite a = true) (h4 : |toReal a| ≤ 4) :
    |toReal (seriesSin a) - Real.sin (toReal a)| ≤ defaultTolTrig := by
  unfold seriesSin
  rw [if_pos hf]
  split
  · next hz =>
    have : toReal a = 0 := by simp [toReal, units_zero a hz]
    rw [this, Real.sin_zero, sub_zero, abs_zero]
    unfold defaultTolTrig
    positivity
  · obtain ⟨hd, -, hs⟩ := angle_close a h4
    have h1 := Real.abs_sin_le_one (toReal a)
    refine (roundLimited_near _ _ _ hd _ _ (by rw [one_units]; exact h1) (by linarith) hs le_rfl).trans ?_
    have : |Real.sin (toReal a)| / 2 ^ 24 ≤ 1 / 2 ^ 24 := by gcongr
    exact (add_le_add this le_rfl).trans defaultTolTrig_one

theorem numSeries_fcos_close (a : Word) (hf : isFinite a = true) (h4 : |toReal a| ≤ 4) :
    |toReal (seriesCos a) - Real.cos (toReal a)| ≤ defaultTolTrig := by
  unfold seriesCos
  rw [if_pos hf]
  split
  · next hz =>
    have h0 : toReal a = 0 := by simp [toReal, units_zero a hz]
    have h1 : toReal oneW = 1 := by
      have : units oneW = 2 ^ 149 := by decide +kernel
      unfold toReal
      rw [this, Int.cast_pow, Int.cast_ofNat]
      exact div_self (pow_ne_zero _ two_ne_zero)
    rw [h0, h1, Real.cos_zero, sub_self, abs_zero]
    unfold defaultTolTrig
    positivity
  · obtain ⟨hd, hs, -⟩ := angle_close a h4
    have h1 := Real.abs_cos_le_one (toReal a)
    refine (roundLimited_near _ _ _ hd _ _ (by rw [one_units]; exact h1) (by linarith) hs le_rfl).trans ?_
    have : |Real.cos (toReal a)| / 2 ^ 24 ≤ 1 / 2 ^ 24 := by gcongr
    exact (add_le_add this le_rfl).trans defaultTolTrig_one

/-! ## The arctangent -/

theorem not_isNaN_of_finite (a : Word) (h : isFinite a = true) : isNaN a = false := by
  unfold isFinite at h
  unfold isNaN
  rw [decide_eq_true_eq] at h
  rw [decide_eq_false_iff_not]
  omega

theorem not_isInf_of_finite (a : Word) (h : isFinite a = true) : isInf a = false := by
  unfold isFinite at h
  unfold isInf
  rw [decide_eq_true_eq] at h
  rw [decide_eq_false_iff_not]
  omega

theorem not_isNaN_of_isZero (a : Word) (h : isZero a = true) : isNaN a = false :=
  not_isNaN_of_finite a (isFinite_of_isZero a h)

theorem pi_le_piW : Real.pi ≤ (unitsOfBits (absBits piW) : ℝ) / 2 ^ 149 := by
  have h : unitsOfBits (absBits piW) = 0xC90FDB * 2 ^ 127 := by decide +kernel
  have h2 : (((0xC90FDB * 2 ^ 127 : Nat) : ℝ)) / 2 ^ 149 = 0xC90FDB / 2 ^ 22 := by
    rw [Nat.cast_mul, Nat.cast_pow, Nat.cast_ofNat, Nat.cast_ofNat, show (149 : Nat) = 127 + 22 from rfl, pow_add,
      mul_comm ((2 : ℝ) ^ 127), mul_div_mul_right _ _ (pow_ne_zero _ two_ne_zero)]
  rw [h, h2]
  have := Real.pi_lt_d20
  norm_num
  norm_num at this
  linarith

theorem absBits_halfPi_le : absBits halfPiW ≤ absBits piW := by decide

theorem numSeries_fatan2_close_finite (y x : Word) (hy : isFinite y = true) (hx : isFinite x = true)
    (hy0 : isZero y = false) (hx0 : isZero x = false) :
    |toReal (seriesAtan2 y x) - Complex.arg ⟨toReal x, toReal y⟩| ≤ 4 * defaultTolTrig := by
  unfold seriesAtan2
  simp only [not_isNaN_of_finite y hy, not_isNaN_of_finite x hx, not_isInf_of_finite y hy, not_isInf_of_finite x hx, hy0,
    hx0, Bool.or_self, Bool.false_eq_true, if_false]
  obtain ⟨hd, hc⟩ := atan2Frac_close (units y) (units x) (units_ne_zero y hy0) (units_ne_zero x hx0) (2 ^ 149) (by positivity)
  have hpi := Complex.abs_arg_le_pi ⟨toReal x, toReal y⟩
  have h4 : |Complex.arg ⟨toReal x, toReal y⟩| ≤ 4 := hpi.trans Real.pi_le_four
  refine (roundLimited_near _ _ _ hd _ _ (hpi.trans pi_le_piW) h4 hc (by norm_num)).trans ?_
  have : |Complex.arg ⟨toReal x, toReal y⟩| / 2 ^ 24 ≤ 4 / 2 ^ 24 := by gcongr
  have h2 : (4 : ℝ) / 2 ^ 24 + 1 / 2 ^ 39 ≤ 4 * defaultTolTrig := by
    unfold defaultTolTrig Config.defaultTolTrigExp
    norm_num
  linarith

theorem isInf_of_not (a : Word) (hn : isNaN a = false) (hf : isFinite a = false) : isInf a = true := by
  unfold isNaN at hn
  unfold isFinite at hf
  unfold isInf
  rw [decide_eq_false_iff_not] at hn hf
  rw [decide_eq_true_eq]
  omega

/-- A word of the form `num / 2 ^ 22` or less, of either sign, near a real number. -/
theorem toReal_mkWord_close (neg : Bool) (m : Nat) (k : Nat) (v e : ℝ) (hm : m < 2 ^ 31)
    (hu : unitsOfBits m = k * 2 ^ 125) (hv : |(k : ℝ) / 2 ^ 24 - v| ≤ e) :
    |toReal (mkWord neg m) - (if neg then -1 else 1) * v| ≤ e := by
  have h : toReal (mkWord neg m) = (if neg then -1 else 1) * ((k : ℝ) / 2 ^ 24) := by
    unfold toReal
    rw [units_mkWord neg m hm, hu]
    have h2 : ((k * 2 ^ 125 : Nat) : ℝ) / 2 ^ 149 = k / 2 ^ 24 := by
      rw [Nat.cast_mul, Nat.cast_pow, Nat.cast_ofNat, show (149 : Nat) = 125 + 24 from rfl, pow_add, mul_comm (k : ℝ),
        mul_div_mul_left _ _ (pow_ne_zero _ two_ne_zero)]
    rw [← h2]
    cases neg
    · simp
    · simp [neg_div]
  rw [h, ← mul_sub, abs_mul]
  have : |(if neg then -1 else 1 : ℝ)| = 1 := by cases neg <;> simp
  rw [this, one_mul]
  exact hv

theorem numSeries_fatan2_close (y x : Word) (hy : isNaN y = false) (hx : isNaN x = false)
    (hy0 : isZero y = false) (hx0 : isZero x = false) :
    |toReal (seriesAtan2 y x) - pointAngle y x| ≤ 4 * defaultTolTrig := by
  have hlo := Real.pi_gt_d20
  have hhi := Real.pi_lt_d20
  norm_num at hlo hhi
  have hnear : ∀ neg m k v, m < 2 ^ 31 → unitsOfBits m = k * 2 ^ 125 → |(k : ℝ) / 2 ^ 24 - v| ≤ 1 / 2 ^ 21 →
      |toReal (mkWord neg m) - (if neg then -1 else 1) * v| ≤ 4 * defaultTolTrig := by
    intro neg m k v hm hu hv
    refine toReal_mkWord_close neg m k v _ hm hu (hv.trans ?_)
    unfold defaultTolTrig Config.defaultTolTrigExp
    norm_num
  by_cases hyf : isFinite y = true
  · have hyi := not_isInf_of_finite y hyf
    by_cases hxf : isFinite x = true
    · have h := numSeries_fatan2_close_finite y x hyf hxf hy0 hx0
      unfold pointAngle
      simpa only [hyi, not_isInf_of_finite x hxf, Bool.false_eq_true, if_false] using h
    · have hxi := isInf_of_not x hx (by simpa using hxf)
      unfold seriesAtan2 pointAngle
      simp only [hy, hx, hy0, hx0, hyi, hxi, Bool.or_self, Bool.false_eq_true, if_false, if_true]
      split
      · exact hnear _ _ 0x3243F6C _ (by decide) (by decide +kernel) (by rw [abs_le]; constructor <;> norm_num <;> linarith)
      · exact hnear _ _ 0 _ (by decide) (by decide +kernel) (by norm_num)
  · have hyi := isInf_of_not y hy (by simpa using hyf)
    unfold seriesAtan2 pointAngle
    simp only [hy, hx, hy0, hx0, hyi, Bool.or_self, Bool.false_eq_true, if_false, if_true]
    split
    · split
      · exact hnear _ _ 0x25B2F90 _ (by decide) (by decide +kernel) (by rw [abs_le]; constructor <;> norm_num <;> linarith)
      · exact hnear _ _ 0xC90FDB _ (by decide) (by decide +kernel) (by rw [abs_le]; constructor <;> norm_num <;> linarith)
    · exact hnear _ _ 0x1921FB6 _ (by decide) (by decide +kernel) (by rw [abs_le]; constructor <;> norm_num <;> linarith)

theorem numSeries_fatan2_range (y x : Word) (hy : isNaN y = false) (hx : isNaN x = false) :
    absBits (seriesAtan2 y x) ≤ absBits piW := by
  unfold seriesAtan2
  simp only [hy, hx, Bool.or_self, Bool.false_eq_true, if_false]
  have hm : ∀ s m, m ≤ absBits piW → absBits (mkWord s m) ≤ absBits piW := by
    intro s m h
    rw [absBits_mkWord s m (lt_of_le_of_lt h (absBits_lt _))]
    exact h
  split
  · next hz =>
    split
    · exact hm _ _ le_rfl
    · unfold isZero at hz
      rw [decide_eq_true_eq] at hz
      omega
  split
  · exact hm _ _ absBits_halfPi_le
  split
  · split
    · split <;> exact hm _ _ (by decide)
    · exact hm _ _ absBits_halfPi_le
  split
  · split
    · exact hm _ _ le_rfl
    · exact hm _ _ (Nat.zero_le _)
  · exact absBits_roundLimited_le _ _ _

/-! ## P3 to the letter, at a tolerance of N -/

theorem toReal_of_isZero (w : Word) (h : isZero w = true) : toReal w = 0 := by
  unfold toReal
  rw [units_zero w h, Int.cast_zero, zero_div]

/-- The magnitude of a word that is not zero is at least one unit. -/
theorem unit_le_toReal (w : Word) (h : isZero w = false) : 1 / 2 ^ 149 ≤ |toReal w| := by
  unfold toReal
  rw [abs_div, abs_of_pos (by positivity : (0 : ℝ) < 2 ^ 149), ← Int.cast_abs]
  exact div_le_div_of_nonneg_right (by exact_mod_cast Int.one_le_abs (units_ne_zero w h)) (by positivity)

theorem frameAt_getElem (x : List Word) (n : Nat) (hn : n < x.length) : frameAt x n = x[n] := by
  unfold frameAt
  rw [List.getD_eq_getElem?_getD, List.getElem?_eq_getElem hn, Option.getD_some]

theorem binAt_getElem (s : List Bin) (k : Nat) (hk : k < s.length) : binAt s k = s[k] := by
  unfold binAt
  rw [List.getD_eq_getElem?_getD, List.getElem?_eq_getElem hk, Option.getD_some]

theorem zero_or_l1Frame (p : Nat) (x : List Word) (hlen : x.length = frameSize p) :
    (∀ w ∈ x, isZero w = true) ∨ 1 / 2 ^ 149 ≤ l1Frame p x := by
  by_cases h : ∀ w ∈ x, isZero w = true
  · exact Or.inl h
  · push Not at h
    obtain ⟨w, hw, hz⟩ := h
    obtain ⟨n, hn, rfl⟩ := List.mem_iff_getElem.1 hw
    have h1 := unit_le_toReal _ (Bool.eq_false_iff.2 hz)
    rw [← frameAt_getElem x n hn] at h1
    exact Or.inr (h1.trans (Finset.single_le_sum (f := fun n => |toReal (frameAt x n)|) (fun _ _ => abs_nonneg _)
      (mem_range.2 (hlen ▸ hn))))

theorem zero_or_l1Spectrum (p : Nat) (s : List Bin) (hlen : s.length = numBinsOf p) :
    (∀ b ∈ s, binZero b = true) ∨ 1 / 2 ^ 149 ≤ l1Spectrum p s := by
  by_cases h : ∀ b ∈ s, binZero b = true
  · exact Or.inl h
  · push Not at h
    obtain ⟨b, hb, hz⟩ := h
    obtain ⟨k, hk, rfl⟩ := List.mem_iff_getElem.1 hb
    rw [← binAt_getElem s k hk] at hz
    have h1 : 1 / 2 ^ 149 ≤ |toReal (binAt s k).re| + |toReal (binAt s k).im| := by
      rw [ne_eq, binZero_iff, not_and_or, Bool.not_eq_true, Bool.not_eq_true] at hz
      rcases hz with hz | hz
      · exact (unit_le_toReal _ hz).trans (le_add_of_nonneg_right (abs_nonneg _))
      · exact (unit_le_toReal _ hz).trans (le_add_of_nonneg_left (abs_nonneg _))
    exact Or.inr (h1.trans (Finset.single_le_sum (f := fun k => |toReal (binAt s k).re| + |toReal (binAt s k).im|)
      (fun _ _ => add_nonneg (abs_nonneg _) (abs_nonneg _)) (mem_range.2 (hlen ▸ hk))))

/-- Tolerances at which `numSeries` meets P3 to the letter, a result between two subnormals included: N for the transforms. -/
noncomputable def seriesTolerances (p : Nat) : Tolerances where
  fft := frameSize p
  trig := defaultTolTrig
  fft_pos := by unfold frameSize; positivity
  trig_pos := Tolerances.default.trig_pos

theorem four_le_frameSize (p : Nat) (hp : 2 ≤ p) : 4 ≤ frameSize p :=
  (Nat.pow_le_pow_right (by norm_num) hp : 2 ^ 2 ≤ 2 ^ p)

theorem numSeries_meets_forward (p : Nat) (x : List Word) (hp : 2 ≤ p) (hp31 : p ≤ 31) (hx : ForwardRange p x) :
    numSeries.MeetsForward p (seriesTolerances p) x := by
  intro k hk
  obtain ⟨f, c1, c2⟩ := numSeries_rfft_close p x hp hp31 hx.2.1 k hk (hx.2.2 k hk).1 (hx.2.2 k hk).2
  rw [binFinite_iff] at f
  rcases zero_or_l1Frame p x hx.1 with h | h
  · have hz : ∀ i, toReal (frameAt x i) = 0 := fun i => toReal_of_isZero _ (frameAt_zero x h i)
    have hL : forwardLetter p (seriesTolerances p) x = 0 := by simp [forwardLetter, l1Frame, hz]
    rw [hL]
    simp only [numSeries, Within, f, true_and]
    rw [seriesRfft_at p x k hk hx.2.1, seriesRe_of_zero p x k h, seriesIm_of_zero p x k h, rn32_zero,
      toReal_of_isZero posZero (by decide)]
    simp [dftRe, dftIm, realRfftRe, realRfftIm, hz]
  · have hN : (4 : ℝ) ≤ frameSize p := by exact_mod_cast four_le_frameSize p hp
    have hL0 := l1Frame_nonneg p x
    have hb : max (defaultTolFft * l1Frame p x) (1 / 2 ^ 149) ≤ forwardLetter p (seriesTolerances p) x := by
      change _ ≤ (frameSize p : ℝ) * l1Frame p x
      refine max_le (mul_le_mul_of_nonneg_right ?_ hL0) (h.trans (le_mul_of_one_le_left hL0 (by linarith)))
      unfold defaultTolFft Config.defaultTolFftExp
      norm_num
      linarith
    exact ⟨⟨f.1, c1.trans hb⟩, f.2, c2.trans hb⟩

theorem numSeries_meets_inverse (p : Nat) (s : List Bin) (hp : 2 ≤ p) (hs : InverseRange p s) (n : Nat) (hn : n < frameSize p) :
    numSeries.MeetsInverse p (seriesTolerances p) s n := by
  obtain ⟨f, c⟩ := numSeries_irfft_close p s hp hs.2.1 n hn (hs.2.2 n hn)
  have hN : (4 : ℝ) ≤ frameSize p := by exact_mod_cast four_le_frameSize p hp
  have hL : inverseLetter p (seriesTolerances p) s = 2 * l1Spectrum p s := by
    change (frameSize p : ℝ) * (2 / frameSize p) * l1Spectrum p s = _
    rw [mul_div_cancel₀ _ (by linarith)]
  refine ⟨f, ?_⟩
  rw [hL]
  rcases zero_or_l1Spectrum p s hs.1 with h | h
  · have hz : ∀ i, toReal (binAt s i).re = 0 ∧ toReal (binAt s i).im = 0 := by
      intro i
      have hb := binAt_zero s h i
      rw [binZero_iff] at hb
      exact ⟨toReal_of_isZero _ hb.1, toReal_of_isZero _ hb.2⟩
    change |toReal (frameAt (seriesIrfft p s) n) - _| ≤ _
    rw [seriesIrfft_at p s n hn hs.2.1, seriesSample_of_zero p s n h, rn32_zero, toReal_of_isZero posZero (by decide)]
    simp [idft, realIrfft, l1Spectrum, hz]
  · have hL0 := l1Spectrum_nonneg p s
    refine c.trans (max_le (mul_le_mul_of_nonneg_right ?_ hL0) (by linarith))
    have h1 : 2 / (frameSize p : ℝ) ≤ 1 := (div_le_one (by linarith)).2 (by linarith)
    unfold defaultTolFft Config.defaultTolFftExp
    norm_num
    linarith

/-- `numSeries` has the properties of R231, P3 to the letter, for every frame size of log 3. -/
theorem numSeries_admissible (p : Nat) (hp : 2 ≤ p) (hp31 : p ≤ 31) : numSeries.Admissible p (seriesTolerances p) where
  rfft_length x := by simp [numSeries, seriesRfft]
  irfft_length s := by simp [numSeries, seriesIrfft]
  rfft_zero := numSeries_rfft_zero p
  irfft_zero := numSeries_irfft_zero p
  rfft_close x hx k hk :=
    ⟨.inl (numSeries_meets_forward p x hp hp31 hx k hk).1, .inl (numSeries_meets_forward p x hp hp31 hx k hk).2⟩
  irfft_close s hs n hn := .inl (.inl (numSeries_meets_inverse p s hp hs n hn))
  fsin_zero a h := by simp [numSeries, seriesSin, h, isFinite_of_isZero a h]
  fcos_zero a h := by simp [numSeries, seriesCos, h, isFinite_of_isZero a h]
  fsin_range a h := by
    simp only [numSeries, seriesSin, h, if_true]
    split
    · next hz =>
      unfold isZero at hz
      rw [decide_eq_true_eq] at hz
      omega
    · exact absBits_roundLimited_le _ _ _
  fcos_range a h := by
    simp only [numSeries, seriesCos, h, if_true]
    split
    · exact le_rfl
    · exact absBits_roundLimited_le _ _ _
  fsin_nonfinite a h := by simp [numSeries, seriesSin, h, isNaN_defaultNaN]
  fcos_nonfinite a h := by simp [numSeries, seriesCos, h, isNaN_defaultNaN]
  fsin_close := numSeries_fsin_close
  fcos_close := numSeries_fcos_close
  fatan2_zero_right y x hy hx hs := by simp [numSeries, seriesAtan2, not_isNaN_of_isZero y hy, hx, hy, hs]
  fatan2_zero_left y x hy hx hs := by simp [numSeries, seriesAtan2, not_isNaN_of_isZero y hy, hx, hy, hs]
  fatan2_axis y x hy hy0 hx := by simp [numSeries, seriesAtan2, not_isNaN_of_isZero x hx, hy, hy0, hx]
  fatan2_range := numSeries_fatan2_range
  fatan2_nan y x h := by simp only [numSeries, seriesAtan2, h, if_true]; exact isNaN_defaultNaN
  fatan2_close := numSeries_fatan2_close

end Sys2Proof.Machine
end

