-- ==== Sys2Proof/Machine/NumConfig.lean ====
section
/-! DEFINITION. The open numerics record NUM of an instance of CORE and its tolerances (45_numerics.md R230, R231; log 7). -/

namespace Sys2Proof

/-- A numerics record with the properties of R231, at every frame size of log 3 and at some tolerances for it. -/
abbrev AdmissibleNumerics :=
  { num : Machine.Numerics // ∀ p, 2 ≤ p → p ≤ 31 → ∃ tol, num.Admissible p tol }

/-- FREE VALUE (DESIGN CHOICE, log 7): an admissible numerics record, no more said. Lean wants to know that there is one
before it takes an opaque constant; nothing can be proved of which it is. -/
opaque Config.numPick [Inhabited AdmissibleNumerics] : AdmissibleNumerics

/-- That an admissible record exists is shown by `numSeries`. -/
def Config.openNum : AdmissibleNumerics :=
  @Config.numPick ⟨⟨Machine.numSeries, fun p hp hp31 => ⟨_, Machine.numSeries_admissible p hp hp31⟩⟩⟩

/-- `NUM`: "It is a parameter of the machine, like `N`" (R230). -/
def Config.num : Machine.Numerics := Config.openNum.1

/-- `TOL_FFT` and `TOL_TRIG` of the instance of frame size `2^p`: parameters, some positive real numbers that NUM meets; their
defaults are `Tolerances.default` (R231). -/
noncomputable def Config.tol (p : Nat) : Machine.Tolerances :=
  open Classical in if h : 2 ≤ p ∧ p ≤ 31 then (Config.openNum.2 p h.1 h.2).choose else Machine.Tolerances.default

/-- All that is known of NUM (R231). -/
theorem Config.num_admissible (p : Nat) (hp : 2 ≤ p) (hp31 : p ≤ 31) : Config.num.Admissible p (Config.tol p) := by
  unfold Config.tol
  rw [dif_pos ⟨hp, hp31⟩]
  exact (Config.openNum.2 p hp hp31).choose_spec

end Sys2Proof
end

