-- ==== Sys2Proof/Machine/Operands.lean ====
section
/-! DEFINITION. The operand forms of a TICK: the configuration record of the first word and the operand words, taken
bit for bit (30_encoding.md R75 to R79). A selector is a number; which strategy it selects is decided where the strategies
are (43_morph.md R163). -/

namespace Sys2Proof.Machine

/-- The configuration of a TICK with these fields: nothing is scaled, clamped or canonicalised (R75). -/
def cfgOf (msel psel : BitVec 8) (bp iv : Bool) (o : Operands) : Cfg :=
  ⟨bp, iv, msel, psel, o.m, o.formant⟩

end Sys2Proof.Machine
end

