-- ==== Sys2Proof/Machine/Tick.lean ====
section
/-! DEFINITION. The whole of a TICK (40_host_commands.md R101), the one operation that every row of the TICK format calls,
with the numerics record as an argument; `tick` is the machine's own, with the open record `Config.num`. -/

namespace Sys2Proof.Machine

/-- The hop boundary: into FrameReady, FRAME with the triggering configuration, back to Idle (R108, R249, R250). -/
def hopBoundary (num : Numerics) (cfg : Cfg) (s : State) : State :=
  returnIdle (frame num cfg (enterFrameReady s))

/-- The state in which the hop test is made: inputs written, output zeroed, position and counter advanced (R104 to R108). -/
def beforeHopTest (main aux : Word) (s : State) : State :=
  countHop (advancePos (outputZero (inputWrite main aux s)))

/-- The hop test and, where it holds, the hop boundary (R108). -/
def hopTest (num : Numerics) (cfg : Cfg) (s : State) : State :=
  if hopDue s then hopBoundary num cfg s else s

/-- The state after a TICK, its response last: the response word was read before anything of it could change (R101). -/
def tickState (num : Numerics) (main aux : Word) (cfg : Cfg) (s : State) : State :=
  respond (outputRead s) (hopTest num cfg (beforeHopTest main aux s))

/-- TICK (R101): refused while `valid = 0` (R113), else it completes, FRAME included when due (R114). -/
def tickWith (num : Numerics) (main aux : Word) (cfg : Cfg) (s : State) : Host.Outcome State Fault Refusal :=
  if s.valid then .next (tickState num main aux cfg s) else .refused .tickBeforeReset

/-- TICK with the fields of its five words, NUM open. -/
def tick (msel psel : BitVec 8) (bp iv : Bool) (o : Operands) (s : State) : Host.Outcome State Fault Refusal :=
  tickWith Config.num o.main o.aux (cfgOf msel psel bp iv o) s

end Sys2Proof.Machine
end

