-- ==== Sys2Proof/Machine/Commands.lean ====
section
/-! DEFINITION. The meanings of the three host commands RESET, TICK, LAT (40_host_commands.md R100 to R102) and of the
reserved opcodes (30_encoding.md R81). -/

namespace Sys2Proof.Machine

/-- RESET (R100): legal in every state, no response. -/
def execReset (s : State) : Host.Outcome State Fault Refusal := .next (resetState s)

/-- TICK (R101). -/
def execTick (msel psel : BitVec 8) (bp iv : Bool) (o : Operands) (s : State) : Host.Outcome State Fault Refusal :=
  tick msel psel bp iv o s

/-- LAT (R102): legal in every state, answers `zext_32(N)`, writes nothing else. -/
def execLat (s : State) : Host.Outcome State Fault Refusal := .next (respond (BitVec.ofNat 32 s.frameSize) s)

/-- A reserved opcode spells no command: `refuse ReservedOpcode` (R81). -/
def execReservedOpcode (w : Word) (_s : State) : Host.Outcome State Fault Refusal := .refused (.reservedOpcode w)

end Sys2Proof.Machine
end

