-- ==== Sys2Proof/Machine/MagCommands.lean ====
section
/-! DEFINITION. The meanings of the MAG rows: a TICK whose MSEL is the row's, every other field an operand. The strategy
itself is in Machine/Magnitude.lean; it acts only in a FRAME that is not bypassed (R109, R204). -/

namespace Sys2Proof.Machine

/-- MAG.add (R164): a TICK with MSEL = 0. -/
def execMagAdd (psel : BitVec 8) (bp iv : Bool) (o : Operands) (s : State) : Host.Outcome State Fault Refusal :=
  tick 0 psel bp iv o s

/-- MAG.subtract (R165): a TICK with MSEL = 1. -/
def execMagSubtract (psel : BitVec 8) (bp iv : Bool) (o : Operands) (s : State) : Host.Outcome State Fault Refusal :=
  tick 1 psel bp iv o s

/-- MAG.multiply (R166): a TICK with MSEL = 2. -/
def execMagMultiply (psel : BitVec 8) (bp iv : Bool) (o : Operands) (s : State) : Host.Outcome State Fault Refusal :=
  tick 2 psel bp iv o s

/-- MAG.divide (R167): a TICK with MSEL = 3. -/
def execMagDivide (psel : BitVec 8) (bp iv : Bool) (o : Operands) (s : State) : Host.Outcome State Fault Refusal :=
  tick 3 psel bp iv o s

/-- MAG.linearBlend (R168): a TICK with MSEL = 4. -/
def execMagLinearBlend (psel : BitVec 8) (bp iv : Bool) (o : Operands) (s : State) : Host.Outcome State Fault Refusal :=
  tick 4 psel bp iv o s

/-- MAG.allPass (R169): a TICK with MSEL = 5. -/
def execMagAllPass (psel : BitVec 8) (bp iv : Bool) (o : Operands) (s : State) : Host.Outcome State Fault Refusal :=
  tick 5 psel bp iv o s

/-- MAG.outOfRange (R170): a TICK with MSEL in 6..255. -/
def execMagOutOfRange (msel psel : BitVec 8) (bp iv : Bool) (o : Operands) (s : State) :
    Host.Outcome State Fault Refusal :=
  tick msel psel bp iv o s

end Sys2Proof.Machine
end

