-- ==== Sys2Proof/Machine/ModifierCommands.lean ====
section
/-! DEFINITION. The meanings of the rows BYP (44_overlap_add.md R204) and INVPH (43_morph.md R178): a TICK with that bit
set, every other field an operand. -/

namespace Sys2Proof.Machine

/-- BYP (R204): a TICK with BYP = 1; the FRAME it triggers takes the bypass path. -/
def execByp (msel psel : BitVec 8) (iv : Bool) (o : Operands) (s : State) : Host.Outcome State Fault Refusal :=
  tick msel psel true iv o s

/-- INVPH (R178): a TICK with INVPH = 1; the FRAME it triggers negates every phase as the last step of the morph stage. -/
def execInvph (msel psel : BitVec 8) (bp : Bool) (o : Operands) (s : State) : Host.Outcome State Fault Refusal :=
  tick msel psel bp true o s

end Sys2Proof.Machine
end

