-- ==== Sys2Proof/Machine/PhaseCommands.lean ====
section
/-! DEFINITION. The meanings of the PH rows: a TICK whose PSEL is the row's, every other field an operand. The strategy
itself is in Machine/Phase.lean; it acts only in a FRAME that is not bypassed (R109, R204). -/

namespace Sys2Proof.Machine

/-- PH.add (R171): a TICK with PSEL = 0. -/
def execPhAdd (msel : BitVec 8) (bp iv : Bool) (o : Operands) (s : State) : Host.Outcome State Fault Refusal :=
  tick msel 0 bp iv o s

/-- PH.linear (R172): a TICK with PSEL = 1. -/
def execPhLinear (msel : BitVec 8) (bp iv : Bool) (o : Operands) (s : State) : Host.Outcome State Fault Refusal :=
  tick msel 1 bp iv o s

/-- PH.linearNatural (R173): a TICK with PSEL = 2. -/
def execPhLinearNatural (msel : BitVec 8) (bp iv : Bool) (o : Operands) (s : State) : Host.Outcome State Fault Refusal :=
  tick msel 2 bp iv o s

/-- PH.smoothStep (R174): a TICK with PSEL = 3. -/
def execPhSmoothStep (msel : BitVec 8) (bp iv : Bool) (o : Operands) (s : State) : Host.Outcome State Fault Refusal :=
  tick msel 3 bp iv o s

/-- PH.preserveMainIn (R175): a TICK with PSEL = 4. -/
def execPhPreserveMainIn (msel : BitVec 8) (bp iv : Bool) (o : Operands) (s : State) : Host.Outcome State Fault Refusal :=
  tick msel 4 bp iv o s

/-- PH.preserveAuxIn (R176): a TICK with PSEL = 5. -/
def execPhPreserveAuxIn (msel : BitVec 8) (bp iv : Bool) (o : Operands) (s : State) : Host.Outcome State Fault Refusal :=
  tick msel 5 bp iv o s

/-- PH.outOfRange (R177): a TICK with PSEL in 6..255. -/
def execPhOutOfRange (msel psel : BitVec 8) (bp iv : Bool) (o : Operands) (s : State) :
    Host.Outcome State Fault Refusal :=
  tick msel psel bp iv o s

end Sys2Proof.Machine
end

