-- ==== Sys2Proof/Machine/Dispatch.lean ====
section
/-! DEFINITION. exec, one arm per constructor of Instr, each one direct call of that row's meaning. -/

namespace Sys2Proof.Machine

def exec (i : Instr) (s : State) : Host.Outcome State Fault Refusal :=
  match i with
  | .reset => Sys2Proof.Machine.execReset s
  | .tick msel psel bp iv o => Sys2Proof.Machine.execTick msel psel bp iv o s
  | .lat => Sys2Proof.Machine.execLat s
  | .magAdd psel bp iv o => Sys2Proof.Machine.execMagAdd psel bp iv o s
  | .magSubtract psel bp iv o => Sys2Proof.Machine.execMagSubtract psel bp iv o s
  | .magMultiply psel bp iv o => Sys2Proof.Machine.execMagMultiply psel bp iv o s
  | .magDivide psel bp iv o => Sys2Proof.Machine.execMagDivide psel bp iv o s
  | .magLinearBlend psel bp iv o => Sys2Proof.Machine.execMagLinearBlend psel bp iv o s
  | .magAllPass psel bp iv o => Sys2Proof.Machine.execMagAllPass psel bp iv o s
  | .magOutOfRange msel psel bp iv o => Sys2Proof.Machine.execMagOutOfRange msel psel bp iv o s
  | .phAdd msel bp iv o => Sys2Proof.Machine.execPhAdd msel bp iv o s
  | .phLinear msel bp iv o => Sys2Proof.Machine.execPhLinear msel bp iv o s
  | .phLinearNatural msel bp iv o => Sys2Proof.Machine.execPhLinearNatural msel bp iv o s
  | .phSmoothStep msel bp iv o => Sys2Proof.Machine.execPhSmoothStep msel bp iv o s
  | .phPreserveMainIn msel bp iv o => Sys2Proof.Machine.execPhPreserveMainIn msel bp iv o s
  | .phPreserveAuxIn msel bp iv o => Sys2Proof.Machine.execPhPreserveAuxIn msel bp iv o s
  | .phOutOfRange msel psel bp iv o => Sys2Proof.Machine.execPhOutOfRange msel psel bp iv o s
  | .byp msel psel iv o => Sys2Proof.Machine.execByp msel psel iv o s
  | .invph msel psel bp o => Sys2Proof.Machine.execInvph msel psel bp o s
  | .reservedOpcode w => Sys2Proof.Machine.execReservedOpcode w s

end Sys2Proof.Machine
end

