-- ==== Sys2Proof/Machine/Step.lean ====
section
/-! DEFINITION. One step is one command of the stream (30_encoding.md R70, 20_memory.md R62, R63): fetch it, run it. -/

namespace Sys2Proof.Machine

/-- One step. An empty stream is an idle block, which keeps its state (60_exceptions.md R259, log 1); a first word with a
reserved bit set and a TICK whose words have not all arrived are refused (R80, R245); else the command runs. -/
def step (s : State) : Host.Outcome State Fault Refusal :=
  match fetch s with
  | .ok (i, s') => exec i s'
  | .error .noCommand => .next s
  | .error (.reservedBits w) => .refused (.reservedBits w)
  | .error (.truncated ws) => .refused (.truncatedCommand ws)

/-- `s` with the instruction whose bits are `w` presented next: its words, five for a TICK and one otherwise, stand at the
head of the command stream (log 2). -/
def State.withFetchWord (s : State) (nbits w : Nat) : State :=
  let ws := tableWords nbits w
  { s with cmds := ws.take (commandLength (ws.headD 0)) ++ s.cmds }

end Sys2Proof.Machine
end

