-- ==== Sys2Proof/Machine/Assembler.lean ====
section
/-! DEFINITION. The command notation of 30_encoding.md R85 as abstract syntax, and the pseudo-command BLOCK
(40_host_commands.md R103): what words a line stands for. The characters of a line, its commas and its comments are not
modelled (log 17); the machine sees words only. -/

namespace Sys2Proof.Machine

/-- A `<float>` of the notation: a decimal literal, `± mantissa * 10^exponent`, converted by RN32, or a bit pattern (R85). -/
inductive FloatLit where
  | decimal (neg : Bool) (mantissa : Nat) (exponent : Int)
  | bits (w : Word)
deriving DecidableEq, Repr

/-- The word of a float literal. A decimal literal is rounded once by RN32 (R85). The spec leaves open the sign of a literal
that rounds to zero, such as `-0.0`, since RN32 is of a real number (00_scope.md R17): the sign that the literal writes is
kept, so that `-0.0` is `0x80000000` (DESIGN CHOICE, log 17). -/
def FloatLit.word : FloatLit → Word
  | .bits w => w
  | .decimal neg mantissa exponent =>
    rnd neg (mantissa * 10 ^ exponent.toNat * 2 ^ 149) (10 ^ (-exponent).toNat)

/-- An `<msel>`: a name of R76 or an integer 0..255 (R85). -/
inductive MselLit where
  | add | subtract | multiply | divide | linearBlend | allPass
  | number (n : BitVec 8)
deriving DecidableEq, Repr

/-- The MSEL field of a magnitude name (R76). -/
def MselLit.field : MselLit → BitVec 8
  | .add => 0
  | .subtract => 1
  | .multiply => 2
  | .divide => 3
  | .linearBlend => 4
  | .allPass => 5
  | .number n => n

/-- A `<psel>`: a name of R77 or an integer 0..255 (R85). -/
inductive PselLit where
  | add | linear | linearNatural | smoothStep | preserveMainIn | preserveAuxIn
  | number (n : BitVec 8)
deriving DecidableEq, Repr

/-- The PSEL field of a phase name (R77). -/
def PselLit.field : PselLit → BitVec 8
  | .add => 0
  | .linear => 1
  | .linearNatural => 2
  | .smoothStep => 3
  | .preserveMainIn => 4
  | .preserveAuxIn => 5
  | .number n => n

/-- The configuration operands of a TICK or BLOCK line: `m`, `mag` and `ph` always, the rest with defaults (R85). -/
structure ConfigLit where
  m : FloatLit
  mag : MselLit
  ph : PselLit
  byp : Bool := false
  inv : Bool := false
  formant : FloatLit := .bits 0#32
deriving DecidableEq, Repr

/-- A line of the notation. -/
inductive AsmLine where
  | reset
  | lat
  | tick (main aux : FloatLit) (cfg : ConfigLit)
  | block (cfg : ConfigLit) (samples : List (FloatLit × FloatLit))
deriving DecidableEq, Repr

/-- The TICK of one sample pair under the configuration of its line. -/
def ConfigLit.tick (cfg : ConfigLit) (main aux : FloatLit) : Instr :=
  .tick cfg.mag.field cfg.ph.field cfg.byp cfg.inv ⟨cfg.m.word, cfg.formant.word, main.word, aux.word⟩

/-- The commands of a line. BLOCK is one TICK per pair, in order, with one configuration (R85, R103). -/
def AsmLine.commands : AsmLine → List Instr
  | .reset => [.reset]
  | .lat => [.lat]
  | .tick main aux cfg => [cfg.tick main aux]
  | .block cfg samples => samples.map fun x => cfg.tick x.1 x.2

/-- The words the host presents for a text of lines (R70, R85). -/
def assembleLines (lines : List AsmLine) : List Word := (lines.flatMap AsmLine.commands).flatMap encode

end Sys2Proof.Machine
end

