-- ==== Sys2Proof/Machine/NamedInstance.lean ====
section
/-! DEFINITION. The machine with its numerics record as an argument (45_numerics.md R230: "a parameter of the machine, like
`N`"), over the three decoded commands (30_encoding.md R79). `step` is this machine at `Config.num`; a claim or a test
about NUM_IDEAL or NUM_RADIX2 is one about this machine at `numIdeal` or `numRadix2` of Machine/NamedNumerics.lean (R234, R235). -/

namespace Sys2Proof.Machine

/-- A decoded command with a given NUM (R79, R100 to R102). -/
def commandWith (num : Numerics) (c : Command) (s : State) : Host.Outcome State Fault Refusal :=
  match c with
  | .reset => .next (resetState s)
  | .latency => .next (respond (BitVec.ofNat 32 s.frameSize) s)
  | .tick main aux cfg => tickWith num main aux cfg s

/-- An instruction with a given NUM; a reserved opcode spells no command. -/
def execWith (num : Numerics) (i : Instr) (s : State) : Host.Outcome State Fault Refusal :=
  match i.command? with
  | some c => commandWith num c s
  | none =>
    match i with
    | .reservedOpcode w => .refused (.reservedOpcode w)
    | _ => .next s

/-- One step with a given NUM. -/
def stepWith (num : Numerics) (s : State) : Host.Outcome State Fault Refusal :=
  match fetch s with
  | .ok (i, s') => execWith num i s'
  | .error .noCommand => .next s
  | .error (.reservedBits w) => .refused (.reservedBits w)
  | .error (.truncated ws) => .refused (.truncatedCommand ws)

/-- A run of `k` steps with a given NUM, stopping at the first refusal. -/
def runWith (num : Numerics) : Nat → State → Host.Outcome State Fault Refusal
  | 0, s => .next s
  | k + 1, s =>
    match stepWith num s with
    | .next s' => runWith num k s'
    | .fault r => .fault r
    | .refused r => .refused r

end Sys2Proof.Machine
end

