-- ==== Sys2Proof/Machine/NamedNumerics.lean ====
section
/-! DEFINITION. The two named instances of NUM (45_numerics.md R232, R233). "It is a mathematical definition": NUM_IDEAL
rounds the exact real-arithmetic result, so nothing here runs; `numSeries` and `radix2Rfft`, `radix2Irfft` of
Machine/Transform.lean do. -/

namespace Sys2Proof.Machine

/-- The word with its magnitude limited to that of the magnitude bits `lim`. -/
def limitMagnitude (lim : Nat) (w : Word) : Word := mkWord (signBit w) (min (absBits w) lim)

/-- The words of a spectrum, in the order of its packed form (42_transform.md R142). -/
def spectrumWords (s : List Bin) : List Word := s.flatMap fun b => [b.re, b.im]

/-- The forward transform of NUM_IDEAL: RN32 of each component of R141; of a frame that is not finite, any words (P4). -/
noncomputable def idealRfft (p : Nat) (x : List Word) : List Bin :=
  (List.range (numBinsOf p)).map fun k =>
    if x.all isFinite then ⟨rnReal (dftRe p x k), rnReal (dftIm p x k)⟩
    else ⟨Config.nonFiniteWord x (2 * k), Config.nonFiniteWord x (2 * k + 1)⟩

/-- The inverse transform of NUM_IDEAL: RN32 of each sample of R144; of a spectrum that is not finite, any words (P4). -/
noncomputable def idealIrfft (p : Nat) (s : List Bin) : List Word :=
  (List.range (frameSize p)).map fun n =>
    if s.all binFinite then rnReal (idft p s n) else Config.nonFiniteWord (spectrumWords s) n

/-- The sine of NUM_IDEAL: `RN32(sin(a))`, the sign of a zero kept (R222). -/
noncomputable def idealSin (a : Word) : Word :=
  if isFinite a then (if isZero a then a else rnReal (Real.sin (toReal a))) else freeNaN .sin a a

/-- The cosine of NUM_IDEAL: `RN32(cos(a))` (R222). -/
noncomputable def idealCos (a : Word) : Word :=
  if isFinite a then rnReal (Real.cos (toReal a)) else freeNaN .cos a a

/-- The arctangent of NUM_IDEAL: the anchors of R223 on the axes, elsewhere RN32 of the angle of the point, its magnitude
limited to PI_F. The angle of a finite y toward `x = +inf` is zero, of a sign that the spec does not name: it is given the
sign of y (DESIGN CHOICE, log 21). -/
noncomputable def idealAtan2 (y x : Word) : Word :=
  if isNaN y || isNaN x then freeNaN .atan2 y x
  else if isZero y then (if signBit x then mkWord (signBit y) (absBits piW) else y)
  else if isZero x then mkWord (signBit y) (absBits halfPiW)
  else if isInf x && !isInf y && !signBit x then mkWord (signBit y) 0
  else limitMagnitude (absBits piW) (rnReal (pointAngle y x))

/-- `NUM_IDEAL` (R232). -/
noncomputable def numIdeal : Numerics where
  rfft := idealRfft
  irfft := idealIrfft
  fsin := idealSin
  fcos := idealCos
  fatan2 := idealAtan2

/-- `NUM_RADIX2`: the butterfly transforms, and `fsin`, `fcos`, `fatan2` as in NUM_IDEAL (R233). -/
noncomputable def numRadix2 : Numerics where
  rfft := radix2Rfft
  irfft := radix2Irfft
  fsin := idealSin
  fcos := idealCos
  fatan2 := idealAtan2

end Sys2Proof.Machine
end

