-- ==== Sys2Proof/Safety.lean ====
section
/-! DEFINITION. What the spec says of every state an instance can be in between commands (10_state.md R20, R26 to R29), what
a run is, and what a TICK leaves, said by index in the words of the spec (40_host_commands.md R104 to R110). -/

namespace Sys2Proof.Machine

/-- The frame size is one the spec admits: N = 2^p with p at least 2 (00_scope.md R9), and N fits the latency word, as
45_numerics.md R227 says (log 3). -/
abbrev State.admissibleSize (s : State) : Prop := 2 ≤ s.logN ∧ s.logN ≤ 31

/-- What holds of the state of an instance between commands: the sequencer is Idle (R29), and once RESET was executed
every ring has N words (R20), `pos` is below N (R26), and `hopCount` is `pos` modulo `hopSize`, hence below `hopSize`
(R27, R28: both count the TICKs since RESET). -/
structure State.Inv (s : State) : Prop where
  size : s.admissibleSize
  idle : s.seq = .idle
  rings : s.valid = true → s.mem.wf s.frameSize = true
  pos : s.valid = true → s.pos < s.frameSize
  hop : s.valid = true → s.hopCount = s.pos % s.hopSize

/-- A step that the spec gives a meaning to: it ends in a next state (R243: a refusal has none). -/
def Completes (o : Host.Outcome State Fault Refusal) : Prop := ∃ t, o = .next t

/-- Commands taking effect one at a time in the order issued (20_memory.md R62); a refused one ends the run. -/
def runInstrs : List Instr → State → Host.Outcome State Fault Refusal
  | [], s => .next s
  | i :: rest, s =>
    match exec i s with
    | .next t => runInstrs rest t
    | .fault r => .fault r
    | .refused r => .refused r

/-! ## What a TICK leaves, said by index -/

/-- The word at place `i` of an input ring once `v` is written at `pos` (R104). -/
def writtenAt (sp : Space) (v : Word) (s : State) (i : Nat) : Word := if i = s.pos then v else memRead sp i s

/-- The word at place `i` of the output ring once the slot at `pos` is zeroed (R106). -/
def zeroedAt (s : State) (i : Nat) : Word := if i = s.pos then posZero else memRead .out i s

/-- The ring place of chronological sample `k` after the advance of `pos` (20_memory.md R56). -/
def placeAfter (s : State) (k : Nat) : Nat := ((s.pos + 1) % s.frameSize + k) % s.frameSize

/-- The windowed frame of a channel in the FRAME of a TICK that writes `v` (41_frame_window.md R126). -/
def windowedFrame (sp : Space) (v : Word) (s : State) : List Word :=
  (List.range s.frameSize).map fun k => fmul (writtenAt sp v s (placeAfter s k)) (window s.logN k)

/-- What every TICK leaves, hop boundary or not: both samples written at `pos`, the word that stood at `pos` of the
output ring answered, `pos` advanced, and everything but the output ring and the hop counter as it was (R104, R105,
R107). -/
structure TickFifo (s : State) (main aux : Word) (t : State) : Prop where
  inMain : ∀ i, memRead .inMain i t = writtenAt .inMain main s i
  inAux : ∀ i, memRead .inAux i t = writtenAt .inAux aux s i
  pos : t.pos = (s.pos + 1) % s.frameSize
  resps : t.resps = s.resps ++ [memRead .out s.pos s]
  rings : t.mem.wf s.frameSize = true
  seq : t.seq = .idle
  valid : t.valid = s.valid
  logN : t.logN = s.logN
  cmds : t.cmds = s.cmds

/-- A TICK that is no hop boundary: the slot read is zeroed, the counter counts, no FRAME runs (R106, R108). -/
def NoFrame (s t : State) : Prop := t.hopCount = s.hopCount + 1 ∧ ∀ i, memRead .out i t = zeroedAt s i

/-- A TICK that is a hop boundary and whose FRAME resynthesises `y`: the counter is cleared, and the contribution of
sample `k` is added at its ring place, which the zeroing has already reached (R106, R108, 44_overlap_add.md R203). -/
def FrameAdded (y : List Word) (s t : State) : Prop :=
  t.hopCount = 0 ∧
    ∀ k, k < s.frameSize → memRead .out (placeAfter s k) t =
      fadd (zeroedAt s (placeAfter s k)) (fmul (fmul (frameAt y k) (window s.logN k)) gainW)

/-- The morphed spectrum of the FRAME of a TICK that writes `main` and `aux`, for a magnitude and a phase strategy given
as functions of the bin and of the two magnitudes or the two phases (43_morph.md R160, R162, R179). -/
def morphedSpectrum (main aux : Word) (s : State) (magOf phOf : Nat → Word → Word → Word) : List Bin :=
  (List.range (numBinsOf s.logN)).map fun i =>
    let xm := binAt (Config.num.rfft s.logN (windowedFrame .inMain main s)) i
    let xa := binAt (Config.num.rfft s.logN (windowedFrame .inAux aux s)) i
    let magA := fsqrt (fadd (fmul xm.re xm.re) (fmul xm.im xm.im))
    let magB := fsqrt (fadd (fmul xa.re xa.re) (fmul xa.im xa.im))
    let mag := magOf i magA magB
    let ph := phOf i (Config.num.fatan2 xm.im xm.re) (Config.num.fatan2 xa.im xa.re)
    ⟨fmul mag (Config.num.fcos ph), fmul mag (Config.num.fsin ph)⟩

/-- A TICK at a hop boundary whose FRAME takes the spectral path with these strategies. -/
def SpectralTick (main aux : Word) (magOf phOf : Nat → Word → Word → Word) (s t : State) : Prop :=
  TickFifo s main aux t ∧ FrameAdded (Config.num.irfft s.logN (morphedSpectrum main aux s magOf phOf)) s t

/-- The state stands just before a hop boundary: the next TICK runs a FRAME (R108). -/
abbrev State.hopNext (s : State) : Prop := s.hopCount + 1 = s.hopSize

/-- The state after a number of steps, if none of them is refused. -/
def runSteps : Nat → State → Host.Outcome State Fault Refusal
  | 0, s => .next s
  | k + 1, s =>
    match step s with
    | .next s' => runSteps k s'
    | .fault r => .fault r
    | .refused r => .refused r

/-! ## Runs of TICKs after a RESET (40_host_commands.md R110) -/

/-- One TICK of a run: the fields of its five words. -/
structure TickArgs where
  msel : BitVec 8
  psel : BitVec 8
  bp : Bool
  iv : Bool
  o : Operands
deriving DecidableEq, Repr

/-- The instruction. -/
def TickArgs.instr (x : TickArgs) : Instr := .tick x.msel x.psel x.bp x.iv x.o

/-- The configuration it carries (10_state.md R35). -/
def TickArgs.cfg (x : TickArgs) : Cfg := ⟨x.bp, x.iv, x.msel, x.psel, x.o.m, x.o.formant⟩

/-- A TICK past the end of a run, which no statement reads. -/
def TickArgs.none : TickArgs := ⟨0, 0, false, false, ⟨0, 0, 0, 0⟩⟩

/-- TICK number `t` of a run. -/
def tickNumber (xs : List TickArgs) (t : Nat) : TickArgs := xs.getD t TickArgs.none

/-- Chronological sample `k` of the frame of TICK `tj`: the input of TICK `tj - N + 1 + k`, or the reset value if that
number is negative (R110). -/
def frameInput (sel : TickArgs → Word) (p : Nat) (xs : List TickArgs) (tj k : Nat) : Word :=
  if tj + 1 + k < frameSize p then posZero else sel (tickNumber xs (tj + 1 + k - frameSize p))

/-- The windowed frame of a channel at TICK `tj` (41_frame_window.md R126). -/
def frameOfRun (sel : TickArgs → Word) (p : Nat) (xs : List TickArgs) (tj : Nat) : List Word :=
  (List.range (frameSize p)).map fun k => fmul (frameInput sel p xs tj k) (window p k)

/-- The frame that FRAME number `j` resynthesises; it runs inside TICK `t_j = (j + 1) * hopSize - 1` with the
configuration of that TICK (R109, R110, R120). -/
def resynthesisedFrame (num : Numerics) (p : Nat) (xs : List TickArgs) (j : Nat) : List Word :=
  let tj := (j + 1) * hopSizeOf p - 1
  let fm := frameOfRun (fun x => x.o.main) p xs tj
  let fa := frameOfRun (fun x => x.o.aux) p xs tj
  if (tickNumber xs tj).bp then fm
  else num.irfft p (morph num p (num.rfft p fm) (num.rfft p fa) (tickNumber xs tj).cfg)

/-- The response of TICK `t` by the latency law (R110): the contributions `c_j[t - 1 - t_j]` of the frames with
`t - N <= t_j <= t - 1`, added in ascending order from `+0.0`. -/
def lawResponse (num : Numerics) (p : Nat) (xs : List TickArgs) (t : Nat) : Word :=
  ((List.range (t / hopSizeOf p)).filter fun j => decide (t < (j + 1) * hopSizeOf p + frameSize p)).foldl
    (fun acc j =>
      let k := t - (j + 1) * hopSizeOf p
      fadd acc (fmul (fmul (frameAt (resynthesisedFrame num p xs j) k) (window p k)) gainW))
    posZero

end Sys2Proof.Machine
end

