-- ==== Sys2Proof/Certificates/Slice0/Obligations.lean ====
section
/-! DEFINITION. The statements for the provers. Each docstring says which rules of spec/ it formalises; a statement that
rests on a choice of the model names the log entry. The numerics record is the open `Config.num` unless a statement says
otherwise, so what is said of it holds of every admissible NUM. -/

section ObligationStatements

open Sys2Proof Sys2Proof.Machine

/-! ## Encoding and decoding -/

/-- The decoder reads an encoded instruction back, under the one name it gives the words (log 10), and leaves the words
after it; an instruction that bears the decoder's name is read back as it is (30_encoding.md R72 to R78). -/
def Obligations.DecodeReadsEncodedInstruction : Prop :=
  ∀ (i : Instr) (rest : List Word), i.wf = true →
    decode (encode i ++ rest) = .ok (i.named, rest) ∧
      encode i.named = encode i ∧ i.named.wf = true ∧ i.named.named = i.named

/-- Whatever the decoder reads, it is well formed, bears the decoder's name (the model's choice, log 10), and its encoding
is exactly the words read: no bit is dropped and no two streams are read alike (R72 to R80); a word with a reserved opcode
is read as the row that stands for it (log 11). -/
def Obligations.EncodeRestoresDecodedWords : Prop :=
  ∀ (ws : List Word) (i : Instr) (rest : List Word), decode ws = .ok (i, rest) →
    i.wf = true ∧ i.named = i ∧ ws = encode i ++ rest

/-- The example encodings of R86, under the rows that the decoder names them by (phSmoothStep, byp and invph rather than
tick: log 10), and the all-zero and the all-ones word, which R73 reserves and the decoder reads as a row of its own (log
11). -/
def Obligations.ExampleWordsDecode : Prop :=
  decode [0x10000000] = .ok (.reset, []) ∧
  decode [0x30000000] = .ok (.lat, []) ∧
  decode [0x20000300, 0x3F000000, 0x00000000, 0x3F800000, 0x00000000] =
    .ok (.phSmoothStep 0 false false ⟨0x3F000000, 0, 0x3F800000, 0⟩, []) ∧
  decode [0x20010405, 0x3F800000, 0x00000000, 0x3E800000, 0xBF000000] =
    .ok (.byp 5 4 false ⟨0x3F800000, 0, 0x3E800000, 0xBF000000⟩, []) ∧
  decode [0x200206C8, 0x00000000, 0x00000000, 0x00000000, 0x00000000] =
    .ok (.invph 200 6 false ⟨0, 0, 0, 0⟩, []) ∧
  decode [0x00000000] = .ok (.reservedOpcode 0x00000000, []) ∧
  decode [0xFFFFFFFF] = .ok (.reservedOpcode 0xFFFFFFFF, [])

/-- Words serialised to bytes, least significant byte first, are read back as they were (20_memory.md R52, log 19). -/
def Obligations.SerialisedWordsReadBack : Prop :=
  ∀ ws : List Word, wordsOfBytes (bytesOfWords ws) = ws ∧
    ∀ w ∈ ws, (bytesOfWord w).map (·.toNat) =
      [w.toNat % 256, w.toNat / 2 ^ 8 % 256, w.toNat / 2 ^ 16 % 256, w.toNat / 2 ^ 24 % 256]

/-- Instructions spelled by the same words do the same in every state, whatever row of the table names them (R79, R87). -/
def Obligations.SameWordsSameEffect : Prop :=
  ∀ (i j : Instr) (s : State), i.wf = true → j.wf = true → encode i = encode j → exec i s = exec j s

/-! ## The step -/

/-- Where the words at the head of the stream decode to `i`, the step runs `i` on the state with those words accepted
(R70, R79). -/
def Obligations.StepRunsDecodedInstruction : Prop :=
  ∀ (s : State) (i : Instr) (rest : List Word), decode s.cmds = .ok (i, rest) →
    i.wf = true ∧ step s = exec i { s with cmds := rest }

/-- An empty stream is an idle block, which keeps its state (R259; that a step is taken at all is the model's choice,
log 1). -/
def Obligations.StepOfIdleBlock : Prop := ∀ s : State, s.cmds = [] → step s = .next s

/-- The four refusals, in the order of priority of R248: the opcode (R81), the reserved bits (R80), the missing words
(R245), then TICK before RESET (R113). -/
def Obligations.StepRefusesInOrder : Prop :=
  ∀ (s : State) (w : Word) (rest : List Word), s.cmds = w :: rest →
    (isCommandOpcode w = false → step s = .refused (.reservedOpcode w)) ∧
    (isCommandOpcode w = true → (w.extractLsb' 18 10 ≠ 0 ∨ (opcode w ≠ 2 ∧ w.extractLsb' 0 18 ≠ 0)) →
      step s = .refused (.reservedBits w)) ∧
    (opcode w = 2 → w.extractLsb' 18 10 = 0 → rest.length < 4 → step s = .refused (.truncatedCommand (w :: rest))) ∧
    (opcode w = 2 → w.extractLsb' 18 10 = 0 → 4 ≤ rest.length → s.valid = false → step s = .refused .tickBeforeReset)

/-- A step answers a next state exactly when the stream is empty (that the model takes an idle step there is its choice,
log 1) or begins with a command that the decoder accepts and that is no TICK before RESET (R240, R246, R114). -/
def Obligations.StepCompletesWhenAccepted : Prop :=
  ∀ s : State, Completes (step s) ↔
    s.cmds = [] ∨ ∃ w rest, s.cmds = w :: rest ∧
      ((opcode w = 1 ∧ w.extractLsb' 0 28 = 0) ∨ (opcode w = 3 ∧ w.extractLsb' 0 28 = 0) ∨
        (opcode w = 2 ∧ w.extractLsb' 18 10 = 0 ∧ 4 ≤ rest.length ∧ s.valid = true))

/-- Presenting the words of well-formed instructions and stepping runs the instructions one after another, up to the
first that is refused (R62, R70; the stream as a field of the state is the model's, log 1). -/
def Obligations.StreamRunsInstructions : Prop :=
  ∀ (is : List Instr) (s : State), (∀ i ∈ is, i.wf = true) →
    runSteps is.length { s with cmds := is.flatMap encode ++ s.cmds } = runInstrs is s

/-- The machine is the machine with a given NUM, at the open NUM (45_numerics.md R230). -/
def Obligations.StepIsNamedMachineAtOpenNum : Prop :=
  ∀ s : State, step s = stepWith Config.num s

/-- A reserved opcode is refused, in every state (R81); that the decoder reads it as a row whose meaning is the refusal is
the model's choice (log 11). -/
def Obligations.ReservedOpcodeIsRefused : Prop :=
  (∀ (w : Word) (s : State), exec (.reservedOpcode w) s = .refused (.reservedOpcode w)) ∧
    ∀ (w : Word) (rest : List Word), (opcode w = 0 ∨ 4 ≤ opcode w) → decode (w :: rest) = .ok (.reservedOpcode w, rest)

/-! ## RESET -/

/-- RESET, in every state: every ring word `+0.0`, `pos`, `hopCount` zero, Idle, valid; the frame size, and so the tables
and the latency constant, untouched (10_state.md R45). -/
def Obligations.ResetSetsResetValues : Prop :=
  ∀ s : State, ∃ t, exec .reset s = .next t ∧
    (∀ sp, t.mem.ring sp = List.replicate s.frameSize posZero) ∧ t.pos = 0 ∧ t.hopCount = 0 ∧ t.seq = .idle ∧
    t.valid = true ∧ t.logN = s.logN ∧ t.cmds = s.cmds ∧ t.resps = s.resps

/-- RESET is legal in every state, and two RESETs in a row equal one (70_reset_and_hazards.md R270). -/
def Obligations.ResetTwiceEqualsOnce : Prop :=
  ∀ s : State, ∃ t, exec .reset s = .next t ∧ exec .reset t = .next t

/-- RESET forgets everything: of two instances of one frame size, whatever they held, the same commands after a RESET get
the same responses and leave the same rings and counters (R274, R46). -/
def Obligations.ResetForgetsThePast : Prop :=
  ∀ (s s' : State) (is : List Instr) (t : State), s.logN = s'.logN → runInstrs (.reset :: is) s = .next t →
    ∃ t' rs, runInstrs (.reset :: is) s' = .next t' ∧ t.resps = s.resps ++ rs ∧ t'.resps = s'.resps ++ rs ∧
      t.mem = t'.mem ∧ t.pos = t'.pos ∧ t.hopCount = t'.hopCount ∧ t.seq = t'.seq ∧ t.valid = t'.valid ∧
      t.logN = t'.logN

/-! ## LAT -/

/-- LAT answers the frame size as an unsigned word, in every state, and changes nothing else; `N` fits for every
admissible frame size (40_host_commands.md R102, 10_state.md R42, 45_numerics.md R227). -/
def Obligations.LatencyAnswersFrameSize : Prop :=
  ∀ s : State, ∃ t r, exec .lat s = .next t ∧ t = { s with resps := s.resps ++ [r] } ∧
    (s.logN ≤ 31 → r.toNat = 2 ^ s.logN) ∧ (s.logN = 10 → r = 0x00000400) ∧ (s.logN = 3 → r = 0x00000008)

/-- No command changes the frame size (R284). -/
def Obligations.FrameSizeIsFixed : Prop :=
  (∀ (i : Instr) (s t : State), exec i s = .next t → t.logN = s.logN) ∧
    ∀ s t : State, step s = .next t → t.logN = s.logN

/-! ## TICK, every row -/

/-- A TICK before the first RESET is refused, whatever row names it (R113). -/
def Obligations.TickBeforeResetIsRefused : Prop :=
  ∀ (i : Instr) (main aux : Word) (cfg : Cfg) (s : State), i.command? = some (.tick main aux cfg) → s.valid = false →
    exec i s = .refused .tickBeforeReset

/-- Every row of the TICK format (tick, magAdd, magSubtract, magMultiply, magDivide, magLinearBlend, magAllPass,
magOutOfRange, phAdd, phLinear, phLinearNatural, phSmoothStep, phPreserveMainIn, phPreserveAuxIn, phOutOfRange, byp, invph)
completes once RESET was executed, and does the FIFO steps: both samples written at `pos`, the output word at `pos`
answered bit for bit, `pos` advanced modulo N; everything but the output ring and the hop counter is otherwise as it was
(R104, R105, R107). -/
def Obligations.TickMovesSamples : Prop :=
  ∀ (i : Instr) (main aux : Word) (cfg : Cfg) (s : State), i.command? = some (.tick main aux cfg) → s.Inv →
    s.valid = true → ∃ t, exec i s = .next t ∧ TickFifo s main aux t

/-- Every row of the TICK format (the seventeen of `TickMovesSamples`) off a hop boundary: the FIFO steps, the slot read
zeroed, the counter counted, every other word of the output ring as it was: no FRAME (R106, R108). -/
def Obligations.TickOffHopRunsNoFrame : Prop :=
  ∀ (i : Instr) (main aux : Word) (cfg : Cfg) (s : State), i.command? = some (.tick main aux cfg) → s.Inv →
    s.valid = true → ¬ s.hopNext → ∃ t, exec i s = .next t ∧ TickFifo s main aux t ∧ NoFrame s t

/-- Every row of the TICK format (the seventeen of `TickMovesSamples`) at a hop boundary: the FRAME with the configuration
the TICK carries, on the bypass path or on the spectral path with the two strategies its selectors name and the
invert-phase pass (R101, R108, R109, 41_frame_window.md R120). -/
def Obligations.TickAtHopRunsFrame : Prop :=
  ∀ (i : Instr) (main aux : Word) (cfg : Cfg) (s : State), i.command? = some (.tick main aux cfg) → s.Inv →
    s.valid = true → s.hopNext → ∃ t, exec i s = .next t ∧
      (cfg.byp = true → TickFifo s main aux t ∧ FrameAdded (windowedFrame .inMain main s) s t) ∧
      (cfg.byp = false → SpectralTick main aux (fun k a b => magnitude s.logN k cfg.msel cfg.m a b)
        (fun k a b => if cfg.invph then fneg (phase s.logN k cfg.psel cfg.m a b)
          else phase s.logN k cfg.psel cfg.m a b) s t)

/-- The magnitude rows at a hop boundary, each with its own formula and any phase selector (43_morph.md R164 to R170). -/
def Obligations.MagnitudeRowsAtHop : Prop :=
  ∀ (psel : BitVec 8) (iv : Bool) (o : Operands) (s : State), s.Inv → s.valid = true → s.hopNext →
    let om := fsub oneW o.m
    let ph := fun i a b => if iv then fneg (phase s.logN i psel o.m a b) else phase s.logN i psel o.m a b
    (∃ t, exec (.magAdd psel false iv o) s = .next t ∧
      SpectralTick o.main o.aux (fun _ a b => fadd (fmul o.m a) (fmul om b)) ph s t) ∧
    (∃ t, exec (.magSubtract psel false iv o) s = .next t ∧
      SpectralTick o.main o.aux (fun _ a b => fabs (fsub (fmul o.m a) (fmul om b))) ph s t) ∧
    (∃ t, exec (.magMultiply psel false iv o) s = .next t ∧
      SpectralTick o.main o.aux
        (fun _ a b => fdiv (fabs (fmul (fmul o.m a) (fmul om b))) (fmax (fmul a b) oneW)) ph s t) ∧
    (∃ t, exec (.magDivide psel false iv o) s = .next t ∧
      SpectralTick o.main o.aux (fun _ a b => fmin (fdiv (fmul o.m a) (fmax (fmul om b) epsW)) oneW) ph s t) ∧
    (∃ t, exec (.magLinearBlend psel false iv o) s = .next t ∧
      SpectralTick o.main o.aux
        (fun i a b => fadd (fmul (blend s.logN i) b) (fmul (fsub oneW (blend s.logN i)) a)) ph s t) ∧
    (∃ t, exec (.magAllPass psel false iv o) s = .next t ∧
      SpectralTick o.main o.aux (fun _ a _ => a) ph s t) ∧
    ∀ msel : BitVec 8, 6 ≤ msel.toNat → ∃ t, exec (.magOutOfRange msel psel false iv o) s = .next t ∧
      SpectralTick o.main o.aux (fun _ a _ => a) ph s t

/-- The phase rows at a hop boundary, each with its own formula and any magnitude selector, the invert-phase pass clear
(43_morph.md R171 to R177). -/
def Obligations.PhaseRowsAtHop : Prop :=
  ∀ (msel : BitVec 8) (o : Operands) (s : State), s.Inv → s.valid = true → s.hopNext →
    let om := fsub oneW o.m
    let m2 := fmul o.m o.m
    let c := fsub (fmul threeW m2) (fmul twoW (fmul m2 o.m))
    let mag := fun i a b => magnitude s.logN i msel o.m a b
    (∃ t, exec (.phAdd msel false false o) s = .next t ∧
      SpectralTick o.main o.aux mag (fun _ a b => fadd (fmul o.m a) (fmul om b)) s t) ∧
    (∃ t, exec (.phLinear msel false false o) s = .next t ∧
      SpectralTick o.main o.aux mag (fun i _ _ => wrap (ramp s.logN i)) s t) ∧
    (∃ t, exec (.phLinearNatural msel false false o) s = .next t ∧
      SpectralTick o.main o.aux mag
        (fun i a b => wrap (fadd (fmul o.m (fmul (fadd a b) halfW)) (fmul om (ramp s.logN i)))) s t) ∧
    (∃ t, exec (.phSmoothStep msel false false o) s = .next t ∧
      SpectralTick o.main o.aux mag (fun _ a b => fadd (fmul c a) (fmul (fsub oneW c) b)) s t) ∧
    (∃ t, exec (.phPreserveMainIn msel false false o) s = .next t ∧
      SpectralTick o.main o.aux mag (fun _ a _ => a) s t) ∧
    (∃ t, exec (.phPreserveAuxIn msel false false o) s = .next t ∧
      SpectralTick o.main o.aux mag (fun _ _ b => b) s t) ∧
    ∀ psel : BitVec 8, 6 ≤ psel.toNat → ∃ t, exec (.phOutOfRange msel psel false false o) s = .next t ∧
      SpectralTick o.main o.aux mag (fun _ a _ => a) s t

/-- The modifier rows at a hop boundary. BYP overlap-adds the windowed main frame (44_overlap_add.md R204); INVPH negates
the phase of every bin after the phase strategy (43_morph.md R178); INVPH with BYP is a bypassed frame. -/
def Obligations.ModifierRowsAtHop : Prop :=
  ∀ (msel psel : BitVec 8) (o : Operands) (s : State), s.Inv → s.valid = true → s.hopNext →
    (∀ iv, ∃ t, exec (.byp msel psel iv o) s = .next t ∧ TickFifo s o.main o.aux t ∧
      FrameAdded (windowedFrame .inMain o.main s) s t) ∧
    (∃ t, exec (.invph msel psel false o) s = .next t ∧
      SpectralTick o.main o.aux (fun i a b => magnitude s.logN i msel o.m a b)
        (fun i a b => fneg (phase s.logN i psel o.m a b)) s t) ∧
    ∃ t, exec (.invph msel psel true o) s = .next t ∧ TickFifo s o.main o.aux t ∧
      FrameAdded (windowedFrame .inMain o.main s) s t

/-! ## What a TICK does not depend on -/

/-- Off a hop boundary the configuration has no effect (R109, 70 R278). -/
def Obligations.ConfigurationActsAtHopOnly : Prop :=
  ∀ (i j : Instr) (main aux : Word) (cfg cfg' : Cfg) (s : State), i.command? = some (.tick main aux cfg) →
    j.command? = some (.tick main aux cfg') → ¬ s.hopNext → exec i s = exec j s

/-- The formant word has no effect in any state, on any row (10_state.md R38). -/
def Obligations.FormantIsIgnored : Prop :=
  ∀ (i j : Instr) (main aux f : Word) (cfg : Cfg) (s : State), i.command? = some (.tick main aux cfg) →
    j.command? = some (.tick main aux { cfg with formant := f }) → exec i s = exec j s

/-- A bypassed frame does not depend on the selectors, the morph factor, the invert-phase bit or the aux sample: the two
TICKs leave the same output ring, counters and responses (R204). -/
def Obligations.BypassIgnoresMorphOperands : Prop :=
  ∀ (i j : Instr) (main aux aux' : Word) (cfg cfg' : Cfg) (s : State), i.command? = some (.tick main aux cfg) →
    j.command? = some (.tick main aux' cfg') → cfg.byp = true → cfg'.byp = true → s.valid = true →
    ∃ t t', exec i s = .next t ∧ exec j s = .next t' ∧ t.mem.out = t'.mem.out ∧ t.mem.inMain = t'.mem.inMain ∧
      t.pos = t'.pos ∧ t.hopCount = t'.hopCount ∧ t.resps = t'.resps

/-- Out-of-range selectors execute exactly as MSEL = 5 and PSEL = 4, each axis on its own (30_encoding.md R82). -/
def Obligations.OutOfRangeSelectorsPassThrough : Prop :=
  (∀ (msel psel : BitVec 8) (bp iv : Bool) (o : Operands) (s : State), 6 ≤ msel.toNat →
    exec (.tick msel psel bp iv o) s = exec (.tick 5 psel bp iv o) s ∧
      exec (.magOutOfRange msel psel bp iv o) s = exec (.magAllPass psel bp iv o) s) ∧
    ∀ (msel psel : BitVec 8) (bp iv : Bool) (o : Operands) (s : State), 6 ≤ psel.toNat →
      exec (.tick msel psel bp iv o) s = exec (.tick msel 4 bp iv o) s ∧
        exec (.phOutOfRange msel psel bp iv o) s = exec (.phPreserveMainIn msel bp iv o) s

/-- The response of a TICK does not depend on its own operands (40_host_commands.md R112). -/
def Obligations.ResponseIgnoresOwnOperands : Prop :=
  ∀ (i j : Instr) (main aux main' aux' : Word) (cfg cfg' : Cfg) (s : State),
    i.command? = some (.tick main aux cfg) → j.command? = some (.tick main' aux' cfg') → s.valid = true →
    ∃ t t', exec i s = .next t ∧ exec j s = .next t' ∧ t.resps = t'.resps

/-! ## The hop boundary and the frame -/

/-- Entry into FrameReady and return from it: FRAME runs with the sequencer in FrameReady; it writes the output ring only; on
return the counter is cleared and the sequencer is Idle, and nothing else was saved or restored (60_exceptions.md R249, R250, 41_frame_window.md R120). -/
def Obligations.HopBoundaryEntersAndReturns : Prop :=
  ∀ (num : Numerics) (cfg : Cfg) (s : State), ∃ u, enterFrameReady s = { s with seq := .frameReady } ∧
    u = frame num cfg (enterFrameReady s) ∧ u.seq = .frameReady ∧ u.pos = s.pos ∧ u.hopCount = s.hopCount ∧
    u.mem.inMain = s.mem.inMain ∧ u.mem.inAux = s.mem.inAux ∧ u.valid = s.valid ∧ u.logN = s.logN ∧
    u.cmds = s.cmds ∧ u.resps = s.resps ∧ hopBoundary num cfg s = { u with hopCount := 0, seq := .idle }

/-- The lanes of the morph engine: a morphed spectrum has a bin for every input bin, and bin `i` depends on the bins `i` of
the two spectra, on the configuration and on `i`, and on no other bin (43_morph.md R161). -/
def Obligations.MorphBinsAreLanes : Prop :=
  ∀ (num : Numerics) (p : Nat) (xm xa ym ya : List Bin) (cfg : Cfg),
    (morph num p xm xa cfg).length = numBinsOf p ∧
      ∀ i, i < numBinsOf p → binAt xm i = binAt ym i → binAt xa i = binAt ya i →
        binAt (morph num p xm xa cfg) i = binAt (morph num p ym ya cfg) i

/-- The corner cases of the polar decomposition that hold for every admissible NUM (R162). -/
def Obligations.PolarCornerCases : Prop :=
  polar Config.num ⟨posZero, posZero⟩ = ⟨posZero, posZero⟩ ∧
  polar Config.num ⟨negZero, posZero⟩ = ⟨posZero, piW⟩ ∧
  polar Config.num ⟨0xBF800000, posZero⟩ = ⟨oneW, piW⟩ ∧
  polar Config.num ⟨0xBF800000, negZero⟩ = ⟨oneW, fneg piW⟩

/-! ## Laws of the strategies -/

/-- The boundary-value law: MAG.add, MAG.subtract, PH.add and PH.smoothStep return the main value at m = 1 and the aux
value at m = 0, for finite magnitudes and phases, up to the sign of a zero phase; PH.linearNatural returns the ramp at
m = 0, at every frame size of log 3 (R184). -/
def Obligations.BoundaryMorphFactors : Prop :=
  (∀ a b : Word, isFinite a = true → isFinite b = true → signBit a = false → signBit b = false →
    magAdd oneW a b = a ∧ magAdd posZero a b = b ∧ magSubtract oneW a b = a ∧ magSubtract posZero a b = b) ∧
  (∀ a b : Word, isFinite a = true → isFinite b = true →
    (phAdd oneW a b = a ∨ (isZero a = true ∧ isZero (phAdd oneW a b) = true)) ∧
    (phAdd posZero a b = b ∨ (isZero b = true ∧ isZero (phAdd posZero a b) = true)) ∧
    (phSmoothStep oneW a b = a ∨ (isZero a = true ∧ isZero (phSmoothStep oneW a b) = true)) ∧
    (phSmoothStep posZero a b = b ∨ (isZero b = true ∧ isZero (phSmoothStep posZero a b) = true))) ∧
  ∀ (p i : Nat) (a b : Word), 2 ≤ p → p ≤ 31 → i < numBinsOf p → absBits a ≤ absBits piW → absBits b ≤ absBits piW →
    phLinearNatural (ramp p i) posZero a b = ramp p i

/-- MAG.linearBlend follows main at bin 0 and aux at bin N/2 (R168). -/
def Obligations.LinearBlendEnds : Prop :=
  ∀ (p : Nat) (a b : Word), 2 ≤ p → isFinite a = true → isFinite b = true → signBit a = false → signBit b = false →
    magLinearBlend (blend p 0) a b = a ∧ magLinearBlend (blend p (frameSize p / 2)) a b = b

/-- The clamps of the divisions: a MAG.divide result is at most 1 and the denominators of MAG.multiply and MAG.divide are
at least 1 and EPS, unless they are NaN; MAG.subtract is never negative (R165, R166, R167, R183). -/
def Obligations.MagnitudeClamps : Prop :=
  ∀ m a b : Word,
    (isNaN (magDivide m a b) = true ∨ fle (magDivide m a b) oneW = true) ∧
    (isNaN (fmax (fmul a b) oneW) = true ∨ fle oneW (fmax (fmul a b) oneW) = true) ∧
    (isNaN (fmax (fmul (oneMinus m) b) epsW) = true ∨ fle epsW (fmax (fmul (oneMinus m) b) epsW) = true) ∧
    signBit (magSubtract m a b) = false

/-- The wrap function: a value already in [-PI_F, PI_F] is unchanged; of a finite one outside, the multiple of TWO_PI_F is
taken off that R180 names, with one rounding and the result limited to the range; so every finite value lands there; a NaN
or an infinity gives a NaN (R180). -/
def Obligations.WrapLandsInRange : Prop :=
  ∀ phi : Word,
    (absBits phi ≤ absBits piW → wrap phi = phi) ∧
    (isFinite phi = true → absBits piW < absBits phi →
      let q : Int := ⌊(toReal phi + toReal piW) / toReal twoPiW⌋
      let r := rnReal (toReal phi - q * toReal twoPiW)
      wrap phi = if flt piW r then piW else if flt r (fneg piW) then fneg piW else r) ∧
    (isFinite phi = true → absBits (wrap phi) ≤ absBits piW) ∧
    (isFinite phi = false → isNaN (wrap phi) = true)

/-- Silent bins morph to silent bins, for every strategy pair and every m in [0, 1] (R188; for m beyond that range the
rule's sentence is not literally true, log 18). -/
def Obligations.SilentBinsStaySilent : Prop :=
  ∀ (p i : Nat) (a b : Bin) (cfg : Cfg), 2 ≤ p → p ≤ 31 → i < numBinsOf p → binZero a = true → binZero b = true →
    fle posZero cfg.m = true → fle cfg.m oneW = true → binZero (morphBin Config.num p i a b cfg) = true

/-! ## Runs after a RESET -/

/-- An engine that has received only zero samples since RESET answers every TICK with `0x00000000`, whatever the
strategies, for every m in [0, 1] (R188; for m beyond that range see log 18). -/
def Obligations.SilenceInSilenceOut : Prop :=
  ∀ (p : Nat) (xs : List TickArgs), 2 ≤ p → p ≤ 31 →
    (∀ x ∈ xs, isZero x.o.main = true ∧ isZero x.o.aux = true ∧ fle posZero x.o.m = true ∧ fle x.o.m oneW = true) →
    ∃ t, runInstrs (xs.map TickArgs.instr) (State.resetOf p) = .next t ∧
      t.resps = List.replicate xs.length 0x00000000#32

/-- The first hopSize responses after RESET are `+0.0` for every input and every configuration (R111, part a). -/
def Obligations.FirstResponsesAreZero : Prop :=
  ∀ (p : Nat) (xs : List TickArgs), 2 ≤ p → xs.length ≤ hopSizeOf p →
    ∃ t, runInstrs (xs.map TickArgs.instr) (State.resetOf p) = .next t ∧ t.resps = List.replicate xs.length posZero

/-- Both counters count the TICKs since RESET, `pos` modulo N and `hopCount` modulo hopSize, and TICK number t is a hop
boundary if and only if (t + 1) mod hopSize = 0 (10_state.md R28). -/
def Obligations.CountersCountTicks : Prop :=
  ∀ (p : Nat) (xs : List TickArgs), 2 ≤ p →
    ∃ t, runInstrs (xs.map TickArgs.instr) (State.resetOf p) = .next t ∧
      t.pos = xs.length % frameSize p ∧ t.hopCount = xs.length % hopSizeOf p ∧
      (t.hopNext ↔ (xs.length + 1) % hopSizeOf p = 0)

/-- The latency law: the response of TICK t is the sum, in ascending order from `+0.0`, of the contributions
`c_j[t - 1 - t_j]` of the frames with `t - N <= t_j <= t - 1`; there are at most four, four once t >= N, and
floor(t / hopSize) before (40_host_commands.md R110). -/
def Obligations.LatencyLaw : Prop :=
  ∀ (p : Nat) (xs : List TickArgs), 2 ≤ p →
    (∃ s, runInstrs (xs.map TickArgs.instr) (State.resetOf p) = .next s ∧
      s.resps = (List.range xs.length).map (lawResponse Config.num p xs)) ∧
    ∀ t, ((List.range (t / hopSizeOf p)).filter fun j => decide (t < (j + 1) * hopSizeOf p + frameSize p)).length =
      if t < frameSize p then t / hopSizeOf p else 4

/-- The reconstruction law on the bypass path: of finite main samples of magnitude at most 2^100, once the FIFO has filled,
the response is the main input of N TICKs ago, to a relative error of 2^-19 and an absolute one of 2^-140 (44_overlap_add.md
R206; the bounds on the error and on the samples are chosen here). -/
def Obligations.BypassReconstructsInput : Prop :=
  ∀ (p : Nat) (xs : List TickArgs) (s : State) (t : Nat), 2 ≤ p → (∀ x ∈ xs, x.bp = true) →
    (∀ x ∈ xs, isFinite x.o.main = true ∧ |toReal x.o.main| ≤ 2 ^ 100) →
    runInstrs (xs.map TickArgs.instr) (State.resetOf p) = .next s → frameSize p ≤ t → t < xs.length →
    isFinite (s.resps.getD t 0) = true ∧
      |toReal (s.resps.getD t 0) - toReal (tickNumber xs (t - frameSize p)).o.main|
        ≤ |toReal (tickNumber xs (t - frameSize p)).o.main| / 2 ^ 19 + 1 / 2 ^ 140

/-- The memory of the block is short: the rings after a run, and the response of TICK t, depend on the last `2N - 1` TICKs
before them and on no earlier one, so nothing, a non-finite sample included, leaves a trace beyond them (R110, R112,
45_numerics.md R219). -/
def Obligations.RecentTicksDetermineState : Prop :=
  ∀ (p : Nat) (xs ys : List TickArgs), 2 ≤ p → xs.length = ys.length →
    ∃ s t, runInstrs (xs.map TickArgs.instr) (State.resetOf p) = .next s ∧
      runInstrs (ys.map TickArgs.instr) (State.resetOf p) = .next t ∧
      ((∀ u, u < xs.length → xs.length < u + 2 * frameSize p → tickNumber xs u = tickNumber ys u) → s.mem = t.mem) ∧
      ∀ n, n < xs.length → (∀ u, u < n → n < u + 2 * frameSize p → tickNumber xs u = tickNumber ys u) →
        s.resps.getD n 0 = t.resps.getD n 0

/-- What is bit-exact for every NUM: the input rings and the counters after any run of TICKs, and the whole state, the
responses among it, where every TICK at a hop boundary has `byp = 1` (45_numerics.md R234; that the words of a TICK are one
step is the model's choice, log 1). -/
def Obligations.BypassRunsAgreeForEveryNum : Prop :=
  ∀ (num num' : Numerics) (p : Nat) (xs : List TickArgs), 2 ≤ p →
    let start := { State.resetOf p with cmds := xs.flatMap fun x => encode x.instr }
    ∃ s t, runWith num xs.length start = .next s ∧ runWith num' xs.length start = .next t ∧
      s.mem.inMain = t.mem.inMain ∧ s.mem.inAux = t.mem.inAux ∧ s.pos = t.pos ∧ s.hopCount = t.hopCount ∧
      ((∀ n, n < xs.length → (n + 1) % hopSizeOf p = 0 → (tickNumber xs n).bp = true) → s = t)

/-- BLOCK is the sequence of its TICKs: its words are theirs in order, they run to the end from every state that was
reset, and give one response each (40_host_commands.md R103; that the words stand in the state and that a step runs the words of
one TICK is the model's choice, log 1; that the notation is abstract syntax whose literals are fractions that it rounds is the
model's choice, log 17). -/
def Obligations.BlockIsItsTicks : Prop :=
  ∀ (cfg : ConfigLit) (samples : List (FloatLit × FloatLit)) (s : State), s.valid = true → s.cmds = [] →
    assembleLines [.block cfg samples] = samples.flatMap (fun x => assembleLines [.tick x.1 x.2 cfg]) ∧
    ∃ t, runSteps samples.length { s with cmds := assembleLines [.block cfg samples] } = .next t ∧ t.cmds = [] ∧
      t.resps.length = s.resps.length + samples.length

/-! ## The invariant -/

/-- Every step keeps the invariant: the frame size stays admissible, the sequencer is Idle between commands, every ring
keeps its N words, `pos` stays below N, and the hop counter is `pos` modulo hopSize (10_state.md R20, R26 to R29). -/
def Obligations.StepKeepsInvariant : Prop :=
  ∀ s t : State, s.Inv → step s = .next t → t.Inv

/-- The invariant holds at reset, at every admissible frame size, and at power-on whatever the rings and counters hold
(R45, 70 R271). -/
def Obligations.InvariantHoldsInitially : Prop :=
  State.reset.Inv ∧ (∀ p, 2 ≤ p → p ≤ 31 → (State.resetOf p).Inv) ∧
    ∀ p mem pos hop, 2 ≤ p → p ≤ 31 → (State.powerOn p mem pos hop).Inv

/-! ## Tables -/

/-- The exact entries of the window table, and its symmetry (41_frame_window.md R129). -/
def Obligations.WindowExactEntries : Prop :=
  ∀ p, 2 ≤ p → window p 0 = posZero ∧ window p (frameSize p / 2) = oneW ∧ window p (frameSize p / 4) = halfW ∧
    window p (3 * (frameSize p / 4)) = halfW ∧ ∀ n, 0 < n → n < frameSize p → window p (frameSize p - n) = window p n

/-- Each entry of the window table is finite and within 2^-23 of the Hann value (R124, R125; that it is the correctly
rounded value is not claimed, log 9). -/
def Obligations.WindowNearHann : Prop :=
  ∀ p n, 2 ≤ p → isFinite (window p n) = true ∧
    |toReal (window p n) - (1 / 2 - 1 / 2 * Real.cos (2 * Real.pi * n / 2 ^ p))| ≤ 1 / 2 ^ 23

/-- The overlap-add sums of the window: the four entries a hop apart sum to 2, and their squares to 1.5 (R129), to the
table's rounding. -/
def Obligations.WindowOverlapSums : Prop :=
  ∀ p n, 2 ≤ p →
    |∑ j ∈ Finset.range 4, toReal (window p ((n + j * hopSizeOf p) % frameSize p)) - 2| ≤ 1 / 2 ^ 20 ∧
    |∑ j ∈ Finset.range 4, toReal (window p ((n + j * hopSizeOf p) % frameSize p)) ^ 2 - 3 / 2| ≤ 1 / 2 ^ 19

/-- The crossfade table and the phase ramp: their ends and their middles, every crossfade entry RN32 of its real value,
every ramp entry finite and within 2^-22 of its real value (that it is the correctly rounded one is not claimed, log 9), and
the ramp's odd symmetry (10_state.md R31, R32). -/
def Obligations.BlendAndRampEntries : Prop :=
  ∀ p, 2 ≤ p → blend p 0 = posZero ∧ blend p (frameSize p / 4) = halfW ∧ blend p (frameSize p / 2) = oneW ∧
    (∀ i, i ≤ frameSize p / 2 → blend p i = rnReal (2 * i / 2 ^ p)) ∧
    ramp p 0 = 0xC0490FDB ∧ ramp p (frameSize p / 4) = posZero ∧ ramp p (frameSize p / 2) = 0x40490FDB ∧
    (∀ i, i ≤ frameSize p / 2 → isFinite (ramp p i) = true ∧
      |toReal (ramp p i) - Real.pi * (4 * i - 2 ^ p) / 2 ^ p| ≤ 1 / 2 ^ 22) ∧
    ∀ i, i ≤ frameSize p / 2 → i ≠ frameSize p / 4 → ramp p (frameSize p / 2 - i) = fneg (ramp p i)

/-! ## Numerics -/

/-- RN32 of a quotient of integers, in units of 2^-149, is the real number rounded once: below half a step past the largest
finite value it is finite, no finite value is nearer, and of two at the same distance it is the one with an even magnitude;
from there on it is an infinity of the number's sign (45_numerics.md R212, R213). -/
def Obligations.RoundsToNearestEven : Prop :=
  ∀ (x : Int) (d : Nat), 0 < d → IsRounded (rn32 x d) ((x : ℝ) / d / 2 ^ 149)

/-- Addition, subtraction, multiplication and division of finite values give the exact result rounded once: to nearest, ties
to even, and an infinity of its sign where it overflows (R212, R213, R214). -/
def Obligations.ArithmeticRoundsOnce : Prop :=
  ∀ a b : Word, isFinite a = true → isFinite b = true →
    IsRounded (fadd a b) (toReal a + toReal b) ∧ IsRounded (fsub a b) (toReal a - toReal b) ∧
      IsRounded (fmul a b) (toReal a * toReal b) ∧
      (isZero b = false → IsRounded (fdiv a b) (toReal a / toReal b))

/-- The square root of a finite non-negative value is finite and no finite value is nearer to the real root (R215). -/
def Obligations.SquareRootRoundsCorrectly : Prop :=
  ∀ a w : Word, isFinite a = true → (signBit a = false ∨ isZero a = true) → isFinite w = true →
    isFinite (fsqrt a) = true ∧ |toReal (fsqrt a) - Real.sqrt (toReal a)| ≤ |toReal w - Real.sqrt (toReal a)|

/-- The special cases of the arithmetic: signed zeros; infinities with each other, with zeros and with other values; NaN
operands, whose result is a quiet NaN (R213, R214, R215, R219). -/
def Obligations.ArithmeticSpecialCases : Prop :=
  (fadd posZero negZero = posZero ∧ fadd negZero negZero = negZero) ∧
  (∀ x, isFinite x = true → fsub x x = posZero) ∧
  (∀ a b, isInf a = true → isInf b = true →
    (signBit a ≠ signBit b → isNaN (fadd a b) = true ∧ fsub a b = a) ∧
    (signBit a = signBit b → isNaN (fsub a b) = true ∧ fadd a b = a)) ∧
  (∀ a b, isInf a = true → isFinite b = true →
    fadd a b = a ∧ fadd b a = a ∧ fsub a b = a ∧ fsub b a = fneg a) ∧
  (∀ a b, isInf a = true → isNaN b = false → isZero b = false →
    fmul a b = mkWord (signBit a != signBit b) infBits ∧ fmul b a = mkWord (signBit a != signBit b) infBits) ∧
  (∀ a b, isInf a = true → isFinite b = true →
    fdiv a b = mkWord (signBit a != signBit b) infBits ∧ fdiv b a = mkWord (signBit a != signBit b) 0) ∧
  (∀ a b, isZero a = true → isInf b = true → isNaN (fmul a b) = true ∧ isNaN (fmul b a) = true) ∧
  (∀ a b, isFinite a = true → isZero b = true →
    isZero (fmul a b) = true ∧ signBit (fmul a b) = (signBit a != signBit b)) ∧
  (∀ a b, isFinite a = true → isZero a = false → isZero b = true →
    isInf (fdiv a b) = true ∧ signBit (fdiv a b) = (signBit a != signBit b)) ∧
  (∀ a b, isZero a = true → isZero b = true → isNaN (fdiv a b) = true) ∧
  (∀ a b, isInf a = true → isInf b = true → isNaN (fdiv a b) = true) ∧
  (∀ a, isZero a = true → fsqrt a = a) ∧
  fsqrt (mkWord false infBits) = mkWord false infBits ∧
  (∀ a, isNaN a = false → isZero a = false → signBit a = true → isNaN (fsqrt a) = true) ∧
  (∀ a, isNaN a = true → isNaN (fsqrt a) = true ∧ (fsqrt a).getLsbD 22 = true) ∧
  ∀ a b, (isNaN a || isNaN b) = true →
    isNaN (fadd a b) = true ∧ isNaN (fsub a b) = true ∧ isNaN (fmul a b) = true ∧ isNaN (fdiv a b) = true ∧
      (fadd a b).getLsbD 22 = true ∧ (fsub a b).getLsbD 22 = true ∧ (fmul a b).getLsbD 22 = true ∧
      (fdiv a b).getLsbD 22 = true

/-- `fabs` clears the sign bit, `fneg` flips it, and neither touches another bit, on any bit pattern (R216). -/
def Obligations.SignOperations : Prop :=
  ∀ (a : Word) (n : Nat), (fabs a).getLsbD n = (a.getLsbD n && decide (n ≠ 31)) ∧
    (fneg a).getLsbD n = (a.getLsbD n != decide (n = 31))

/-- The ordered comparisons: on finite values the order of their real values, false if an operand is NaN, so that the two
zeros are equal (R217). -/
def Obligations.OrderedComparisons : Prop :=
  (∀ a b : Word, isFinite a = true → isFinite b = true →
    (flt a b = true ↔ toReal a < toReal b) ∧ (fle a b = true ↔ toReal a ≤ toReal b)) ∧
  (∀ a b : Word, (isNaN a || isNaN b) = true → flt a b = false ∧ fle a b = false) ∧
  (fle negZero posZero = true ∧ fle posZero negZero = true ∧ flt negZero posZero = false)

/-- `fmax` and `fmin` return the first operand when the operands are equal or unordered (R218). -/
def Obligations.SelectionKeepsFirstOperand : Prop :=
  ∀ a b : Word,
    (flt a b = true → fmax a b = b) ∧ (flt a b = false → fmax a b = a) ∧
    (flt b a = true → fmin a b = b) ∧ (flt b a = false → fmin a b = a) ∧
    ((isNaN a || isNaN b) = true → fmax a b = a ∧ fmin a b = a)

/-- In real arithmetic the transforms invert each other: `irfft(rfft(x)) = x`, and `rfft(irfft(X))` is `X` with the imaginary
parts of bin 0 and bin N/2 set to zero (42_transform.md R141, R144, R145, R146, R152). -/
def Obligations.RealTransformsInvert : Prop :=
  ∀ p, 2 ≤ p →
    (∀ (x : Nat → ℝ) (n : Nat), n < frameSize p → realIrfft p (realRfftRe p x) (realRfftIm p x) n = x n) ∧
    ∀ (re im : Nat → ℝ) (k : Nat), k ≤ frameSize p / 2 →
      realRfftRe p (realIrfft p re im) k = re k ∧
      realRfftIm p (realIrfft p re im) k = if k = 0 ∨ k = frameSize p / 2 then 0 else im k

/-- The round trip of the transform pair (42_transform.md R152, R231). "P3 applied twice": of every NUM that meets the bounds of
R148, whatever the frame and however small, forward on the frame and inverse on the spectrum it makes of it, the error of a
sample is at most `(5 + 3 * TOL_FFT) * TOL_FFT * L1(x)`, and so at most `7 * TOL_FFT * L1(x)` with `TOL_FFT` at most 2/3.
For every NUM that is admissible with whatever tolerances, where P3 applies twice (`AppliesTwice`): the same where
`TOL_FFT * L1(x)` is at least the slack of log 8, and where NUM_RADIX2 meets those bounds; and of every frame the error is at most
`5 + 3 * TOL_FFT` times the larger of `TOL_FFT * L1(x)` and the slack. That the sample is finite is asked where NUM_RADIX2 might
overflow (log 20). P3 does apply twice, with finite samples, to every finite frame whose sum of magnitudes, times 4N, is at most
2^126, with `TOL_FFT` at most 2/3. -/
def Obligations.TransformRoundTrip : Prop :=
  ∀ (num : Numerics) (p : Nat) (tol : Tolerances) (x : List Word) (n : Nat), 2 ≤ p → n < frameSize p →
    let sample := frameAt (num.roundTrip p x) n
    let err := |toReal sample - toReal (frameAt x n)|
    (num.MeetsForward p tol x → num.MeetsInverse p tol (num.rfft p x) n →
      err ≤ (5 + 3 * tol.fft) * (tol.fft * l1Frame p x) ∧ (tol.fft ≤ 2 / 3 → err ≤ 7 * tol.fft * l1Frame p x)) ∧
    (p ≤ 31 → num.Admissible p tol →
      (num.AppliesTwice p x → isFinite sample = true → err ≤ (5 + 3 * tol.fft) * forwardBound p tol x) ∧
      (num.AppliesTwice p x → isFinite sample = true → tol.fft ≤ 2 / 3 → forwardSlack p ≤ tol.fft * l1Frame p x →
        err ≤ 7 * tol.fft * l1Frame p x) ∧
      (num.AppliesTwice p x → numRadix2.MeetsForward p tol x → numRadix2.MeetsInverse p tol (num.rfft p x) n →
        tol.fft ≤ 2 / 3 → isFinite sample = true ∧ err ≤ 7 * tol.fft * l1Frame p x) ∧
      (x.length = frameSize p → (∀ w ∈ x, isFinite w = true) → 4 * frameSize p * l1Frame p x ≤ 2 ^ 126 → tol.fft ≤ 2 / 3 →
        num.AppliesTwice p x ∧ isFinite sample = true))

end ObligationStatements
end

