-- ==== Sys2Proof/Laws/Decode.lean ====
section
/-! SUPPORT. The fields of the first word of a TICK read back, and what the decoder's naming keeps. -/

namespace Sys2Proof

section
variable (msel psel : BitVec 8) (bp iv : Bool)

/-- The first word of a TICK, bit by bit (R72). -/
theorem tickWord0_getLsbD (i : Nat) : (tickWord0 msel psel bp iv).getLsbD i =
    (if i < 8 then msel.getLsbD i else if i < 16 then psel.getLsbD (i - 8) else if i = 16 then bp else if i = 17 then iv
      else decide (i = 29)) := by
  have h : (tickWord0 msel psel bp iv).getLsbD i =
      (2#4 ++ 0#10 ++ BitVec.ofBool iv ++ BitVec.ofBool bp ++ psel ++ msel : BitVec (4 + 10 + 1 + 1 + 8 + 8)).getLsbD i := rfl
  rw [h]
  simp only [BitVec.getLsbD_append]
  by_cases h8 : i < 8
  · simp [h8]
  by_cases h16 : i < 16
  · simp [h8, h16, show i - 8 < 8 by omega]
  by_cases e16 : i = 16
  · subst e16; simp
  by_cases e17 : i = 17
  · subst e17; simp
  rw [if_neg h8, if_neg h16, if_neg e16, if_neg e17, if_neg h8]
  simp only [show ¬ i - 8 < 8 by omega, show ¬ i - 8 - 8 < 1 by omega, show ¬ i - 8 - 8 - 1 < 1 by omega, if_false]
  by_cases h28 : i - 8 - 8 - 1 - 1 < 10
  · simp [h28]; omega
  · simp only [h28]
    obtain ⟨k, rfl⟩ : ∃ k, i = 28 + k := ⟨i - 28, by omega⟩
    rw [show 28 + k - 8 - 8 - 1 - 1 - 10 = k by omega]
    match k with
    | 0 => rfl
    | 1 => rfl
    | 2 => rfl
    | 3 => rfl
    | k + 4 => simp; omega

theorem opcode_tickWord0 : opcode (tickWord0 msel psel bp iv) = 2 := by
  have : (tickWord0 msel psel bp iv).extractLsb' 28 4 = 2#4 := by
    apply BitVec.eq_of_getLsbD_eq
    intro i hi
    rw [BitVec.getLsbD_extractLsb', tickWord0_getLsbD]
    have : i = 0 ∨ i = 1 ∨ i = 2 ∨ i = 3 := by omega
    rcases this with rfl | rfl | rfl | rfl <;> rfl
  unfold opcode
  rw [this]
  rfl

theorem rsvField_tickWord0 : rsvField (tickWord0 msel psel bp iv) = 0 := by
  apply BitVec.eq_of_getLsbD_eq
  intro i hi
  unfold rsvField
  rw [BitVec.getLsbD_extractLsb', tickWord0_getLsbD, if_neg (by omega), if_neg (by omega), if_neg (by omega),
    if_neg (by omega)]
  simp
  omega

theorem mselField_tickWord0 : mselField (tickWord0 msel psel bp iv) = msel := by
  apply BitVec.eq_of_getLsbD_eq
  intro i hi
  unfold mselField
  rw [BitVec.getLsbD_extractLsb', tickWord0_getLsbD, if_pos (by omega), Nat.zero_add]
  simp [hi]

theorem pselField_tickWord0 : pselField (tickWord0 msel psel bp iv) = psel := by
  apply BitVec.eq_of_getLsbD_eq
  intro i hi
  unfold pselField
  rw [BitVec.getLsbD_extractLsb', tickWord0_getLsbD, if_neg (by omega), if_pos (by omega), Nat.add_sub_cancel_left]
  simp [hi]

theorem bypField_tickWord0 : bypField (tickWord0 msel psel bp iv) = bp := tickWord0_getLsbD _ _ _ _ _

theorem invphField_tickWord0 : invphField (tickWord0 msel psel bp iv) = iv := tickWord0_getLsbD _ _ _ _ _

end

/-! ## The decoder's naming -/

theorem eq_ofNat_of_toNat (sel : BitVec 8) (n : Nat) (h : sel.toNat = n) : sel = BitVec.ofNat 8 n := by
  subst h
  simp

theorem nameByMag_command (msel : BitVec 8) (o : Operands) :
    (nameByMag msel o).command? = some (tickCommand msel 0 false false o) := by
  unfold nameByMag
  split <;> first
    | rfl
    | (rename_i h; rw [eq_ofNat_of_toNat msel _ h]; rfl)

theorem nameByPhase_command (psel : BitVec 8) (o : Operands) :
    (nameByPhase psel o).command? = some (tickCommand 0 psel false false o) := by
  unfold nameByPhase
  split <;> first
    | rfl
    | (rename_i h; rw [eq_ofNat_of_toNat psel _ h]; rfl)

/-- The name does not change the command. -/
theorem nameTick_command (msel psel : BitVec 8) (bp iv : Bool) (o : Operands) :
    (nameTick msel psel bp iv o).command? = some (tickCommand msel psel bp iv o) := by
  unfold nameTick
  cases bp
  · cases iv
    · simp only [Bool.false_eq_true, if_false]
      split
      · next hp =>
        subst hp
        split
        · next hm => subst hm; rfl
        · exact nameByMag_command msel o
      · split
        · next hm => subst hm; exact nameByPhase_command psel o
        · split
          · rfl
          · split <;> rfl
    · rfl
  · rfl

/-- The decoder's name of an instruction is that of its command. -/
theorem named_command (i : Instr) : i.named.command? = i.command? := by
  cases i <;> first | rfl | exact nameTick_command _ _ _ _ _

end Sys2Proof
end

