-- ==== Sys2Proof/Laws/FloatError.lean ====
section
/-! SUPPORT. One multiplication, addition or subtraction: that a finite result has finite operands, that it is finite below
`3 * 2^126`, and its rounding error, relative 2^-24, absolute half the smallest subnormal. -/

namespace Sys2Proof.Machine

/-! ## The sign operation -/

theorem absBits_fneg (a : Word) : absBits (fneg a) = absBits a := by
  unfold absBits fneg
  rw [BitVec.toNat_xor, show (0x80000000#32 : BitVec 32).toNat = 2 ^ 31 from rfl]
  apply Nat.eq_of_testBit_eq
  intro i
  rw [Nat.testBit_mod_two_pow, Nat.testBit_mod_two_pow, Nat.testBit_xor, Nat.testBit_two_pow]
  by_cases hi : i < 31
  · rw [decide_eq_false (by omega : ¬31 = i), Bool.xor_false]
  · rw [decide_eq_false hi, Bool.false_and, Bool.false_and]

theorem signBit_fneg (a : Word) : signBit (fneg a) = !signBit a := by
  unfold signBit fneg
  rw [BitVec.msb_xor, show (0x80000000#32 : BitVec 32).msb = true from rfl, Bool.xor_true]

theorem units_fneg (a : Word) : units (fneg a) = -units a := by
  unfold units mag
  rw [signBit_fneg, absBits_fneg]
  cases signBit a <;> simp

theorem toReal_fneg (a : Word) : toReal (fneg a) = -toReal a := by
  unfold toReal
  rw [units_fneg, Int.cast_neg, neg_div]

theorem isFinite_fneg (a : Word) : isFinite (fneg a) = isFinite a := by
  unfold isFinite
  rw [absBits_fneg]

/-! ## Rounding -/

/-- One rounding of `n / d` units with a sign: below `3 * 2^126` the result is finite. -/
theorem rnd_finite (neg : Bool) (n d : Nat) (hd : 0 < d) (v : ℝ) (hv : v = (if neg then -1 else 1) * ((n : ℝ) / d / 2 ^ 149))
    (h : |v| ≤ 3 * 2 ^ 126) : isFinite (rnd neg n d) = true := by
  have hA : (0 : ℝ) < 2 ^ 149 := by positivity
  have hdr : (0 : ℝ) < d := by exact_mod_cast hd
  have hs : |(if neg then -1 else 1 : ℝ)| = 1 := by cases neg <;> simp
  rw [hv, abs_mul, hs, one_mul, abs_of_nonneg (by positivity), div_le_iff₀ hA, div_le_iff₀ hdr, mul_assoc (3 : ℝ), ← pow_add] at h
  have hn : n ≤ 3 * 2 ^ 275 * d := by exact_mod_cast h
  unfold isFinite rnd
  rw [absBits_mkWord _ _ (roundMag_lt _ _), decide_eq_true_eq]
  exact roundMag_finite n d hd hn

/-- One rounding of `n / d` units with a sign: the error of a finite result. -/
theorem rnd_error (neg : Bool) (n d : Nat) (hd : 0 < d) (v : ℝ) (hv : v = (if neg then -1 else 1) * ((n : ℝ) / d / 2 ^ 149))
    (h : isFinite (rnd neg n d) = true) : |toReal (rnd neg n d) - v| ≤ |v| / 2 ^ 24 + 1 / 2 ^ 150 := by
  have hA : (0 : ℝ) < 2 ^ 149 := by positivity
  have hs : |(if neg then -1 else 1 : ℝ)| = 1 := by cases neg <;> simp
  have hav : |v| = (n : ℝ) / d / 2 ^ 149 := by
    rw [hv, abs_mul, hs, one_mul, abs_of_nonneg (by positivity)]
  unfold isFinite rnd at h
  rw [absBits_mkWord _ _ (roundMag_lt _ _), decide_eq_true_eq] at h
  have hc := roundMag_close n d hd h
  have he : toReal (rnd neg n d) - v
      = (if neg then -1 else 1) * (((unitsOfBits (roundMag n d) : ℝ) - n / d) / 2 ^ 149) := by
    unfold toReal rnd
    rw [units_mkWord _ _ (roundMag_lt _ _), hv]
    cases neg
    · simp [sub_div]
    · simp only [if_true, Int.cast_neg, Int.cast_natCast]
      ring
  rw [he, abs_mul, hs, one_mul, hav, abs_div, abs_of_pos hA, div_le_iff₀ hA]
  refine hc.trans (le_of_eq ?_)
  have h150 : (2 : ℝ) ^ 150 = 2 ^ 149 * 2 := pow_succ 2 149
  rw [h150]
  generalize (2 : ℝ) ^ 149 = A at hA
  field_simp
  ring

theorem toReal_signed (a : Word) : toReal a = (if signBit a then -1 else 1) * ((mag a : ℝ) / 2 ^ 149) := by
  unfold toReal units
  cases signBit a
  · simp
  · simp [neg_div]

/-! ## What is finite -/

theorem isFinite_cases (a : Word) : isFinite a = true ∨ isInf a = true ∨ isNaN a = true := by
  unfold isFinite isInf isNaN
  simp only [decide_eq_true_eq]
  omega

theorem not_isFinite_of_isNaN (a : Word) (h : isNaN a = true) : isFinite a = false := by
  unfold isNaN at h
  rw [decide_eq_true_eq] at h
  unfold isFinite
  rw [decide_eq_false_iff_not]
  omega

theorem not_isFinite_of_isInf (a : Word) (h : isInf a = true) : isFinite a = false := by
  unfold isInf at h
  rw [decide_eq_true_eq] at h
  unfold isFinite
  rw [decide_eq_false_iff_not]
  omega

theorem isNaN_quietNaN (b : BitVec 23) : isNaN (quietNaN b) = true := by
  have hb : b.toNat % 2 ^ 22 < 2 ^ 22 := Nat.mod_lt _ (by norm_num)
  unfold isNaN quietNaN infBits
  rw [absBits_mkWord _ _ (by omega), decide_eq_true_eq]
  omega

theorem isNaN_freeNaN (op : Config.FpOp) (a b : Word) : isNaN (freeNaN op a b) = true := isNaN_quietNaN _

theorem not_isFinite_freeNaN (op : Config.FpOp) (a b : Word) : isFinite (freeNaN op a b) = false :=
  not_isFinite_of_isNaN _ (isNaN_freeNaN op a b)

theorem not_isFinite_mkInf (s : Bool) : isFinite (mkWord s infBits) = false := by
  unfold isFinite
  rw [absBits_mkWord _ _ (by decide), decide_eq_false_iff_not]
  omega

/-- A finite product has finite factors. -/
theorem operands_of_fmul_finite (a b : Word) (h : isFinite (fmul a b) = true) : isFinite a = true ∧ isFinite b = true := by
  unfold fmul at h
  simp only at h
  split at h
  · rw [not_isFinite_freeNaN] at h
    exact absurd h (by decide)
  · next hn =>
    split at h
    · split at h
      · rw [not_isFinite_freeNaN] at h
        exact absurd h (by decide)
      · rw [not_isFinite_mkInf] at h
        exact absurd h (by decide)
    · next hi =>
      simp only [Bool.or_eq_true, not_or, Bool.not_eq_true] at hn hi
      have ha := isFinite_cases a
      have hb := isFinite_cases b
      simp only [hn.1, hi.1, hn.2, hi.2, Bool.false_eq_true, or_false] at ha hb
      exact ⟨ha, hb⟩

/-- A finite sum has finite terms. -/
theorem operands_of_fadd_finite (a b : Word) (h : isFinite (fadd a b) = true) : isFinite a = true ∧ isFinite b = true := by
  unfold fadd at h
  split at h
  · rw [not_isFinite_freeNaN] at h
    exact absurd h (by decide)
  · next hn =>
    simp only [Bool.or_eq_true, not_or, Bool.not_eq_true] at hn
    split at h
    · next hi =>
      split at h
      · rw [not_isFinite_freeNaN] at h
        exact absurd h (by decide)
      · rw [not_isFinite_of_isInf a hi] at h
        exact absurd h (by decide)
    · next hi =>
      split at h
      · next hj =>
        rw [not_isFinite_of_isInf b hj] at h
        exact absurd h (by decide)
      · next hj =>
        have ha := isFinite_cases a
        have hb := isFinite_cases b
        simp only [hn.1, hi, hn.2, hj, Bool.false_eq_true, or_false] at ha hb
        exact ⟨ha, hb⟩

/-- A finite difference has finite terms. -/
theorem operands_of_fsub_finite (a b : Word) (h : isFinite (fsub a b) = true) : isFinite a = true ∧ isFinite b = true := by
  unfold fsub at h
  split at h
  · rw [not_isFinite_freeNaN] at h
    exact absurd h (by decide)
  · split at h
    · rw [not_isFinite_freeNaN] at h
      exact absurd h (by decide)
    · have := operands_of_fadd_finite a (fneg b) h
      rwa [isFinite_fneg] at this

/-! ## The three operations: when they are finite, and the error of a finite result -/

theorem fmul_eq_rnd (a b : Word) (ha : isFinite a = true) (hb : isFinite b = true) :
    fmul a b = rnd (signBit a != signBit b) (mag a * mag b) (2 ^ 149) := by
  unfold fmul
  simp only [not_isNaN_of_finite a ha, not_isNaN_of_finite b hb, not_isInf_of_finite a ha, not_isInf_of_finite b hb,
    Bool.or_self, Bool.false_eq_true, if_false]

theorem mul_signed (a b : Word) : toReal a * toReal b
    = (if signBit a != signBit b then -1 else 1) * (((mag a * mag b : Nat) : ℝ) / (2 ^ 149 : Nat) / 2 ^ 149) := by
  rw [toReal_signed a, toReal_signed b, Nat.cast_mul, Nat.cast_pow, Nat.cast_ofNat]
  have hA : (2 : ℝ) ^ 149 ≠ 0 := by positivity
  generalize (2 : ℝ) ^ 149 = A at hA
  cases signBit a <;> cases signBit b <;> simp <;> ring

theorem fmul_finite (a b : Word) (ha : isFinite a = true) (hb : isFinite b = true)
    (h : |toReal a * toReal b| ≤ 3 * 2 ^ 126) : isFinite (fmul a b) = true := by
  rw [fmul_eq_rnd a b ha hb]
  exact rnd_finite _ _ _ (by positivity) _ (mul_signed a b) h

theorem fmul_error (a b : Word) (h : isFinite (fmul a b) = true) :
    |toReal (fmul a b) - toReal a * toReal b| ≤ |toReal a * toReal b| / 2 ^ 24 + 1 / 2 ^ 150 := by
  obtain ⟨ha, hb⟩ := operands_of_fmul_finite a b h
  rw [fmul_eq_rnd a b ha hb] at h ⊢
  exact rnd_error _ _ _ (by positivity) _ (mul_signed a b) h

theorem fadd_eq_addFinite (a b : Word) (ha : isFinite a = true) (hb : isFinite b = true) : fadd a b = addFinite a b := by
  unfold fadd
  simp only [not_isNaN_of_finite a ha, not_isNaN_of_finite b hb, not_isInf_of_finite a ha, not_isInf_of_finite b hb,
    Bool.or_self, Bool.false_eq_true, if_false]

/-- The exact sum of two finite values is a whole number of units. -/
theorem add_units (a b : Word) : toReal a + toReal b = ((units a + units b : Int) : ℝ) / 2 ^ 149 := by
  unfold toReal
  rw [Int.cast_add, add_div]

theorem int_signed (x : Int) : (x : ℝ) / 2 ^ 149
    = (if decide (x < 0) then -1 else 1) * ((x.natAbs : ℝ) / (1 : Nat) / 2 ^ 149) := by
  rw [Nat.cast_natAbs, Int.cast_abs, Nat.cast_one, div_one]
  by_cases hx : x < 0
  · have hxr : (x : ℝ) < 0 := by exact_mod_cast hx
    simp only [hx, decide_true, if_true]
    rw [abs_of_neg hxr]
    ring
  · have hxr : (0 : ℝ) ≤ x := by exact_mod_cast not_lt.1 hx
    simp only [hx, decide_false, Bool.false_eq_true, if_false]
    rw [abs_of_nonneg hxr, one_mul]

/-- A sum is the exact one rounded, or a zero where that is zero. -/
theorem addFinite_cases (a b : Word) : (addFinite a b = rn32 (units a + units b) 1) ∨
    (toReal a + toReal b = 0 ∧ isZero (addFinite a b) = true) := by
  unfold addFinite
  simp only
  split
  · next h0 =>
    refine Or.inr ⟨by rw [add_units, h0]; simp, ?_⟩
    split <;> decide
  · exact Or.inl rfl

theorem fadd_finite (a b : Word) (ha : isFinite a = true) (hb : isFinite b = true)
    (h : |toReal a + toReal b| ≤ 3 * 2 ^ 126) : isFinite (fadd a b) = true := by
  rw [fadd_eq_addFinite a b ha hb]
  rcases addFinite_cases a b with he | ⟨-, hz⟩
  · rw [he]
    exact rnd_finite _ _ _ one_pos _ ((add_units a b).trans (int_signed _)) h
  · exact isFinite_of_isZero _ hz

theorem fadd_error (a b : Word) (h : isFinite (fadd a b) = true) :
    |toReal (fadd a b) - (toReal a + toReal b)| ≤ |toReal a + toReal b| / 2 ^ 24 + 1 / 2 ^ 150 := by
  obtain ⟨ha, hb⟩ := operands_of_fadd_finite a b h
  rw [fadd_eq_addFinite a b ha hb] at h ⊢
  rcases addFinite_cases a b with he | ⟨h0, hz⟩
  · rw [he] at h ⊢
    exact rnd_error _ _ _ one_pos _ ((add_units a b).trans (int_signed _)) h
  · have : toReal (addFinite a b) = 0 := by
      unfold toReal
      rw [units_zero _ hz, Int.cast_zero, zero_div]
    rw [h0, this]
    simp

theorem fsub_eq_fadd (a b : Word) (ha : isFinite a = true) (hb : isFinite b = true) : fsub a b = fadd a (fneg b) := by
  unfold fsub
  simp [not_isNaN_of_finite a ha, not_isNaN_of_finite b hb, not_isInf_of_finite a ha]

theorem sub_fneg (a b : Word) : toReal a - toReal b = toReal a + toReal (fneg b) := by rw [toReal_fneg, sub_eq_add_neg]

theorem fsub_finite (a b : Word) (ha : isFinite a = true) (hb : isFinite b = true)
    (h : |toReal a - toReal b| ≤ 3 * 2 ^ 126) : isFinite (fsub a b) = true := by
  rw [sub_fneg] at h
  rw [fsub_eq_fadd a b ha hb]
  exact fadd_finite a (fneg b) ha (by rwa [isFinite_fneg]) h

theorem fsub_error (a b : Word) (h : isFinite (fsub a b) = true) :
    |toReal (fsub a b) - (toReal a - toReal b)| ≤ |toReal a - toReal b| / 2 ^ 24 + 1 / 2 ^ 150 := by
  obtain ⟨ha, hb⟩ := operands_of_fsub_finite a b h
  rw [fsub_eq_fadd a b ha hb] at h ⊢
  rw [sub_fneg]
  exact fadd_error a (fneg b) h

end Sys2Proof.Machine
end

