-- ==== Sys2Proof/Laws/RealRounding.lean ====
section
/-! SUPPORT. RN32 of a real number: it is `rn32` on quotients, its error, its order, and the bounds that the named instances
of NUM need. -/

namespace Sys2Proof.Machine

/-! ## On quotients it is the rounding of the machine -/

theorem roundEvenReal_div (n d : Nat) (hd : 0 < d) : roundEvenReal ((n : ℝ) / d) = roundEven n d := by
  have hdr : (0 : ℝ) < d := by exact_mod_cast hd
  have hq : ⌊(n : ℝ) / d⌋₊ = n / d := by rw [Nat.floor_div_natCast, Nat.floor_natCast]
  have hn : (n : ℝ) = d * (n / d : Nat) + (n % d : Nat) := by exact_mod_cast (Nat.div_add_mod n d).symm
  have hf : (n : ℝ) / d - (n / d : Nat) = ((n % d : Nat) : ℝ) / d := by
    rw [sub_eq_iff_eq_add, div_add' _ _ _ hdr.ne', mul_comm, add_comm]
    congr 1
  unfold roundEvenReal roundEven
  simp only [hq, hf]
  have h1 : (1 / 2 < ((n % d : Nat) : ℝ) / d) ↔ d < 2 * (n % d) := by
    rw [div_lt_div_iff₀ two_pos hdr, one_mul, mul_comm]
    exact_mod_cast Iff.rfl
  have h2 : (((n % d : Nat) : ℝ) / d = 1 / 2) ↔ 2 * (n % d) = d := by
    rw [div_eq_div_iff hdr.ne' two_ne_zero, one_mul, mul_comm]
    exact_mod_cast Iff.rfl
  simp only [h1, h2]

theorem roundMagReal_div (n d : Nat) (hd : 0 < d) : roundMagReal ((n : ℝ) / d) = roundMag n d := by
  have hq : ⌊(n : ℝ) / d⌋₊ = n / d := by rw [Nat.floor_div_natCast, Nat.floor_natCast]
  unfold roundMagReal roundMag
  simp only [hq]
  rw [← roundEvenReal_div n _ (by positivity), Nat.cast_mul, Nat.cast_pow, Nat.cast_ofNat, div_div]

/-- RN32 of a quotient of integers in units of 2^-149. -/
theorem rnReal_div (x : Int) (d : Nat) (hd : 0 < d) : rnReal ((x : ℝ) / d / 2 ^ 149) = rn32 x d := by
  have hdr : (0 : ℝ) < d := by exact_mod_cast hd
  have hA : (0 : ℝ) < 2 ^ 149 := by positivity
  unfold rnReal rn32 rnd
  have hs : (x : ℝ) / d / 2 ^ 149 < 0 ↔ x < 0 := by
    rw [div_lt_iff₀ hA, zero_mul, div_lt_iff₀ hdr, zero_mul]
    exact_mod_cast Iff.rfl
  have hm : |(x : ℝ) / d / 2 ^ 149| * 2 ^ 149 = (x.natAbs : ℝ) / d := by
    rw [abs_div, abs_div, abs_of_pos hA, abs_of_pos hdr, div_mul_cancel₀ _ hA.ne', Nat.cast_natAbs, Int.cast_abs]
  rw [hm, roundMagReal_div _ _ hd]
  simp only [hs]

theorem rnReal_zero : rnReal 0 = posZero := by
  have h := rnReal_div 0 1 one_pos
  rw [Int.cast_zero, zero_div, zero_div] at h
  rw [h, rn32_zero]

theorem rnReal_one : rnReal 1 = oneW := by
  have h := rnReal_div (2 ^ 149) 1 one_pos
  rw [Int.cast_pow, Int.cast_ofNat, Nat.cast_one, div_one, div_self (pow_ne_zero _ two_ne_zero)] at h
  rw [h]
  decide +kernel

/-! ## The error of one rounding -/

theorem roundEvenReal_close (y : ℝ) (hy : 0 ≤ y) : |(roundEvenReal y : ℝ) - y| ≤ 1 / 2 := by
  have h1 := Nat.floor_le hy
  have h2 := Nat.lt_floor_add_one y
  unfold roundEvenReal
  simp only
  split
  · next h =>
    have : (1 : ℝ) / 2 ≤ y - ⌊y⌋₊ := by rcases h with h | h <;> linarith
    push_cast
    rw [abs_le]
    constructor <;> linarith
  · next h =>
    have : y - ⌊y⌋₊ ≤ 1 / 2 := not_lt.1 fun hc => h (Or.inl hc)
    rw [abs_le]
    constructor <;> linarith

theorem roundEvenReal_bounds (y : ℝ) : ⌊y⌋₊ ≤ roundEvenReal y ∧ roundEvenReal y ≤ ⌊y⌋₊ + 1 := by
  unfold roundEvenReal
  simp only
  split <;> omega

/-- The significand that `roundMagReal` keeps. -/
theorem roundMagReal_significand (m : ℝ) :
    let k := Nat.log2 ⌊m⌋₊ - 23
    (k = 0 ∨ 2 ^ 23 ≤ roundEvenReal (m / 2 ^ k)) ∧ roundEvenReal (m / 2 ^ k) ≤ 2 ^ 24 ∧ (k = 0 ∨ 2 ^ (k + 23) ≤ ⌊m⌋₊) := by
  intro k
  have hb := roundEvenReal_bounds (m / 2 ^ k)
  have hf : ⌊m / 2 ^ k⌋₊ = ⌊m⌋₊ / (1 * 2 ^ k) := by
    rw [one_mul, show ((2 : ℝ) ^ k) = ((2 ^ k : Nat) : ℝ) by push_cast; rfl, Nat.floor_div_natCast]
  rw [hf] at hb
  have hs := roundMag_significand ⌊m⌋₊ 1
  have hb2 := roundEven_bounds ⌊m⌋₊ (1 * 2 ^ k)
  rw [Nat.div_one] at hs
  have hup : ⌊m⌋₊ / (1 * 2 ^ k) < 2 ^ 24 := by
    rw [one_mul, Nat.div_lt_iff_lt_mul (by positivity), ← pow_add]
    rcases Nat.eq_zero_or_pos ⌊m⌋₊ with h0 | hp
    · rw [h0]; positivity
    · exact lt_of_lt_of_le (Nat.lt_log2_self (n := ⌊m⌋₊)) (Nat.pow_le_pow_right (by norm_num) (by omega))
  refine ⟨?_, by omega, hs.2.2⟩
  rcases hs.2.2 with h | h
  · exact Or.inl h
  · right
    have : 2 ^ 23 ≤ ⌊m⌋₊ / (1 * 2 ^ k) := by
      rw [one_mul, Nat.le_div_iff_mul_le (by positivity), ← pow_add, add_comm 23 k]
      exact h
    omega

theorem roundMagReal_close (m : ℝ) (hm : 0 ≤ m) (hfin : roundMagReal m < infBits) :
    |(unitsOfBits (roundMagReal m) : ℝ) - m| ≤ 1 / 2 + m / 2 ^ 24 := by
  obtain ⟨hlo, hhi, hk⟩ := roundMagReal_significand m
  have hr : roundMagReal m = (Nat.log2 ⌊m⌋₊ - 23) * 2 ^ 23 + roundEvenReal (m / 2 ^ (Nat.log2 ⌊m⌋₊ - 23)) := by
    unfold roundMagReal at hfin ⊢
    simp only at hfin ⊢
    omega
  rw [hr]
  revert hlo hhi hk
  generalize Nat.log2 ⌊m⌋₊ - 23 = k
  intro hlo hhi hk
  rw [unitsOfBits_normal _ _ hlo hhi]
  have h2k : (0 : ℝ) < 2 ^ k := by positivity
  have hc := roundEvenReal_close (m / 2 ^ k) (by positivity)
  push_cast
  have hscale : |(roundEvenReal (m / 2 ^ k) : ℝ) * 2 ^ k - m| ≤ 1 / 2 * 2 ^ k := by
    have : (roundEvenReal (m / 2 ^ k) : ℝ) * 2 ^ k - m = ((roundEvenReal (m / 2 ^ k) : ℝ) - m / 2 ^ k) * 2 ^ k := by
      field_simp
    rw [this, abs_mul, abs_of_pos h2k]
    exact mul_le_mul_of_nonneg_right hc h2k.le
  refine hscale.trans ?_
  rcases hk with h0 | h1
  · subst h0
    have : 0 ≤ m / 2 ^ 24 := by positivity
    simp only [pow_zero, mul_one]
    linarith
  · have hq : (2 : ℝ) ^ (k + 23) ≤ m := by
      have h2 : ((2 ^ (k + 23) : Nat) : ℝ) ≤ ((⌊m⌋₊ : Nat) : ℝ) := by exact_mod_cast h1
      push_cast at h2
      exact h2.trans (Nat.floor_le hm)
    have : (1 : ℝ) / 2 * 2 ^ k = 2 ^ (k + 23) / 2 ^ 24 := by
      rw [pow_add]
      field_simp
    rw [this]
    have := div_le_div_of_nonneg_right hq (by positivity : (0 : ℝ) ≤ 2 ^ 24)
    linarith

/-! ## The order -/

theorem roundEvenReal_mono {x y : ℝ} (h : x ≤ y) : roundEvenReal x ≤ roundEvenReal y := by
  have hf := Nat.floor_le_floor h
  have hb := roundEvenReal_bounds x
  have hb2 := roundEvenReal_bounds y
  rcases Nat.lt_or_ge ⌊x⌋₊ ⌊y⌋₊ with hl | hl
  · omega
  · have he : ⌊y⌋₊ = ⌊x⌋₊ := by omega
    unfold roundEvenReal
    simp only [he]
    split
    · next hx =>
      rw [if_pos]
      rcases hx with hx | ⟨hx, ho⟩
      · exact Or.inl (by linarith)
      · rcases lt_or_eq_of_le h with hxy | hxy
        · exact Or.inl (by linarith)
        · exact Or.inr ⟨by rw [← hxy]; exact hx, ho⟩
    · split <;> omega

theorem roundMagReal_mono {x y : ℝ} (h : x ≤ y) : roundMagReal x ≤ roundMagReal y := by
  have hf := Nat.floor_le_floor h
  obtain ⟨-, hhx, -⟩ := roundMagReal_significand x
  obtain ⟨hly, -, -⟩ := roundMagReal_significand y
  have hlog : Nat.log2 ⌊x⌋₊ ≤ Nat.log2 ⌊y⌋₊ := by
    rw [Nat.log2_eq_log_two, Nat.log2_eq_log_two]
    exact Nat.log_mono_right hf
  unfold roundMagReal
  simp only
  rcases Nat.lt_or_ge (Nat.log2 ⌊x⌋₊ - 23) (Nat.log2 ⌊y⌋₊ - 23) with hl | hl
  · omega
  · have he : Nat.log2 ⌊y⌋₊ - 23 = Nat.log2 ⌊x⌋₊ - 23 := by omega
    rw [he]
    have := roundEvenReal_mono (div_le_div_of_nonneg_right h (by positivity : (0 : ℝ) ≤ 2 ^ (Nat.log2 ⌊x⌋₊ - 23)))
    omega

/-! ## Signed rounding -/

theorem roundMagReal_le_inf (m : ℝ) : roundMagReal m ≤ infBits := by
  unfold roundMagReal
  exact min_le_right _ _

theorem roundMagReal_lt (m : ℝ) : roundMagReal m < 2 ^ 31 :=
  lt_of_le_of_lt (roundMagReal_le_inf m) (by unfold infBits; norm_num)

theorem absBits_rnReal (v : ℝ) : absBits (rnReal v) = roundMagReal (|v| * 2 ^ 149) :=
  absBits_mkWord _ _ (roundMagReal_lt _)

theorem signBit_rnReal (v : ℝ) : signBit (rnReal v) = decide (v < 0) :=
  signBit_mkWord _ _ (roundMagReal_lt _)

theorem absBits_rnReal_mono {v w : ℝ} (h : |v| ≤ |w|) : absBits (rnReal v) ≤ absBits (rnReal w) := by
  rw [absBits_rnReal, absBits_rnReal]
  exact roundMagReal_mono (mul_le_mul_of_nonneg_right h (by positivity))

/-- A value of magnitude at most 1 rounds to one of magnitude at most 1. -/
theorem absBits_rnReal_le_one (v : ℝ) (h : |v| ≤ 1) : absBits (rnReal v) ≤ absBits oneW := by
  rw [← rnReal_one]
  exact absBits_rnReal_mono (by rwa [abs_one])

theorem units_rnReal (v : ℝ) :
    (units (rnReal v) : ℝ) = (if v < 0 then -1 else 1) * (unitsOfBits (roundMagReal (|v| * 2 ^ 149)) : ℝ) := by
  unfold rnReal
  rw [units_mkWord _ _ (roundMagReal_lt _)]
  by_cases hv : v < 0 <;> simp [hv]

theorem rnReal_finite (v : ℝ) (h : |v| ≤ 3 * 2 ^ 126) : isFinite (rnReal v) = true := by
  have hb : |v| * 2 ^ 149 ≤ (((3 * 2 ^ 275 : Nat) : ℝ) / (1 : Nat)) := by
    calc |v| * 2 ^ 149 ≤ 3 * 2 ^ 126 * 2 ^ 149 := mul_le_mul_of_nonneg_right h (by positivity)
      _ = _ := by rw [mul_assoc, ← pow_add]; push_cast; rw [div_one]
  unfold isFinite
  rw [absBits_rnReal, decide_eq_true_eq]
  refine lt_of_le_of_lt (roundMagReal_mono hb) ?_
  rw [roundMagReal_div _ _ one_pos]
  exact roundMag_finite _ _ one_pos (by rw [Nat.mul_one])

/-- The error of a rounding is the error of its magnitude. -/
theorem abs_rnReal_sub (v : ℝ) :
    |toReal (rnReal v) - v| = |(unitsOfBits (roundMagReal (|v| * 2 ^ 149)) : ℝ) - |v| * 2 ^ 149| / 2 ^ 149 := by
  have hA : (0 : ℝ) < 2 ^ 149 := by positivity
  have he : toReal (rnReal v) - v = (if v < 0 then -1 else 1) *
      (((unitsOfBits (roundMagReal (|v| * 2 ^ 149)) : ℝ) - |v| * 2 ^ 149) / 2 ^ 149) := by
    unfold toReal
    rw [units_rnReal, sub_div, mul_div_cancel_right₀ _ hA.ne', mul_sub, mul_div_assoc]
    congr 1
    by_cases hv : v < 0
    · rw [if_pos hv, abs_of_neg hv]; ring
    · rw [if_neg hv, abs_of_nonneg (not_lt.1 hv)]; ring
  have hs : |(if v < 0 then -1 else 1 : ℝ)| = 1 := by split <;> simp
  rw [he, abs_mul, hs, one_mul, abs_div, abs_of_pos hA]

/-- One rounding of a real value: relative error 2^-24, absolute error half the smallest subnormal. -/
theorem rnReal_close (v : ℝ) (h : |v| ≤ 3 * 2 ^ 126) :
    isFinite (rnReal v) = true ∧ |toReal (rnReal v) - v| ≤ |v| / 2 ^ 24 + 1 / 2 ^ 150 := by
  have hf := rnReal_finite v h
  refine ⟨hf, ?_⟩
  unfold isFinite at hf
  rw [absBits_rnReal, decide_eq_true_eq] at hf
  have hA : (0 : ℝ) < 2 ^ 149 := by positivity
  have hc := roundMagReal_close _ (mul_nonneg (abs_nonneg v) hA.le) hf
  rw [abs_rnReal_sub, div_le_iff₀ hA]
  refine hc.trans (le_of_eq ?_)
  have h150 : (2 : ℝ) ^ 150 = 2 ^ 149 * 2 := pow_succ 2 149
  rw [h150]
  generalize (2 : ℝ) ^ 149 = A at hA
  field_simp
  ring

/-! ## Nearest -/

theorem roundEvenReal_nearest (y : ℝ) (hy : 0 ≤ y) (z : Nat) : |(roundEvenReal y : ℝ) - y| ≤ |(z : ℝ) - y| := by
  have h1 := Nat.floor_le hy
  have h2 := Nat.lt_floor_add_one y
  have hz : (z : ℝ) ≤ ⌊y⌋₊ ∨ (⌊y⌋₊ : ℝ) + 1 ≤ z := by
    rcases Nat.lt_or_ge ⌊y⌋₊ z with h | h
    · exact Or.inr (by exact_mod_cast h)
    · exact Or.inl (by exact_mod_cast h)
  unfold roundEvenReal
  simp only
  split
  · next h =>
    have : (1 : ℝ) / 2 ≤ y - ⌊y⌋₊ := by rcases h with h | h <;> linarith
    push_cast
    rw [abs_of_nonneg (by linarith), le_abs]
    rcases hz with hz | hz
    · right; linarith
    · left; linarith
  · next h =>
    have : y - ⌊y⌋₊ ≤ 1 / 2 := not_lt.1 fun hc => h (Or.inl hc)
    rw [abs_of_nonpos (by linarith), le_abs]
    rcases hz with hz | hz
    · right; linarith
    · left; linarith

/-- A value of at least 2^(k+23) units is a multiple of 2^k units. -/
theorem unitsOfBits_dvd (a k : Nat) (h : 2 ^ (k + 23) ≤ unitsOfBits a) : 2 ^ k ∣ unitsOfBits a := by
  unfold unitsOfBits at h ⊢
  split at h
  · next ha =>
    have : 2 ^ 23 ≤ 2 ^ (k + 23) := Nat.pow_le_pow_right (by norm_num) (by omega)
    omega
  · next ha =>
    rw [if_neg ha]
    have hm : 2 ^ 23 + a % 2 ^ 23 < 2 ^ 24 := by omega
    have h3 : 2 ^ (k + 23) < 2 ^ (24 + (a / 2 ^ 23 - 1)) := by
      rw [pow_add 2 24]
      exact h.trans_lt (Nat.mul_lt_mul_of_pos_right hm (by positivity))
    have h4 := (Nat.pow_lt_pow_iff_right (by norm_num)).1 h3
    exact Dvd.dvd.mul_left (pow_dvd_pow 2 (by omega)) _

theorem roundMagReal_nearest (m : ℝ) (hm : 0 ≤ m) (hfin : roundMagReal m < infBits) (a : Nat) :
    |(unitsOfBits (roundMagReal m) : ℝ) - m| ≤ |(unitsOfBits a : ℝ) - m| := by
  obtain ⟨hlo, hhi, hk⟩ := roundMagReal_significand m
  have hr : roundMagReal m = (Nat.log2 ⌊m⌋₊ - 23) * 2 ^ 23 + roundEvenReal (m / 2 ^ (Nat.log2 ⌊m⌋₊ - 23)) := by
    unfold roundMagReal at hfin ⊢
    simp only at hfin ⊢
    omega
  rw [hr]
  revert hlo hhi hk
  generalize Nat.log2 ⌊m⌋₊ - 23 = k
  intro hlo hhi hk
  rw [unitsOfBits_normal _ _ hlo hhi]
  have h2k : (0 : ℝ) < 2 ^ k := by positivity
  have hgrid : ∀ c : Nat, |((roundEvenReal (m / 2 ^ k) * 2 ^ k : Nat) : ℝ) - m| ≤ |(c : ℝ) * 2 ^ k - m| := by
    intro c
    have e : ∀ r : ℝ, r * 2 ^ k - m = (r - m / 2 ^ k) * 2 ^ k := fun r => by field_simp
    push_cast
    rw [e, e, abs_mul, abs_mul]
    exact mul_le_mul_of_nonneg_right (roundEvenReal_nearest _ (by positivity) c) (abs_nonneg _)
  rcases Nat.lt_or_ge (unitsOfBits a) (2 ^ (k + 23)) with ha | ha
  · rcases hk with rfl | hk
    · simpa using hgrid (unitsOfBits a)
    · have hq : (2 : ℝ) ^ (k + 23) ≤ m := by
        have h2 : ((2 ^ (k + 23) : Nat) : ℝ) ≤ ((⌊m⌋₊ : Nat) : ℝ) := by exact_mod_cast hk
        push_cast at h2
        exact h2.trans (Nat.floor_le hm)
      have hu : (unitsOfBits a : ℝ) ≤ 2 ^ (k + 23) := by exact_mod_cast ha.le
      refine (hgrid (2 ^ 23)).trans ?_
      rw [show ((2 ^ 23 : Nat) : ℝ) * 2 ^ k = 2 ^ (k + 23) by rw [pow_add, mul_comm, Nat.cast_pow, Nat.cast_ofNat],
        abs_of_nonpos (by linarith), abs_of_nonpos (by linarith)]
      linarith
  · obtain ⟨c, hc⟩ := unitsOfBits_dvd a k ha
    have h := hgrid c
    rwa [show (c : ℝ) * 2 ^ k = (unitsOfBits a : ℝ) by rw [hc]; push_cast; ring] at h

/-- No word is nearer to a real number than its RN32, if that is finite. -/
theorem rnReal_nearest (v : ℝ) (hf : isFinite (rnReal v) = true) (w : Word) :
    |toReal (rnReal v) - v| ≤ |toReal w - v| := by
  unfold isFinite at hf
  rw [absBits_rnReal, decide_eq_true_eq] at hf
  have hA : (0 : ℝ) < 2 ^ 149 := by positivity
  have hn := roundMagReal_nearest _ (mul_nonneg (abs_nonneg v) hA.le) hf (absBits w)
  have hw : |(unitsOfBits (absBits w) : ℝ) - |v| * 2 ^ 149| / 2 ^ 149 = |(|toReal w| - |v|)| := by
    have : |toReal w| - |v| = ((unitsOfBits (absBits w) : ℝ) - |v| * 2 ^ 149) / 2 ^ 149 := by
      unfold toReal
      rw [abs_div, abs_units, mag, abs_of_pos hA, sub_div, mul_div_cancel_right₀ _ hA.ne']
    rw [this, abs_div, abs_of_pos hA]
  rw [abs_rnReal_sub]
  refine (div_le_div_of_nonneg_right hn hA.le).trans ?_
  rw [hw]
  exact abs_abs_sub_abs_le _ _

/-- Limiting the magnitude of a word brings it no further from a target within the limit. -/
theorem toReal_limit_close (lim : Nat) (w : Word) (v : ℝ) (hv : |v| ≤ unitsOfBits lim / 2 ^ 149) :
    |toReal (mkWord (signBit w) (min (absBits w) lim)) - v| ≤ |toReal w - v| := by
  rcases Nat.le_total (absBits w) lim with h | h
  · rw [min_eq_left h, mkWord_absBits]
  · rw [min_eq_right h]
    have hl : lim < 2 ^ 31 := lt_of_le_of_lt h (absBits_lt w)
    have hm : (unitsOfBits lim : ℝ) / 2 ^ 149 ≤ (unitsOfBits (absBits w) : ℝ) / 2 ^ 149 :=
      div_le_div_of_nonneg_right (by exact_mod_cast unitsOfBits_mono h) (by positivity)
    have h1 := abs_le.1 hv
    unfold toReal
    rw [units_mkWord _ _ hl]
    unfold units mag
    split <;> push_cast
    · rw [neg_div, neg_div, abs_of_nonpos (by linarith), abs_of_nonpos (by linarith)]
      linarith
    · rw [abs_of_nonneg (by linarith), abs_of_nonneg (by linarith)]
      linarith

end Sys2Proof.Machine
end

