-- ==== Sys2Proof/Laws/NumIdeal.lean ====
section
/-! SUPPORT. NUM_IDEAL has the properties P1 to P6 at the default tolerances (45_numerics.md R231, R232). -/

namespace Sys2Proof.Machine

/-! ## The transforms -/

/-- RN32 of a real result near which an L1 sum lies. -/
theorem rnReal_within (v l slack : ℝ) (hv : |v| < 2 ^ 127) (hl : |v| ≤ l) (hs : 1 / 2 ^ 149 ≤ slack) :
    isFinite (rnReal v) = true ∧ |toReal (rnReal v) - v| ≤ max (defaultTolFft * l) slack := by
  obtain ⟨h1, h2⟩ := rnReal_close v (hv.le.trans (by norm_num))
  refine ⟨h1, h2.trans ?_⟩
  have h3 : |v| / 2 ^ 24 ≤ defaultTolFft * l / 2 := by
    unfold defaultTolFft Config.defaultTolFftExp
    norm_num
    linarith [abs_nonneg v]
  have h4 : (1 : ℝ) / 2 ^ 150 = 1 / 2 ^ 149 / 2 := by norm_num
  have h5 := half_add_half_le_max (defaultTolFft * l) slack
  linarith

theorem dftRe_le (p : Nat) (x : List Word) (k : Nat) : |dftRe p x k| ≤ l1Frame p x :=
  sum_le_l1 _ _ _ fun _ => Real.abs_cos_le_one _

theorem dftIm_le (p : Nat) (x : List Word) (k : Nat) : |dftIm p x k| ≤ l1Frame p x := by
  unfold dftIm realRfftIm
  rw [abs_neg]
  exact sum_le_l1 _ _ _ fun _ => Real.abs_sin_le_one _

theorem idft_le (p : Nat) (s : List Bin) (n : Nat) (hp : 2 ≤ p) : |idft p s n| ≤ 2 / frameSize p * l1Spectrum p s := by
  have hN : (0 : ℝ) < frameSize p := by
    unfold frameSize
    positivity
  have hid : idft p s n
      = idftSum p s n (fun r => Real.cos (turnAngle p r)) (fun r => Real.sin (turnAngle p r)) / frameSize p := rfl
  rw [hid, abs_div, abs_of_pos hN, div_le_iff₀ hN]
  refine (idftSum_le p s n hp _ _ (fun r => Real.abs_cos_le_one _) (fun r => Real.abs_sin_le_one _)).trans (le_of_eq ?_)
  field_simp

theorem idealRfft_at (p : Nat) (x : List Word) (k : Nat) (hk : k < numBinsOf p) (hx : ∀ w ∈ x, isFinite w = true) :
    binAt (idealRfft p x) k = ⟨rnReal (dftRe p x k), rnReal (dftIm p x k)⟩ := by
  have : x.all isFinite = true := List.all_eq_true.2 hx
  unfold binAt idealRfft
  rw [List.getD_eq_getElem?_getD, List.getElem?_map, List.getElem?_range hk]
  simp [this]

theorem idealIrfft_at (p : Nat) (s : List Bin) (n : Nat) (hn : n < frameSize p) (hs : ∀ b ∈ s, binFinite b = true) :
    frameAt (idealIrfft p s) n = rnReal (idft p s n) := by
  have : s.all binFinite = true := List.all_eq_true.2 hs
  unfold frameAt idealIrfft
  rw [List.getD_eq_getElem?_getD, List.getElem?_map, List.getElem?_range hn]
  simp [this]

/-- P3 of NUM_IDEAL, for all finite inputs whose real results are below 2^127, with one unit of slack (log 8). -/
theorem numIdeal_rfft_close (p : Nat) (x : List Word) (hx : ∀ w ∈ x, isFinite w = true) (k : Nat) (hk : k < numBinsOf p)
    (hre : |dftRe p x k| < 2 ^ 127) (him : |dftIm p x k| < 2 ^ 127) :
    binFinite (binAt (idealRfft p x) k) = true ∧
      |toReal (binAt (idealRfft p x) k).re - dftRe p x k| ≤ max (defaultTolFft * l1Frame p x) (1 / 2 ^ 149) ∧
      |toReal (binAt (idealRfft p x) k).im - dftIm p x k| ≤ max (defaultTolFft * l1Frame p x) (1 / 2 ^ 149) := by
  rw [idealRfft_at p x k hk hx]
  obtain ⟨f1, c1⟩ := rnReal_within _ _ _ hre (dftRe_le p x k) le_rfl
  obtain ⟨f2, c2⟩ := rnReal_within _ _ _ him (dftIm_le p x k) le_rfl
  refine ⟨?_, c1, c2⟩
  unfold binFinite
  rw [f1, f2]
  rfl

theorem numIdeal_irfft_close (p : Nat) (s : List Bin) (hp : 2 ≤ p) (hs : ∀ b ∈ s, binFinite b = true) (n : Nat)
    (hn : n < frameSize p) (hy : |idft p s n| < 2 ^ 127) :
    isFinite (frameAt (idealIrfft p s) n) = true ∧
      |toReal (frameAt (idealIrfft p s) n) - idft p s n|
        ≤ max (defaultTolFft * (2 / frameSize p) * l1Spectrum p s) (1 / 2 ^ 149) := by
  rw [idealIrfft_at p s n hn hs, mul_assoc]
  exact rnReal_within _ _ _ hy (idft_le p s n hp) le_rfl

theorem isZero_posZero : isZero posZero = true := by decide

theorem numIdeal_rfft_zero (p : Nat) (x : List Word) (h : ∀ w ∈ x, isZero w = true) (b : Bin) (hb : b ∈ idealRfft p x) :
    binZero b = true := by
  have hf : x.all isFinite = true := List.all_eq_true.2 fun w hw => isFinite_of_isZero w (h w hw)
  have hz : ∀ i, toReal (frameAt x i) = 0 := fun i => toReal_of_isZero _ (frameAt_zero x h i)
  unfold idealRfft at hb
  rw [List.mem_map] at hb
  obtain ⟨k, -, rfl⟩ := hb
  rw [if_pos hf]
  simp only [dftRe, dftIm, realRfftRe, realRfftIm, hz, zero_mul, Finset.sum_const_zero, neg_zero, rnReal_zero]
  rfl

theorem numIdeal_irfft_zero (p : Nat) (s : List Bin) (h : ∀ b ∈ s, binZero b = true) (w : Word)
    (hw : w ∈ idealIrfft p s) : isZero w = true := by
  have hcomp : ∀ b : Bin, binZero b = true → isZero b.re = true ∧ isZero b.im = true := by
    intro b hb
    unfold binZero at hb
    rwa [Bool.and_eq_true] at hb
  have hf : s.all binFinite = true := by
    refine List.all_eq_true.2 fun b hb => ?_
    obtain ⟨h1, h2⟩ := hcomp b (h b hb)
    unfold binFinite
    rw [isFinite_of_isZero _ h1, isFinite_of_isZero _ h2]
    rfl
  have hr : ∀ i, toReal (binAt s i).re = 0 := fun i => toReal_of_isZero _ (hcomp _ (binAt_zero s h i)).1
  have hi : ∀ i, toReal (binAt s i).im = 0 := fun i => toReal_of_isZero _ (hcomp _ (binAt_zero s h i)).2
  unfold idealIrfft at hw
  rw [List.mem_map] at hw
  obtain ⟨k, -, rfl⟩ := hw
  rw [if_pos hf]
  simp only [idft, realIrfft, hr, hi, zero_mul, mul_zero, sub_self, Finset.sum_const_zero, add_zero, zero_div, rnReal_zero]
  rfl

/-! ## The functions of an angle -/

theorem isFinite_of_absBits_le {a b : Word} (h : absBits a ≤ absBits b) (hb : isFinite b = true) : isFinite a = true := by
  unfold isFinite at hb ⊢
  rw [decide_eq_true_eq] at hb ⊢
  omega

theorem rnReal_trig_close (v : ℝ) (h : |v| ≤ 1) : |toReal (rnReal v) - v| ≤ defaultTolTrig := by
  refine (rnReal_close v (h.trans (by norm_num))).2.trans ?_
  have : |v| / 2 ^ 24 ≤ 1 / 2 ^ 24 := div_le_div_of_nonneg_right h (by positivity)
  refine (add_le_add this le_rfl).trans ?_
  unfold defaultTolTrig Config.defaultTolTrigExp
  norm_num

theorem abs_pointAngle_le_pi (y x : Word) : |pointAngle y x| ≤ Real.pi := by
  have hpi := Real.pi_pos
  have hs : |(if signBit y then -1 else 1 : ℝ)| = 1 := by split <;> simp
  unfold pointAngle
  simp only
  split
  · rw [abs_mul, hs, one_mul]
    split
    · split <;> rw [abs_of_pos (by positivity)] <;> linarith
    · rw [abs_of_pos (by positivity)]; linarith
  · split
    · rw [abs_mul, hs, one_mul]
      split
      · rw [abs_of_pos hpi]
      · rw [abs_zero]; exact hpi.le
    · exact Complex.abs_arg_le_pi _

theorem numIdeal_fatan2_close (y x : Word) (hy : isNaN y = false) (hx : isNaN x = false) (hy0 : isZero y = false)
    (hx0 : isZero x = false) : |toReal (idealAtan2 y x) - pointAngle y x| ≤ 4 * defaultTolTrig := by
  have hpi := abs_pointAngle_le_pi y x
  have h4 : |pointAngle y x| ≤ 4 := hpi.trans Real.pi_le_four
  unfold idealAtan2
  simp only [hy, hx, hy0, hx0, Bool.or_self, Bool.false_eq_true, if_false]
  split
  · next h =>
    simp only [Bool.and_eq_true, Bool.not_eq_true'] at h
    have ha : pointAngle y x = 0 := by simp [pointAngle, h.1.1, h.1.2, h.2]
    have hz : isZero (mkWord (signBit y) 0) = true := by
      unfold isZero
      rw [absBits_mkWord _ _ (by norm_num), decide_eq_true_eq]
    rw [ha, toReal_of_isZero _ hz, sub_zero, abs_zero]
    exact mul_nonneg (by norm_num) Tolerances.default.trig_pos.le
  refine (toReal_limit_close _ _ _ (hpi.trans pi_le_piW)).trans ((rnReal_close _ (h4.trans (by norm_num))).2.trans ?_)
  have : |pointAngle y x| / 2 ^ 24 ≤ 4 / 2 ^ 24 := div_le_div_of_nonneg_right h4 (by positivity)
  refine (add_le_add this le_rfl).trans ?_
  unfold defaultTolTrig Config.defaultTolTrigExp
  norm_num

theorem numIdeal_fatan2_range (y x : Word) (hy : isNaN y = false) (hx : isNaN x = false) :
    absBits (idealAtan2 y x) ≤ absBits piW := by
  have hm : ∀ s m, m ≤ absBits piW → absBits (mkWord s m) ≤ absBits piW := by
    intro s m h
    rw [absBits_mkWord s m (lt_of_le_of_lt h (absBits_lt _))]
    exact h
  unfold idealAtan2
  simp only [hy, hx, Bool.or_self, Bool.false_eq_true, if_false]
  split
  · next hz =>
    split
    · exact hm _ _ le_rfl
    · unfold isZero at hz
      rw [decide_eq_true_eq] at hz
      omega
  split
  · exact hm _ _ absBits_halfPi_le
  split
  · exact hm _ _ (Nat.zero_le _)
  · exact hm _ _ (min_le_right _ _)

/-! ## P3 of a named instance -/

/-- A word of a named instance meets P3 if it is finite and within the larger of the bound and the slack. -/
theorem close_of_named {w r : Word} {v bound slack : ℝ} (hw : w = rnReal v ∨ w = r) (hf : isFinite w = true)
    (h : |toReal w - v| ≤ max bound slack) : Close w r v bound slack :=
  (le_max_iff.1 h).imp (fun h => ⟨hf, h⟩) fun h => ⟨hw, hf, h⟩

theorem slack_le_forward (p : Nat) : (1 : ℝ) / 2 ^ 149 ≤ forwardSlack p := by
  unfold forwardSlack
  have h : (1 : ℝ) ≤ frameSize p := by exact_mod_cast Nat.one_le_two_pow
  exact div_le_div_of_nonneg_right (by linarith) (by positivity)

theorem slack_le_inverse : (1 : ℝ) / 2 ^ 149 ≤ inverseSlack := by
  unfold inverseSlack
  exact div_le_div_of_nonneg_right (by norm_num) (by positivity)

/-- The sine, cosine and arctangent of NUM_IDEAL, which NUM_RADIX2 shares, with transforms that have P2 and P3. -/
theorem idealTrig_admissible (p : Nat) (tol : Tolerances) (ht : defaultTolTrig ≤ tol.trig)
    (rfft : Nat → List Word → List Bin) (irfft : Nat → List Bin → List Word)
    (h1 : ∀ x, (rfft p x).length = numBinsOf p) (h2 : ∀ s, (irfft p s).length = frameSize p)
    (h3 : ∀ x, (∀ w ∈ x, isZero w) → ∀ b ∈ rfft p x, binZero b) (h4 : ∀ s, (∀ b ∈ s, binZero b) → ∀ w ∈ irfft p s, isZero w)
    (h5 : ∀ x, ForwardRange p x → ∀ k < numBinsOf p,
      Close (binAt (rfft p x) k).re (binAt (radix2Rfft p x) k).re (dftRe p x k) (forwardLetter p tol x) (forwardSlack p) ∧
      Close (binAt (rfft p x) k).im (binAt (radix2Rfft p x) k).im (dftIm p x k) (forwardLetter p tol x) (forwardSlack p))
    (h6 : ∀ s, InverseRange p s → ∀ n < frameSize p,
      Close (frameAt (irfft p s) n) (frameAt (radix2Irfft p s) n) (idft p s n) (inverseLetter p tol s) inverseSlack ∨
      isFinite (frameAt (radix2Irfft p s) n) = false ∧ frameAt (irfft p s) n = frameAt (radix2Irfft p s) n) :
    Numerics.Admissible ⟨rfft, irfft, idealSin, idealCos, idealAtan2⟩ p tol where
  rfft_length := h1
  irfft_length := h2
  rfft_zero := h3
  irfft_zero := h4
  rfft_close := h5
  irfft_close := h6
  fsin_zero a h := by simp [idealSin, h, isFinite_of_isZero a h]
  fcos_zero a h := by simp [idealCos, isFinite_of_isZero a h, toReal_of_isZero a h, rnReal_one]
  fsin_range a h := by
    simp only [idealSin, h, if_true]
    split
    · next hz =>
      unfold isZero at hz
      rw [decide_eq_true_eq] at hz
      omega
    · exact absBits_rnReal_le_one _ (Real.abs_sin_le_one _)
  fcos_range a h := by
    simp only [idealCos, h, if_true]
    exact absBits_rnReal_le_one _ (Real.abs_cos_le_one _)
  fsin_nonfinite a h := by simp [idealSin, h, isNaN_freeNaN]
  fcos_nonfinite a h := by simp [idealCos, h, isNaN_freeNaN]
  fsin_close a h _ := by
    simp only [idealSin, h, if_true]
    split
    · next hz =>
      rw [toReal_of_isZero a hz, Real.sin_zero, sub_zero, abs_zero]
      exact tol.trig_pos.le
    · exact (rnReal_trig_close _ (Real.abs_sin_le_one _)).trans ht
  fcos_close a h _ := by
    simp only [idealCos, h, if_true]
    exact (rnReal_trig_close _ (Real.abs_cos_le_one _)).trans ht
  fatan2_zero_right y x hy hx hs := by simp [idealAtan2, not_isNaN_of_isZero y hy, hx, hy, hs]
  fatan2_zero_left y x hy hx hs := by simp [idealAtan2, not_isNaN_of_isZero y hy, hx, hy, hs]
  fatan2_axis y x hy hy0 hx := by simp [idealAtan2, not_isNaN_of_isZero x hx, hy, hy0, hx]
  fatan2_range := numIdeal_fatan2_range
  fatan2_nan y x h := by simp only [idealAtan2, h, if_true]; exact isNaN_freeNaN _ _ _
  fatan2_close y x hy hx hy0 hx0 :=
    (numIdeal_fatan2_close y x hy hx hy0 hx0).trans (mul_le_mul_of_nonneg_left ht (by norm_num))

/-- NUM_IDEAL has the properties of R231 at the default tolerances, for every frame size of at least 4. -/
theorem numIdeal_admissible (p : Nat) (hp : 2 ≤ p) : numIdeal.Admissible p Tolerances.default :=
  idealTrig_admissible p Tolerances.default le_rfl idealRfft idealIrfft
    (fun x => by simp [idealRfft]) (fun s => by simp [idealIrfft]) (numIdeal_rfft_zero p) (numIdeal_irfft_zero p)
    (fun x hx k hk => by
      obtain ⟨f, c1, c2⟩ := numIdeal_rfft_close p x hx.2.1 k hk (hx.2.2 k hk).1 (hx.2.2 k hk).2
      obtain ⟨f1, f2⟩ := (binFinite_iff _).1 f
      have he := idealRfft_at p x k hk hx.2.1
      exact ⟨close_of_named (.inl (by rw [he])) f1 (c1.trans (max_le_max le_rfl (slack_le_forward p))),
        close_of_named (.inl (by rw [he])) f2 (c2.trans (max_le_max le_rfl (slack_le_forward p)))⟩)
    (fun s hs n hn => by
      obtain ⟨f, c⟩ := numIdeal_irfft_close p s hp hs.2.1 n hn (hs.2.2 n hn)
      exact .inl (close_of_named (.inl (idealIrfft_at p s n hn hs.2.1)) f (c.trans (max_le_max le_rfl slack_le_inverse))))

end Sys2Proof.Machine
end

