-- ==== Sys2Proof/Laws/Radix2Network.lean ====
section
/-! SUPPORT. What the in-place butterfly network of NUM_RADIX2 leaves at each place (42_transform.md R149), and the sum that it
computes in exact arithmetic: the decimation in time of the discrete Fourier sum. -/

namespace Sys2Proof.Machine

/-! ## Places of a list of bins -/

theorem binAt_set (v : List Bin) (i j : Nat) (b : Bin) (h : i < v.length) :
    binAt (v.set i b) j = if j = i then b else binAt v j := by
  unfold binAt
  rw [List.getD_eq_getElem?_getD, List.getD_eq_getElem?_getD]
  by_cases hj : j = i
  · subst hj
    simp [h]
  · rw [if_neg hj, List.getElem?_set_ne (Ne.symm hj)]

theorem binAt_map_range (f : Nat → Bin) (n i : Nat) (h : i < n) : binAt ((List.range n).map f) i = f i := by
  unfold binAt
  rw [List.getD_eq_getElem?_getD, List.getElem?_map, List.getElem?_range h]
  rfl

/-! ## One butterfly -/

/-- The twiddle factor that butterfly `j` of the stage with the given half size multiplies by (R149). -/
def stageTwiddle (p : Nat) (inverse : Bool) (half j : Nat) : Bin :=
  let w := twiddle p (j * (frameSize p / (2 * half)))
  ⟨w.re, if inverse then fneg w.im else w.im⟩

/-- The product of a butterfly, every operation rounded. -/
def twiddled (w b : Bin) : Bin :=
  ⟨fsub (fmul b.re w.re) (fmul b.im w.im), fadd (fmul b.re w.im) (fmul b.im w.re)⟩

/-- The upper output of a butterfly. -/
def upper (w a b : Bin) : Bin := ⟨fadd a.re (twiddled w b).re, fadd a.im (twiddled w b).im⟩

/-- The lower output of a butterfly. -/
def lower (w a b : Bin) : Bin := ⟨fsub a.re (twiddled w b).re, fsub a.im (twiddled w b).im⟩

theorem butterfly_eq (p : Nat) (inverse : Bool) (half start j : Nat) (v : List Bin) :
    butterfly p inverse half start j v =
      (v.set (start + j + half) (lower (stageTwiddle p inverse half j) (binAt v (start + j)) (binAt v (start + j + half)))).set
        (start + j) (upper (stageTwiddle p inverse half j) (binAt v (start + j)) (binAt v (start + j + half))) := rfl

theorem butterfly_length (p : Nat) (inverse : Bool) (half start j : Nat) (v : List Bin) :
    (butterfly p inverse half start j v).length = v.length := by
  rw [butterfly_eq, List.length_set, List.length_set]

theorem binAt_butterfly (p : Nat) (inverse : Bool) (half start j : Nat) (v : List Bin) (i : Nat)
    (h : start + j + half < v.length) :
    binAt (butterfly p inverse half start j v) i =
      if i = start + j then upper (stageTwiddle p inverse half j) (binAt v (start + j)) (binAt v (start + j + half))
      else if i = start + j + half then
        lower (stageTwiddle p inverse half j) (binAt v (start + j)) (binAt v (start + j + half))
      else binAt v i := by
  rw [butterfly_eq, binAt_set _ _ _ _ (by rw [List.length_set]; omega), binAt_set _ _ _ _ h]

/-! ## One group and one stage -/

/-- The first `m` butterflies of the group at `start`: each pair of places holds its two outputs, every other place what it
held. -/
theorem group_spec (p : Nat) (inverse : Bool) (half start : Nat) (v : List Bin) (hlen : start + 2 * half ≤ v.length)
    (m : Nat) (hm : m ≤ half) :
    let v' := (List.range m).foldl (fun v j => butterfly p inverse half start j v) v
    v'.length = v.length ∧
    (∀ i, (∀ j, j < m → i ≠ start + j ∧ i ≠ start + j + half) → binAt v' i = binAt v i) ∧
    ∀ j, j < m →
      binAt v' (start + j) = upper (stageTwiddle p inverse half j) (binAt v (start + j)) (binAt v (start + j + half)) ∧
      binAt v' (start + j + half) =
        lower (stageTwiddle p inverse half j) (binAt v (start + j)) (binAt v (start + j + half)) := by
  induction m with
  | zero => exact ⟨rfl, fun _ _ => rfl, fun j hj => absurd hj (Nat.not_lt_zero j)⟩
  | succ m ih =>
    obtain ⟨hl, hother, hdone⟩ := ih (by omega)
    rw [List.range_succ, List.foldl_append, List.foldl_cons, List.foldl_nil]
    generalize (List.range m).foldl (fun v j => butterfly p inverse half start j v) v = u at hl hother hdone
    have ha : binAt u (start + m) = binAt v (start + m) := hother _ fun j hj => ⟨by omega, by omega⟩
    have hb : binAt u (start + m + half) = binAt v (start + m + half) := hother _ fun j hj => ⟨by omega, by omega⟩
    have hlt : start + m + half < u.length := by omega
    refine ⟨by rw [butterfly_length, hl], fun i hi => ?_, fun j hj => ?_⟩
    · have him := hi m (Nat.lt_succ_self m)
      rw [binAt_butterfly _ _ _ _ _ _ _ hlt, if_neg him.1, if_neg him.2]
      exact hother i fun j hj => hi j (by omega)
    · rcases Nat.lt_or_ge j m with h | h
      · obtain ⟨h1, h2⟩ := hdone j h
        rw [binAt_butterfly _ _ _ _ _ _ _ hlt, binAt_butterfly _ _ _ _ _ _ _ hlt, if_neg (by omega), if_neg (by omega),
          if_neg (by omega), if_neg (by omega)]
        exact ⟨h1, h2⟩
      · have hjm : j = m := by omega
        subst hjm
        rw [binAt_butterfly _ _ _ _ _ _ _ hlt, binAt_butterfly _ _ _ _ _ _ _ hlt, if_pos rfl, if_neg (by omega), if_pos rfl,
          ha, hb]
        exact ⟨rfl, rfl⟩

/-- The first `c` groups of a stage. -/
theorem groups_spec (p : Nat) (inverse : Bool) (half : Nat) (v : List Bin) (c : Nat) (hlen : 2 * half * c ≤ v.length) :
    let v' := (List.range c).foldl (fun v g =>
      (List.range half).foldl (fun v j => butterfly p inverse half (2 * half * g) j v) v) v
    v'.length = v.length ∧
    (∀ i, 2 * half * c ≤ i → binAt v' i = binAt v i) ∧
    ∀ g j, g < c → j < half →
      binAt v' (2 * half * g + j) = upper (stageTwiddle p inverse half j) (binAt v (2 * half * g + j))
        (binAt v (2 * half * g + j + half)) ∧
      binAt v' (2 * half * g + j + half) = lower (stageTwiddle p inverse half j) (binAt v (2 * half * g + j))
        (binAt v (2 * half * g + j + half)) := by
  induction c with
  | zero => exact ⟨rfl, fun _ _ => rfl, fun g _ hg => absurd hg (Nat.not_lt_zero g)⟩
  | succ c ih =>
    rw [Nat.mul_succ] at hlen
    obtain ⟨hl, hother, hdone⟩ := ih (by omega)
    rw [List.range_succ, List.foldl_append, List.foldl_cons, List.foldl_nil]
    generalize (List.range c).foldl (fun v g =>
      (List.range half).foldl (fun v j => butterfly p inverse half (2 * half * g) j v) v) v = u at hl hother hdone
    obtain ⟨gl, gother, gdone⟩ := group_spec p inverse half (2 * half * c) u (by omega) half le_rfl
    refine ⟨by rw [gl, hl], fun i hi => ?_, fun g j hg hj => ?_⟩
    · rw [Nat.mul_succ] at hi
      rw [gother i fun j hj => ⟨by omega, by omega⟩, hother i (by omega)]
    · rcases Nat.lt_or_ge g c with h | h
      · have hle : 2 * half * (g + 1) ≤ 2 * half * c := Nat.mul_le_mul_left _ h
        rw [Nat.mul_succ] at hle
        rw [gother _ fun k hk => ⟨by omega, by omega⟩, gother _ fun k hk => ⟨by omega, by omega⟩]
        exact hdone g j h hj
      · have hgc : g = c := by omega
        subst hgc
        have h1 : binAt u (2 * half * g + j) = binAt v (2 * half * g + j) := hother _ (by omega)
        have h2 : binAt u (2 * half * g + j + half) = binAt v (2 * half * g + j + half) := hother _ (by omega)
        rw [← h1, ← h2]
        exact gdone j hj

/-- The stage with half size `2^s`, block by block: block `g` of the new stage is made of the blocks `2g` and `2g + 1` of the
one before. -/
theorem stage_spec (p s : Nat) (inverse : Bool) (v : List Bin) (hs : s < p) (hlen : v.length = frameSize p) :
    (butterflyStage p inverse (2 ^ s) v).length = v.length ∧
    ∀ g j, g < 2 ^ (p - (s + 1)) → j < 2 ^ s →
      binAt (butterflyStage p inverse (2 ^ s) v) (2 ^ (s + 1) * g + j) =
        upper (stageTwiddle p inverse (2 ^ s) j) (binAt v (2 ^ s * (2 * g) + j)) (binAt v (2 ^ s * (2 * g + 1) + j)) ∧
      binAt (butterflyStage p inverse (2 ^ s) v) (2 ^ (s + 1) * g + (j + 2 ^ s)) =
        lower (stageTwiddle p inverse (2 ^ s) j) (binAt v (2 ^ s * (2 * g) + j)) (binAt v (2 ^ s * (2 * g + 1) + j)) := by
  have hp : 2 ^ p = 2 * 2 ^ s * 2 ^ (p - (s + 1)) := by
    rw [← pow_succ', ← pow_add]
    congr 1
    omega
  have hc : frameSize p / (2 * 2 ^ s) = 2 ^ (p - (s + 1)) := by
    unfold frameSize
    rw [hp, Nat.mul_div_cancel_left _ (by positivity)]
  unfold butterflyStage
  rw [hc]
  obtain ⟨h1, -, h3⟩ := groups_spec p inverse (2 ^ s) v (2 ^ (p - (s + 1))) (by rw [← hp, hlen]; exact le_rfl)
  refine ⟨h1, fun g j hg hj => ?_⟩
  obtain ⟨hu, hl⟩ := h3 g j hg hj
  have e1 : 2 ^ (s + 1) * g + j = 2 * 2 ^ s * g + j := by rw [pow_succ']
  have e2 : 2 ^ (s + 1) * g + (j + 2 ^ s) = 2 * 2 ^ s * g + j + 2 ^ s := by rw [pow_succ', ← add_assoc]
  have e3 : 2 ^ s * (2 * g) + j = 2 * 2 ^ s * g + j := by ring
  have e4 : 2 ^ s * (2 * g + 1) + j = 2 * 2 ^ s * g + j + 2 ^ s := by ring
  rw [e1, e2, e3, e4]
  exact ⟨hu, hl⟩

/-! ## The exact sum -/

section
variable (p : Nat) (z : Nat → ℂ) (w : ℂ)

/-- Place `m` of the inputs that block `g` after `s` stages has gathered. -/
def blockInput (p s g m : Nat) : Nat := bitReverse (p - s) g + 2 ^ (p - s) * m

/-- What place `j` of block `g` holds after `s` stages in exact arithmetic, `w` the primitive root. -/
noncomputable def blockSum (s g j : Nat) : ℂ :=
  ∑ m ∈ Finset.range (2 ^ s), z (blockInput p s g m) * w ^ (2 ^ (p - s) * j * m)

/-- The sum of the magnitudes of the inputs that block `g` after `s` stages has gathered. -/
noncomputable def blockL1 (s g : Nat) : ℝ := ∑ m ∈ Finset.range (2 ^ s), ‖z (blockInput p s g m)‖

theorem sum_even_odd {M : Type} [AddCommMonoid M] (f : Nat → M) (n : Nat) :
    ∑ m ∈ Finset.range (2 * n), f m = ∑ m ∈ Finset.range n, (f (2 * m) + f (2 * m + 1)) := by
  induction n with
  | zero => simp
  | succ n ih => rw [Nat.mul_succ, Finset.sum_range_succ, Finset.sum_range_succ, ih, Finset.sum_range_succ, add_assoc]

variable (s : Nat) (hs : s < p)
include hs

theorem blockInput_even (g m : Nat) : blockInput p (s + 1) g (2 * m) = blockInput p s (2 * g) m := by
  obtain ⟨q, hq⟩ : ∃ q, p - s = q + 1 := ⟨p - s - 1, by omega⟩
  have hq2 : p - (s + 1) = q := by omega
  unfold blockInput
  rw [hq, hq2, bitReverse, Nat.mul_mod_right, Nat.mul_div_cancel_left _ two_pos, pow_succ]
  ring

theorem blockInput_odd (g m : Nat) : blockInput p (s + 1) g (2 * m + 1) = blockInput p s (2 * g + 1) m := by
  obtain ⟨q, hq⟩ : ∃ q, p - s = q + 1 := ⟨p - s - 1, by omega⟩
  have hq2 : p - (s + 1) = q := by omega
  have h1 : (2 * g + 1) % 2 = 1 := by omega
  have h2 : (2 * g + 1) / 2 = g := by omega
  unfold blockInput
  rw [hq, hq2, bitReverse, h1, h2, pow_succ]
  ring

theorem blockL1_succ (g : Nat) : blockL1 p z (s + 1) g = blockL1 p z s (2 * g) + blockL1 p z s (2 * g + 1) := by
  unfold blockL1
  rw [pow_succ', sum_even_odd, Finset.sum_add_distrib]
  simp only [blockInput_even p s hs, blockInput_odd p s hs]

/-- Decimation in time. -/
theorem blockSum_succ (g j : Nat) :
    blockSum p z w (s + 1) g j =
      blockSum p z w s (2 * g) j + blockSum p z w s (2 * g + 1) j * w ^ (2 ^ (p - (s + 1)) * j) := by
  have hq : 2 ^ (p - s) = 2 * 2 ^ (p - (s + 1)) := by
    rw [← pow_succ']
    congr 1
    omega
  unfold blockSum
  rw [pow_succ' 2 s, sum_even_odd, Finset.sum_add_distrib, Finset.sum_mul]
  congr 1
  · apply Finset.sum_congr rfl
    intro m _
    rw [blockInput_even p s hs, hq]
    congr 2
    ring
  · apply Finset.sum_congr rfl
    intro m _
    rw [blockInput_odd p s hs, hq, mul_assoc (z _), ← pow_add]
    congr 2
    ring

/-- The sum of a block is periodic in the place. -/
theorem blockSum_add (hw : w ^ (2 ^ p) = 1) (g j : Nat) : blockSum p z w s g (j + 2 ^ s) = blockSum p z w s g j := by
  unfold blockSum
  apply Finset.sum_congr rfl
  intro m _
  have h : 2 ^ (p - s) * (j + 2 ^ s) * m = 2 ^ (p - s) * j * m + 2 ^ p * m := by
    have : 2 ^ p = 2 ^ (p - s) * 2 ^ s := by
      rw [← pow_add]
      congr 1
      omega
    rw [this]
    ring
  rw [h, pow_add, pow_mul w (2 ^ p), hw, one_pow, mul_one]

/-- The lower half of a block. -/
theorem blockSum_succ_lower (hw : w ^ (2 ^ (p - 1)) = -1) (g j : Nat) :
    blockSum p z w (s + 1) g (j + 2 ^ s) =
      blockSum p z w s (2 * g) j - blockSum p z w s (2 * g + 1) j * w ^ (2 ^ (p - (s + 1)) * j) := by
  have hw1 : w ^ (2 ^ p) = 1 := by
    have : 2 ^ p = 2 ^ (p - 1) * 2 := by
      rw [← pow_succ]
      congr 1
      omega
    rw [this, pow_mul, hw]
    norm_num
  have he : 2 ^ (p - (s + 1)) * (j + 2 ^ s) = 2 ^ (p - (s + 1)) * j + 2 ^ (p - 1) := by
    have : 2 ^ (p - 1) = 2 ^ (p - (s + 1)) * 2 ^ s := by
      rw [← pow_add]
      congr 1
      omega
    rw [this]
    ring
  rw [blockSum_succ p z w s hs, blockSum_add p z w s hs hw1, blockSum_add p z w s hs hw1, he, pow_add, hw]
  ring

end

section
variable (p : Nat) (z : Nat → ℂ) (w : ℂ)

theorem blockSum_zero (g j : Nat) : blockSum p z w 0 g j = z (bitReverse p g) := by
  simp [blockSum, blockInput]

theorem blockL1_zero (g : Nat) : blockL1 p z 0 g = ‖z (bitReverse p g)‖ := by
  simp [blockL1, blockInput]

/-- After all stages the one block holds the discrete Fourier sum. -/
theorem blockSum_last (k : Nat) : blockSum p z w p 0 k = ∑ n ∈ Finset.range (2 ^ p), z n * w ^ (k * n) := by
  unfold blockSum blockInput
  simp [bitReverse]

theorem blockL1_last : blockL1 p z p 0 = ∑ n ∈ Finset.range (2 ^ p), ‖z n‖ := by
  unfold blockL1 blockInput
  simp [bitReverse]

theorem blockL1_nonneg (s g : Nat) : 0 ≤ blockL1 p z s g := Finset.sum_nonneg fun _ _ => norm_nonneg _

theorem norm_blockSum_le (hw : ‖w‖ = 1) (s g j : Nat) : ‖blockSum p z w s g j‖ ≤ blockL1 p z s g := by
  unfold blockSum blockL1
  refine (norm_sum_le _ _).trans (Finset.sum_le_sum fun m _ => ?_)
  rw [norm_mul, norm_pow, hw, one_pow, mul_one]

/-- A block gathers no more than the whole. -/
theorem blockL1_le_total (s : Nat) (hs : s ≤ p) (g : Nat) (hg : g < 2 ^ (p - s)) : blockL1 p z s g ≤ blockL1 p z p 0 := by
  obtain ⟨d, hd⟩ : ∃ d, p - s = d := ⟨_, rfl⟩
  induction d generalizing s g with
  | zero =>
    have : s = p := by omega
    subst this
    rw [hd, pow_zero] at hg
    have : g = 0 := by omega
    rw [this]
  | succ d ih =>
    have hlt : g / 2 < 2 ^ (p - (s + 1)) := by
      rw [hd, pow_succ] at hg
      have : p - (s + 1) = d := by omega
      rw [this]
      omega
    refine le_trans ?_ (ih (s + 1) (by omega) (g / 2) hlt (by omega))
    rw [blockL1_succ p z s (by omega)]
    rcases Nat.mod_two_eq_zero_or_one g with h | h
    · have : 2 * (g / 2) = g := by omega
      rw [this]
      exact le_add_of_nonneg_right (blockL1_nonneg p z _ _)
    · have : 2 * (g / 2) + 1 = g := by omega
      rw [this]
      exact le_add_of_nonneg_left (blockL1_nonneg p z _ _)

/-- Each value on the way to the discrete Fourier sums is no larger than the largest of them: the two outputs of a butterfly
have the inputs as their mean and half their difference. -/
theorem norm_blockSum_le_of_last (hw : ‖w‖ = 1) (hw2 : w ^ (2 ^ (p - 1)) = -1) (b : ℝ)
    (hb : ∀ k, k < 2 ^ p → ‖blockSum p z w p 0 k‖ ≤ b) (s : Nat) (hs : s ≤ p) (g j : Nat) (hg : g < 2 ^ (p - s))
    (hj : j < 2 ^ s) : ‖blockSum p z w s g j‖ ≤ b := by
  obtain ⟨d, hd⟩ : ∃ d, p - s = d := ⟨_, rfl⟩
  induction d generalizing s g j with
  | zero =>
    have : s = p := by omega
    subst this
    rw [hd, pow_zero] at hg
    have : g = 0 := by omega
    rw [this]
    exact hb j hj
  | succ d ih =>
    have hlt : g / 2 < 2 ^ (p - (s + 1)) := by
      rw [hd, pow_succ] at hg
      have : p - (s + 1) = d := by omega
      rw [this]
      omega
    have hu := ih (s + 1) (by omega) (g / 2) j hlt (by rw [pow_succ]; omega) (by omega)
    have hl := ih (s + 1) (by omega) (g / 2) (j + 2 ^ s) hlt (by rw [pow_succ]; omega) (by omega)
    rw [blockSum_succ p z w s (by omega)] at hu
    rw [blockSum_succ_lower p z w s (by omega) hw2] at hl
    have hwn : ‖w ^ (2 ^ (p - (s + 1)) * j)‖ = 1 := by rw [norm_pow, hw, one_pow]
    generalize w ^ (2 ^ (p - (s + 1)) * j) = t at hu hl hwn
    rcases Nat.mod_two_eq_zero_or_one g with h | h
    · have : 2 * (g / 2) = g := by omega
      rw [this] at hu hl
      generalize blockSum p z w s g j = x at hu hl ⊢
      generalize blockSum p z w s (g + 1) j = y at hu hl
      have h2 : (2 : ℂ) * x = (x + y * t) + (x - y * t) := by ring
      have h3 := norm_add_le (x + y * t) (x - y * t)
      rw [← h2, norm_mul, Complex.norm_ofNat] at h3
      linarith
    · have : 2 * (g / 2) + 1 = g := by omega
      rw [this] at hu hl
      generalize blockSum p z w s g j = y at hu hl ⊢
      generalize blockSum p z w s (2 * (g / 2)) j = x at hu hl
      have h2 : (2 : ℂ) * (y * t) = (x + y * t) - (x - y * t) := by ring
      have h3 := norm_sub_le (x + y * t) (x - y * t)
      rw [← h2, norm_mul, Complex.norm_ofNat, norm_mul, hwn, mul_one] at h3
      linarith

end

end Sys2Proof.Machine
end

