-- ==== Sys2Proof/Laws/Radix2.lean ====
section
/-! SUPPORT. NUM_RADIX2 has the properties P1 to P6 (45_numerics.md R231, R233) for frame sizes up to 1024, with TOL_FFT
2^-16: the rounding error of a butterfly, its sum over the stages, the transforms. -/

namespace Sys2Proof.Machine

/-! ## One butterfly -/

/-- The complex value of a bin. -/
noncomputable def cval (b : Bin) : ℂ := ⟨toReal b.re, toReal b.im⟩

/-- A twiddle factor that stands for the root of unity `t`. -/
structure NearRoot (w : Bin) (t : ℂ) : Prop where
  finite : binFinite w = true
  norm : ‖t‖ = 1
  re_close : |toReal w.re - t.re| ≤ 1 / 2 ^ 24 + 1 / 2 ^ 50
  im_close : |toReal w.im - t.im| ≤ 1 / 2 ^ 24 + 1 / 2 ^ 50

/-- The size up to which the values of the network are followed, below `3 * 2^126`. -/
noncomputable def networkRange : ℝ := 145 / 100 * 2 ^ 127

theorem abs_re_add_abs_im_le (z : ℂ) : |z.re| + |z.im| ≤ 142 / 100 * ‖z‖ := by
  have h1 := Complex.sq_norm z
  rw [Complex.normSq_apply] at h1
  have h2 : |z.re| * |z.re| = z.re * z.re := abs_mul_abs_self _
  have h3 : |z.im| * |z.im| = z.im * z.im := abs_mul_abs_self _
  have h4 := norm_nonneg z
  nlinarith [abs_nonneg z.re, abs_nonneg z.im, sq_nonneg (|z.re| - |z.im|), sq_nonneg (|z.re| + |z.im|)]

theorem norm_le_of_components (z : ℂ) (e : ℝ) (h1 : |z.re| ≤ e) (h2 : |z.im| ≤ e) : ‖z‖ ≤ 142 / 100 * e := by
  have h := Complex.sq_norm z
  rw [Complex.normSq_apply] at h
  have he : 0 ≤ e := (abs_nonneg _).trans h1
  have h3 : z.re * z.re ≤ e * e := by rw [← abs_mul_abs_self z.re]; exact mul_self_le_mul_self (abs_nonneg _) h1
  have h4 : z.im * z.im ≤ e * e := by rw [← abs_mul_abs_self z.im]; exact mul_self_le_mul_self (abs_nonneg _) h2
  refine abs_le_of_sq_le_sq' ?_ (by positivity) |>.2
  rw [h]
  nlinarith

/-- Two products that are rounded and combined with one more rounding: `c`, `d` are near `c0`, `d0`, and the combination is
that of the exact numbers up to the roundings. -/
theorem products_close (x y c d c0 d0 p q r b : ℝ)
    (hx : |x| ≤ b) (hy : |y| ≤ b) (hxy : |x| + |y| ≤ 142 / 100 * b) (hc0 : |c0| ≤ 1) (hd0 : |d0| ≤ 1)
    (hc : |c - c0| ≤ 1 / 2 ^ 24 + 1 / 2 ^ 50) (hd : |d - d0| ≤ 1 / 2 ^ 24 + 1 / 2 ^ 50) (hex : |x * c0 - y * d0| ≤ b)
    (hp : |p - x * c| ≤ |x * c| / 2 ^ 24 + 1 / 2 ^ 150) (hq : |q - y * d| ≤ |y * d| / 2 ^ 24 + 1 / 2 ^ 150)
    (hr : |r - (p - q)| ≤ |p - q| / 2 ^ 24 + 1 / 2 ^ 150) :
    |r - (x * c0 - y * d0)| ≤ 46 / 10 * b / 2 ^ 24 + 4 / 2 ^ 150 := by
  have hxc : |x * c - x * c0| ≤ |x| * (1 / 2 ^ 24 + 1 / 2 ^ 50) := by
    rw [← mul_sub, abs_mul]
    exact mul_le_mul_of_nonneg_left hc (abs_nonneg _)
  have hyd : |y * d - y * d0| ≤ |y| * (1 / 2 ^ 24 + 1 / 2 ^ 50) := by
    rw [← mul_sub, abs_mul]
    exact mul_le_mul_of_nonneg_left hd (abs_nonneg _)
  have hx0 : |x * c0| ≤ b := by
    rw [abs_mul]
    exact (mul_le_of_le_one_right (abs_nonneg _) hc0).trans hx
  have hy0 : |y * d0| ≤ b := by
    rw [abs_mul]
    exact (mul_le_of_le_one_right (abs_nonneg _) hd0).trans hy
  have hX : |x * c| ≤ |x * c0| + |x * c - x * c0| := by
    have := abs_add_le (x * c0) (x * c - x * c0)
    rwa [add_sub_cancel] at this
  have hY : |y * d| ≤ |y * d0| + |y * d - y * d0| := by
    have := abs_add_le (y * d0) (y * d - y * d0)
    rwa [add_sub_cancel] at this
  have hpq : |(p - q) - (x * c0 - y * d0)| ≤ |p - x * c| + |x * c - x * c0| + (|q - y * d| + |y * d - y * d0|) := by
    have e : (p - q) - (x * c0 - y * d0) = ((p - x * c) + (x * c - x * c0)) - ((q - y * d) + (y * d - y * d0)) := by ring
    rw [e]
    exact (abs_sub _ _).trans (add_le_add (abs_add_le _ _) (abs_add_le _ _))
  have hPQ : |p - q| ≤ |x * c0 - y * d0| + |(p - q) - (x * c0 - y * d0)| := by
    have := abs_add_le (x * c0 - y * d0) ((p - q) - (x * c0 - y * d0))
    rwa [add_sub_cancel] at this
  have hR : |r - (x * c0 - y * d0)| ≤ |r - (p - q)| + |(p - q) - (x * c0 - y * d0)| := by
    have := abs_add_le (r - (p - q)) ((p - q) - (x * c0 - y * d0))
    rwa [sub_add_sub_cancel] at this
  have h150 : (0 : ℝ) ≤ 1 / 2 ^ 150 := by positivity
  have h4 : (4 : ℝ) / 2 ^ 150 = 4 * (1 / 2 ^ 150) := by ring
  rw [h4]
  generalize (1 : ℝ) / 2 ^ 150 = h at *
  norm_num at *
  linarith

/-- A product stays within the range of the arithmetic. -/
theorem product_range (x c c0 b : ℝ) (hx : |x| ≤ b) (hc0 : |c0| ≤ 1) (hc : |c - c0| ≤ 1 / 2 ^ 24 + 1 / 2 ^ 50) :
    |x * c| ≤ 1001 / 1000 * b := by
  have h1 : |c| ≤ 1001 / 1000 := by
    have := abs_add_le c0 (c - c0)
    rw [add_sub_cancel] at this
    refine this.trans ((add_le_add hc0 hc).trans ?_)
    norm_num
  rw [abs_mul, mul_comm]
  exact mul_le_mul h1 hx (abs_nonneg _) (by norm_num)

/-- What the network uses of an addition (`sg = 1`) or a subtraction (`sg = -1`). -/
structure SignedOp (op : Word → Word → Word) (sg : ℝ) : Prop where
  abs_sg : |sg| = 1
  operands : ∀ a b, isFinite (op a b) = true → isFinite a = true ∧ isFinite b = true
  finite : ∀ a b, isFinite a = true → isFinite b = true → |toReal a + sg * toReal b| ≤ 3 * 2 ^ 126 → isFinite (op a b) = true
  error : ∀ a b, isFinite (op a b) = true →
    |toReal (op a b) - (toReal a + sg * toReal b)| ≤ |toReal a + sg * toReal b| / 2 ^ 24 + 1 / 2 ^ 150

theorem addOp : SignedOp fadd 1 where
  abs_sg := abs_one
  operands := operands_of_fadd_finite
  finite a b ha hb h := fadd_finite a b ha hb (by rwa [one_mul] at h)
  error a b h := by
    rw [one_mul]
    exact fadd_error a b h

theorem subOp : SignedOp fsub (-1) where
  abs_sg := by simp
  operands := operands_of_fsub_finite
  finite a b ha hb h := fsub_finite a b ha hb (by rwa [neg_one_mul, ← sub_eq_add_neg] at h)
  error a b h := by
    rw [neg_one_mul, ← sub_eq_add_neg]
    exact fsub_error a b h

/-- Two rounded products combined, where the result is finite: the factors are, and the error. -/
theorem combined_error {op : Word → Word → Word} {sg : ℝ} (S : SignedOp op sg) (x y c d : Word) (c0 d0 b : ℝ)
    (hf : isFinite (op (fmul x c) (fmul y d)) = true) (hxy : |toReal x| + |toReal y| ≤ 142 / 100 * b)
    (hx : |toReal x| ≤ b) (hy : |toReal y| ≤ b) (hc0 : |c0| ≤ 1) (hd0 : |d0| ≤ 1)
    (hc : |toReal c - c0| ≤ 1 / 2 ^ 24 + 1 / 2 ^ 50) (hd : |toReal d - d0| ≤ 1 / 2 ^ 24 + 1 / 2 ^ 50)
    (hex : |toReal x * c0 + sg * (toReal y * d0)| ≤ b) :
    |toReal (op (fmul x c) (fmul y d)) - (toReal x * c0 + sg * (toReal y * d0))| ≤ 46 / 10 * b / 2 ^ 24 + 4 / 2 ^ 150 := by
  obtain ⟨fp, fq⟩ := S.operands _ _ hf
  have cq := fmul_error y d fq
  have e0 : ∀ v w : ℝ, v - -sg * w = v + sg * w := fun v w => by ring
  have hsq : ∀ v : ℝ, |-sg * v| = |v| := fun v => by rw [abs_mul, abs_neg, S.abs_sg, one_mul]
  have cq' : |-sg * toReal (fmul y d) - -sg * toReal y * toReal d| ≤ |-sg * toReal y * toReal d| / 2 ^ 24 + 1 / 2 ^ 150 := by
    rw [mul_assoc, ← mul_sub, hsq, hsq]
    exact cq
  have key := products_close (toReal x) (-sg * toReal y) (toReal c) (toReal d) c0 d0 (toReal (fmul x c))
    (-sg * toReal (fmul y d)) (toReal (op (fmul x c) (fmul y d))) b hx ((hsq _).trans_le hy) (by rw [hsq]; exact hxy)
    hc0 hd0 hc hd (by rw [mul_assoc, e0]; exact hex) (fmul_error x c fp) cq' (by rw [e0]; exact S.error _ _ hf)
  rwa [mul_assoc, e0] at key

/-- Two rounded products combined, in range: the result is finite. -/
theorem combined_finite {op : Word → Word → Word} {sg : ℝ} (S : SignedOp op sg) (x y c d : Word) (c0 d0 b : ℝ)
    (fx : isFinite x = true) (fy : isFinite y = true) (fc : isFinite c = true) (fd : isFinite d = true)
    (hb : b ≤ networkRange) (hx : |toReal x| ≤ b) (hy : |toReal y| ≤ b) (hc0 : |c0| ≤ 1) (hd0 : |d0| ≤ 1)
    (hc : |toReal c - c0| ≤ 1 / 2 ^ 24 + 1 / 2 ^ 50) (hd : |toReal d - d0| ≤ 1 / 2 ^ 24 + 1 / 2 ^ 50)
    (hex : |toReal x * c0 + sg * (toReal y * d0)| ≤ b) : isFinite (op (fmul x c) (fmul y d)) = true := by
  have rx := product_range _ _ _ _ hx hc0 hc
  have ry := product_range _ _ _ _ hy hd0 hd
  have h3 : 1001 / 1000 * b ≤ 3 * 2 ^ 126 := by
    unfold networkRange at hb
    norm_num at hb ⊢
    linarith
  have fp := fmul_finite x c fx fc (rx.trans h3)
  have fq := fmul_finite y d fy fd (ry.trans h3)
  have cp := fmul_error x c fp
  have cq := fmul_error y d fq
  refine S.finite _ _ fp fq ?_
  have hsq : ∀ v : ℝ, |-sg * v| = |v| := fun v => by rw [abs_mul, abs_neg, S.abs_sg, one_mul]
  have e : toReal (fmul x c) + sg * toReal (fmul y d) = (toReal x * c0 + sg * (toReal y * d0))
      + ((toReal (fmul x c) - toReal x * toReal c) + toReal x * (toReal c - c0))
      - -sg * ((toReal (fmul y d) - toReal y * toReal d) + toReal y * (toReal d - d0)) := by ring
  have t1 : |toReal x * (toReal c - c0)| ≤ |toReal x| * (1 / 2 ^ 24 + 1 / 2 ^ 50) := by
    rw [abs_mul]
    exact mul_le_mul_of_nonneg_left hc (abs_nonneg _)
  have t2 : |toReal y * (toReal d - d0)| ≤ |toReal y| * (1 / 2 ^ 24 + 1 / 2 ^ 50) := by
    rw [abs_mul]
    exact mul_le_mul_of_nonneg_left hd (abs_nonneg _)
  rw [e]
  refine (abs_sub _ _).trans ((add_le_add ((abs_add_le _ _).trans (add_le_add le_rfl (abs_add_le _ _)))
    ((hsq _).le.trans (abs_add_le _ _))).trans ?_)
  have h150 : (1 : ℝ) / 2 ^ 150 ≤ 1 := by norm_num
  unfold networkRange at hb
  generalize (1 : ℝ) / 2 ^ 150 = h at *
  norm_num at *
  linarith

/-- The components of a product of complex numbers, in the form the butterfly computes them. -/
theorem cval_mul_re (b : Bin) (t : ℂ) : (cval b * t).re = toReal b.re * t.re + -1 * (toReal b.im * t.im) := by
  rw [Complex.mul_re, neg_one_mul, ← sub_eq_add_neg]
  rfl

theorem cval_mul_im (b : Bin) (t : ℂ) : (cval b * t).im = toReal b.re * t.im + 1 * (toReal b.im * t.re) := by
  rw [Complex.mul_im, one_mul]
  rfl

section
variable (w b : Bin) (t : ℂ) (hw : NearRoot w t)
include hw

theorem NearRoot.abs_re : |t.re| ≤ 1 := (Complex.abs_re_le_norm t).trans_eq hw.norm

theorem NearRoot.abs_im : |t.im| ≤ 1 := (Complex.abs_im_le_norm t).trans_eq hw.norm

theorem NearRoot.norm_times : ‖cval b * t‖ = ‖cval b‖ := by rw [norm_mul, hw.norm, mul_one]

/-- The product of a butterfly, component by component, where it is finite. -/
theorem twiddled_re (h : isFinite (twiddled w b).re = true) :
    binFinite b = true ∧ |toReal (twiddled w b).re - (cval b * t).re| ≤ 46 / 10 * ‖cval b‖ / 2 ^ 24 + 4 / 2 ^ 150 := by
  obtain ⟨fp, fq⟩ := operands_of_fsub_finite _ _ h
  refine ⟨(binFinite_iff b).2 ⟨(operands_of_fmul_finite _ _ fp).1, (operands_of_fmul_finite _ _ fq).1⟩, ?_⟩
  have are := (Complex.abs_re_le_norm (cval b * t)).trans_eq (hw.norm_times w b t)
  rw [cval_mul_re] at are ⊢
  exact combined_error subOp b.re b.im w.re w.im t.re t.im ‖cval b‖ h (abs_re_add_abs_im_le (cval b))
    (Complex.abs_re_le_norm (cval b)) (Complex.abs_im_le_norm (cval b)) (hw.abs_re w t) (hw.abs_im w t) hw.re_close
    hw.im_close are

theorem twiddled_im (h : isFinite (twiddled w b).im = true) :
    binFinite b = true ∧ |toReal (twiddled w b).im - (cval b * t).im| ≤ 46 / 10 * ‖cval b‖ / 2 ^ 24 + 4 / 2 ^ 150 := by
  obtain ⟨fp, fq⟩ := operands_of_fadd_finite _ _ h
  refine ⟨(binFinite_iff b).2 ⟨(operands_of_fmul_finite _ _ fp).1, (operands_of_fmul_finite _ _ fq).1⟩, ?_⟩
  have aim := (Complex.abs_im_le_norm (cval b * t)).trans_eq (hw.norm_times w b t)
  rw [cval_mul_im] at aim ⊢
  exact combined_error addOp b.re b.im w.im w.re t.im t.re ‖cval b‖ h (abs_re_add_abs_im_le (cval b))
    (Complex.abs_re_le_norm (cval b)) (Complex.abs_im_le_norm (cval b)) (hw.abs_im w t) (hw.abs_re w t) hw.im_close
    hw.re_close aim

/-- The product of a butterfly is finite in range. -/
theorem twiddled_finite (fb : binFinite b = true) (hb : ‖cval b‖ ≤ networkRange) : binFinite (twiddled w b) = true := by
  obtain ⟨fr, fi⟩ := (binFinite_iff b).1 fb
  obtain ⟨fc, fd⟩ := (binFinite_iff w).1 hw.finite
  have are := (Complex.abs_re_le_norm (cval b * t)).trans_eq (hw.norm_times w b t)
  have aim := (Complex.abs_im_le_norm (cval b * t)).trans_eq (hw.norm_times w b t)
  rw [cval_mul_re] at are
  rw [cval_mul_im] at aim
  exact (binFinite_iff _).2 ⟨combined_finite subOp b.re b.im w.re w.im t.re t.im ‖cval b‖ fr fi fc fd hb
      (Complex.abs_re_le_norm (cval b)) (Complex.abs_im_le_norm (cval b)) (hw.abs_re w t) (hw.abs_im w t) hw.re_close
      hw.im_close are,
    combined_finite addOp b.re b.im w.im w.re t.im t.re ‖cval b‖ fr fi fd fc hb
      (Complex.abs_re_le_norm (cval b)) (Complex.abs_im_le_norm (cval b)) (hw.abs_im w t) (hw.abs_re w t) hw.im_close
      hw.re_close aim⟩

end

/-- The last rounding of a component of an output, on top of the error of the product. -/
theorem component_error {op : Word → Word → Word} {sg : ℝ} (S : SignedOp op sg) (a q : Word) (v b m : ℝ)
    (hf : isFinite (op a q) = true) (hq : |toReal q - v| ≤ 46 / 10 * b / 2 ^ 24 + 4 / 2 ^ 150) (ha : |toReal a| ≤ m)
    (hv : |v| ≤ b) : |toReal (op a q) - (toReal a + sg * v)| ≤ (m + 561 / 100 * b) / 2 ^ 24 + 501 / 100 * (1 / 2 ^ 150) := by
  have e : toReal a + sg * toReal q = (toReal a + sg * v) + sg * (toReal q - v) := by ring
  have h1 : |sg * (toReal q - v)| ≤ 46 / 10 * b / 2 ^ 24 + 4 * (1 / 2 ^ 150) := by
    rw [abs_mul, S.abs_sg, one_mul]
    exact hq.trans_eq (by ring)
  have h0 : |toReal a + sg * v| ≤ m + b := by
    refine (abs_add_le _ _).trans (add_le_add ha ?_)
    rwa [abs_mul, S.abs_sg, one_mul]
  have h2 : |toReal a + sg * toReal q| ≤ |toReal a + sg * v| + |sg * (toReal q - v)| := by
    rw [e]
    exact abs_add_le _ _
  have c := S.error a q hf
  have h3 : |toReal (op a q) - (toReal a + sg * v)|
      ≤ |toReal (op a q) - (toReal a + sg * toReal q)| + |sg * (toReal q - v)| := by
    have := abs_add_le (toReal (op a q) - (toReal a + sg * toReal q)) (sg * (toReal q - v))
    rwa [show toReal (op a q) - (toReal a + sg * toReal q) + sg * (toReal q - v) = toReal (op a q) - (toReal a + sg * v) by
      ring] at this
  have hb0 : 0 ≤ b := (abs_nonneg _).trans hv
  have h151 : (0 : ℝ) ≤ 1 / 2 ^ 150 := by positivity
  generalize (1 : ℝ) / 2 ^ 150 = h at *
  norm_num at *
  linarith

/-- A bin near a complex number wherever it is finite: each finite component by itself, and both together in norm. -/
structure Near (x : Bin) (z : ℂ) (e : ℝ) : Prop where
  re : isFinite x.re = true → |toReal x.re - z.re| ≤ e
  im : isFinite x.im = true → |toReal x.im - z.im| ≤ e
  both : binFinite x = true → ‖cval x - z‖ ≤ e

/-- An output of a butterfly, upper with `sg = 1`, lower with `sg = -1`, of inputs near exact ones. -/
def output (op : Word → Word → Word) (w a b : Bin) : Bin := ⟨op a.re (twiddled w b).re, op a.im (twiddled w b).im⟩

theorem upper_eq_output (w a b : Bin) : upper w a b = output fadd w a b := rfl

theorem lower_eq_output (w a b : Bin) : lower w a b = output fsub w a b := rfl

theorem Near.mono {x : Bin} {z : ℂ} {e e' : ℝ} (h : Near x z e) (he : e ≤ e') : Near x z e' :=
  ⟨fun f => (h.re f).trans he, fun f => (h.im f).trans he, fun f => (h.both f).trans he⟩

theorem norm_le_of_near {x : Bin} {z : ℂ} {e l : ℝ} (h : ‖cval x - z‖ ≤ e) (hz : ‖z‖ ≤ l) : ‖cval x‖ ≤ l + e := by
  have := norm_add_le z (cval x - z)
  rw [add_sub_cancel] at this
  linarith

/-- The error that one butterfly adds to those of its inputs. -/
noncomputable def stageError (la lb ea eb : ℝ) : ℝ :=
  ea + eb + (8 / 2 ^ 24 * ((la + ea) + (lb + eb)) + 8 * (1 / 2 ^ 150))

theorem output_near {op : Word → Word → Word} {sg : ℝ} (S : SignedOp op sg) (w a b : Bin) (t : ℂ) (hw : NearRoot w t)
    (a0 b0 : ℂ) (ea eb la lb : ℝ) (ha : Near a a0 ea) (hb : Near b b0 eb) (hla : ‖a0‖ ≤ la) (hlb : ‖b0‖ ≤ lb) :
    Near (output op w a b) (a0 + sg * (b0 * t)) (stageError la lb ea eb) := by
  have hcn : ∀ z : ℂ, ‖(sg : ℂ) * (z * t)‖ = ‖z‖ := fun z => by
    rw [norm_mul, norm_mul, hw.norm, Complex.norm_real, Real.norm_eq_abs, S.abs_sg, one_mul, mul_one]
  have h151 : (0 : ℝ) ≤ 1 / 2 ^ 150 := by positivity
  -- the exact butterfly on the computed `b`, against the exact one
  have hdiff : ∀ hfb : binFinite b = true, ‖(sg : ℂ) * ((cval b - b0) * t)‖ ≤ eb := fun hfb => (hcn _).trans_le (hb.both hfb)
  have hsum : ∀ hfb : binFinite b = true, ‖cval b‖ ≤ lb + eb := fun hfb => norm_le_of_near (hb.both hfb) hlb
  -- the rounding of each component
  have hre : isFinite (op a.re (twiddled w b).re) = true → binFinite b = true ∧ isFinite a.re = true ∧
      |toReal (op a.re (twiddled w b).re) - (toReal a.re + sg * (cval b * t).re)|
        ≤ ((la + ea) + 561 / 100 * (lb + eb)) / 2 ^ 24 + 501 / 100 * (1 / 2 ^ 150) := by
    intro hf
    obtain ⟨fa, fq⟩ := S.operands _ _ hf
    obtain ⟨fb, cq⟩ := twiddled_re w b t hw fq
    have hs := hsum fb
    have har : |toReal a.re| ≤ la + ea := by
      have h1 := abs_add_le a0.re (toReal a.re - a0.re)
      rw [add_sub_cancel] at h1
      have h2 := (Complex.abs_re_le_norm a0).trans hla
      linarith [ha.re fa]
    refine ⟨fb, fa, component_error S _ _ _ (lb + eb) _ hf (cq.trans ?_) har
      ((Complex.abs_re_le_norm _).trans ((hw.norm_times w b t).trans_le hs))⟩
    gcongr
  have him : isFinite (op a.im (twiddled w b).im) = true → binFinite b = true ∧ isFinite a.im = true ∧
      |toReal (op a.im (twiddled w b).im) - (toReal a.im + sg * (cval b * t).im)|
        ≤ ((la + ea) + 561 / 100 * (lb + eb)) / 2 ^ 24 + 501 / 100 * (1 / 2 ^ 150) := by
    intro hf
    obtain ⟨fa, fq⟩ := S.operands _ _ hf
    obtain ⟨fb, cq⟩ := twiddled_im w b t hw fq
    have hs := hsum fb
    have hai : |toReal a.im| ≤ la + ea := by
      have h1 := abs_add_le a0.im (toReal a.im - a0.im)
      rw [add_sub_cancel] at h1
      have h2 := (Complex.abs_im_le_norm a0).trans hla
      linarith [ha.im fa]
    refine ⟨fb, fa, component_error S _ _ _ (lb + eb) _ hf (cq.trans ?_) hai
      ((Complex.abs_im_le_norm _).trans ((hw.norm_times w b t).trans_le hs))⟩
    gcongr
  -- the numbers: the rounding of a component, once and in norm
  have hnum : ∀ r : ℝ, binFinite b = true → 0 ≤ la + ea →
      r ≤ 142 / 100 * (((la + ea) + 561 / 100 * (lb + eb)) / 2 ^ 24 + 501 / 100 * (1 / 2 ^ 150)) →
      r ≤ 8 / 2 ^ 24 * ((la + ea) + (lb + eb)) + 8 * (1 / 2 ^ 150) := by
    intro r fb h0 hr
    have hB : 0 ≤ lb + eb := (norm_nonneg _).trans (hsum fb)
    generalize (1 : ℝ) / 2 ^ 150 = h at *
    generalize la + ea = x at *
    generalize lb + eb = y at *
    norm_num at hr ⊢
    linarith
  have hone : ∀ r : ℝ, binFinite b = true → 0 ≤ la + ea →
      r ≤ ((la + ea) + 561 / 100 * (lb + eb)) / 2 ^ 24 + 501 / 100 * (1 / 2 ^ 150) →
      r ≤ 8 / 2 ^ 24 * ((la + ea) + (lb + eb)) + 8 * (1 / 2 ^ 150) := by
    intro r fb h0 hr
    have hB : 0 ≤ lb + eb := (norm_nonneg _).trans (hsum fb)
    exact hnum r fb h0 (hr.trans (by nlinarith [show (0 : ℝ) ≤ ((la + ea) + 561 / 100 * (lb + eb)) / 2 ^ 24 by positivity]))
  have hsplit : cval b * t = b0 * t + (cval b - b0) * t := by ring
  refine ⟨fun hf => ?_, fun hf => ?_, fun hf => ?_⟩
  · obtain ⟨fb, fa, c⟩ := hre hf
    have h0 : 0 ≤ la + ea := add_nonneg ((norm_nonneg _).trans hla) ((abs_nonneg _).trans (ha.re fa))
    have hd := (Complex.abs_re_le_norm _).trans (hdiff fb)
    have e1 : ((a0 : ℂ) + sg * (b0 * t)).re = a0.re + sg * (b0 * t).re := by rw [Complex.add_re, Complex.re_ofReal_mul]
    have e2 : toReal a.re + sg * (cval b * t).re - (a0.re + sg * (b0 * t).re)
        = (toReal a.re - a0.re) + ((sg : ℂ) * ((cval b - b0) * t)).re := by
      rw [Complex.re_ofReal_mul, hsplit, Complex.add_re]
      ring
    have h1 := abs_add_le (toReal a.re - a0.re) ((sg : ℂ) * ((cval b - b0) * t)).re
    rw [← e2] at h1
    have h2 := abs_add_le (toReal (op a.re (twiddled w b).re) - (toReal a.re + sg * (cval b * t).re))
      (toReal a.re + sg * (cval b * t).re - (a0.re + sg * (b0 * t).re))
    rw [sub_add_sub_cancel] at h2
    rw [e1]
    unfold stageError
    have := hone _ fb h0 c
    have := ha.re fa
    change |toReal (op a.re (twiddled w b).re) - _| ≤ _
    linarith
  · obtain ⟨fb, fa, c⟩ := him hf
    have h0 : 0 ≤ la + ea := add_nonneg ((norm_nonneg _).trans hla) ((abs_nonneg _).trans (ha.im fa))
    have hd := (Complex.abs_im_le_norm _).trans (hdiff fb)
    have e1 : ((a0 : ℂ) + sg * (b0 * t)).im = a0.im + sg * (b0 * t).im := by rw [Complex.add_im, Complex.im_ofReal_mul]
    have e2 : toReal a.im + sg * (cval b * t).im - (a0.im + sg * (b0 * t).im)
        = (toReal a.im - a0.im) + ((sg : ℂ) * ((cval b - b0) * t)).im := by
      rw [Complex.im_ofReal_mul, hsplit, Complex.add_im]
      ring
    have h1 := abs_add_le (toReal a.im - a0.im) ((sg : ℂ) * ((cval b - b0) * t)).im
    rw [← e2] at h1
    have h2 := abs_add_le (toReal (op a.im (twiddled w b).im) - (toReal a.im + sg * (cval b * t).im))
      (toReal a.im + sg * (cval b * t).im - (a0.im + sg * (b0 * t).im))
    rw [sub_add_sub_cancel] at h2
    rw [e1]
    unfold stageError
    have := hone _ fb h0 c
    have := ha.im fa
    change |toReal (op a.im (twiddled w b).im) - _| ≤ _
    linarith
  · obtain ⟨f1, f2⟩ := (binFinite_iff _).1 hf
    obtain ⟨fb, far, c1⟩ := hre f1
    obtain ⟨-, fai, c2⟩ := him f2
    have fa : binFinite a = true := (binFinite_iff a).2 ⟨far, fai⟩
    have h0 : 0 ≤ la + ea := add_nonneg ((norm_nonneg _).trans hla) ((norm_nonneg _).trans (ha.both fa))
    have hc := norm_le_of_components (cval (output op w a b) - (cval a + sg * (cval b * t)))
      (((la + ea) + 561 / 100 * (lb + eb)) / 2 ^ 24 + 501 / 100 * (1 / 2 ^ 150))
      (by rw [Complex.sub_re, Complex.add_re, Complex.re_ofReal_mul]; exact c1)
      (by rw [Complex.sub_im, Complex.add_im, Complex.im_ofReal_mul]; exact c2)
    have h1 := hnum _ fb h0 hc
    have e2 : (cval a + sg * (cval b * t)) - (a0 + sg * (b0 * t)) = (cval a - a0) + sg * ((cval b - b0) * t) := by ring
    have h2 := norm_add_le (cval a - a0) ((sg : ℂ) * ((cval b - b0) * t))
    rw [← e2] at h2
    have h3 := norm_add_le (cval (output op w a b) - (cval a + sg * (cval b * t)))
      ((cval a + sg * (cval b * t)) - (a0 + sg * (b0 * t)))
    rw [sub_add_sub_cancel] at h3
    unfold stageError
    have := ha.both fa
    have := hdiff fb
    linarith

/-- An output of a butterfly is finite in range. -/
theorem output_finite {op : Word → Word → Word} {sg : ℝ} (S : SignedOp op sg) (w a b : Bin) (t : ℂ) (hw : NearRoot w t)
    (fa : binFinite a = true) (fb : binFinite b = true) (hb : ‖cval b‖ ≤ networkRange)
    (hm : ‖cval a + sg * (cval b * t)‖ ≤ networkRange) : binFinite (output op w a b) = true := by
  obtain ⟨fpr, fpi⟩ := (binFinite_iff _).1 (twiddled_finite w b t hw fb hb)
  obtain ⟨far, fai⟩ := (binFinite_iff a).1 fa
  have hnum : ∀ x q v : ℝ, |x + sg * v| ≤ networkRange → |q - v| ≤ 46 / 10 * ‖cval b‖ / 2 ^ 24 + 4 / 2 ^ 150 →
      |x + sg * q| ≤ 3 * 2 ^ 126 := by
    intro x q v h1 h2
    have h3 : |sg * (q - v)| ≤ 46 / 10 * ‖cval b‖ / 2 ^ 24 + 4 / 2 ^ 150 := by
      rw [abs_mul, S.abs_sg, one_mul]
      exact h2
    have h4 := abs_add_le (x + sg * v) (sg * (q - v))
    rw [show x + sg * v + sg * (q - v) = x + sg * q by ring] at h4
    have h150 : (4 : ℝ) / 2 ^ 150 ≤ 1 := by norm_num
    unfold networkRange at *
    generalize (4 : ℝ) / 2 ^ 150 = h at *
    norm_num at *
    linarith
  have hr := Complex.abs_re_le_norm (cval a + sg * (cval b * t))
  have hi := Complex.abs_im_le_norm (cval a + sg * (cval b * t))
  rw [Complex.add_re, Complex.re_ofReal_mul] at hr
  rw [Complex.add_im, Complex.im_ofReal_mul] at hi
  exact (binFinite_iff _).2
    ⟨S.finite _ _ far fpr (hnum _ _ _ (hr.trans hm) (twiddled_re w b t hw fpr).2),
      S.finite _ _ fai fpi (hnum _ _ _ (hi.trans hm) (twiddled_im w b t hw fpi).2)⟩

/-! ## The twiddle factors -/

/-- The primitive root of unity of the stages. -/
noncomputable def stageRoot (p : Nat) (inverse : Bool) : ℂ :=
  Complex.exp ((if inverse then 1 else -1 : ℝ) * turnAngle p 1 * Complex.I)

theorem turnAngle_mul (p k : Nat) : turnAngle p k = k * turnAngle p 1 := by
  unfold turnAngle
  push_cast
  ring

theorem stageRoot_pow (p k : Nat) (inverse : Bool) :
    stageRoot p inverse ^ k =
      ⟨Real.cos (turnAngle p k), (if inverse then 1 else -1) * Real.sin (turnAngle p k)⟩ := by
  unfold stageRoot
  rw [← Complex.exp_nat_mul, turnAngle_mul p k]
  have : (k : ℂ) * ((if inverse then 1 else -1 : ℝ) * turnAngle p 1 * Complex.I)
      = (((if inverse then 1 else -1 : ℝ) * (k * turnAngle p 1) : ℝ) : ℂ) * Complex.I := by
    push_cast
    ring
  rw [this]
  apply Complex.ext
  · rw [Complex.exp_ofReal_mul_I_re]
    cases inverse <;> simp
  · rw [Complex.exp_ofReal_mul_I_im]
    cases inverse <;> simp

theorem norm_stageRoot (p : Nat) (inverse : Bool) : ‖stageRoot p inverse‖ = 1 := by
  unfold stageRoot
  rw [← Complex.ofReal_mul]
  exact Complex.norm_exp_ofReal_mul_I _

theorem stageRoot_half (p : Nat) (inverse : Bool) (hp : 2 ≤ p) : stageRoot p inverse ^ (2 ^ (p - 1)) = -1 := by
  have h : turnAngle p (2 ^ (p - 1)) = Real.pi := by
    have h2 : (2 : ℝ) ^ p = 2 * 2 ^ (p - 1) := by
      rw [← pow_succ']
      congr 1
      omega
    unfold turnAngle
    rw [h2]
    push_cast
    field_simp
  rw [stageRoot_pow, h, Real.cos_pi, Real.sin_pi, mul_zero]
  apply Complex.ext <;> simp

/-- One entry of the twiddle table is one rounding from its value. -/
theorem turn_entry_close (n : Int) (d : Nat) (v : ℝ) (hd : 0 < d) (hv : |v| ≤ 1) (h : |(n : ℝ) / d - v| ≤ turnErr) :
    isFinite (rn32 (n * (2 ^ 149 : Nat)) d) = true ∧
      |toReal (rn32 (n * (2 ^ 149 : Nat)) d) - v| ≤ 1 / 2 ^ 24 + 1 / 2 ^ 50 := by
  have h0 : |(n : ℝ) / d| ≤ 1 + turnErr := by
    have := abs_add_le v ((n : ℝ) / d - v)
    rw [add_sub_cancel] at this
    linarith
  have h1 : turnErr ≤ 1 / 2 ^ 55 := by
    unfold turnErr
    norm_num
  obtain ⟨f, c⟩ := toReal_rn32_close n d hd (h0.trans (by linarith [show (1 : ℝ) + 1 / 2 ^ 55 ≤ 3 * 2 ^ 126 by norm_num]))
  refine ⟨f, ?_⟩
  have h2 := abs_add_le (toReal (rn32 (n * (2 ^ 149 : Nat)) d) - n / d) ((n : ℝ) / d - v)
  rw [sub_add_sub_cancel] at h2
  have h150 : (1 : ℝ) / 2 ^ 150 ≤ 1 / 2 ^ 55 := by norm_num
  generalize (1 : ℝ) / 2 ^ 150 = e at *
  norm_num at *
  linarith

theorem stageTwiddle_near (p s j : Nat) (inverse : Bool) (hp : 2 ≤ p) (hs : s < p) :
    NearRoot (stageTwiddle p inverse (2 ^ s) j) (stageRoot p inverse ^ (2 ^ (p - (s + 1)) * j)) := by
  have he : j * (frameSize p / (2 * 2 ^ s)) = 2 ^ (p - (s + 1)) * j := by
    have : 2 ^ p = 2 * 2 ^ s * 2 ^ (p - (s + 1)) := by
      rw [← pow_succ', ← pow_add]
      congr 1
      omega
    unfold frameSize
    rw [this, Nat.mul_div_cancel_left _ (by positivity), mul_comm]
  unfold stageTwiddle
  rw [he]
  generalize 2 ^ (p - (s + 1)) * j = k
  obtain ⟨f1, c1⟩ := turn_entry_close _ _ _ (turnDen_pos p) (Real.abs_cos_le_one _) (cosTurn_close p k hp)
  obtain ⟨f2, c2⟩ := turn_entry_close (-(sinTurn p k)) _ (-Real.sin (turnAngle p k)) (turnDen_pos p)
    (by rw [abs_neg]; exact Real.abs_sin_le_one _)
    (by
      push_cast
      rw [neg_div, neg_sub_neg, abs_sub_comm]
      exact sinTurn_close p k hp)
  have hn : ‖stageRoot p inverse ^ k‖ = 1 := by rw [norm_pow, norm_stageRoot, one_pow]
  refine ⟨(binFinite_iff _).2 ⟨f1, ?_⟩, hn, ?_, ?_⟩
  · cases inverse
    · exact f2
    · simp only [if_true, isFinite_fneg]
      exact f2
  · rw [stageRoot_pow]
    exact c1
  · rw [stageRoot_pow]
    cases inverse
    · simp only [Bool.false_eq_true, if_false, neg_one_mul]
      exact c2
    · simp only [if_true, one_mul, toReal_fneg]
      rw [← neg_sub_neg, abs_sub_comm] at c2
      simpa [twiddle] using c2

/-! ## The stages -/

/-- The size of the exact values up to which the network is followed: past `sqrt 2 * 2^127`. -/
noncomputable def exactRange : ℝ := 142 / 100 * 2 ^ 127

/-- The error of a stage from the errors of the stage before, as numbers: `sg` counts stages, `d` is the block size. -/
theorem stageError_le (sg d a b h : ℝ) (hs0 : 0 ≤ sg) (hs : sg ≤ 31) (hd : 1 ≤ d) (ha : 0 ≤ a) (hb : 0 ≤ b) (h0 : 0 ≤ h)
    (hh : h = 1 / 2 ^ 150) :
    stageError a b (sg * (83 / 10 / 2 ^ 24) * a + (9 * d * (1 + sg / 2 ^ 20) - 9) * h)
        (sg * (83 / 10 / 2 ^ 24) * b + (9 * d * (1 + sg / 2 ^ 20) - 9) * h)
      ≤ (sg + 1) * (83 / 10 / 2 ^ 24) * (a + b) + (9 * (2 * d) * (1 + (sg + 1) / 2 ^ 20) - 9) * h := by
  have h1 : sg * a ≤ 31 * a := mul_le_mul_of_nonneg_right hs ha
  have h2 : sg * b ≤ 31 * b := mul_le_mul_of_nonneg_right hs hb
  have h3 : h ≤ d * h := le_mul_of_one_le_left h0 hd
  have h4 : 0 ≤ d * h := h0.trans h3
  have h5 : 0 ≤ sg * a := mul_nonneg hs0 ha
  have h6 : 0 ≤ sg * b := mul_nonneg hs0 hb
  have h7 : 0 ≤ sg * (d * h) := mul_nonneg hs0 h4
  have h8 : sg * (d * h) ≤ 31 * (d * h) := mul_le_mul_of_nonneg_right hs h4
  unfold stageError
  rw [← hh]
  have e : ∀ z : ℝ, sg * (83 / 10 / 2 ^ 24) * z + (9 * d * (1 + sg / 2 ^ 20) - 9) * h
      = 83 / 10 / 2 ^ 24 * (sg * z) + 9 * (d * h) + 9 / 2 ^ 20 * (sg * (d * h)) - 9 * h := fun z => by ring
  rw [e, e, show (sg + 1) * (83 / 10 / 2 ^ 24) * (a + b) + (9 * (2 * d) * (1 + (sg + 1) / 2 ^ 20) - 9) * h
    = 83 / 10 / 2 ^ 24 * (sg * a) + 83 / 10 / 2 ^ 24 * (sg * b) + 83 / 10 / 2 ^ 24 * a + 83 / 10 / 2 ^ 24 * b
      + 18 * (d * h) + 18 / 2 ^ 20 * (sg * (d * h)) + 18 / 2 ^ 20 * (d * h) - 9 * h by ring]
  generalize sg * (d * h) = u at *
  generalize d * h = v at *
  generalize sg * a = x at *
  generalize sg * b = y at *
  clear e hh
  norm_num at *
  linarith

section
variable (p : Nat) (inverse : Bool) (v : List Bin)

/-- What the network holds after `s` stages. -/
def networkAt (s : Nat) : List Bin :=
  (List.range s).foldl (fun v s => butterflyStage p inverse (2 ^ s) v)
    ((List.range (frameSize p)).map fun i => binAt v (bitReverse p i))

theorem cfft_eq : cfft p inverse v = networkAt p inverse v p := rfl

theorem networkAt_succ (s : Nat) : networkAt p inverse v (s + 1) = butterflyStage p inverse (2 ^ s) (networkAt p inverse v s) := by
  unfold networkAt
  rw [List.range_succ, List.foldl_append, List.foldl_cons, List.foldl_nil]

/-- The exact inputs of the network. -/
noncomputable def exactInput (k : Nat) : ℂ := cval (binAt v k)

/-- The error bound of a block after `s` stages. -/
noncomputable def blockError (s g : Nat) : ℝ :=
  s * (83 / 10 / 2 ^ 24) * blockL1 p (exactInput v) s g + (9 * 2 ^ s * (1 + s / 2 ^ 20) - 9) * (1 / 2 ^ 150)

/-- The error of a block of the next stage is what a butterfly adds to the errors of its two halves. -/
theorem blockError_succ (s g : Nat) (hs : s < p) (hp31 : p ≤ 31) :
    stageError (blockL1 p (exactInput v) s (2 * g)) (blockL1 p (exactInput v) s (2 * g + 1)) (blockError p v s (2 * g))
      (blockError p v s (2 * g + 1)) ≤ blockError p v (s + 1) g := by
  have hs31 : (s : ℝ) ≤ 31 := by exact_mod_cast (by omega : s ≤ 31)
  refine (stageError_le s (2 ^ s) _ _ (1 / 2 ^ 150) (Nat.cast_nonneg _) hs31 (one_le_pow₀ (by norm_num))
    (blockL1_nonneg p (exactInput v) s (2 * g)) (blockL1_nonneg p (exactInput v) s (2 * g + 1)) (by positivity) rfl).trans_eq ?_
  unfold blockError
  rw [blockL1_succ p _ s hs, pow_succ' (2 : ℝ) s]
  push_cast
  ring

/-- A property of the places of the two halves of a block is one of all its places. -/
theorem block_places (s : Nat) (P : Nat → Prop) (h : ∀ i, i < 2 ^ s → P i ∧ P (i + 2 ^ s)) (j : Nat) (hj : j < 2 ^ (s + 1)) :
    P j := by
  rcases Nat.lt_or_ge j (2 ^ s) with hlt | hge
  · exact (h j hlt).1
  · have := (h (j - 2 ^ s) (by rw [pow_succ] at hj; omega)).2
    rwa [Nat.sub_add_cancel hge] at this

theorem networkAt_length (s : Nat) (hs : s ≤ p) : (networkAt p inverse v s).length = frameSize p := by
  induction s with
  | zero => simp [networkAt]
  | succ s ih =>
    have hlen := ih (by omega)
    rw [networkAt_succ, (stage_spec p s inverse _ (by omega) hlen).1, hlen]

theorem networkAt_zero (g : Nat) (hg : g < 2 ^ p) : binAt (networkAt p inverse v 0) (2 ^ 0 * g + 0) = binAt v (bitReverse p g) := by
  rw [pow_zero, one_mul, add_zero]
  exact binAt_map_range _ _ _ hg

/-- A property of the places of all blocks, made at the start and kept by the two outputs of every butterfly. -/
theorem network_induction (P : Nat → Nat → Nat → Bin → Prop)
    (h0 : ∀ g, g < 2 ^ p → P 0 g 0 (binAt v (bitReverse p g)))
    (hstep : ∀ s g i a b, s < p → g < 2 ^ (p - (s + 1)) → i < 2 ^ s → P s (2 * g) i a → P s (2 * g + 1) i b →
      P (s + 1) g i (upper (stageTwiddle p inverse (2 ^ s) i) a b) ∧
        P (s + 1) g (i + 2 ^ s) (lower (stageTwiddle p inverse (2 ^ s) i) a b))
    (s : Nat) (hs : s ≤ p) (g j : Nat) (hg : g < 2 ^ (p - s)) (hj : j < 2 ^ s) :
    P s g j (binAt (networkAt p inverse v s) (2 ^ s * g + j)) := by
  induction s generalizing g j with
  | zero =>
    have hj0 : j = 0 := by omega
    subst hj0
    rw [networkAt_zero p inverse v g hg]
    exact h0 g hg
  | succ s ih =>
    have hsp : s < p := by omega
    have hpow : 2 ^ (p - s) = 2 * 2 ^ (p - (s + 1)) := by
      rw [← pow_succ']
      congr 1
      omega
    obtain ⟨-, hst⟩ := stage_spec p s inverse _ hsp (networkAt_length p inverse v s hsp.le)
    rw [networkAt_succ]
    refine block_places s (fun j => P (s + 1) g j
      (binAt (butterflyStage p inverse (2 ^ s) (networkAt p inverse v s)) (2 ^ (s + 1) * g + j))) (fun i hi => ?_) j hj
    obtain ⟨hu, hl⟩ := hst g i hg hi
    simp only [hu, hl]
    exact hstep s g i _ _ hsp hg hi (ih hsp.le (2 * g) i (by omega) hi) (ih hsp.le (2 * g + 1) i (by omega) hi)

variable (hp : 2 ≤ p) (hp31 : p ≤ 31)

include hp hp31 in
/-- One butterfly on places near the exact sums of their blocks. -/
theorem near_step (s g i : Nat) (a b : Bin) (hs : s < p)
    (ha : Near a (blockSum p (exactInput v) (stageRoot p inverse) s (2 * g) i) (blockError p v s (2 * g)))
    (hb : Near b (blockSum p (exactInput v) (stageRoot p inverse) s (2 * g + 1) i) (blockError p v s (2 * g + 1))) :
    Near (upper (stageTwiddle p inverse (2 ^ s) i) a b)
        (blockSum p (exactInput v) (stageRoot p inverse) (s + 1) g i) (blockError p v (s + 1) g) ∧
      Near (lower (stageTwiddle p inverse (2 ^ s) i) a b)
        (blockSum p (exactInput v) (stageRoot p inverse) (s + 1) g (i + 2 ^ s)) (blockError p v (s + 1) g) := by
  have hw := stageTwiddle_near p s i inverse hp hs
  have na := norm_blockSum_le p (exactInput v) _ (norm_stageRoot p inverse) s (2 * g) i
  have nb := norm_blockSum_le p (exactInput v) _ (norm_stageRoot p inverse) s (2 * g + 1) i
  have hle := blockError_succ p v s g hs hp31
  rw [blockSum_succ p _ _ s hs, blockSum_succ_lower p _ _ s hs (stageRoot_half p inverse hp)]
  have hu := output_near addOp _ a b _ hw _ _ _ _ _ _ ha hb na nb
  have hl := output_near subOp _ a b _ hw _ _ _ _ _ _ ha hb na nb
  rw [Complex.ofReal_one, one_mul] at hu
  rw [Complex.ofReal_neg, Complex.ofReal_one, neg_one_mul, ← sub_eq_add_neg] at hl
  exact ⟨hu.mono hle, hl.mono hle⟩

theorem near_start (g : Nat) (j : Nat) :
    Near (binAt v (bitReverse p g)) (blockSum p (exactInput v) (stageRoot p inverse) 0 g j) (blockError p v 0 g) := by
  rw [blockSum_zero]
  have he : blockError p v 0 g = 0 := by simp [blockError]
  rw [he]
  exact ⟨fun _ => by simp [exactInput, cval], fun _ => by simp [exactInput, cval], fun _ => by simp [exactInput]⟩

include hp hp31 in
/-- Each place is near the exact sum of its block, wherever it is finite. -/
theorem network_near (s : Nat) (hs : s ≤ p) (g j : Nat) (hg : g < 2 ^ (p - s)) (hj : j < 2 ^ s) :
    Near (binAt (networkAt p inverse v s) (2 ^ s * g + j)) (blockSum p (exactInput v) (stageRoot p inverse) s g j)
      (blockError p v s g) :=
  network_induction p inverse v
    (fun s g j b => Near b (blockSum p (exactInput v) (stageRoot p inverse) s g j) (blockError p v s g))
    (fun g _ => near_start p inverse v g 0) (fun s g i a b hs _ _ => near_step p inverse v hp hp31 s g i a b hs)
    s hs g j hg hj

variable (hfin : ∀ b ∈ v, binFinite b = true)
  (hM : ∀ s ≤ p, ∀ g < 2 ^ (p - s), ∀ j < 2 ^ s,
    ‖blockSum p (exactInput v) (stageRoot p inverse) s g j‖ ≤ exactRange)
  (hE : ∀ s ≤ p, ∀ g < 2 ^ (p - s), blockError p v s g ≤ exactRange / 100)

include hp hp31 hfin hM hE in
/-- Where the exact sums are in range and the errors small against it, every place is finite. -/
theorem network_finite (s : Nat) (hs : s ≤ p) (g j : Nat) (hg : g < 2 ^ (p - s)) (hj : j < 2 ^ s) :
    binFinite (binAt (networkAt p inverse v s) (2 ^ s * g + j)) = true := by
  refine (network_induction p inverse v
    (fun s g j b => binFinite b = true ∧ Near b (blockSum p (exactInput v) (stageRoot p inverse) s g j) (blockError p v s g))
    (fun g _ => ⟨binAt_finite v hfin _, near_start p inverse v g 0⟩) (fun s g i a b hs hg hi ha hb => ?_) s hs g j hg hj).1
  have hpow : 2 ^ (p - s) = 2 * 2 ^ (p - (s + 1)) := by
    rw [← pow_succ']
    congr 1
    omega
  obtain ⟨nu, nl⟩ := near_step p inverse v hp hp31 s g i a b hs ha.2 hb.2
  have hw := stageTwiddle_near p s i inverse hp hs
  have ca := ha.2.both ha.1
  have cb := hb.2.both hb.1
  have ea := hE s hs.le (2 * g) (by omega)
  have eb := hE s hs.le (2 * g + 1) (by omega)
  have hMb := hM s hs.le (2 * g + 1) (by omega) i hi
  have hMu := hM (s + 1) hs g hg i (by rw [pow_succ]; omega)
  have hMl := hM (s + 1) hs g hg (i + 2 ^ s) (by rw [pow_succ]; omega)
  rw [blockSum_succ p _ _ s hs] at hMu
  rw [blockSum_succ_lower p _ _ s hs (stageRoot_half p inverse hp)] at hMl
  have hsz : exactRange + exactRange / 100 + exactRange / 100 ≤ networkRange := by
    unfold exactRange networkRange
    norm_num
  have he0 : 0 ≤ exactRange := by
    unfold exactRange
    positivity
  have fb := norm_le_of_near cb hMb
  have hdiff : ∀ z z0 : ℂ, z - z0 = (cval a - blockSum p (exactInput v) (stageRoot p inverse) s (2 * g) i)
        + (cval b - blockSum p (exactInput v) (stageRoot p inverse) s (2 * g + 1) i)
          * stageRoot p inverse ^ (2 ^ (p - (s + 1)) * i) ∨
      z - z0 = (cval a - blockSum p (exactInput v) (stageRoot p inverse) s (2 * g) i)
        - (cval b - blockSum p (exactInput v) (stageRoot p inverse) s (2 * g + 1) i)
          * stageRoot p inverse ^ (2 ^ (p - (s + 1)) * i) → ‖z0‖ ≤ exactRange → ‖z‖ ≤ networkRange := by
    intro z z0 h hz
    have ht : ‖(cval b - blockSum p (exactInput v) (stageRoot p inverse) s (2 * g + 1) i)
        * stageRoot p inverse ^ (2 ^ (p - (s + 1)) * i)‖ ≤ blockError p v s (2 * g + 1) := by
      rw [norm_mul, hw.norm, mul_one]
      exact cb
    have h1 : ‖z - z0‖ ≤ blockError p v s (2 * g) + blockError p v s (2 * g + 1) := by
      rcases h with h | h
      · rw [h]
        exact (norm_add_le _ _).trans (add_le_add ca ht)
      · rw [h]
        exact (norm_sub_le _ _).trans (add_le_add ca ht)
    have h2 := norm_add_le z0 (z - z0)
    rw [add_sub_cancel] at h2
    linarith
  refine ⟨⟨output_finite addOp _ a b _ hw ha.1 hb.1 (by linarith) ?_, nu⟩,
    ⟨output_finite subOp _ a b _ hw ha.1 hb.1 (by linarith) ?_, nl⟩⟩
  · rw [Complex.ofReal_one, one_mul]
    exact hdiff _ _ (Or.inl (by ring)) hMu
  · rw [Complex.ofReal_neg, Complex.ofReal_one, neg_one_mul, ← sub_eq_add_neg]
    exact hdiff _ _ (Or.inr (by ring)) hMl

end

/-! ## The complex transform -/

theorem blockL1_le_pow (p : Nat) (z : Nat → ℂ) (m : ℝ) (h : ∀ g < 2 ^ p, blockL1 p z 0 g ≤ m) (s : Nat) (hs : s ≤ p) (g : Nat)
    (hg : g < 2 ^ (p - s)) : blockL1 p z s g ≤ 2 ^ s * m := by
  induction s generalizing g with
  | zero => simpa using h g hg
  | succ s ih =>
    have hpow : 2 ^ (p - s) = 2 * 2 ^ (p - (s + 1)) := by
      rw [← pow_succ']
      congr 1
      omega
    rw [blockL1_succ p z s (by omega), pow_succ]
    have h1 := ih (by omega) (2 * g) (by omega)
    have h2 := ih (by omega) (2 * g + 1) (by omega)
    linarith

/-- The error of the whole transform bounds those on the way. -/
theorem blockError_le (p : Nat) (v : List Bin) (hp31 : p ≤ 31) (s g : Nat) (hs : s ≤ p) (hg : g < 2 ^ (p - s)) :
    blockError p v s g
      ≤ 83 / 10 / 2 ^ 24 * p * (∑ n ∈ Finset.range (2 ^ p), ‖exactInput v n‖) + 91 / 10 * 2 ^ p * (1 / 2 ^ 150) := by
  have hl := blockL1_le_total p (exactInput v) s hs g hg
  rw [blockL1_last] at hl
  have hl0 := blockL1_nonneg p (exactInput v) s g
  have hsp : (s : ℝ) ≤ p := by exact_mod_cast hs
  have hs31 : (s : ℝ) ≤ 31 := by exact_mod_cast hs.trans hp31
  have hpow : (2 : ℝ) ^ s ≤ 2 ^ p := pow_le_pow_right₀ (by norm_num) hs
  unfold blockError
  refine add_le_add ?_ (mul_le_mul_of_nonneg_right ?_ (by positivity))
  · rw [mul_comm (s : ℝ)]
    exact mul_le_mul (mul_le_mul_of_nonneg_left hsp (by positivity)) hl hl0 (by positivity)
  · have h1 : 9 * (1 + (s : ℝ) / 2 ^ 20) ≤ 91 / 10 := by
      norm_num
      linarith
    have h2 : (9 : ℝ) * 2 ^ s * (1 + s / 2 ^ 20) = 9 * (1 + (s : ℝ) / 2 ^ 20) * 2 ^ s := by ring
    rw [h2]
    have h3 : 9 * (1 + (s : ℝ) / 2 ^ 20) * 2 ^ s ≤ 91 / 10 * 2 ^ p := mul_le_mul h1 hpow (by positivity) (by norm_num)
    linarith

/-- The complex transform is near the exact one wherever it is finite. -/
theorem cfft_near (p : Nat) (inverse : Bool) (v : List Bin) (hp : 2 ≤ p) (hp31 : p ≤ 31) (k : Nat) (hk : k < 2 ^ p) :
    Near (binAt (cfft p inverse v) k) (∑ n ∈ Finset.range (2 ^ p), exactInput v n * stageRoot p inverse ^ (k * n))
      (83 / 10 / 2 ^ 24 * p * (∑ n ∈ Finset.range (2 ^ p), ‖exactInput v n‖) + 91 / 10 * 2 ^ p * (1 / 2 ^ 150)) := by
  have h := (network_near p inverse v hp hp31 p le_rfl 0 k (by simp) hk).mono (blockError_le p v hp31 p 0 le_rfl (by simp))
  rwa [Nat.mul_zero, Nat.zero_add, ← cfft_eq, blockSum_last] at h

/-- The complex transform of finite bins is finite where the exact one is in range and the error small against it. -/
theorem cfft_finite (p : Nat) (inverse : Bool) (v : List Bin) (hp : 2 ≤ p) (hp31 : p ≤ 31)
    (hfin : ∀ b ∈ v, binFinite b = true)
    (hX : ∀ k < 2 ^ p, ‖∑ n ∈ Finset.range (2 ^ p), exactInput v n * stageRoot p inverse ^ (k * n)‖ ≤ exactRange)
    (hE : 83 / 10 / 2 ^ 24 * p * (∑ n ∈ Finset.range (2 ^ p), ‖exactInput v n‖) ≤ exactRange / 150)
    (k : Nat) (hk : k < 2 ^ p) : binFinite (binAt (cfft p inverse v) k) = true := by
  have hM : ∀ s ≤ p, ∀ g < 2 ^ (p - s), ∀ j < 2 ^ s,
      ‖blockSum p (exactInput v) (stageRoot p inverse) s g j‖ ≤ exactRange := fun s hs g hg j hj =>
    norm_blockSum_le_of_last p _ _ (norm_stageRoot p inverse) (stageRoot_half p inverse hp) exactRange
      (fun k hk => by rw [blockSum_last]; exact hX k hk) s hs g j hg hj
  have hsmall : 91 / 10 * 2 ^ p * (1 / 2 ^ 150) ≤ exactRange / 300 := by
    have h1 : (2 : ℝ) ^ p ≤ 2 ^ 31 := pow_le_pow_right₀ (by norm_num) hp31
    have h2 : 91 / 10 * (2 : ℝ) ^ p * (1 / 2 ^ 150) ≤ 91 / 10 * 2 ^ 31 * (1 / 2 ^ 150) := by gcongr
    refine h2.trans ?_
    unfold exactRange
    norm_num
  have h := network_finite p inverse v hp hp31 hfin hM
    (fun s hs g hg => (blockError_le p v hp31 s g hs hg).trans (by linarith)) p le_rfl 0 k (by simp) hk
  rwa [Nat.mul_zero, Nat.zero_add, ← cfft_eq] at h

theorem stageRoot_full (p : Nat) (inverse : Bool) (hp : 2 ≤ p) : stageRoot p inverse ^ (2 ^ p) = 1 := by
  have : 2 ^ p = 2 ^ (p - 1) * 2 := by
    rw [← pow_succ]
    congr 1
    omega
  rw [this, pow_mul, stageRoot_half p inverse hp]
  norm_num

/-- The powers of the root mirror. -/
theorem stageRoot_mirror (p : Nat) (inverse : Bool) (hp : 2 ≤ p) (k n : Nat) (hk : k ≤ 2 ^ p) :
    stageRoot p inverse ^ ((2 ^ p - k) * n) = (starRingEnd ℂ) (stageRoot p inverse ^ (k * n)) := by
  have hn : ‖stageRoot p inverse ^ (k * n)‖ = 1 := by rw [norm_pow, norm_stageRoot, one_pow]
  rw [← Complex.inv_eq_conj hn]
  apply eq_inv_of_mul_eq_one_left
  rw [← pow_add, ← Nat.add_mul, Nat.sub_add_cancel hk, pow_mul, stageRoot_full p inverse hp, one_pow]

/-! ## The forward real transform -/

/-- The bins that the forward transform starts from. -/
def realBins (p : Nat) (x : List Word) : List Bin := (List.range (frameSize p)).map fun n => ⟨frameAt x n, posZero⟩

theorem exactInput_realBins (p : Nat) (x : List Word) (n : Nat) (hn : n < 2 ^ p) :
    exactInput (realBins p x) n = (toReal (frameAt x n) : ℂ) := by
  unfold exactInput realBins
  rw [binAt_map_range _ (frameSize p) n hn]
  apply Complex.ext
  · rfl
  · exact toReal_of_isZero posZero isZero_posZero

theorem forward_sum (p : Nat) (x : List Word) (k : Nat) :
    ∑ n ∈ Finset.range (2 ^ p), exactInput (realBins p x) n * stageRoot p false ^ (k * n) = ⟨dftRe p x k, dftIm p x k⟩ := by
  have h : ∀ n ∈ Finset.range (2 ^ p), exactInput (realBins p x) n * stageRoot p false ^ (k * n)
      = ⟨toReal (frameAt x n) * Real.cos (turnAngle p (k * n)), -(toReal (frameAt x n) * Real.sin (turnAngle p (k * n)))⟩ := by
    intro n hn
    rw [exactInput_realBins p x n (Finset.mem_range.1 hn), stageRoot_pow]
    apply Complex.ext <;> simp
  rw [Finset.sum_congr rfl h]
  apply Complex.ext
  · rw [Complex.re_sum]
    rfl
  · rw [Complex.im_sum]
    simp only [Finset.sum_neg_distrib]
    rfl

theorem radix2Rfft_length (p : Nat) (x : List Word) (hp : 2 ≤ p) : (radix2Rfft p x).length = numBinsOf p := by
  have h4 : 4 ≤ 2 ^ p := by
    calc 4 = 2 ^ 2 := rfl
      _ ≤ 2 ^ p := Nat.pow_le_pow_right (by norm_num) hp
  unfold radix2Rfft
  rw [List.length_take, cfft_eq, networkAt_length _ _ _ _ le_rfl]
  unfold numBinsOf frameSize
  omega

theorem radix2Rfft_at (p : Nat) (x : List Word) (k : Nat) (hk : k < numBinsOf p) :
    binAt (radix2Rfft p x) k = binAt (cfft p false (realBins p x)) k := by
  unfold binAt radix2Rfft realBins
  rw [List.getD_eq_getElem?_getD, List.getD_eq_getElem?_getD, List.getElem?_take_of_lt hk]

theorem numBinsOf_le (p : Nat) (hp : 2 ≤ p) : numBinsOf p ≤ 2 ^ p := by
  have h4 : 2 ^ 2 ≤ 2 ^ p := Nat.pow_le_pow_right (by norm_num) hp
  unfold numBinsOf frameSize
  omega

theorem realBins_l1 (p : Nat) (x : List Word) :
    ∑ n ∈ Finset.range (2 ^ p), ‖exactInput (realBins p x) n‖ = l1Frame p x := by
  refine Finset.sum_congr rfl fun n hn => ?_
  rw [exactInput_realBins p x n (Finset.mem_range.1 hn), Complex.norm_real, Real.norm_eq_abs]

/-- All N bins of a real frame are in range if the first half of them is: the others are their conjugates. -/
theorem forward_sum_le (p : Nat) (x : List Word) (hp : 2 ≤ p)
    (hr : ∀ k < numBinsOf p, |dftRe p x k| < 2 ^ 127 ∧ |dftIm p x k| < 2 ^ 127) (k : Nat) (hk : k < 2 ^ p) :
    ‖∑ n ∈ Finset.range (2 ^ p), exactInput (realBins p x) n * stageRoot p false ^ (k * n)‖ ≤ exactRange := by
  have hlow : ∀ k < numBinsOf p,
      ‖∑ n ∈ Finset.range (2 ^ p), exactInput (realBins p x) n * stageRoot p false ^ (k * n)‖ ≤ exactRange := by
    intro k hk
    rw [forward_sum]
    exact norm_le_of_components _ _ (hr k hk).1.le (hr k hk).2.le
  rcases Nat.lt_or_ge k (numBinsOf p) with h | h
  · exact hlow k h
  · have he : ∑ n ∈ Finset.range (2 ^ p), exactInput (realBins p x) n * stageRoot p false ^ (k * n)
        = (starRingEnd ℂ) (∑ n ∈ Finset.range (2 ^ p), exactInput (realBins p x) n * stageRoot p false ^ ((2 ^ p - k) * n)) := by
      rw [map_sum]
      refine Finset.sum_congr rfl fun n hn => ?_
      have hr : (starRingEnd ℂ) (exactInput (realBins p x) n) = exactInput (realBins p x) n := by
        rw [exactInput_realBins p x n (Finset.mem_range.1 hn), Complex.conj_ofReal]
      rw [map_mul, hr, stageRoot_mirror p false hp k n hk.le, Complex.conj_conj]
    rw [he, RCLike.norm_conj]
    refine hlow _ ?_
    unfold numBinsOf frameSize at h ⊢
    omega

/-- Values in range have a sum of magnitudes in range: every input of the network is the mean of its outputs. -/
theorem l1Frame_le_range (p : Nat) (x : List Word) (hp : 2 ≤ p) (hp10 : p ≤ 10)
    (hX : ∀ k < 2 ^ p, ‖∑ n ∈ Finset.range (2 ^ p), exactInput (realBins p x) n * stageRoot p false ^ (k * n)‖ ≤ exactRange) :
    l1Frame p x ≤ 1024 * exactRange := by
  have he0 : 0 ≤ exactRange := by
    unfold exactRange
    positivity
  rw [← realBins_l1, ← blockL1_last]
  refine (blockL1_le_pow p _ exactRange (fun g hg => ?_) p le_rfl 0 (by simp)).trans
    (mul_le_mul_of_nonneg_right ?_ he0)
  · have := norm_blockSum_le_of_last p _ _ (norm_stageRoot p false) (stageRoot_half p false hp) exactRange
      (fun k hk => by rw [blockSum_last]; exact hX k hk) 0 (Nat.zero_le _) g 0 hg (by simp)
    rwa [blockSum_zero, ← blockL1_zero] at this
  · have : (2 : ℝ) ^ p ≤ 2 ^ 10 := pow_le_pow_right₀ (by norm_num) hp10
    exact this.trans_eq (by norm_num)

/-- The tolerances that the rounding analysis of the butterflies gives: 2^-16 for the transforms. -/
noncomputable def radix2Tolerances : Tolerances where
  fft := 1 / 2 ^ 16
  trig := defaultTolTrig
  fft_pos := by positivity
  trig_pos := Tolerances.default.trig_pos

/-- P3 of NUM_RADIX2, forward, for frame sizes from 4 to 1024. -/
theorem radix2_rfft_close (p : Nat) (x : List Word) (hp : 2 ≤ p) (hp10 : p ≤ 10) (hx : ForwardRange p x) (k : Nat)
    (hk : k < numBinsOf p) :
    binFinite (binAt (radix2Rfft p x) k) = true ∧
      |toReal (binAt (radix2Rfft p x) k).re - dftRe p x k| ≤ forwardBound p radix2Tolerances x ∧
      |toReal (binAt (radix2Rfft p x) k).im - dftIm p x k| ≤ forwardBound p radix2Tolerances x := by
  have hfin : ∀ b ∈ realBins p x, binFinite b = true := by
    intro b hb
    unfold realBins at hb
    rw [List.mem_map] at hb
    obtain ⟨n, -, rfl⟩ := hb
    exact (binFinite_iff _).2 ⟨frameAt_finite x hx.2.1 n, isFinite_of_isZero _ isZero_posZero⟩
  have hX := forward_sum_le p x hp hx.2.2
  have hL := l1Frame_le_range p x hp hp10 hX
  have hL0 := l1Frame_nonneg p x
  have hpr : (p : ℝ) ≤ 10 := by exact_mod_cast hp10
  have hpl : (p : ℝ) * l1Frame p x ≤ 10 * l1Frame p x := mul_le_mul_of_nonneg_right hpr hL0
  have hk2 := hk.trans_le (numBinsOf_le p hp)
  have f := cfft_finite p false (realBins p x) hp (by omega) hfin hX (by
    rw [realBins_l1, mul_assoc]
    norm_num
    linarith) k hk2
  have c := (cfft_near p false (realBins p x) hp (by omega) k hk2).both f
  rw [forward_sum, realBins_l1] at c
  rw [radix2Rfft_at p x k hk]
  have hb : 83 / 10 / 2 ^ 24 * p * l1Frame p x + 91 / 10 * 2 ^ p * (1 / 2 ^ 150) ≤ forwardBound p radix2Tolerances x := by
    have h1 := le_max_left (forwardLetter p radix2Tolerances x) (forwardSlack p)
    have h2 := le_max_right (forwardLetter p radix2Tolerances x) (forwardSlack p)
    have h3 : forwardLetter p radix2Tolerances x = 1 / 2 ^ 16 * l1Frame p x := rfl
    have h4 : forwardSlack p = 16 * (2 ^ p * (1 / 2 ^ 150)) := by
      unfold forwardSlack frameSize
      push_cast
      ring
    have h5 : (0 : ℝ) ≤ 2 ^ p * (1 / 2 ^ 150) := by positivity
    unfold forwardBound
    rw [h3, h4] at h1 h2 ⊢
    rw [mul_assoc, mul_assoc (91 / 10 : ℝ)]
    generalize max (1 / 2 ^ 16 * l1Frame p x) (16 * (2 ^ p * (1 / 2 ^ 150))) = m at *
    generalize (2 : ℝ) ^ p * (1 / 2 ^ 150) = y at *
    norm_num at *
    linarith
  have hc := c.trans hb
  exact ⟨f, (Complex.abs_re_le_norm _).trans hc, (Complex.abs_im_le_norm _).trans hc⟩

/-! ## The inverse real transform -/

/-- The conjugate extension of a spectrum (R150). -/
def extension (p : Nat) (s : List Bin) : List Bin :=
  (List.range (frameSize p)).map fun k =>
    if k ≤ frameSize p / 2 then binAt s k
    else ⟨(binAt s (frameSize p - k)).re, fneg (binAt s (frameSize p - k)).im⟩

theorem radix2Irfft_eq (p : Nat) (s : List Bin) :
    radix2Irfft p s = (cfft p true (extension p s)).map fun b => fmul b.re (invFrameSize p) := rfl

theorem exactInput_extension (p : Nat) (s : List Bin) (k : Nat) (hk : k < 2 ^ p) :
    exactInput (extension p s) k =
      if k ≤ 2 ^ p / 2 then cval (binAt s k) else (starRingEnd ℂ) (cval (binAt s (2 ^ p - k))) := by
  unfold exactInput extension
  rw [binAt_map_range _ (frameSize p) k hk]
  unfold frameSize
  split
  · rfl
  · apply Complex.ext
    · rfl
    · exact toReal_fneg _

theorem sum_mirror {M : Type} [AddCommMonoid M] (f : Nat → M) (h : Nat) (hh : 1 ≤ h) :
    ∑ k ∈ Finset.range (2 * h), f k = f 0 + f h + ∑ j ∈ Finset.range (h - 1), (f (j + 1) + f (2 * h - (j + 1))) := by
  obtain ⟨m, rfl⟩ : ∃ m, h = m + 1 := ⟨h - 1, by omega⟩
  rw [Nat.add_sub_cancel, Finset.sum_add_distrib, show 2 * (m + 1) = (m + 1 + 1) + m by ring, Finset.sum_range_add,
    Finset.sum_range_succ, Finset.sum_range_succ', ← Finset.sum_range_reflect (fun x => f (m + 1 + 1 + x))]
  have : ∀ j ∈ Finset.range m, f (m + 1 + 1 + (m - 1 - j)) = f (m + 1 + 1 + m - (j + 1)) := by
    intro j hj
    rw [Finset.mem_range] at hj
    congr 1
    omega
  rw [Finset.sum_congr rfl this]
  abel

theorem spectrum_sum (g : Nat → ℝ) (h : Nat) (hh : 1 ≤ h) :
    ∑ k ∈ Finset.range (h + 1), g k = g 0 + g h + ∑ j ∈ Finset.range (h - 1), g (j + 1) := by
  obtain ⟨m, rfl⟩ : ∃ m, h = m + 1 := ⟨h - 1, by omega⟩
  rw [Nat.add_sub_cancel, Finset.sum_range_succ, Finset.sum_range_succ']
  ring

theorem half_pow (p : Nat) (hp : 2 ≤ p) : 2 ^ p = 2 * 2 ^ (p - 1) := by
  rw [← pow_succ']
  congr 1
  omega

theorem norm_cval_le (b : Bin) : ‖cval b‖ ≤ |toReal b.re| + |toReal b.im| := Complex.norm_le_abs_re_add_abs_im (cval b)

theorem extension_l1 (p : Nat) (s : List Bin) (hp : 2 ≤ p) :
    ∑ k ∈ Finset.range (2 ^ p), ‖exactInput (extension p s) k‖ ≤ 2 * l1Spectrum p s := by
  have hh : 1 ≤ 2 ^ (p - 1) := Nat.one_le_two_pow
  have hN := half_pow p hp
  have hdiv : 2 ^ p / 2 = 2 ^ (p - 1) := by omega
  have hnum : numBinsOf p = 2 ^ (p - 1) + 1 := by
    unfold numBinsOf frameSize
    omega
  have hlow : ∀ k, k ≤ 2 ^ (p - 1) →
      ‖exactInput (extension p s) k‖ ≤ |toReal (binAt s k).re| + |toReal (binAt s k).im| := by
    intro k hk
    rw [exactInput_extension p s k (by omega), hdiv, if_pos hk]
    exact norm_cval_le _
  have hhigh : ∀ j, j < 2 ^ (p - 1) - 1 → ‖exactInput (extension p s) (2 * 2 ^ (p - 1) - (j + 1))‖
      ≤ |toReal (binAt s (j + 1)).re| + |toReal (binAt s (j + 1)).im| := by
    intro j hj
    rw [exactInput_extension p s _ (by omega), hdiv, if_neg (by omega), RCLike.norm_conj, hN,
      show 2 * 2 ^ (p - 1) - (2 * 2 ^ (p - 1) - (j + 1)) = j + 1 by omega]
    exact norm_cval_le _
  unfold l1Spectrum
  rw [hnum, spectrum_sum _ _ hh, hN, sum_mirror _ _ hh]
  have h0 := hlow 0 (Nat.zero_le _)
  have hm := hlow _ le_rfl
  have hs := Finset.sum_le_sum fun j (hj : j ∈ Finset.range (2 ^ (p - 1) - 1)) =>
    add_le_add (hlow (j + 1) (by rw [Finset.mem_range] at hj; omega)) (hhigh j (Finset.mem_range.1 hj))
  rw [Finset.sum_add_distrib (f := fun j => |toReal (binAt s (j + 1)).re| + |toReal (binAt s (j + 1)).im|)] at hs
  have a0 := abs_nonneg (toReal (binAt s 0).re)
  have a1 := abs_nonneg (toReal (binAt s 0).im)
  have a2 := abs_nonneg (toReal (binAt s (2 ^ (p - 1))).re)
  have a3 := abs_nonneg (toReal (binAt s (2 ^ (p - 1))).im)
  linarith

/-- The real part of the inverse sum is N times the sample (R144): the conjugate halves add up, the imaginary parts of the two
real bins do not enter (R145). -/
theorem inverse_sum (p : Nat) (s : List Bin) (n : Nat) (hp : 2 ≤ p) :
    (∑ k ∈ Finset.range (2 ^ p), exactInput (extension p s) k * stageRoot p true ^ (n * k)).re
      = frameSize p * idft p s n := by
  have hh : 1 ≤ 2 ^ (p - 1) := Nat.one_le_two_pow
  have hN := half_pow p hp
  have hdiv : 2 ^ p / 2 = 2 ^ (p - 1) := by omega
  have hlow : ∀ k, k ≤ 2 ^ (p - 1) → exactInput (extension p s) k = cval (binAt s k) := by
    intro k hk
    rw [exactInput_extension p s k (by omega), hdiv, if_pos hk]
  have hhigh : ∀ j, j < 2 ^ (p - 1) - 1 →
      exactInput (extension p s) (2 * 2 ^ (p - 1) - (j + 1)) * stageRoot p true ^ (n * (2 * 2 ^ (p - 1) - (j + 1)))
        = (starRingEnd ℂ) (cval (binAt s (j + 1)) * stageRoot p true ^ (n * (j + 1))) := by
    intro j hj
    have hm := stageRoot_mirror p true hp (j + 1) n (by omega)
    rw [mul_comm (2 ^ p - (j + 1)), mul_comm (j + 1), hN] at hm
    rw [exactInput_extension p s _ (by omega), hdiv, if_neg (by omega), hN,
      show 2 * 2 ^ (p - 1) - (2 * 2 ^ (p - 1) - (j + 1)) = j + 1 by omega, hm, map_mul]
  have hNr : (frameSize p : ℝ) ≠ 0 := by
    unfold frameSize
    positivity
  unfold idft realIrfft
  rw [mul_div_cancel₀ _ hNr, show frameSize p / 2 = 2 ^ (p - 1) from hdiv]
  rw [hN, sum_mirror _ _ hh, Finset.sum_congr rfl fun j hj => by
    rw [hhigh j (Finset.mem_range.1 hj), hlow (j + 1) (by rw [Finset.mem_range] at hj; omega), Complex.add_conj]]
  rw [hlow 0 (Nat.zero_le _), hlow _ le_rfl, Nat.mul_zero, pow_zero, mul_one, mul_comm n, pow_mul, stageRoot_half p true hp]
  rw [Complex.add_re, Complex.add_re, Complex.re_sum, Finset.mul_sum]
  refine congr_arg₂ (· + ·) (congr_arg₂ (· + ·) rfl ?_) (Finset.sum_congr rfl fun j _ => ?_)
  · rcases Nat.even_or_odd n with h | h
    · rw [h.neg_one_pow, h.neg_one_pow, mul_one, one_mul]
      rfl
    · rw [h.neg_one_pow, h.neg_one_pow, mul_neg_one, neg_one_mul]
      rfl
  · rw [Complex.ofReal_re, Complex.mul_re, stageRoot_pow, mul_comm n]
    simp [cval]

/-- `INV_N` is exact (R150). -/
theorem invFrameSize_exact (p : Nat) (hp : 2 ≤ p) (hp31 : p ≤ 31) :
    isFinite (invFrameSize p) = true ∧ toReal (invFrameSize p) = 1 / frameSize p := by
  have h : isFinite (invFrameSize p) = true ∧ units (invFrameSize p) * 2 ^ p = 2 ^ 149 := by
    interval_cases p <;> decide +kernel
  refine ⟨h.1, ?_⟩
  have h2 : (units (invFrameSize p) : ℝ) * 2 ^ p = 2 ^ 149 := by exact_mod_cast h.2
  unfold toReal frameSize
  push_cast
  rw [div_eq_div_iff (by positivity) (by positivity), one_mul]
  exact h2

theorem extension_finite (p : Nat) (s : List Bin) (hs : ∀ b ∈ s, binFinite b = true) :
    ∀ b ∈ extension p s, binFinite b = true := by
  intro b hb
  unfold extension at hb
  rw [List.mem_map] at hb
  obtain ⟨k, -, rfl⟩ := hb
  split
  · exact binAt_finite s hs k
  · obtain ⟨h1, h2⟩ := (binFinite_iff _).1 (binAt_finite s hs (frameSize p - k))
    exact (binFinite_iff _).2 ⟨h1, by rw [isFinite_fneg]; exact h2⟩

theorem radix2Irfft_at (p : Nat) (s : List Bin) (n : Nat) (hn : n < frameSize p) :
    frameAt (radix2Irfft p s) n = fmul (binAt (cfft p true (extension p s)) n).re (invFrameSize p) := by
  rw [radix2Irfft_eq]
  unfold frameAt binAt
  have hlen : n < (cfft p true (extension p s)).length := by
    rw [cfft_eq, networkAt_length _ _ _ _ le_rfl]
    exact hn
  rw [List.getD_eq_getElem?_getD, List.getD_eq_getElem?_getD, List.getElem?_map, List.getElem?_eq_getElem hlen]
  rfl

/-- The error of a sample of the inverse of NUM_RADIX2 that is finite, whatever the size of the values on the way. -/
theorem radix2_irfft_error (p : Nat) (s : List Bin) (hp : 2 ≤ p) (hp31 : p ≤ 31) (n : Nat) (hn : n < frameSize p)
    (hf : isFinite (frameAt (radix2Irfft p s) n) = true) :
    |toReal (frameAt (radix2Irfft p s) n) - idft p s n|
      ≤ (83 / 10 * p + 101 / 100) / 2 ^ 24 * (2 / frameSize p * l1Spectrum p s) + 102 / 10 * (1 / 2 ^ 150) := by
  rw [radix2Irfft_at p s n hn] at hf ⊢
  have fr := (operands_of_fmul_finite _ _ hf).1
  have hre := (cfft_near p true (extension p s) hp hp31 n hn).re fr
  rw [inverse_sum p s n hp] at hre
  have cm := fmul_error _ _ hf
  have ei := (invFrameSize_exact p hp hp31).2
  have hN : (4 : ℝ) ≤ frameSize p := by
    have : 2 ^ 2 ≤ 2 ^ p := Nat.pow_le_pow_right (by norm_num) hp
    unfold frameSize
    exact_mod_cast this
  have hNp : (0 : ℝ) < frameSize p := by linarith
  have hidft := idft_le p s n hp
  generalize (binAt (cfft p true (extension p s)) n).re = r at hre cm ⊢
  -- the value before the last rounding
  have hv : |toReal r * toReal (invFrameSize p) - idft p s n|
      ≤ 83 / 10 / 2 ^ 24 * (p * (2 / frameSize p * l1Spectrum p s)) + 91 / 10 * (1 / 2 ^ 150) := by
    have e : toReal r * toReal (invFrameSize p) - idft p s n = (toReal r - frameSize p * idft p s n) / frameSize p := by
      rw [ei]
      field_simp
    rw [e, abs_div, abs_of_pos hNp, div_le_iff₀ hNp]
    refine hre.trans ((add_le_add (mul_le_mul_of_nonneg_left (extension_l1 p s hp) (by positivity)) le_rfl).trans_eq ?_)
    have : (2 : ℝ) ^ p = frameSize p := by
      unfold frameSize
      push_cast
      rfl
    rw [this]
    field_simp
  have hq : 0 ≤ 2 / (frameSize p : ℝ) * l1Spectrum p s := mul_nonneg (by positivity) (l1Spectrum_nonneg p s)
  generalize 2 / (frameSize p : ℝ) * l1Spectrum p s = q at *
  have hpr : (p : ℝ) ≤ 31 := by exact_mod_cast hp31
  have hpq : (p : ℝ) * q ≤ 31 * q := mul_le_mul_of_nonneg_right hpr hq
  have hval : |toReal r * toReal (invFrameSize p)| ≤ |idft p s n|
      + |toReal r * toReal (invFrameSize p) - idft p s n| := by
    have := abs_add_le (idft p s n) (toReal r * toReal (invFrameSize p) - idft p s n)
    rwa [add_sub_cancel] at this
  have h3 := abs_add_le (toReal (fmul r (invFrameSize p)) - toReal r * toReal (invFrameSize p))
    (toReal r * toReal (invFrameSize p) - idft p s n)
  rw [sub_add_sub_cancel] at h3
  have h151 : (0 : ℝ) ≤ 1 / 2 ^ 150 := by positivity
  rw [show (83 / 10 * (p : ℝ) + 101 / 100) / 2 ^ 24 * q = 83 / 10 / 2 ^ 24 * (p * q) + 101 / 100 / 2 ^ 24 * q by ring]
  generalize (1 : ℝ) / 2 ^ 150 = h at *
  generalize (p : ℝ) * q = y at *
  norm_num at *
  linarith

/-- The finite samples of the inverse of NUM_RADIX2, for frame sizes from 4 to 1024. -/
theorem radix2_irfft_close (p : Nat) (s : List Bin) (hp : 2 ≤ p) (hp10 : p ≤ 10) (n : Nat) (hn : n < frameSize p)
    (hf : isFinite (frameAt (radix2Irfft p s) n) = true) :
    |toReal (frameAt (radix2Irfft p s) n) - idft p s n| ≤ inverseBound p radix2Tolerances s := by
  refine (radix2_irfft_error p s hp (by omega) n hn hf).trans ?_
  have h1 := le_max_left (inverseLetter p radix2Tolerances s) inverseSlack
  have h2 := le_max_right (inverseLetter p radix2Tolerances s) inverseSlack
  have h3 : inverseLetter p radix2Tolerances s
      = 1 / 2 ^ 16 * (2 / frameSize p * l1Spectrum p s) := mul_assoc _ _ _
  have h4 : inverseSlack = 16 * (1 / 2 ^ 150) := by
    unfold inverseSlack
    norm_num
  have hq : 0 ≤ 2 / (frameSize p : ℝ) * l1Spectrum p s := mul_nonneg (by positivity) (l1Spectrum_nonneg p s)
  unfold inverseBound
  rw [h3, h4] at h1 h2 ⊢
  generalize 2 / (frameSize p : ℝ) * l1Spectrum p s = q at *
  have hpr : (p : ℝ) ≤ 10 := by exact_mod_cast hp10
  have hpq : (p : ℝ) * q ≤ 10 * q := mul_le_mul_of_nonneg_right hpr hq
  rw [show (83 / 10 * (p : ℝ) + 101 / 100) / 2 ^ 24 * q = 83 / 10 / 2 ^ 24 * (p * q) + 101 / 100 / 2 ^ 24 * q by ring]
  have h151 : (0 : ℝ) ≤ 1 / 2 ^ 150 := by positivity
  generalize max (1 / 2 ^ 16 * q) (16 * (1 / 2 ^ 150)) = m at *
  generalize (1 : ℝ) / 2 ^ 150 = h at *
  generalize (p : ℝ) * q = y at *
  norm_num at *
  linarith

/-- A sufficient condition for the inverse of NUM_RADIX2 to be finite (log 20). -/
theorem radix2_irfft_finite (p : Nat) (s : List Bin) (hp : 2 ≤ p) (hp31 : p ≤ 31) (hs : ∀ b ∈ s, binFinite b = true)
    (hl : l1Spectrum p s ≤ 2 ^ 126) (n : Nat) (hn : n < frameSize p) : isFinite (frameAt (radix2Irfft p s) n) = true := by
  have hl1 := extension_l1 p s hp
  have hrange : 2 * l1Spectrum p s ≤ exactRange := by
    unfold exactRange
    norm_num at *
    linarith
  have hX : ∀ k < 2 ^ p,
      ‖∑ n ∈ Finset.range (2 ^ p), exactInput (extension p s) n * stageRoot p true ^ (k * n)‖ ≤ 2 * l1Spectrum p s := by
    intro k _
    refine (norm_sum_le _ _).trans (le_trans (Finset.sum_le_sum fun m _ => ?_) hl1)
    rw [norm_mul, norm_pow, norm_stageRoot, one_pow, mul_one]
  have hpr : (p : ℝ) ≤ 31 := by exact_mod_cast hp31
  have hl0 : 0 ≤ ∑ n ∈ Finset.range (2 ^ p), ‖exactInput (extension p s) n‖ := Finset.sum_nonneg fun _ _ => norm_nonneg _
  have hpl := mul_le_mul_of_nonneg_right hpr hl0
  have f := cfft_finite p true (extension p s) hp hp31 (extension_finite p s hs) (fun k hk => (hX k hk).trans hrange) (by
    rw [mul_assoc]
    unfold exactRange
    norm_num at *
    linarith) n hn
  have c := (cfft_near p true (extension p s) hp hp31 n hn).both f
  have hb : 83 / 10 / 2 ^ 24 * p * (∑ n ∈ Finset.range (2 ^ p), ‖exactInput (extension p s) n‖)
      + 91 / 10 * 2 ^ p * (1 / 2 ^ 150) ≤ 2 ^ 127 := by
    have h1 : (2 : ℝ) ^ p ≤ 2 ^ 31 := pow_le_pow_right₀ (by norm_num) hp31
    have h2 : 91 / 10 * (2 : ℝ) ^ p * (1 / 2 ^ 150) ≤ 91 / 10 * 2 ^ 31 * (1 / 2 ^ 150) := by gcongr
    rw [mul_assoc (83 / 10 / 2 ^ 24 : ℝ)]
    norm_num at *
    linarith
  have hr := (Complex.abs_re_le_norm _).trans (norm_le_of_near (c.trans hb) (hX n hn))
  obtain ⟨fi, ei⟩ := invFrameSize_exact p hp hp31
  rw [radix2Irfft_at p s n hn]
  refine fmul_finite _ _ ((binFinite_iff _).1 f).1 fi ?_
  have hN : (4 : ℝ) ≤ frameSize p := by
    have : 2 ^ 2 ≤ 2 ^ p := Nat.pow_le_pow_right (by norm_num) hp
    unfold frameSize
    exact_mod_cast this
  rw [ei, abs_mul, abs_of_pos (by positivity : (0 : ℝ) < 1 / frameSize p), mul_one_div, div_le_iff₀ (by linarith)]
  change |(cval (binAt (cfft p true (extension p s)) n)).re| ≤ _
  have h4 : (3 * 2 ^ 126 * 4 : ℝ) ≤ 3 * 2 ^ 126 * frameSize p := mul_le_mul_of_nonneg_left hN (by positivity)
  norm_num at *
  linarith

/-! ## Zeros (P2) -/

/-- A finite word below half the smallest subnormal is a zero. -/
theorem isZero_of_small (w : Word) (h : |toReal w| ≤ 1 / 2 ^ 150) : isZero w = true := by
  by_contra hz
  have hne := units_ne_zero w (by simpa using hz)
  have h1 : (1 : ℝ) ≤ |(units w : ℝ)| := by
    rw [← Int.cast_abs]
    exact_mod_cast Int.one_le_abs hne
  unfold toReal at h
  rw [abs_div, abs_of_pos (by positivity : (0 : ℝ) < 2 ^ 149), div_le_iff₀ (by positivity)] at h
  norm_num at h
  linarith

theorem fmul_isZero (a b : Word) (ha : isZero a = true) (hb : isFinite b = true) : isZero (fmul a b) = true := by
  have h := fmul_error a b (fmul_finite a b (isFinite_of_isZero a ha) hb (by rw [toReal_of_isZero a ha]; simp))
  rw [toReal_of_isZero a ha, zero_mul, sub_zero, abs_zero, zero_div, zero_add] at h
  exact isZero_of_small _ h

theorem fadd_isZero (a b : Word) (ha : isZero a = true) (hb : isZero b = true) : isZero (fadd a b) = true := by
  have h := fadd_error a b (fadd_finite a b (isFinite_of_isZero a ha) (isFinite_of_isZero b hb)
    (by rw [toReal_of_isZero a ha, toReal_of_isZero b hb]; simp))
  rw [toReal_of_isZero a ha, toReal_of_isZero b hb, add_zero, sub_zero, abs_zero, zero_div, zero_add] at h
  exact isZero_of_small _ h

theorem fsub_isZero (a b : Word) (ha : isZero a = true) (hb : isZero b = true) : isZero (fsub a b) = true := by
  have h := fsub_error a b (fsub_finite a b (isFinite_of_isZero a ha) (isFinite_of_isZero b hb)
    (by rw [toReal_of_isZero a ha, toReal_of_isZero b hb]; simp))
  rw [toReal_of_isZero a ha, toReal_of_isZero b hb, sub_zero, sub_zero, abs_zero, zero_div, zero_add] at h
  exact isZero_of_small _ h

theorem twiddled_zero (w b : Bin) (hw : binFinite w = true) (hb : binZero b = true) : binZero (twiddled w b) = true := by
  obtain ⟨h1, h2⟩ := (binZero_iff b).1 hb
  obtain ⟨f1, f2⟩ := (binFinite_iff w).1 hw
  exact (binZero_iff _).2 ⟨fsub_isZero _ _ (fmul_isZero _ _ h1 f1) (fmul_isZero _ _ h2 f2),
    fadd_isZero _ _ (fmul_isZero _ _ h1 f2) (fmul_isZero _ _ h2 f1)⟩

theorem butterfly_zero (w a b : Bin) (hw : binFinite w = true) (ha : binZero a = true) (hb : binZero b = true) :
    binZero (upper w a b) = true ∧ binZero (lower w a b) = true := by
  obtain ⟨h1, h2⟩ := (binZero_iff a).1 ha
  obtain ⟨h3, h4⟩ := (binZero_iff _).1 (twiddled_zero w b hw hb)
  exact ⟨(binZero_iff _).2 ⟨fadd_isZero _ _ h1 h3, fadd_isZero _ _ h2 h4⟩,
    (binZero_iff _).2 ⟨fsub_isZero _ _ h1 h3, fsub_isZero _ _ h2 h4⟩⟩

theorem network_zero (p : Nat) (inverse : Bool) (v : List Bin) (hp : 2 ≤ p) (hv : ∀ b ∈ v, binZero b = true) (s : Nat)
    (hs : s ≤ p) (g j : Nat) (hg : g < 2 ^ (p - s)) (hj : j < 2 ^ s) :
    binZero (binAt (networkAt p inverse v s) (2 ^ s * g + j)) = true :=
  network_induction p inverse v (fun _ _ _ b => binZero b = true) (fun _ _ => binAt_zero v hv _)
    (fun s _ i _ _ hs _ _ ha hb => butterfly_zero _ _ _ (stageTwiddle_near p s i inverse hp hs).finite ha hb) s hs g j hg hj

theorem cfft_zero (p : Nat) (inverse : Bool) (v : List Bin) (hp : 2 ≤ p) (hv : ∀ b ∈ v, binZero b = true) (b : Bin)
    (hb : b ∈ cfft p inverse v) : binZero b = true := by
  rw [cfft_eq] at hb
  obtain ⟨k, hk, rfl⟩ := List.mem_iff_getElem.1 hb
  have hlen := networkAt_length p inverse v p le_rfl
  have h := network_zero p inverse v hp hv p le_rfl 0 k (by simp) (by rw [hlen] at hk; exact hk)
  rw [Nat.mul_zero, Nat.zero_add] at h
  unfold binAt at h
  rwa [List.getD_eq_getElem?_getD, List.getElem?_eq_getElem hk] at h

theorem radix2_rfft_zero (p : Nat) (x : List Word) (hp : 2 ≤ p) (h : ∀ w ∈ x, isZero w = true) (b : Bin)
    (hb : b ∈ radix2Rfft p x) : binZero b = true := by
  refine cfft_zero p false (realBins p x) hp (fun c hc => ?_) b (List.mem_of_mem_take hb)
  unfold realBins at hc
  rw [List.mem_map] at hc
  obtain ⟨n, -, rfl⟩ := hc
  exact (binZero_iff _).2 ⟨frameAt_zero x h n, isZero_posZero⟩

theorem radix2_irfft_zero (p : Nat) (s : List Bin) (hp : 2 ≤ p) (hp31 : p ≤ 31) (h : ∀ b ∈ s, binZero b = true) (w : Word)
    (hw : w ∈ radix2Irfft p s) : isZero w = true := by
  rw [radix2Irfft_eq, List.mem_map] at hw
  obtain ⟨b, hb, rfl⟩ := hw
  refine fmul_isZero _ _ ((binZero_iff _).1 (cfft_zero p true (extension p s) hp (fun c hc => ?_) b hb)).1
    (invFrameSize_exact p hp hp31).1
  unfold extension at hc
  rw [List.mem_map] at hc
  obtain ⟨k, -, rfl⟩ := hc
  split
  · exact binAt_zero s h k
  · obtain ⟨h1, h2⟩ := (binZero_iff _).1 (binAt_zero s h (frameSize p - k))
    refine (binZero_iff _).2 ⟨h1, ?_⟩
    unfold isZero at h2 ⊢
    rwa [absBits_fneg]

/-! ## NUM_RADIX2 -/

/-- NUM_RADIX2 has the properties of R231 for frame sizes from 4 to 1024. -/
theorem numRadix2_admissible (p : Nat) (hp : 2 ≤ p) (hp10 : p ≤ 10) : numRadix2.Admissible p radix2Tolerances :=
  idealTrig_admissible p radix2Tolerances le_rfl radix2Rfft radix2Irfft
    (fun x => radix2Rfft_length p x hp)
    (fun s => by rw [radix2Irfft_eq, List.length_map, cfft_eq, networkAt_length _ _ _ _ le_rfl])
    (fun x => radix2_rfft_zero p x hp) (fun s => radix2_irfft_zero p s hp (by omega))
    (fun x hx k hk => by
      obtain ⟨f, c1, c2⟩ := radix2_rfft_close p x hp hp10 hx k hk
      obtain ⟨f1, f2⟩ := (binFinite_iff _).1 f
      exact ⟨close_of_named (.inr rfl) f1 c1, close_of_named (.inr rfl) f2 c2⟩)
    (fun s _ n hn => by
      by_cases f : isFinite (frameAt (radix2Irfft p s) n) = true
      · exact .inl (close_of_named (.inr rfl) f (radix2_irfft_close p s hp hp10 n hn f))
      · exact .inr ⟨Bool.not_eq_true _ ▸ f, rfl⟩)

end Sys2Proof.Machine
end

