-- ==== Sys2Proof/Laws/Letter.lean ====
section
/-! SUPPORT. What P3 gives of an admissible NUM, and why it is not asked to the letter everywhere (log 8): with a tolerance below
1 the letter is a property that no record of functions on binary32 has, so neither of the instances that 42_transform.md R148
names. -/

namespace Sys2Proof.Machine

/-! ## What P3 gives -/

section
variable {w r : Word} {v bound slack : ℝ}

theorem Within.mono {b : ℝ} (h : Within w v bound) (hb : bound ≤ b) : Within w v b := ⟨h.1, h.2.trans hb⟩

/-- What P3 gives of any component: it is within the larger of the bound and the slack. -/
theorem Close.within_max (h : Close w r v bound slack) : Within w v (max bound slack) := by
  rcases h with h | ⟨-, h⟩
  · exact h.mono (le_max_left _ _)
  · exact h.mono (le_max_right _ _)

/-- Where the word of NUM_RADIX2 is within the bound, P3 asks the letter: NUM_IDEAL, the nearest word, is within it too. -/
theorem Close.within_bound (h : Close w r v bound slack) (hv : |v| < 2 ^ 127) (hr : Within r v bound) : Within w v bound := by
  rcases h with h | ⟨rfl | rfl, h⟩
  · exact h
  · exact ⟨h.1, (rnReal_nearest v h.1 r).trans hr.2⟩
  · exact hr

end

section
variable {num : Numerics} {p : Nat} {tol : Tolerances} (h : num.Admissible p tol)
include h

theorem Numerics.Admissible.forward_within {x : List Word} (hx : ForwardRange p x) {k : Nat} (hk : k < numBinsOf p) :
    Within (binAt (num.rfft p x) k).re (dftRe p x k) (forwardBound p tol x) ∧
      Within (binAt (num.rfft p x) k).im (dftIm p x k) (forwardBound p tol x) :=
  ⟨(h.rfft_close x hx k hk).1.within_max, (h.rfft_close x hx k hk).2.within_max⟩

theorem Numerics.Admissible.inverse_within {s : List Bin} (hs : InverseRange p s) {n : Nat} (hn : n < frameSize p)
    (hf : isFinite (frameAt (num.irfft p s) n) = true) :
    Within (frameAt (num.irfft p s) n) (idft p s n) (inverseBound p tol s) := by
  rcases h.irfft_close s hs n hn with hc | ⟨hr, he⟩
  · exact hc.within_max
  · rw [he, hr] at hf
    exact absurd hf Bool.false_ne_true

/-- A frame on which NUM_RADIX2 meets the letter of P3 is one on which every admissible NUM does. -/
theorem Numerics.Admissible.meets_forward {x : List Word} (hx : ForwardRange p x) (hr : numRadix2.MeetsForward p tol x) :
    num.MeetsForward p tol x := fun k hk =>
  ⟨(h.rfft_close x hx k hk).1.within_bound (hx.2.2 k hk).1 (hr k hk).1,
    (h.rfft_close x hx k hk).2.within_bound (hx.2.2 k hk).2 (hr k hk).2⟩

/-- A sample on which NUM_RADIX2 meets the letter of P3 is one on which every admissible NUM does. -/
theorem Numerics.Admissible.meets_inverse {s : List Bin} (hs : InverseRange p s) {n : Nat} (hn : n < frameSize p)
    (hr : numRadix2.MeetsInverse p tol s n) : num.MeetsInverse p tol s n := by
  rcases h.irfft_close s hs n hn with hc | ⟨hf, -⟩
  · exact hc.within_bound (hs.2.2 n hn) hr
  · exact absurd (hr.1.symm.trans hf) (by decide)

end

/-! ## Why not to the letter everywhere -/

/-- The spectrum whose bin 1 is the smallest subnormal and whose other bins are zero. -/
def smallSpectrum (p : Nat) : List Bin :=
  (List.range (numBinsOf p)).map fun k => if k = 1 then ⟨0x00000001, posZero⟩ else ⟨posZero, posZero⟩

theorem toReal_posZero : toReal posZero = 0 := toReal_of_isZero posZero isZero_posZero

theorem toReal_least : toReal 0x00000001 = 1 / 2 ^ 149 := by
  have : units (0x00000001 : Word) = 1 := by decide
  unfold toReal
  rw [this, Int.cast_one]

theorem smallSpectrum_re (p k : Nat) (hk : k < numBinsOf p) :
    toReal (binAt (smallSpectrum p) k).re = if k = 1 then 1 / 2 ^ 149 else 0 := by
  unfold smallSpectrum
  rw [binAt_map_range _ _ _ hk]
  split
  · exact toReal_least
  · exact toReal_posZero

theorem smallSpectrum_im (p k : Nat) (hk : k < numBinsOf p) : toReal (binAt (smallSpectrum p) k).im = 0 := by
  unfold smallSpectrum
  rw [binAt_map_range _ _ _ hk]
  split <;> exact toReal_posZero

section
variable (p : Nat) (hp : 2 ≤ p)
include hp

theorem smallSpectrum_l1 : l1Spectrum p (smallSpectrum p) = 1 / 2 ^ 149 := by
  have h4 := four_le_frameSize p hp
  unfold l1Spectrum
  rw [Finset.sum_eq_single 1]
  · rw [smallSpectrum_re p 1 (by unfold numBinsOf; omega), smallSpectrum_im p 1 (by unfold numBinsOf; omega), if_pos rfl,
      abs_zero, add_zero, abs_of_pos (by positivity)]
  · intro k hk h1
    rw [Finset.mem_range] at hk
    rw [smallSpectrum_re p k hk, smallSpectrum_im p k hk, if_neg h1, abs_zero, add_zero]
  · intro h
    exact absurd (Finset.mem_range.2 (by unfold numBinsOf; omega)) h

theorem smallSpectrum_idft : idft p (smallSpectrum p) 0 = 2 / frameSize p / 2 ^ 149 := by
  have h4 := four_le_frameSize p hp
  have hin : ∀ k, k ≤ frameSize p / 2 → k < numBinsOf p := fun k hk => by unfold numBinsOf; omega
  unfold idft realIrfft
  beta_reduce
  rw [smallSpectrum_re p 0 (hin 0 (Nat.zero_le _)), smallSpectrum_re p _ (hin _ le_rfl), if_neg (by omega),
    if_neg (by omega), Finset.sum_eq_single 0]
  · rw [smallSpectrum_re p 1 (hin 1 (by omega)), smallSpectrum_im p 1 (hin 1 (by omega)), if_pos rfl]
    simp [turnAngle]
    ring
  · intro j hj h0
    rw [Finset.mem_range] at hj
    rw [smallSpectrum_re p _ (hin _ (by omega)), smallSpectrum_im p _ (hin _ (by omega)), if_neg (by omega)]
    simp
  · intro h
    exact absurd (Finset.mem_range.2 (by omega)) h

/-- The inverse half of P3 to the letter, on one sample of one spectrum, at a tolerance below 1: no word meets it. -/
theorem letter_unmet (tol : ℝ) (htol : tol < 1) (w : Word) :
    ¬ |toReal w - idft p (smallSpectrum p) 0| ≤ tol * (2 / frameSize p) * l1Spectrum p (smallSpectrum p) := by
  intro h
  have hN : (4 : ℝ) ≤ frameSize p := by exact_mod_cast four_le_frameSize p hp
  have hA : (0 : ℝ) < 2 ^ 149 := by positivity
  rw [smallSpectrum_idft p hp, smallSpectrum_l1 p hp] at h
  unfold toReal at h
  rw [← sub_div, abs_div, abs_of_pos hA, mul_one_div, div_le_div_iff_of_pos_right hA] at h
  have hq0 : 0 < 2 / (frameSize p : ℝ) := by positivity
  have hq : 2 / (frameSize p : ℝ) ≤ 1 / 2 := by
    rw [div_le_div_iff₀ (by linarith) two_pos]
    linarith
  generalize 2 / (frameSize p : ℝ) = q at *
  have hlt : tol * q < q := by nlinarith
  rcases lt_trichotomy (units w) 0 with hn | hz | hpos
  · have : (units w : ℝ) ≤ -1 := by exact_mod_cast Int.le_sub_one_of_lt hn
    rw [abs_of_neg (by linarith)] at h
    linarith
  · rw [hz, Int.cast_zero, zero_sub, abs_neg, abs_of_pos hq0] at h
    linarith
  · have : (1 : ℝ) ≤ units w := by exact_mod_cast hpos
    rw [abs_of_pos (by linarith)] at h
    linarith

end

end Sys2Proof.Machine
end

