-- ==== Sys2Proof/Laws/State.lean ====
section
/-! SUPPORT. One lemma per field and per named operation on the state, each true by unfolding, so that no later proof
unfolds a record update. -/

namespace Sys2Proof.Machine

/-! ## The ring of a space -/

@[simp] theorem Memory.setRing_same (m : Memory) (sp : Space) (r : List Word) : (m.setRing sp r).ring sp = r := by
  cases sp <;> rfl

theorem Memory.setRing_other (m : Memory) (sp sp' : Space) (r : List Word) (h : sp' ≠ sp) :
    (m.setRing sp r).ring sp' = m.ring sp' := by
  cases sp <;> cases sp' <;> first | rfl | exact absurd rfl h

@[simp] theorem Memory.ring_inMain (m : Memory) : m.ring .inMain = m.inMain := rfl
@[simp] theorem Memory.ring_inAux (m : Memory) : m.ring .inAux = m.inAux := rfl
@[simp] theorem Memory.ring_out (m : Memory) : m.ring .out = m.out := rfl

/-! ## memWrite -/

section
variable (sp : Space) (i : Nat) (v : Word) (s : State)

@[simp] theorem memWrite_logN : (memWrite sp i v s).logN = s.logN := rfl
@[simp] theorem memWrite_mem : (memWrite sp i v s).mem = s.mem.setRing sp ((s.mem.ring sp).set i v) := rfl
@[simp] theorem memWrite_pos : (memWrite sp i v s).pos = s.pos := rfl
@[simp] theorem memWrite_hopCount : (memWrite sp i v s).hopCount = s.hopCount := rfl
@[simp] theorem memWrite_seq : (memWrite sp i v s).seq = s.seq := rfl
@[simp] theorem memWrite_valid : (memWrite sp i v s).valid = s.valid := rfl
@[simp] theorem memWrite_cmds : (memWrite sp i v s).cmds = s.cmds := rfl
@[simp] theorem memWrite_resps : (memWrite sp i v s).resps = s.resps := rfl

end

/-! ## The steps of a TICK -/

section
variable (main aux w : Word) (s : State)

@[simp] theorem inputWrite_logN : (inputWrite main aux s).logN = s.logN := rfl
@[simp] theorem inputWrite_inMain : (inputWrite main aux s).mem.inMain = s.mem.inMain.set s.pos main := rfl
@[simp] theorem inputWrite_inAux : (inputWrite main aux s).mem.inAux = s.mem.inAux.set s.pos aux := rfl
@[simp] theorem inputWrite_out : (inputWrite main aux s).mem.out = s.mem.out := rfl
@[simp] theorem inputWrite_pos : (inputWrite main aux s).pos = s.pos := rfl
@[simp] theorem inputWrite_hopCount : (inputWrite main aux s).hopCount = s.hopCount := rfl
@[simp] theorem inputWrite_seq : (inputWrite main aux s).seq = s.seq := rfl
@[simp] theorem inputWrite_valid : (inputWrite main aux s).valid = s.valid := rfl
@[simp] theorem inputWrite_cmds : (inputWrite main aux s).cmds = s.cmds := rfl
@[simp] theorem inputWrite_resps : (inputWrite main aux s).resps = s.resps := rfl

@[simp] theorem outputZero_logN : (outputZero s).logN = s.logN := rfl
@[simp] theorem outputZero_inMain : (outputZero s).mem.inMain = s.mem.inMain := rfl
@[simp] theorem outputZero_inAux : (outputZero s).mem.inAux = s.mem.inAux := rfl
@[simp] theorem outputZero_out : (outputZero s).mem.out = s.mem.out.set s.pos 0#32 := rfl
@[simp] theorem outputZero_pos : (outputZero s).pos = s.pos := rfl
@[simp] theorem outputZero_hopCount : (outputZero s).hopCount = s.hopCount := rfl
@[simp] theorem outputZero_seq : (outputZero s).seq = s.seq := rfl
@[simp] theorem outputZero_valid : (outputZero s).valid = s.valid := rfl
@[simp] theorem outputZero_cmds : (outputZero s).cmds = s.cmds := rfl
@[simp] theorem outputZero_resps : (outputZero s).resps = s.resps := rfl

@[simp] theorem advancePos_logN : (advancePos s).logN = s.logN := rfl
@[simp] theorem advancePos_mem : (advancePos s).mem = s.mem := rfl
@[simp] theorem advancePos_pos : (advancePos s).pos = (s.pos + 1) % s.frameSize := rfl
@[simp] theorem advancePos_hopCount : (advancePos s).hopCount = s.hopCount := rfl
@[simp] theorem advancePos_seq : (advancePos s).seq = s.seq := rfl
@[simp] theorem advancePos_valid : (advancePos s).valid = s.valid := rfl
@[simp] theorem advancePos_cmds : (advancePos s).cmds = s.cmds := rfl
@[simp] theorem advancePos_resps : (advancePos s).resps = s.resps := rfl

@[simp] theorem countHop_logN : (countHop s).logN = s.logN := rfl
@[simp] theorem countHop_mem : (countHop s).mem = s.mem := rfl
@[simp] theorem countHop_pos : (countHop s).pos = s.pos := rfl
@[simp] theorem countHop_hopCount : (countHop s).hopCount = s.hopCount + 1 := rfl
@[simp] theorem countHop_seq : (countHop s).seq = s.seq := rfl
@[simp] theorem countHop_valid : (countHop s).valid = s.valid := rfl
@[simp] theorem countHop_cmds : (countHop s).cmds = s.cmds := rfl
@[simp] theorem countHop_resps : (countHop s).resps = s.resps := rfl

@[simp] theorem enterFrameReady_logN : (enterFrameReady s).logN = s.logN := rfl
@[simp] theorem enterFrameReady_mem : (enterFrameReady s).mem = s.mem := rfl
@[simp] theorem enterFrameReady_pos : (enterFrameReady s).pos = s.pos := rfl
@[simp] theorem enterFrameReady_hopCount : (enterFrameReady s).hopCount = s.hopCount := rfl
@[simp] theorem enterFrameReady_seq : (enterFrameReady s).seq = .frameReady := rfl
@[simp] theorem enterFrameReady_valid : (enterFrameReady s).valid = s.valid := rfl
@[simp] theorem enterFrameReady_cmds : (enterFrameReady s).cmds = s.cmds := rfl
@[simp] theorem enterFrameReady_resps : (enterFrameReady s).resps = s.resps := rfl

@[simp] theorem returnIdle_logN : (returnIdle s).logN = s.logN := rfl
@[simp] theorem returnIdle_mem : (returnIdle s).mem = s.mem := rfl
@[simp] theorem returnIdle_pos : (returnIdle s).pos = s.pos := rfl
@[simp] theorem returnIdle_hopCount : (returnIdle s).hopCount = 0 := rfl
@[simp] theorem returnIdle_seq : (returnIdle s).seq = .idle := rfl
@[simp] theorem returnIdle_valid : (returnIdle s).valid = s.valid := rfl
@[simp] theorem returnIdle_cmds : (returnIdle s).cmds = s.cmds := rfl
@[simp] theorem returnIdle_resps : (returnIdle s).resps = s.resps := rfl

@[simp] theorem respond_logN : (respond w s).logN = s.logN := rfl
@[simp] theorem respond_mem : (respond w s).mem = s.mem := rfl
@[simp] theorem respond_pos : (respond w s).pos = s.pos := rfl
@[simp] theorem respond_hopCount : (respond w s).hopCount = s.hopCount := rfl
@[simp] theorem respond_seq : (respond w s).seq = s.seq := rfl
@[simp] theorem respond_valid : (respond w s).valid = s.valid := rfl
@[simp] theorem respond_cmds : (respond w s).cmds = s.cmds := rfl
@[simp] theorem respond_resps : (respond w s).resps = s.resps ++ [w] := rfl

@[simp] theorem resetState_logN : (resetState s).logN = s.logN := rfl
@[simp] theorem resetState_mem : (resetState s).mem = Memory.zero s.frameSize := rfl
@[simp] theorem resetState_pos : (resetState s).pos = 0 := rfl
@[simp] theorem resetState_hopCount : (resetState s).hopCount = 0 := rfl
@[simp] theorem resetState_seq : (resetState s).seq = .idle := rfl
@[simp] theorem resetState_valid : (resetState s).valid = true := rfl
@[simp] theorem resetState_cmds : (resetState s).cmds = s.cmds := rfl
@[simp] theorem resetState_resps : (resetState s).resps = s.resps := rfl

end

/-! ## FRAME -/

section
variable (num : Numerics) (cfg : Cfg) (y : List Word) (s : State)

@[simp] theorem overlapAdd_logN : (overlapAdd y s).logN = s.logN := rfl
@[simp] theorem overlapAdd_inMain : (overlapAdd y s).mem.inMain = s.mem.inMain := rfl
@[simp] theorem overlapAdd_inAux : (overlapAdd y s).mem.inAux = s.mem.inAux := rfl
@[simp] theorem overlapAdd_out : (overlapAdd y s).mem.out = (List.range s.frameSize).map (overlapAddAt y s) := rfl
@[simp] theorem overlapAdd_pos : (overlapAdd y s).pos = s.pos := rfl
@[simp] theorem overlapAdd_hopCount : (overlapAdd y s).hopCount = s.hopCount := rfl
@[simp] theorem overlapAdd_seq : (overlapAdd y s).seq = s.seq := rfl
@[simp] theorem overlapAdd_valid : (overlapAdd y s).valid = s.valid := rfl
@[simp] theorem overlapAdd_cmds : (overlapAdd y s).cmds = s.cmds := rfl
@[simp] theorem overlapAdd_resps : (overlapAdd y s).resps = s.resps := rfl

@[simp] theorem frame_logN : (frame num cfg s).logN = s.logN := rfl
@[simp] theorem frame_inMain : (frame num cfg s).mem.inMain = s.mem.inMain := rfl
@[simp] theorem frame_inAux : (frame num cfg s).mem.inAux = s.mem.inAux := rfl
@[simp] theorem frame_pos : (frame num cfg s).pos = s.pos := rfl
@[simp] theorem frame_hopCount : (frame num cfg s).hopCount = s.hopCount := rfl
@[simp] theorem frame_seq : (frame num cfg s).seq = s.seq := rfl
@[simp] theorem frame_valid : (frame num cfg s).valid = s.valid := rfl
@[simp] theorem frame_cmds : (frame num cfg s).cmds = s.cmds := rfl
@[simp] theorem frame_resps : (frame num cfg s).resps = s.resps := rfl

end

end Sys2Proof.Machine
end

