-- ==== Sys2Proof/Laws/Memory.lean ====
section
/-! SUPPORT. The laws of the memory: a read after a write, the canonical form kept by every operation, and what the
overlap-add leaves at each ring element. -/

namespace Sys2Proof.Machine

/-! ## Reads after writes -/

theorem memRead_memWrite_same (sp : Space) (i : Nat) (v : Word) (s : State) (h : i < (s.mem.ring sp).length) :
    memRead sp i (memWrite sp i v s) = v := by
  simp [memRead, List.getD_eq_getElem?_getD, h]

theorem memRead_memWrite_index (sp : Space) (i j : Nat) (v : Word) (s : State) (h : j ≠ i) :
    memRead sp j (memWrite sp i v s) = memRead sp j s := by
  simp [memRead, List.getD_eq_getElem?_getD, List.getElem?_set_ne (Ne.symm h)]

theorem memRead_memWrite_space (sp sp' : Space) (i j : Nat) (v : Word) (s : State) (h : sp' ≠ sp) :
    memRead sp' j (memWrite sp i v s) = memRead sp' j s := by
  simp [memRead, Memory.setRing_other _ _ _ _ h]

/-- A read of a list with one element replaced. -/
theorem getD_set (r : List Word) (i j : Nat) (v : Word) (h : i < r.length) :
    (r.set i v).getD j 0#32 = if j = i then v else r.getD j 0#32 := by
  by_cases hj : j = i
  · subst hj
    simp [List.getD_eq_getElem?_getD, h]
  · simp [List.getD_eq_getElem?_getD, List.getElem?_set_ne (Ne.symm hj), hj]

/-! ## The canonical form -/

theorem Memory.wf_iff (n : Nat) (m : Memory) :
    m.wf n = true ↔ m.inMain.length = n ∧ m.inAux.length = n ∧ m.out.length = n := by
  simp [Memory.wf, and_assoc]

theorem Memory.wf_ring (n : Nat) (m : Memory) (sp : Space) (h : m.wf n = true) : (m.ring sp).length = n := by
  rw [Memory.wf_iff] at h
  cases sp
  · exact h.1
  · exact h.2.1
  · exact h.2.2

/-- Replacing a ring by one of the same length keeps the canonical form. -/
theorem Memory.wf_setRing (n : Nat) (m : Memory) (sp : Space) (r : List Word) (h : m.wf n = true) (hr : r.length = n) :
    (m.setRing sp r).wf n = true := by
  rw [Memory.wf_iff] at h ⊢
  cases sp <;> simp [Memory.setRing, h, hr]

theorem Memory.wf_zero (n : Nat) : (Memory.zero n).wf n = true := by
  simp [Memory.wf_iff, Memory.zero]

/-- The memory after reset is canonical. -/
theorem reset_mem_wf : State.reset.mem.wf State.reset.frameSize = true := Memory.wf_zero _

theorem resetOf_mem_wf (p : Nat) : (State.resetOf p).mem.wf (State.resetOf p).frameSize = true := Memory.wf_zero _

theorem memWrite_wf (n : Nat) (sp : Space) (i : Nat) (v : Word) (s : State) (h : s.mem.wf n = true) :
    (memWrite sp i v s).mem.wf n = true :=
  Memory.wf_setRing n _ sp _ h (by rw [List.length_set]; exact Memory.wf_ring n _ sp h)

theorem inputWrite_wf (n : Nat) (main aux : Word) (s : State) (h : s.mem.wf n = true) :
    (inputWrite main aux s).mem.wf n = true :=
  memWrite_wf n _ _ _ _ (memWrite_wf n _ _ _ _ h)

theorem outputZero_wf (n : Nat) (s : State) (h : s.mem.wf n = true) : (outputZero s).mem.wf n = true :=
  memWrite_wf n _ _ _ _ h

theorem overlapAdd_wf (y : List Word) (s : State) (h : s.mem.wf s.frameSize = true) :
    (overlapAdd y s).mem.wf s.frameSize = true :=
  Memory.wf_setRing _ _ .out _ h (by simp)

theorem frame_wf (num : Numerics) (cfg : Cfg) (s : State) (h : s.mem.wf s.frameSize = true) :
    (frame num cfg s).mem.wf s.frameSize = true :=
  overlapAdd_wf _ s h

theorem resetState_wf (s : State) : (resetState s).mem.wf s.frameSize = true := Memory.wf_zero _

/-! ## The overlap-add -/

theorem memRead_overlapAdd (y : List Word) (s : State) (e : Nat) (h : e < s.frameSize) :
    memRead .out e (overlapAdd y s) = overlapAddAt y s e := by
  simp [memRead, List.getD_eq_getElem?_getD, h]

/-- `chronological` undoes the rotation of R57. -/
theorem chronological_rotatedIndex (s : State) (k : Nat) (hp : s.pos < s.frameSize) (hk : k < s.frameSize) :
    chronological s (rotatedIndex s k) = k := by
  unfold chronological rotatedIndex
  rcases Nat.lt_or_ge (s.pos + k) s.frameSize with h | h
  · rw [Nat.mod_eq_of_lt h, show s.pos + k + (s.frameSize - s.pos) = k + s.frameSize by omega, Nat.add_mod_right,
      Nat.mod_eq_of_lt hk]
  · have hm : (s.pos + k) % s.frameSize = s.pos + k - s.frameSize := by
      rw [Nat.mod_eq_sub_mod h, Nat.mod_eq_of_lt (by omega)]
    rw [hm, show s.pos + k - s.frameSize + (s.frameSize - s.pos) = k by omega, Nat.mod_eq_of_lt hk]

theorem rotatedIndex_lt (s : State) (k : Nat) (h : 0 < s.frameSize) : rotatedIndex s k < s.frameSize := Nat.mod_lt _ h

theorem frameSize_pos (s : State) : 0 < s.frameSize := Nat.two_pow_pos s.logN

/-- What the overlap-add leaves at chronological place k (R57, R203). -/
theorem memRead_overlapAdd_rotated (y : List Word) (s : State) (k : Nat) (hp : s.pos < s.frameSize)
    (hk : k < s.frameSize) :
    memRead .out (rotatedIndex s k) (overlapAdd y s) =
      fadd (memRead .out (rotatedIndex s k) s) (contribution s.logN y k) := by
  rw [memRead_overlapAdd y s _ (rotatedIndex_lt s k (frameSize_pos s))]
  unfold overlapAddAt
  rw [chronological_rotatedIndex s k hp hk]

/-- Element k of an assembled frame (R121). -/
theorem frameAt_assemble (sp : Space) (s : State) (k : Nat) (hk : k < s.frameSize) :
    frameAt (assemble sp s) k = memRead sp (rotatedIndex s k) s := by
  simp [frameAt, assemble, List.getD_eq_getElem?_getD, hk]

theorem frameAt_windowed (p : Nat) (x : List Word) (k : Nat) (hk : k < frameSize p) :
    frameAt (windowed p x) k = fmul (frameAt x k) (window p k) := by
  simp [frameAt, windowed, List.getD_eq_getElem?_getD, hk]

theorem binAt_morph (num : Numerics) (p : Nat) (xm xa : List Bin) (cfg : Cfg) (i : Nat) (h : i < numBinsOf p) :
    binAt (morph num p xm xa cfg) i = morphBin num p i (binAt xm i) (binAt xa i) cfg := by
  simp [binAt, morph, List.getD_eq_getElem?_getD, h]

end Sys2Proof.Machine
end

