-- ==== Sys2Proof/Laws/PerInstr.lean ====
section
/-! SUPPORT. The family EncodeLength, one lemma per constructor of Instr: an instruction has as many words as its first word
tells (30_encoding.md R74), so a stream of encoded instructions is cut in the places where it was joined. -/

namespace Sys2Proof.Laws.EncodeLength

/-- The words of an instruction are as many as its first word tells: five for a TICK, one otherwise (R74). -/
def Statement (i : Instr) : Prop := i.wf = true → (encode i).length = commandLength ((encode i).headD 0)

theorem encodeTick_length (msel psel : BitVec 8) (bp iv : Bool) (o : Operands) :
    (encodeTick msel psel bp iv o).length = commandLength ((encodeTick msel psel bp iv o).headD 0) := by
  change 5 = commandLength (tickWord0 msel psel bp iv)
  unfold commandLength
  rw [if_pos (opcode_tickWord0 msel psel bp iv)]

theorem reset : Statement .reset := fun _ => by decide

theorem tick (msel psel : BitVec 8) (bp iv : Bool) (o : Operands) :
    Statement (.tick msel psel bp iv o) := fun _ => encodeTick_length _ _ _ _ _

theorem lat : Statement .lat := fun _ => by decide

theorem magAdd (psel : BitVec 8) (bp iv : Bool) (o : Operands) :
    Statement (.magAdd psel bp iv o) := fun _ => encodeTick_length _ _ _ _ _

theorem magSubtract (psel : BitVec 8) (bp iv : Bool) (o : Operands) :
    Statement (.magSubtract psel bp iv o) := fun _ => encodeTick_length _ _ _ _ _

theorem magMultiply (psel : BitVec 8) (bp iv : Bool) (o : Operands) :
    Statement (.magMultiply psel bp iv o) := fun _ => encodeTick_length _ _ _ _ _

theorem magDivide (psel : BitVec 8) (bp iv : Bool) (o : Operands) :
    Statement (.magDivide psel bp iv o) := fun _ => encodeTick_length _ _ _ _ _

theorem magLinearBlend (psel : BitVec 8) (bp iv : Bool) (o : Operands) :
    Statement (.magLinearBlend psel bp iv o) := fun _ => encodeTick_length _ _ _ _ _

theorem magAllPass (psel : BitVec 8) (bp iv : Bool) (o : Operands) :
    Statement (.magAllPass psel bp iv o) := fun _ => encodeTick_length _ _ _ _ _

theorem magOutOfRange (msel psel : BitVec 8) (bp iv : Bool) (o : Operands) :
    Statement (.magOutOfRange msel psel bp iv o) := fun _ => encodeTick_length _ _ _ _ _

theorem phAdd (msel : BitVec 8) (bp iv : Bool) (o : Operands) :
    Statement (.phAdd msel bp iv o) := fun _ => encodeTick_length _ _ _ _ _

theorem phLinear (msel : BitVec 8) (bp iv : Bool) (o : Operands) :
    Statement (.phLinear msel bp iv o) := fun _ => encodeTick_length _ _ _ _ _

theorem phLinearNatural (msel : BitVec 8) (bp iv : Bool) (o : Operands) :
    Statement (.phLinearNatural msel bp iv o) := fun _ => encodeTick_length _ _ _ _ _

theorem phSmoothStep (msel : BitVec 8) (bp iv : Bool) (o : Operands) :
    Statement (.phSmoothStep msel bp iv o) := fun _ => encodeTick_length _ _ _ _ _

theorem phPreserveMainIn (msel : BitVec 8) (bp iv : Bool) (o : Operands) :
    Statement (.phPreserveMainIn msel bp iv o) := fun _ => encodeTick_length _ _ _ _ _

theorem phPreserveAuxIn (msel : BitVec 8) (bp iv : Bool) (o : Operands) :
    Statement (.phPreserveAuxIn msel bp iv o) := fun _ => encodeTick_length _ _ _ _ _

theorem phOutOfRange (msel psel : BitVec 8) (bp iv : Bool) (o : Operands) :
    Statement (.phOutOfRange msel psel bp iv o) := fun _ => encodeTick_length _ _ _ _ _

theorem byp (msel psel : BitVec 8) (iv : Bool) (o : Operands) :
    Statement (.byp msel psel iv o) := fun _ => encodeTick_length _ _ _ _ _

theorem invph (msel psel : BitVec 8) (bp : Bool) (o : Operands) :
    Statement (.invph msel psel bp o) := fun _ => encodeTick_length _ _ _ _ _

theorem reservedOpcode (w : Word) : Statement (.reservedOpcode w) := by
  intro h
  change 1 = commandLength w
  simp only [Instr.wf, isCommandOpcode, Bool.not_eq_true', Bool.or_eq_false_iff, beq_eq_false_iff_ne] at h
  unfold commandLength
  rw [if_neg h.1.2]

end Sys2Proof.Laws.EncodeLength
end

