-- ==== Sys2Proof/Laws/Tick.lean ====
section
/-! SUPPORT. What a TICK can do, said once: when it completes, and what it leaves by index. Every row of the TICK format is
`tickState` with the row's fields (`exec_command`), so a proof about a row cites these and unfolds nothing. -/

namespace Sys2Proof.Machine

/-! ## When a TICK completes -/

theorem tickWith_next (num : Numerics) (main aux : Word) (cfg : Cfg) (s t : State) :
    tickWith num main aux cfg s = .next t ↔ s.valid = true ∧ t = tickState num main aux cfg s := by
  unfold tickWith
  split
  · next h => simp [h, eq_comm]
  · next h => simp [h]

theorem tickWith_valid (num : Numerics) (main aux : Word) (cfg : Cfg) (s : State) (h : s.valid = true) :
    tickWith num main aux cfg s = .next (tickState num main aux cfg s) := by
  unfold tickWith
  rw [if_pos h]

theorem tickWith_invalid (num : Numerics) (main aux : Word) (cfg : Cfg) (s : State) (h : s.valid = false) :
    tickWith num main aux cfg s = .refused .tickBeforeReset := by
  unfold tickWith
  rw [h]
  rfl

/-- Every instruction is its decoded command. -/
theorem exec_command (i : Instr) (c : Command) (s : State) (h : i.command? = some c) :
    exec i s = commandWith Config.num c s := by
  cases i <;> cases h <;> rfl

theorem execWith_command (num : Numerics) (i : Instr) (c : Command) (s : State) (h : i.command? = some c) :
    execWith num i s = commandWith num c s := by
  unfold execWith
  rw [h]

/-! ## The state before the hop test -/

section
variable (main aux : Word) (s : State)

@[simp] theorem beforeHopTest_logN : (beforeHopTest main aux s).logN = s.logN := rfl
@[simp] theorem beforeHopTest_inMain : (beforeHopTest main aux s).mem.inMain = s.mem.inMain.set s.pos main := rfl
@[simp] theorem beforeHopTest_inAux : (beforeHopTest main aux s).mem.inAux = s.mem.inAux.set s.pos aux := rfl
@[simp] theorem beforeHopTest_out : (beforeHopTest main aux s).mem.out = s.mem.out.set s.pos 0#32 := rfl
@[simp] theorem beforeHopTest_pos : (beforeHopTest main aux s).pos = (s.pos + 1) % s.frameSize := rfl
@[simp] theorem beforeHopTest_hopCount : (beforeHopTest main aux s).hopCount = s.hopCount + 1 := rfl
@[simp] theorem beforeHopTest_seq : (beforeHopTest main aux s).seq = s.seq := rfl
@[simp] theorem beforeHopTest_valid : (beforeHopTest main aux s).valid = s.valid := rfl
@[simp] theorem beforeHopTest_cmds : (beforeHopTest main aux s).cmds = s.cmds := rfl
@[simp] theorem beforeHopTest_resps : (beforeHopTest main aux s).resps = s.resps := rfl
@[simp] theorem beforeHopTest_frameSize : (beforeHopTest main aux s).frameSize = s.frameSize := rfl

end

theorem beforeHopTest_wf (n : Nat) (main aux : Word) (s : State) (h : s.mem.wf n = true) :
    (beforeHopTest main aux s).mem.wf n = true :=
  outputZero_wf n _ (inputWrite_wf n _ _ _ h)

section
variable (main aux : Word) (s : State)

theorem memRead_beforeHopTest_inMain (i : Nat) (h : s.pos < s.mem.inMain.length) :
    memRead .inMain i (beforeHopTest main aux s) = writtenAt .inMain main s i :=
  getD_set _ _ _ _ h

theorem memRead_beforeHopTest_inAux (i : Nat) (h : s.pos < s.mem.inAux.length) :
    memRead .inAux i (beforeHopTest main aux s) = writtenAt .inAux aux s i :=
  getD_set _ _ _ _ h

theorem memRead_beforeHopTest_out (i : Nat) (h : s.pos < s.mem.out.length) :
    memRead .out i (beforeHopTest main aux s) = zeroedAt s i :=
  getD_set _ _ _ _ h

theorem rotatedIndex_beforeHopTest (k : Nat) : rotatedIndex (beforeHopTest main aux s) k = placeAfter s k := rfl

end

theorem hopDue_beforeHopTest (main aux : Word) (s : State) :
    hopDue (beforeHopTest main aux s) = decide (s.hopCount + 1 = s.hopSize) := rfl

/-! ## The state after a TICK -/

/-- A TICK that is no hop boundary. -/
theorem tickState_noHop (num : Numerics) (main aux : Word) (cfg : Cfg) (s : State) (h : s.hopCount + 1 ≠ s.hopSize) :
    tickState num main aux cfg s = respond (outputRead s) (beforeHopTest main aux s) := by
  unfold tickState hopTest
  rw [hopDue_beforeHopTest, decide_eq_false h]
  rfl

/-- A TICK that is a hop boundary. -/
theorem tickState_hop (num : Numerics) (main aux : Word) (cfg : Cfg) (s : State) (h : s.hopCount + 1 = s.hopSize) :
    tickState num main aux cfg s = respond (outputRead s) (hopBoundary num cfg (beforeHopTest main aux s)) := by
  unfold tickState hopTest
  rw [hopDue_beforeHopTest, decide_eq_true h]
  rfl

section
variable (num : Numerics) (main aux : Word) (cfg : Cfg) (s : State)

@[simp] theorem tickState_logN : (tickState num main aux cfg s).logN = s.logN := by
  by_cases h : s.hopCount + 1 = s.hopSize
  · rw [tickState_hop _ _ _ _ _ h]; rfl
  · rw [tickState_noHop _ _ _ _ _ h]; rfl

@[simp] theorem tickState_inMain : (tickState num main aux cfg s).mem.inMain = s.mem.inMain.set s.pos main := by
  by_cases h : s.hopCount + 1 = s.hopSize
  · rw [tickState_hop _ _ _ _ _ h]; rfl
  · rw [tickState_noHop _ _ _ _ _ h]; rfl

@[simp] theorem tickState_inAux : (tickState num main aux cfg s).mem.inAux = s.mem.inAux.set s.pos aux := by
  by_cases h : s.hopCount + 1 = s.hopSize
  · rw [tickState_hop _ _ _ _ _ h]; rfl
  · rw [tickState_noHop _ _ _ _ _ h]; rfl

@[simp] theorem tickState_pos : (tickState num main aux cfg s).pos = (s.pos + 1) % s.frameSize := by
  by_cases h : s.hopCount + 1 = s.hopSize
  · rw [tickState_hop _ _ _ _ _ h]; rfl
  · rw [tickState_noHop _ _ _ _ _ h]; rfl

@[simp] theorem tickState_valid : (tickState num main aux cfg s).valid = s.valid := by
  by_cases h : s.hopCount + 1 = s.hopSize
  · rw [tickState_hop _ _ _ _ _ h]; rfl
  · rw [tickState_noHop _ _ _ _ _ h]; rfl

@[simp] theorem tickState_cmds : (tickState num main aux cfg s).cmds = s.cmds := by
  by_cases h : s.hopCount + 1 = s.hopSize
  · rw [tickState_hop _ _ _ _ _ h]; rfl
  · rw [tickState_noHop _ _ _ _ _ h]; rfl

@[simp] theorem tickState_resps : (tickState num main aux cfg s).resps = s.resps ++ [memRead .out s.pos s] := by
  by_cases h : s.hopCount + 1 = s.hopSize
  · rw [tickState_hop _ _ _ _ _ h]; rfl
  · rw [tickState_noHop _ _ _ _ _ h]; rfl

theorem tickState_seq (hs : s.seq = .idle) : (tickState num main aux cfg s).seq = .idle := by
  by_cases h : s.hopCount + 1 = s.hopSize
  · rw [tickState_hop _ _ _ _ _ h]; rfl
  · rw [tickState_noHop _ _ _ _ _ h]; exact hs

theorem tickState_hopCount :
    (tickState num main aux cfg s).hopCount = if s.hopCount + 1 = s.hopSize then 0 else s.hopCount + 1 := by
  by_cases h : s.hopCount + 1 = s.hopSize
  · rw [tickState_hop _ _ _ _ _ h, if_pos h]; rfl
  · rw [tickState_noHop _ _ _ _ _ h, if_neg h]; rfl

theorem tickState_wf (h : s.mem.wf s.frameSize = true) : (tickState num main aux cfg s).mem.wf s.frameSize = true := by
  have hb := beforeHopTest_wf s.frameSize main aux s h
  by_cases hh : s.hopCount + 1 = s.hopSize
  · rw [tickState_hop _ _ _ _ _ hh]
    exact frame_wf num cfg (enterFrameReady (beforeHopTest main aux s)) hb
  · rw [tickState_noHop _ _ _ _ _ hh]
    exact hb

end

end Sys2Proof.Machine
end

