-- ==== Sys2Proof/Laws/Step.lean ====
section
/-! SUPPORT. What a step can do, said once (`step_cases`), and the form of every instruction the decoder answers with. -/

namespace Sys2Proof.Machine

theorem fetch_ok (s : State) (i : Instr) (rest : List Word) (h : decode s.cmds = .ok (i, rest)) :
    fetch s = .ok (i, { s with cmds := rest }) := by
  unfold fetch
  rw [h]

theorem fetch_error (s : State) (e : DecodeError) (h : decode s.cmds = .error e) : fetch s = .error e := by
  unfold fetch
  rw [h]

theorem step_ok (s : State) (i : Instr) (rest : List Word) (h : decode s.cmds = .ok (i, rest)) :
    step s = exec i { s with cmds := rest } := by
  unfold step
  rw [fetch_ok s i rest h]

theorem step_reservedBits (s : State) (w : Word) (h : decode s.cmds = .error (.reservedBits w)) :
    step s = .refused (.reservedBits w) := by
  unfold step
  rw [fetch_error s _ h]

theorem step_truncated (s : State) (ws : List Word) (h : decode s.cmds = .error (.truncated ws)) :
    step s = .refused (.truncatedCommand ws) := by
  unfold step
  rw [fetch_error s _ h]

theorem step_noCommand (s : State) (h : decode s.cmds = .error .noCommand) : step s = .next s := by
  unfold step
  rw [fetch_error s _ h]

/-- An instruction that spells no command is a reserved opcode. -/
theorem command?_none (i : Instr) (h : i.command? = none) : ∃ w, i = .reservedOpcode w := by
  cases i <;> first | exact ⟨_, rfl⟩ | cases h

/-- What `exec` can answer: RESET and LAT always run, a TICK runs once RESET was executed, a reserved opcode is refused. -/
theorem exec_cases (i : Instr) (s t : State) (h : exec i s = .next t) :
    (i = .reset ∧ t = resetState s) ∨
      (i = .lat ∧ t = respond (BitVec.ofNat 32 s.frameSize) s) ∨
      ∃ main aux cfg, i.command? = some (.tick main aux cfg) ∧ s.valid = true ∧
        t = tickState Config.num main aux cfg s := by
  cases hc : i.command? with
  | none =>
    obtain ⟨w, rfl⟩ := command?_none i hc
    cases h
  | some c =>
    rw [exec_command i c s hc] at h
    cases c with
    | reset =>
      cases i <;> cases hc
      exact .inl ⟨rfl, by cases h; rfl⟩
    | latency =>
      cases i <;> cases hc
      exact .inr (.inl ⟨rfl, by cases h; rfl⟩)
    | tick main aux cfg =>
      obtain ⟨hv, ht⟩ := (tickWith_next _ _ _ _ _ _).1 h
      exact .inr (.inr ⟨main, aux, cfg, rfl, hv, ht⟩)

/-- What a step that answers a next state did: nothing, as no command was there; or one command. -/
theorem step_cases (s t : State) (h : step s = .next t) :
    (decode s.cmds = .error .noCommand ∧ t = s) ∨
      ∃ i rest, decode s.cmds = .ok (i, rest) ∧ exec i { s with cmds := rest } = .next t := by
  cases hd : decode s.cmds with
  | ok p =>
    obtain ⟨i, rest⟩ := p
    rw [step_ok s i rest hd] at h
    exact .inr ⟨i, rest, rfl, h⟩
  | error e =>
    cases e with
    | noCommand =>
      rw [step_noCommand s hd] at h
      cases h
      exact .inl ⟨rfl, rfl⟩
    | reservedBits w =>
      rw [step_reservedBits s w hd] at h
      cases h
    | truncated ws =>
      rw [step_truncated s ws hd] at h
      cases h

/-! ## The decoder by cases -/

theorem decode_nil : decode [] = .error .noCommand := rfl

theorem decode_reserved (w : Word) (rest : List Word) (h : isCommandOpcode w = false) :
    decode (w :: rest) = .ok (.reservedOpcode w, rest) := by
  simp only [isCommandOpcode, Bool.or_eq_false_iff, beq_eq_false_iff_ne] at h
  unfold decode
  simp only
  rw [if_neg h.1.1, if_neg h.1.2, if_neg h.2]

theorem decode_reset (w : Word) (rest : List Word) (h : opcode w = 1) :
    decode (w :: rest) = if shortZero w then .ok (.reset, rest) else .error (.reservedBits w) := by
  unfold decode
  simp only
  rw [if_pos h]

theorem decode_lat (w : Word) (rest : List Word) (h : opcode w = 3) :
    decode (w :: rest) = if shortZero w then .ok (.lat, rest) else .error (.reservedBits w) := by
  unfold decode
  simp only
  rw [if_neg (by omega), if_neg (by omega), if_pos h]

theorem decode_tick (w : Word) (rest : List Word) (h : opcode w = 2) :
    decode (w :: rest) = if rsvField w = 0 then decodeTick w rest else .error (.reservedBits w) := by
  unfold decode
  simp only
  rw [if_neg (by omega), if_pos h]

end Sys2Proof.Machine
end

