-- ==== Sys2Proof/Laws/Strategies.lean ====
section
/-! SUPPORT. Which strategy a selector selects (43_morph.md R163), and each strategy's formula. A proof about a row of the
table rewrites with these, so that the kernel unfolds no arithmetic. -/

namespace Sys2Proof.Machine

section
variable (p i : Nat) (sel : BitVec 8) (m a b : Word)

/-! ## The selected strategy -/

theorem magnitude_select : magnitude p i sel m a b =
    if sel.toNat = 0 then magAdd m a b else if sel.toNat = 1 then magSubtract m a b
    else if sel.toNat = 2 then magMultiply m a b else if sel.toNat = 3 then magDivide m a b
    else if sel.toNat = 4 then magLinearBlend (blend p i) a b else a := by
  unfold magnitude
  split
  all_goals simp_all only [reduceIte, Nat.reduceEqDiff, magAllPass, magOutOfRange]
  repeat rw [if_neg (by assumption)]

theorem phase_select : phase p i sel m a b =
    if sel.toNat = 0 then phAdd m a b else if sel.toNat = 1 then phLinear (ramp p i)
    else if sel.toNat = 2 then phLinearNatural (ramp p i) m a b else if sel.toNat = 3 then phSmoothStep m a b
    else if sel.toNat = 5 then b else a := by
  unfold phase
  split
  all_goals simp_all only [reduceIte, Nat.reduceEqDiff, phPreserveMainIn, phPreserveAuxIn, phOutOfRange]
  repeat rw [if_neg (by assumption)]

theorem magnitude_outOfRange (h : 6 ≤ sel.toNat) : magnitude p i sel m a b = a := by
  rw [magnitude_select]
  repeat rw [if_neg (by omega)]

theorem phase_outOfRange (h : 6 ≤ sel.toNat) : phase p i sel m a b = a := by
  rw [phase_select]
  repeat rw [if_neg (by omega)]

/-! ## The formula of each row -/

theorem magnitude_add : magnitude p i 0 m a b = fadd (fmul m a) (fmul (fsub oneW m) b) := by
  rw [magnitude_select, if_pos (by decide), magAdd, oneMinus]

theorem magnitude_subtract : magnitude p i 1 m a b = fabs (fsub (fmul m a) (fmul (fsub oneW m) b)) := by
  rw [magnitude_select, if_neg (by decide), if_pos (by decide), magSubtract, oneMinus]

theorem magnitude_multiply : magnitude p i 2 m a b =
    fdiv (fabs (fmul (fmul m a) (fmul (fsub oneW m) b))) (fmax (fmul a b) oneW) := by
  rw [magnitude_select, if_neg (by decide), if_neg (by decide), if_pos (by decide), magMultiply, oneMinus]

theorem magnitude_divide : magnitude p i 3 m a b =
    fmin (fdiv (fmul m a) (fmax (fmul (fsub oneW m) b) epsW)) oneW := by
  rw [magnitude_select, if_neg (by decide), if_neg (by decide), if_neg (by decide), if_pos (by decide), magDivide, oneMinus]

theorem magnitude_linearBlend : magnitude p i 4 m a b =
    fadd (fmul (blend p i) b) (fmul (fsub oneW (blend p i)) a) := by
  rw [magnitude_select, if_neg (by decide), if_neg (by decide), if_neg (by decide), if_neg (by decide),
    if_pos (by decide), magLinearBlend]

theorem magnitude_allPass : magnitude p i 5 m a b = a := by
  rw [magnitude_select, if_neg (by decide), if_neg (by decide), if_neg (by decide), if_neg (by decide),
    if_neg (by decide)]

theorem phase_add : phase p i 0 m a b = fadd (fmul m a) (fmul (fsub oneW m) b) := by
  rw [phase_select, if_pos (by decide), phAdd, oneMinus]

theorem phase_linear : phase p i 1 m a b = wrap (ramp p i) := by
  rw [phase_select, if_neg (by decide), if_pos (by decide), phLinear]

theorem phase_linearNatural : phase p i 2 m a b =
    wrap (fadd (fmul m (fmul (fadd a b) halfW)) (fmul (fsub oneW m) (ramp p i))) := by
  rw [phase_select, if_neg (by decide), if_neg (by decide), if_pos (by decide), phLinearNatural, oneMinus]

theorem phase_smoothStep : phase p i 3 m a b =
    fadd (fmul (smoothWeight m) a) (fmul (fsub oneW (smoothWeight m)) b) := by
  rw [phase_select, if_neg (by decide), if_neg (by decide), if_neg (by decide), if_pos (by decide), phSmoothStep]

theorem phase_preserveMainIn : phase p i 4 m a b = a := by
  rw [phase_select, if_neg (by decide), if_neg (by decide), if_neg (by decide), if_neg (by decide),
    if_neg (by decide)]

theorem phase_preserveAuxIn : phase p i 5 m a b = b := by
  rw [phase_select, if_neg (by decide), if_neg (by decide), if_neg (by decide), if_neg (by decide), if_pos (by decide)]

end

end Sys2Proof.Machine
end

