-- ==== Sys2Proof/Tests/Slice0.lean ====
section
/-! SUPPORT. Tests of the model and witnesses of the statements' hypotheses. Words, tables and results are those of spec/
(30_encoding.md R86, the worked examples of 41 to 45, 95_test_vectors.md, 96_test_programs.md P4), never the model's own. -/

namespace Sys2Proof.Tests

open Sys2Proof Sys2Proof.Machine

/-! ## Well-formedness refuses what the encoding cannot spell -/

theorem test_wf_magOutOfRange_in_range : (Instr.magOutOfRange 5 0 false false ⟨0, 0, 0, 0⟩).wf = false := by decide
theorem test_wf_magOutOfRange_least : (Instr.magOutOfRange 6 0 false false ⟨0, 0, 0, 0⟩).wf = true := by decide
theorem test_wf_phOutOfRange_in_range : (Instr.phOutOfRange 0 5 false false ⟨0, 0, 0, 0⟩).wf = false := by decide
theorem test_wf_phOutOfRange_least : (Instr.phOutOfRange 0 6 false false ⟨0, 0, 0, 0⟩).wf = true := by decide
theorem test_wf_reservedOpcode_of_command : (Instr.reservedOpcode 0x1FFFFFFF).wf = false ∧
    (Instr.reservedOpcode 0x20000000).wf = false ∧ (Instr.reservedOpcode 0x3FFFFFFF).wf = false := by decide
theorem test_wf_reservedOpcode_bounds : (Instr.reservedOpcode 0x0FFFFFFF).wf = true ∧
    (Instr.reservedOpcode 0x40000000).wf = true := by decide

/-! ## Decoding: a word of every constructor, written out from R72 to R78 -/

/-- Operand words for the decoding tests. -/
def ops : Operands := ⟨0x3F000000, 0x7FC00001, 0x3F800000, 0xBF000000⟩

/-- A TICK with the given first word and the operand words of `ops`. -/
def tickWords (w0 : Word) : List Word := [w0, 0x3F000000, 0x7FC00001, 0x3F800000, 0xBF000000]

-- OPC 0001, bits 27:0 zero
theorem test_decode_reset : decode [0b00010000000000000000000000000000] = .ok (.reset, []) := by rfl
-- OPC 0011, bits 27:0 zero
theorem test_decode_lat : decode [0b00110000000000000000000000000000] = .ok (.lat, []) := by rfl
-- OPC 0010, RSV, INVPH, BYP, PSEL, MSEL
theorem test_decode_tick : decode (tickWords 0b00100000000000000000000000000000) =
    .ok (.tick 0 0 false false ops, []) := by rfl
theorem test_decode_tick_pair : decode (tickWords 0b00100000000000000000010000000101) =
    .ok (.tick 5 4 false false ops, []) := by rfl
theorem test_decode_magAdd : decode (tickWords 0b00100000000000000000011000000000) =
    .ok (.magAdd 6 false false ops, []) := by rfl
theorem test_decode_magSubtract : decode (tickWords 0b00100000000000000000000000000001) =
    .ok (.magSubtract 0 false false ops, []) := by rfl
theorem test_decode_magMultiply : decode (tickWords 0b00100000000000000000000000000010) =
    .ok (.magMultiply 0 false false ops, []) := by rfl
theorem test_decode_magDivide : decode (tickWords 0b00100000000000000000000000000011) =
    .ok (.magDivide 0 false false ops, []) := by rfl
theorem test_decode_magLinearBlend : decode (tickWords 0b00100000000000000000000000000100) =
    .ok (.magLinearBlend 0 false false ops, []) := by rfl
theorem test_decode_magAllPass : decode (tickWords 0b00100000000000000000000000000101) =
    .ok (.magAllPass 0 false false ops, []) := by rfl
theorem test_decode_magOutOfRange : decode (tickWords 0b00100000000000000100110100001001) =
    .ok (.magOutOfRange 9 77 false false ops, []) := by rfl
theorem test_decode_phAdd : decode (tickWords 0b00100000000000000000000011001000) =
    .ok (.phAdd 200 false false ops, []) := by rfl
theorem test_decode_phLinear : decode (tickWords 0b00100000000000000000000100000000) =
    .ok (.phLinear 0 false false ops, []) := by rfl
theorem test_decode_phLinearNatural : decode (tickWords 0b00100000000000000000001000000000) =
    .ok (.phLinearNatural 0 false false ops, []) := by rfl
theorem test_decode_phSmoothStep : decode (tickWords 0b00100000000000000000001100000000) =
    .ok (.phSmoothStep 0 false false ops, []) := by rfl
theorem test_decode_phPreserveMainIn : decode (tickWords 0b00100000000000000000010000000000) =
    .ok (.phPreserveMainIn 0 false false ops, []) := by rfl
theorem test_decode_phPreserveAuxIn : decode (tickWords 0b00100000000000000000010100000000) =
    .ok (.phPreserveAuxIn 0 false false ops, []) := by rfl
theorem test_decode_phOutOfRange : decode (tickWords 0b00100000000000001111111100000101) =
    .ok (.phOutOfRange 5 255 false false ops, []) := by rfl
theorem test_decode_byp : decode (tickWords 0b00100000000000110000000100000010) =
    .ok (.byp 2 1 true ops, []) := by rfl
theorem test_decode_invph : decode (tickWords 0b00100000000000100000011011001000) =
    .ok (.invph 200 6 false ops, []) := by rfl
theorem test_decode_reservedOpcode : decode [0b01000000000000000000000000000000, 0] =
    .ok (.reservedOpcode 0x40000000, [0]) := by rfl

-- reserved bits at both ends of their fields (R80), and a stream cut inside a TICK (R245)
theorem test_decode_reserved_bits : decode [0x20040000, 0, 0, 0, 0] = .error (.reservedBits 0x20040000) ∧
    decode [0x28000000] = .error (.reservedBits 0x28000000) ∧ decode [0x10000001] = .error (.reservedBits 0x10000001) ∧
    decode [0x38000000] = .error (.reservedBits 0x38000000) := ⟨rfl, rfl, rfl, rfl⟩
theorem test_decode_truncated : decode [0x20000000, 1, 2, 3] = .error (.truncated [0x20000000, 1, 2, 3]) := by rfl
theorem test_decode_empty : decode [] = .error .noCommand := by rfl

/-- The table's numbering of bits: RESET's one word, and a TICK whose operand words are all given. -/
theorem test_decodeTableWord : decodeTableWord 32 0x10000000 = some .reset ∧
    decodeTableWord 32 0x20010000 = some (.byp 0 0 false ⟨0, 0, 0, 0⟩) ∧
    decodeTableWord 160 0xBF0000003F8000007FC000013F00000020000300 = some (.phSmoothStep 0 false false ops) := by decide

/-- The example of R86 through the notation of R85. -/
theorem test_assemble : assembleLines [.tick (.decimal false 25 (-2)) (.decimal true 5 (-1))
    ⟨.decimal false 1 0, .allPass, .preserveMainIn, true, false, .bits 0⟩] =
    [0x20010405, 0x3F800000, 0x00000000, 0x3E800000, 0xBF000000] := by decide +kernel

/-! ## Small states -/

/-- An instance with N = 8 just after RESET: the next TICK is no hop boundary. -/
def fresh : State := State.resetOf 3

/-- The instance one TICK later, its rings still zero: the next TICK is a hop boundary. -/
def nearHop : State := { State.resetOf 3 with pos := 1, hopCount := 1 }

/-- An instance at power-on, its counters anything. -/
def unreset : State := State.powerOn 3 (Memory.zero 8) 5 1

theorem fresh_inv : fresh.Inv := ⟨by decide, rfl, fun _ => rfl, fun _ => by decide, fun _ => rfl⟩
theorem nearHop_inv : nearHop.Inv := ⟨by decide, rfl, fun _ => rfl, fun _ => by decide, fun _ => rfl⟩

/-! ## One step -/

-- R100: after a sample, RESET leaves the state of a lone RESET
theorem test_reset : execReset
    { fresh with
      pos := 3, hopCount := 1, valid := false, mem := fresh.mem.setRing .out [1, 2, 3, 4, 5, 6, 7, 8] } =
    .next fresh := by rfl
-- R102: N = 8 and N = 1024
theorem test_lat : execLat unreset = .next { unreset with resps := [0x00000008] } := by rfl
theorem test_lat_default : execLat State.reset = .next { State.reset with resps := [0x00000400] } := by rfl
-- R101, worked example
theorem test_tick_first : execByp 5 4 false ⟨0, 0, 0x3F800000, 0⟩ fresh =
    .next { fresh with
      mem := fresh.mem.setRing .inMain [0x3F800000, 0, 0, 0, 0, 0, 0, 0], pos := 1, hopCount := 1,
      resps := [0x00000000] } := by rfl
-- R106: the slot is read, then zeroed
theorem test_tick_reads_then_zeroes :
    execTick 5 4 false false ⟨0, 0, 0, 0⟩ { fresh with mem := fresh.mem.setRing .out [0x7FC00123, 2, 3, 4, 5, 6, 7, 8] } =
    .next { fresh with
      mem := fresh.mem.setRing .out [0, 2, 3, 4, 5, 6, 7, 8], pos := 1, hopCount := 1,
      resps := [0x7FC00123] } := by rfl
-- R113, R81
theorem test_tick_before_reset : execMagAdd 0 false false ops unreset = .refused .tickBeforeReset := by rfl
theorem test_reserved_opcode : step { fresh with cmds := [0xFFFFFFFF] } = .refused (.reservedOpcode 0xFFFFFFFF) := by rfl

/-- The output ring after a step, if it answers a next state. -/
def outAfter (o : Host.Outcome State Fault Refusal) : List Word :=
  match o with
  | .next t => t.mem.out
  | _ => []

/-- The state of program P4 just before its TICK 7, a hop boundary. -/
def p4 : State :=
  { fresh with
    mem := ⟨[0x3F800000, 0x40000000, 0x40400000, 0x40800000, 0x40A00000, 0x40C00000, 0x40E00000, 0],
      [0x3F800000, 0xBF800000, 0x3F800000, 0xBF800000, 0x3F800000, 0xBF800000, 0x3F800000, 0],
      [0x3C25AC58, 0xBE002635, 0x3E92ACB1, 0x3ECEA68C, 0x3F0EC94B, 0x3E19404C, 0, 0x3DE43C77]⟩,
    pos := 7, hopCount := 1 }

-- 96, P4: the fourth FRAME, MAG.add with PH.add at m = 0.5, every stage of it under the stand-in for NUM_IDEAL
theorem test_frame_p4 : outAfter (execWith numSeries (.tick 0 0 false false ⟨0x3F000000, 0, 0x41000000, 0xBF800000⟩) p4) =
    [0x3C25AC58, 0xBE5FCEDC, 0xBDE6C308, 0xBE87F5D4, 0x3EA1FE30, 0x3F4707FD, 0x3EB35F17, 0x3DCDD960] := by decide +kernel

-- 96, P4: bins 0 and 3
theorem test_morph_bin_p4 :
    morphBin numSeries 3 0 ⟨0x41A00000, 0⟩ ⟨0xB3800000, 0⟩ ⟨false, false, 0, 0, 0x3F000000, 0⟩ = ⟨0xB4EAAC7A, 0x41200000⟩ ∧
    morphBin numSeries 3 3 ⟨0x349DB4BB, 0xBE2FB0BD⟩ ⟨0xC0000000, 0⟩ ⟨false, false, 0, 0, 0x3F000000, 0⟩ =
      ⟨0x3F448C53, 0x3F448C6B⟩ := by decide +kernel

-- R203, worked example: y all ones, pos = 2
theorem test_overlap_add : (overlapAdd (List.replicate 8 oneW) { fresh with pos := 2 }).mem.out =
    [0x3EAAAAAB, 0x3DC7F2CE, 0, 0x3DC7F2CE, 0x3EAAAAAB, 0x3F11AC52, 0x3F2AAAAB, 0x3F11AC52] := by decide +kernel

-- R121, worked example: pos = 2
theorem test_assemble_frame : assemble .inMain
    { fresh with
      pos := 2, mem := fresh.mem.setRing .inMain [10, 11, 12, 13, 14, 15, 16, 17] } =
    [12, 13, 14, 15, 16, 17, 10, 11] := by rfl

/-! ## The strategies: the worked examples of R164 to R180 -/

theorem test_magAdd : magnitude 3 0 0 0x3E800000 0x40000000 0x40800000 = 0x40600000 := by decide +kernel
theorem test_magSubtract : magnitude 3 0 1 0x3E800000 0x40000000 0x40800000 = 0x40200000 := by decide +kernel
theorem test_magMultiply : magnitude 3 0 2 0x3E800000 0x40000000 0x40800000 = 0x3E400000 := by decide +kernel
theorem test_magDivide : magnitude 3 0 3 0x3E800000 0x40000000 0x40800000 = 0x3E2AAAAB ∧
    magnitude 3 0 3 0x3F000000 0x40400000 0x40A00000 = 0x3F19999A := by decide +kernel
theorem test_magLinearBlend : (List.range 5).map (fun i => magnitude 3 i 4 0 0x40400000 0x40A00000) =
    [0x40400000, 0x40600000, 0x40800000, 0x40900000, 0x40A00000] := by decide +kernel
theorem test_magAllPass : magnitude 3 0 5 0x3E800000 0x40000000 0x40800000 = 0x40000000 := by decide +kernel
theorem test_magOutOfRange : magnitude 3 0 200 0x3E800000 0x40000000 0x40800000 = 0x40000000 := by decide +kernel
theorem test_phAdd : phase 3 0 0 0x3E800000 0x3F800000 0xC0000000 = 0xBFA00000 := by decide +kernel
theorem test_phLinear : (List.range 5).map (fun i => phase 3 i 1 0 0 0) =
    [0xC0490FDB, 0xBFC90FDB, 0x00000000, 0x3FC90FDB, 0x40490FDB] := by decide +kernel
theorem test_phLinearNatural : phase 3 1 2 0x3E800000 0x3F800000 0xC0000000 = 0xBFA6CBE4 := by decide +kernel
theorem test_phSmoothStep : phase 3 0 3 0x3E800000 0x3F800000 0xC0000000 = 0xBFC40000 := by decide +kernel
theorem test_phPreserve : phase 3 0 4 0x3E800000 0x3F800000 0xC0000000 = 0x3F800000 ∧
    phase 3 0 5 0x3E800000 0x3F800000 0xC0000000 = 0xC0000000 := by decide +kernel
theorem test_phOutOfRange : phase 3 0 6 0x3E800000 0x3F800000 0xC0000000 = 0x3F800000 := by decide +kernel
theorem test_invph : invertPhase true 0xBFA00000 = 0x3FA00000 ∧ invertPhase true 0 = 0x80000000 := by decide
theorem test_wrap : wrap 0x40600000 = 0xC0321FB6 ∧ wrap 0xC0E00000 = 0xBF378128 ∧ wrap 0x40490FDC = 0xC0490FDA ∧
    wrap piW = piW := by decide +kernel
theorem test_polar : polar numSeries ⟨0x40400000, 0x40800000⟩ = ⟨0x40A00000, 0x3F6D6338⟩ ∧
    rectangular numSeries ⟨0x40A00000, 0x3F6D6338⟩ = ⟨0x40400000, 0x40800000⟩ := by decide +kernel

/-! ## Tables, transforms, numerics -/

-- 95, 2.1
theorem test_window : (List.range 8).map (window 3) =
    [0x00000000, 0x3E15F61A, 0x3F000000, 0x3F5A827A, 0x3F800000, 0x3F5A827A, 0x3F000000, 0x3E15F61A] := by decide +kernel
theorem test_window_default : [1, 2, 128, 511, 513, 1023].map (window 10) =
    [0x371DE9C6, 0x381DE964, 0x3E15F61A, 0x3F7FFF62, 0x3F7FFF62, 0x371DE9C6] := by decide +kernel
theorem test_blend_ramp_default : [1, 256, 511].map (blend 10) = [0x3B000000, 0x3F000000, 0x3F7F8000] ∧
    [0, 1, 255, 257, 511].map (ramp 10) = [0xC0490FDB, 0xC04846CB, 0xBC490FDB, 0x3C490FDB, 0x404846CB] := by decide +kernel
-- R150, worked example, the stand-in for NUM_IDEAL and the transforms of NUM_RADIX2
theorem test_transform : numSeries.rfft 3 [0, 0, 0, 0, oneW, 0, 0, 0] =
      [⟨oneW, 0⟩, ⟨0xBF800000, 0⟩, ⟨oneW, 0⟩, ⟨0xBF800000, 0⟩, ⟨oneW, 0⟩] ∧
    radix2Irfft 3 [⟨oneW, 0⟩, ⟨0xBF800000, 0⟩, ⟨oneW, 0⟩, ⟨0xBF800000, 0⟩, ⟨oneW, 0⟩] =
      [0, 0, 0, 0, oneW, 0, 0, 0] := by decide +kernel
-- log 20: eight equal bins of 2^126 sum to 2^129 before the scale, and the sample is no 2^126 but an infinity
theorem test_radix2_inverse_overflow :
    frameAt (radix2Irfft 3 (List.replicate 5 ⟨0x7E800000, 0⟩)) 0 = 0x7F800000 := by decide +kernel
-- log 20: spectra whose sum of magnitudes is past 2^126 or near it, and whose sums stay finite: P3 is asked of them
theorem test_radix2_inverse_range :
    (radix2Irfft 3 [⟨0, 0⟩, ⟨0x7EC00000, 0⟩, ⟨0, 0⟩, ⟨0, 0⟩, ⟨0, 0⟩]).all isFinite = true ∧
    radix2Irfft 3 [⟨0x7C800000, 0⟩, ⟨0, 0⟩, ⟨0, 0⟩, ⟨0, 0⟩, ⟨0, 0⟩] = List.replicate 8 0x7B000000 := by decide +kernel
-- log 8: 6, 5, 4, 5 units of 2^-149 at n = 1, 2, 13, 14 give 14.15 units in re X[1], the butterflies 16
theorem test_radix2_underflow : (binAt (radix2Rfft 4 [0, 6, 5, 0, 0, 0, 0, 0, 0, 0, 0, 0, 0, 4, 5, 0]) 1).re = 16 := by
  decide +kernel
-- R151
theorem test_twiddle : twiddle 3 0 = ⟨oneW, posZero⟩ ∧ twiddle 3 2 = ⟨posZero, 0xBF800000⟩ := by decide +kernel
-- R213, R218, R220: signed zeros, the first operand kept, a subnormal kept, overflow to infinity and the last finite sum
theorem test_zeros : fadd posZero negZero = posZero ∧ fadd negZero negZero = negZero ∧ fsub oneW oneW = posZero := by
  decide +kernel
theorem test_selection : fmax 0x7FC00007 oneW = 0x7FC00007 ∧ fmax oneW 0x7FC00007 = oneW ∧ fmin negZero posZero = negZero := by
  decide +kernel
theorem test_subnormal : fmul 0x00000001 halfW = 0x00000000 ∧ fmul 0x00000003 halfW = 0x00000002 ∧
    fadd 0x00000001 0x00000001 = 0x00000002 := by decide +kernel
theorem test_overflow : fadd 0x7F7FFFFF 0x73000000 = 0x7F800000 ∧ fadd 0x7F7FFFFF 0x72FFFFFF = 0x7F7FFFFF := by
  decide +kernel
theorem test_sqrt : fsqrt 0x40000000 = 0x3FB504F3 ∧ fsqrt 0x40800000 = 0x40000000 := by decide +kernel

/-! ## Witnesses: states and operands that meet the hypotheses of the statements together -/

/-- The shared hypotheses of the statements about a TICK off a hop boundary. -/
theorem witness_tick_off_hop : (Instr.phAdd 5 false false ops).command? =
      some (.tick ops.main ops.aux ⟨false, false, 5, 0, ops.m, ops.formant⟩) ∧
    fresh.Inv ∧ fresh.valid = true ∧ ¬ fresh.hopNext := ⟨rfl, fresh_inv, rfl, by decide⟩

/-- The shared hypotheses of the statements about a TICK at a hop boundary, each path. -/
theorem witness_tick_at_hop : nearHop.Inv ∧ nearHop.valid = true ∧ nearHop.hopNext ∧
    (Instr.byp 5 4 false ops).command? = some (.tick ops.main ops.aux ⟨true, false, 5, 4, ops.m, ops.formant⟩) ∧
    (Instr.invph 0 3 false ops).command? = some (.tick ops.main ops.aux ⟨false, true, 0, 3, ops.m, ops.formant⟩) :=
  ⟨nearHop_inv, rfl, by decide, rfl, rfl⟩

/-- `DecodeReadsEncodedInstruction`, `SameWordsSameEffect`: two well-formed rows with one encoding. -/
theorem witness_same_words : (Instr.magSubtract 3 false true ops).wf = true ∧
    (Instr.phSmoothStep 1 false true ops).wf = true ∧
    encode (.magSubtract 3 false true ops) = encode (.phSmoothStep 1 false true ops) := ⟨rfl, rfl, rfl⟩

/-- `EncodeRestoresDecodedWords`, `StepRunsDecodedInstruction`, with words left after the command. -/
theorem witness_decoded : decode ({ fresh with cmds := [0x30000000, 0x10000000] } : State).cmds =
    .ok (.lat, [0x10000000]) := rfl

/-- `SerialisedWordsReadBack`: a word in a stream. -/
theorem witness_serialised : (0x20000300 : Word) ∈ [(0x10000000 : Word), 0x20000300] := by decide

theorem witness_idle : fresh.cmds = [] := rfl

/-- `StepRefusesInOrder`, each clause at the ends of its range. -/
theorem witness_refusals :
    (isCommandOpcode 0x0FFFFFFF = false ∧ isCommandOpcode 0x40000000 = false ∧ isCommandOpcode 0xF0000000 = false) ∧
    (isCommandOpcode 0x20040000 = true ∧ (0x20040000 : Word).extractLsb' 18 10 ≠ 0) ∧
    (isCommandOpcode 0x18000000 = true ∧ (0x18000000 : Word).extractLsb' 18 10 ≠ 0) ∧
    (isCommandOpcode 0x10000001 = true ∧ opcode 0x10000001 ≠ 2 ∧ (0x10000001 : Word).extractLsb' 0 18 ≠ 0) ∧
    (isCommandOpcode 0x30020000 = true ∧ opcode 0x30020000 ≠ 2 ∧ (0x30020000 : Word).extractLsb' 0 18 ≠ 0) ∧
    (opcode 0x2003FFFF = 2 ∧ (0x2003FFFF : Word).extractLsb' 18 10 = 0 ∧ ([] : List Word).length < 4 ∧
      [(1 : Word), 2, 3].length < 4 ∧ 4 ≤ [(1 : Word), 2, 3, 4].length ∧ unreset.valid = false) := by decide

/-- `StepRefusesInOrder`: streams for its four clauses, at an instance before its first RESET. -/
theorem witness_refusal_streams :
    step { unreset with cmds := [0x0FFFFFFF] } = .refused (.reservedOpcode 0x0FFFFFFF) ∧
    step { unreset with cmds := [0x10000001] } = .refused (.reservedBits 0x10000001) ∧
    step { unreset with cmds := [0x2003FFFF, 1, 2, 3] } = .refused (.truncatedCommand [0x2003FFFF, 1, 2, 3]) ∧
    step { unreset with cmds := [0x2003FFFF, 1, 2, 3, 4] } = .refused .tickBeforeReset := ⟨rfl, rfl, rfl, rfl⟩

/-- `StreamRunsInstructions`: a list of well-formed instructions. -/
theorem witness_stream : ∀ i ∈ [Instr.lat, .reset, .magOutOfRange 255 0 true false ops, .reservedOpcode 0], i.wf = true := by
  decide

/-- `ReservedOpcodeIsRefused`: the ends of the reserved ranges. -/
theorem witness_reserved_opcodes : opcode 0x0FFFFFFF = 0 ∧ 4 ≤ opcode 0x40000000 ∧ 4 ≤ opcode 0xFFFFFFFF := by decide

/-- `ResetForgetsThePast`: two instances of one frame size with different pasts, and a run that completes. -/
theorem witness_forget : fresh.logN = unreset.logN ∧
    ∃ t, runInstrs [.reset, .byp 5 4 false ops, .lat] fresh = .next t := ⟨rfl, _, rfl⟩

/-- `LatencyAnswersFrameSize`: its bound and both named sizes. -/
theorem witness_latency : (State.resetOf 31).logN ≤ 31 ∧ State.reset.logN = 10 ∧ fresh.logN = 3 := by decide

/-- `FrameSizeIsFixed`: a command and a step that complete. -/
theorem witness_frame_size : (∃ t, exec .lat fresh = .next t) ∧ ∃ t, step { fresh with cmds := [0x10000000] } = .next t :=
  ⟨⟨_, rfl⟩, ⟨_, rfl⟩⟩

/-- `TickBeforeResetIsRefused`. -/
theorem witness_before_reset : (Instr.magDivide 4 true false ops).command? =
    some (.tick ops.main ops.aux ⟨true, false, 3, 4, ops.m, ops.formant⟩) ∧ unreset.valid = false := ⟨rfl, rfl⟩

/-- `MagnitudeRowsAtHop`, `PhaseRowsAtHop`, `OutOfRangeSelectorsPassThrough`: the ends of the out-of-range selectors. -/
theorem witness_out_of_range : 6 ≤ (6 : BitVec 8).toNat ∧ 6 ≤ (255 : BitVec 8).toNat := by decide

/-- `ConfigurationActsAtHopOnly`: two rows with the same samples and different configurations, off a hop boundary. -/
theorem witness_configuration : (Instr.byp 5 4 true ops).command? =
      some (.tick ops.main ops.aux ⟨true, true, 5, 4, ops.m, ops.formant⟩) ∧
    (Instr.phLinear 3 false false ops).command? = some (.tick ops.main ops.aux ⟨false, false, 3, 1, ops.m, ops.formant⟩) ∧
    ¬ fresh.hopNext := ⟨rfl, rfl, by decide⟩

/-- `FormantIsIgnored`: two TICKs that differ in the formant word alone. -/
theorem witness_formant : (Instr.tick 1 2 false true ops).command? =
      some (.tick ops.main ops.aux ⟨false, true, 1, 2, ops.m, ops.formant⟩) ∧
    (Instr.tick 1 2 false true { ops with formant := 7 }).command? =
      some (.tick ops.main ops.aux { (⟨false, true, 1, 2, ops.m, ops.formant⟩ : Cfg) with formant := 7 }) := ⟨rfl, rfl⟩

/-- `BypassIgnoresMorphOperands`, `ResponseIgnoresOwnOperands`: two rows with different operands, bypassed. -/
theorem witness_bypass : (Instr.byp 5 4 true ops).command? =
      some (.tick ops.main ops.aux ⟨true, true, 5, 4, ops.m, ops.formant⟩) ∧
    (Instr.phLinear 3 true false { ops with aux := 9, m := 8 }).command? =
      some (.tick ops.main 9 ⟨true, false, 3, 1, 8, ops.formant⟩) ∧ nearHop.valid = true := ⟨rfl, rfl, rfl⟩

/-- `MorphBinsAreLanes`: spectra that agree in one bin and differ in another. -/
theorem witness_lanes : (4 : Nat) < numBinsOf 3 ∧
    binAt [⟨1, 1⟩, ⟨0, 0⟩, ⟨0, 0⟩, ⟨0, 0⟩, ⟨oneW, 0⟩] 4 = binAt [⟨2, 2⟩, ⟨0, 0⟩, ⟨0, 0⟩, ⟨0, 0⟩, ⟨oneW, 0⟩] 4 := by decide

/-- `BoundaryMorphFactors`, `LinearBlendEnds`: zero and the largest finite value, both zeros of a phase, the ends of the
phase range and of the bins. -/
theorem witness_boundary : isFinite posZero = true ∧ signBit posZero = false ∧ isFinite 0x7F7FFFFF = true ∧
    signBit 0x7F7FFFFF = false ∧ isFinite negZero = true ∧ absBits piW ≤ absBits piW ∧
    absBits (fneg piW) ≤ absBits piW ∧ 0 < numBinsOf 2 ∧ 2 < numBinsOf 2 ∧ 31 ≤ 31 ∧
    0 < numBinsOf 31 := by decide

/-- `WrapLandsInRange`: both ends of the range, the least value past it, the largest finite one, an infinity and a NaN. -/
theorem witness_wrap : absBits piW ≤ absBits piW ∧ absBits (fneg piW) ≤ absBits piW ∧ isFinite 0x40490FDC = true ∧
    absBits piW < absBits 0x40490FDC ∧ absBits piW < absBits 0xFF7FFFFF ∧ isFinite 0xFF7FFFFF = true ∧ isFinite 0x7F7FFFFF = true ∧ isFinite 0x7F800000 = false ∧ isFinite 0x7FC00000 = false := by decide

/-- `SilentBinsStaySilent`: zeros of both signs, both ends of m, the first and the last bin. -/
theorem witness_silent_bins : binZero ⟨negZero, posZero⟩ = true ∧ binZero ⟨posZero, negZero⟩ = true ∧
    fle posZero posZero = true ∧ fle posZero oneW = true ∧ fle oneW oneW = true ∧ 0 < numBinsOf 31 ∧ 4 < numBinsOf 3 := by
  decide

/-- `SilenceInSilenceOut`: a run of zero samples of both signs, with every kind of path. -/
theorem witness_silence : ∀ x ∈ [(⟨0, 0, false, true, ⟨halfW, 0, negZero, posZero⟩⟩ : TickArgs),
    ⟨9, 3, true, false, ⟨oneW, 7, posZero, negZero⟩⟩, ⟨3, 1, false, false, ⟨posZero, 0, posZero, posZero⟩⟩],
    isZero x.o.main = true ∧ isZero x.o.aux = true ∧ fle posZero x.o.m = true ∧ fle x.o.m oneW = true := by decide

theorem toReal_oneW : toReal oneW = 1 := by
  have h : units oneW = 2 ^ 149 := by decide +kernel
  unfold toReal
  rw [h, Int.cast_pow, Int.cast_ofNat, div_self (pow_ne_zero _ two_ne_zero)]

/-- A run of bypassed TICKs with `k` samples of 1.0. -/
def ones (k : Nat) : List TickArgs := List.replicate k ⟨5, 4, true, false, ⟨0, 0, oneW, 0⟩⟩

/-- `FirstResponsesAreZero`: as many TICKs as it admits. -/
theorem witness_first_responses : (ones 2).length ≤ hopSizeOf 3 := by decide

/-- `BypassReconstructsInput`: five TICKs at N = 4, the last of which answers the first input. -/
theorem witness_reconstruct : (∀ x ∈ ones 5, x.bp = true) ∧
    (∀ x ∈ ones 5, isFinite x.o.main = true ∧ |toReal x.o.main| ≤ 2 ^ 100) ∧
    (∃ s, runInstrs ((ones 5).map TickArgs.instr) (State.resetOf 2) = .next s) ∧
    frameSize 2 ≤ 4 ∧ 4 < (ones 5).length := by
  refine ⟨by decide, ?_, ⟨_, rfl⟩, by decide, by decide⟩
  intro x hx
  rw [List.eq_of_mem_replicate hx]
  refine ⟨by decide, ?_⟩
  change |toReal oneW| ≤ 2 ^ 100
  rw [toReal_oneW, abs_one]
  exact one_le_pow₀ (by norm_num)

/-- `RecentTicksDetermineState`: two runs at N = 4 that differ in TICK 0 only. -/
theorem witness_recent : (2 : Nat) ≤ 2 ∧ (ones 9).length = (TickArgs.none :: ones 8).length ∧
    tickNumber (ones 9) 0 ≠ tickNumber (TickArgs.none :: ones 8) 0 ∧
    (∀ u, u < 9 → 9 < u + 2 * frameSize 2 → tickNumber (ones 9) u = tickNumber (TickArgs.none :: ones 8) u) ∧
    ∀ u, u < 8 → 8 < u + 2 * frameSize 2 → tickNumber (ones 9) u = tickNumber (TickArgs.none :: ones 8) u := by decide

/-- `BypassRunsAgreeForEveryNum`: a run of nine TICKs at N = 8, bypassed at its four hop boundaries and nowhere else. -/
theorem witness_bypass_runs : let xs := (List.replicate 4 (TickArgs.none :: ones 1)).flatten ++ [TickArgs.none]
    ∀ n, n < xs.length → (n + 1) % hopSizeOf 3 = 0 → (tickNumber xs n).bp = true := by decide

/-- `BlockIsItsTicks`. -/
theorem witness_block : fresh.valid = true ∧ fresh.cmds = [] := ⟨rfl, rfl⟩

/-- `StepKeepsInvariant`: a state that meets the invariant and a step that completes. -/
theorem witness_invariant : ({ nearHop with cmds := tickWords 0x20010000 } : State).Inv ∧
    ∃ t, step { nearHop with cmds := tickWords 0x20010000 } = .next t :=
  ⟨⟨by decide, rfl, fun _ => rfl, fun _ => by decide, fun _ => rfl⟩, ⟨_, rfl⟩⟩

/-- The statements on tables: the least frame size, a place inside the window, the ends, the middle and an inner place of
the ramp and of the crossfade table. -/
theorem witness_tables : 2 ≤ 2 ∧ 1 ≤ frameSize 3 / 2 ∧ 1 ≠ frameSize 3 / 4 ∧ frameSize 3 / 4 ≤ frameSize 3 / 2 ∧ 0 < 1 ∧ 1 < frameSize 2 ∧ 0 ≤ frameSize 2 / 2 ∧ (0 : Nat) ≠ frameSize 2 / 4 ∧
    frameSize 2 / 2 ≤ frameSize 2 / 2 ∧ frameSize 2 / 2 ≠ frameSize 2 / 4 := by decide

/-- `RoundsToNearestEven`: a tie, the last value that rounds to a finite one and the first that does not, of each sign. -/
theorem witness_rounding : rn32 3 2 = 2 ∧ isFinite (rn32 ((2 ^ 25 - 1) * 2 ^ 252 - 1) 1) = true ∧
    isInf (rn32 ((2 ^ 25 - 1) * 2 ^ 252) 1) = true ∧ rn32 (-((2 ^ 25 - 1) * 2 ^ 252)) 1 = 0xFF800000 := by decide +kernel

/-- `ArithmeticRoundsOnce`, `SquareRootRoundsCorrectly`: finite operands with finite results and with results past the
bound, and a root of `-0.0`. -/
theorem witness_arithmetic : isFinite oneW = true ∧ isFinite threeW = true ∧ isZero threeW = false ∧
    isFinite (fadd oneW threeW) = true ∧ isFinite (fsub oneW threeW) = true ∧ isFinite (fmul oneW threeW) = true ∧
    isFinite (fdiv oneW threeW) = true ∧ isFinite 0x7F7FFFFF = true ∧ isInf (fadd 0x7F7FFFFF 0x7F7FFFFF) = true ∧
    isInf (fmul 0x7F7FFFFF threeW) = true ∧ isInf (fdiv 0x7F7FFFFF halfW) = true ∧ isZero halfW = false ∧
    signBit threeW = false ∧ isZero negZero = true ∧ isFinite negZero = true := by
  decide +kernel

/-- `ArithmeticSpecialCases`, `OrderedComparisons`, `SelectionKeepsFirstOperand`: an operand of each kind. -/
theorem witness_special : isInf 0x7F800000 = true ∧ isInf 0xFF800000 = true ∧
    signBit 0x7F800000 ≠ signBit 0xFF800000 ∧ isZero negZero = true ∧ isZero posZero = true ∧ isZero oneW = false ∧
    isFinite oneW = true ∧ isNaN oneW = false ∧ isNaN 0x7F800001 = true ∧ (isNaN 0x7F800001 || isNaN oneW) = true ∧
    isNaN 0xBF800000 = false ∧ isZero 0xBF800000 = false ∧ signBit 0xBF800000 = true ∧ isNaN 0xFF800000 = false ∧
    isZero 0xFF800000 = false ∧ signBit 0xFF800000 = true ∧ isFinite negZero = true ∧ flt posZero oneW = true ∧
    flt oneW posZero = false := by decide

/-- An impulse at N = 4. -/
def impulse (w : Word) : List Word := [w, posZero, posZero, posZero]

/-- Its spectrum under NUM_RADIX2. -/
def flatSpectrum (w : Word) : List Bin := List.replicate 3 ⟨w, posZero⟩

/-- "Exactly, in both instances" (42_transform.md R150, an impulse), for the unit and for the smallest subnormal. -/
theorem test_impulse : (numRadix2.rfft 2 (impulse oneW) = flatSpectrum oneW ∧ numRadix2.roundTrip 2 (impulse oneW) = impulse oneW) ∧
    numRadix2.rfft 2 (impulse 1) = flatSpectrum 1 ∧ numRadix2.roundTrip 2 (impulse 1) = impulse 1 := by
  change (radix2Rfft 2 (impulse oneW) = _ ∧ radix2Irfft 2 (radix2Rfft 2 (impulse oneW)) = _) ∧
    radix2Rfft 2 (impulse 1) = _ ∧ radix2Irfft 2 (radix2Rfft 2 (impulse 1)) = _
  decide +kernel

section
variable (w : Word)

theorem impulse_l1 : l1Frame 2 (impulse w) = |toReal w| := by
  simp [l1Frame, frameSize, Finset.sum_range_succ, frameAt, impulse, toReal_posZero]

theorem impulse_dft (k : Nat) : dftRe 2 (impulse w) k = toReal w ∧ dftIm 2 (impulse w) k = 0 := by
  simp [dftRe, dftIm, realRfftRe, realRfftIm, frameSize, Finset.sum_range_succ, frameAt, impulse, toReal_posZero, turnAngle]

theorem flat_l1 : l1Spectrum 2 (flatSpectrum w) = 3 * |toReal w| := by
  simp [l1Spectrum, numBinsOf, frameSize, Finset.sum_range_succ, binAt, flatSpectrum, toReal_posZero]
  ring

theorem flat_idft : idft 2 (flatSpectrum w) 0 = toReal w := by
  simp [idft, realIrfft, frameSize, binAt, flatSpectrum, turnAngle]
  ring

/-- P3 applies twice to an impulse of at most 1. -/
theorem impulse_applies (hw : isFinite w = true) (hw1 : |toReal w| ≤ 1)
    (hs : numRadix2.rfft 2 (impulse w) = flatSpectrum w) : numRadix2.AppliesTwice 2 (impulse w) := by
  have hlt : |toReal w| < 2 ^ 127 := hw1.trans_lt (by norm_num)
  refine ⟨⟨rfl, ?_, fun k _ => ?_⟩, hs ▸ ⟨List.length_replicate, fun b hb => ?_, fun n _ => ?_⟩⟩
  · intro a ha
    simp only [impulse, List.mem_cons, List.not_mem_nil, or_false] at ha
    rcases ha with rfl | rfl | rfl | rfl
    · exact hw
    all_goals decide
  · rw [(impulse_dft w k).1, (impulse_dft w k).2, abs_zero]
    exact ⟨hlt, by norm_num⟩
  · rw [List.eq_of_mem_replicate hb, binFinite_iff]
    exact ⟨hw, (by decide : isFinite posZero = true)⟩
  · refine (idft_le 2 _ n le_rfl).trans_lt ?_
    rw [flat_l1]
    refine lt_of_le_of_lt ?_ (show (2 : ℝ) < 2 ^ 127 by norm_num)
    norm_num [frameSize]
    linarith

end

/-- `TransformRoundTrip`: both named instances; the unit impulse under NUM_RADIX2 with all that the second, third and last
clauses ask, at the first and the last sample. -/
theorem witness_round_trip : numIdeal.Admissible 2 Tolerances.default ∧ numRadix2.Admissible 2 radix2Tolerances ∧
    radix2Tolerances.fft ≤ 2 / 3 ∧ 0 < frameSize 2 ∧ 3 < frameSize 2 ∧ numRadix2.AppliesTwice 2 (impulse oneW) ∧
    isFinite (frameAt (numRadix2.roundTrip 2 (impulse oneW)) 0) = true ∧
    isFinite (frameAt (numRadix2.roundTrip 2 (impulse oneW)) 3) = true ∧
    forwardSlack 2 ≤ radix2Tolerances.fft * l1Frame 2 (impulse oneW) ∧ (impulse oneW).length = frameSize 2 ∧
    (∀ w ∈ impulse oneW, isFinite w = true) ∧ 4 * frameSize 2 * l1Frame 2 (impulse oneW) ≤ 2 ^ 126 := by
  have ha := impulse_applies oneW (by decide) (by rw [toReal_oneW, abs_one]) test_impulse.1.1
  refine ⟨numIdeal_admissible 2 le_rfl, numRadix2_admissible 2 le_rfl (by norm_num), ?_, by decide, by decide, ha, ?_, ?_, ?_,
    rfl, ha.1.2.1, ?_⟩
  · change (1 : ℝ) / 2 ^ 16 ≤ 2 / 3
    norm_num
  · rw [test_impulse.1.2]
    decide
  · rw [test_impulse.1.2]
    decide
  · change _ ≤ (1 : ℝ) / 2 ^ 16 * _
    rw [impulse_l1, toReal_oneW]
    norm_num [forwardSlack, frameSize]
  · rw [impulse_l1, toReal_oneW]
    norm_num [frameSize]

/-- `TransformRoundTrip`, first and fourth clauses: the impulse of the smallest subnormal, far below the slack, on which
NUM_RADIX2 meets the letter of P3; it is the NUM of the statement and the named instance at once. -/
theorem witness_round_trip_subnormal : numRadix2.Admissible 2 radix2Tolerances ∧ numRadix2.AppliesTwice 2 (impulse 1) ∧
    radix2Tolerances.fft * l1Frame 2 (impulse 1) < forwardSlack 2 ∧ numRadix2.MeetsForward 2 radix2Tolerances (impulse 1) ∧
    numRadix2.MeetsInverse 2 radix2Tolerances (numRadix2.rfft 2 (impulse 1)) 0 ∧ radix2Tolerances.fft ≤ 2 / 3 ∧ 0 < frameSize 2 := by
  have hu : toReal (1 : Word) = 1 / 2 ^ 149 := toReal_least
  have hl : |toReal (1 : Word)| = 1 / 2 ^ 149 := by rw [hu, abs_of_pos (by positivity)]
  have hb : 0 ≤ forwardLetter 2 radix2Tolerances (impulse 1) := mul_nonneg radix2Tolerances.fft_pos.le (l1Frame_nonneg _ _)
  refine ⟨numRadix2_admissible 2 le_rfl (by norm_num), impulse_applies 1 (by decide) (by rw [hl]; norm_num) test_impulse.2.1, ?_,
    fun k hk => ?_, ?_, (by norm_num : (1 : ℝ) / 2 ^ 16 ≤ 2 / 3), by decide⟩
  · change (1 : ℝ) / 2 ^ 16 * _ < _
    rw [impulse_l1, hl]
    norm_num [forwardSlack, frameSize]
  · have he : binAt (flatSpectrum 1) k = ⟨1, posZero⟩ := by
      unfold numBinsOf frameSize at hk
      interval_cases k <;> rfl
    rw [test_impulse.2.1, he, (impulse_dft 1 k).1, (impulse_dft 1 k).2]
    exact ⟨⟨by decide, by simpa using hb⟩, by decide, by simpa [toReal_posZero] using hb⟩
  · have hs : frameAt (numRadix2.irfft 2 (numRadix2.rfft 2 (impulse 1))) 0 = 1 := by
      change frameAt (numRadix2.roundTrip 2 (impulse 1)) 0 = 1
      rw [test_impulse.2.2]
      rfl
    unfold Numerics.MeetsInverse
    rw [hs, test_impulse.2.1, flat_idft]
    refine ⟨by decide, ?_⟩
    rw [sub_self, abs_zero]
    exact mul_nonneg (mul_nonneg radix2Tolerances.fft_pos.le (by positivity)) (l1Spectrum_nonneg _ _)

/-- `RealTransformsInvert`: the least frame size, the last sample, both real bins and the one between them. -/
theorem witness_transforms_invert : 2 ≤ 2 ∧ 3 < frameSize 2 ∧ 0 ≤ frameSize 2 / 2 ∧ 1 ≤ frameSize 2 / 2 ∧
    (1 : Nat) ≠ frameSize 2 / 2 ∧ 2 = frameSize 2 / 2 := by decide

end Sys2Proof.Tests
end

section
/-! The frame size and the hop (10_state.md R25 to R28): N is four hops, and what one TICK does to a count kept modulo a
number, as `pos` and `hopCount` are. -/

namespace Sys2Proof.Machine

theorem frameSize_eq_four_hops (p : Nat) (hp : 2 ≤ p) : frameSize p = 4 * hopSizeOf p := by
  have h4 : 4 ∣ 2 ^ p := pow_dvd_pow 2 hp
  exact (Nat.mul_div_cancel' h4).symm

theorem hopSizeOf_pos (p : Nat) (hp : 2 ≤ p) : 0 < hopSizeOf p := by
  have h4 : 2 ^ 2 ≤ 2 ^ p := Nat.pow_le_pow_right two_pos hp
  exact Nat.div_pos h4 four_pos

theorem hopSizeOf_dvd_frameSize (p : Nat) (hp : 2 ≤ p) : hopSizeOf p ∣ frameSize p :=
  ⟨4, by rw [frameSize_eq_four_hops p hp, Nat.mul_comm]⟩

theorem half_frameSize_eq_two_hops (p : Nat) (hp : 2 ≤ p) : frameSize p / 2 = 2 * hopSizeOf p := by
  rw [frameSize_eq_four_hops p hp]
  omega

/-- A count kept modulo `h` that counts on: back to 0 exactly when it reaches `h`, as the hop counter is (R28). -/
theorem succ_mod_eq_ite (n h : Nat) (hh : 0 < h) : (n + 1) % h = if n % h + 1 = h then 0 else n % h + 1 := by
  have hlt := Nat.mod_lt n hh
  rw [← Nat.mod_add_mod]
  split
  · next he => rw [he, Nat.mod_self]
  · next he => exact Nat.mod_eq_of_lt (by omega)

/-- The place of `pos` within its hop, after `pos` has advanced modulo N. -/
theorem mod_frameSize_mod_hopSizeOf (p n : Nat) (hp : 2 ≤ p) : n % frameSize p % hopSizeOf p = n % hopSizeOf p :=
  Nat.mod_mod_of_dvd n (hopSizeOf_dvd_frameSize p hp)

end Sys2Proof.Machine
end

section
/-! RESET and the initial states (10_state.md R45, 70_reset_and_hazards.md R271). -/

namespace Sys2Proof.Machine

theorem Memory.zero_ring (n : Nat) (sp : Space) : (Memory.zero n).ring sp = List.replicate n posZero := by
  cases sp <;> rfl

theorem exec_reset (s : State) : exec .reset s = .next (resetState s) := rfl

/-- RESET makes the invariant hold whatever the state held, at an admissible frame size. -/
theorem resetState_inv (s : State) (h : s.admissibleSize) : (resetState s).Inv where
  size := h
  idle := resetState_seq s
  rings _ := resetState_wf s
  pos _ := frameSize_pos s
  hop _ := (Nat.zero_mod _).symm

/-- The state after reset is what RESET leaves of it. -/
theorem resetOf_inv (p : Nat) (hp : 2 ≤ p) (hp31 : p ≤ 31) : (State.resetOf p).Inv :=
  resetState_inv (State.resetOf p) ⟨hp, hp31⟩

/-- Before the first RESET the invariant asks for nothing but the frame size and an Idle sequencer. -/
theorem inv_of_invalid (s : State) (hsize : s.admissibleSize) (hseq : s.seq = .idle) (hv : s.valid = false) : s.Inv := by
  have hn : s.valid ≠ true := by simp [hv]
  exact ⟨hsize, hseq, fun h => absurd h hn, fun h => absurd h hn, fun h => absurd h hn⟩

/-- Settles O14: RESET answers `resetState`, whose fields are read off one by one. -/
theorem resetSetsResetValues : Obligations.ResetSetsResetValues := by
  unfold Obligations.ResetSetsResetValues
  intro s
  refine ⟨resetState s, exec_reset s, fun sp => ?_, resetState_pos s, resetState_hopCount s, resetState_seq s,
    resetState_valid s, resetState_logN s, resetState_cmds s, resetState_resps s⟩
  rw [resetState_mem, Memory.zero_ring]

/-- Settles O48: reset is RESET at the size given, and at power-on the state is not valid yet. -/
theorem invariantHoldsInitially : Obligations.InvariantHoldsInitially := by
  unfold Obligations.InvariantHoldsInitially
  refine ⟨resetOf_inv _ (by decide) (by decide), resetOf_inv, fun p mem pos hop hp hp31 => ?_⟩
  exact inv_of_invalid (State.powerOn p mem pos hop) ⟨hp, hp31⟩ rfl rfl

end Sys2Proof.Machine
end

section
/-! The invariant is kept, command by command (10_state.md R20, R26 to R29). -/

namespace Sys2Proof.Machine

/-- The invariant does not look at the two host streams. -/
theorem State.Inv.withStreams {s : State} (h : s.Inv) (cs rs : List Word) : { s with cmds := cs, resps := rs }.Inv :=
  ⟨h.size, h.idle, h.rings, h.pos, h.hop⟩

section
variable (num : Numerics) (main aux : Word) (cfg : Cfg) (s : State)

@[simp] theorem tickState_frameSize : (tickState num main aux cfg s).frameSize = s.frameSize := by
  rw [State.frameSize, State.frameSize, tickState_logN]

@[simp] theorem tickState_hopSize : (tickState num main aux cfg s).hopSize = s.hopSize := by
  rw [State.hopSize, State.hopSize, tickState_logN]

end

/-- A TICK advances `pos` modulo N and the hop counter modulo hopSize, so the counter stays the place within the hop. -/
theorem tickState_inv (num : Numerics) (main aux : Word) (cfg : Cfg) (s : State) (h : s.Inv) (hv : s.valid = true) :
    (tickState num main aux cfg s).Inv where
  size := by rw [State.admissibleSize, tickState_logN]; exact h.size
  idle := tickState_seq _ _ _ _ _ h.idle
  rings _ := by
    rw [tickState_frameSize]
    exact tickState_wf num main aux cfg s (h.rings hv)
  pos _ := by
    rw [tickState_frameSize, tickState_pos]
    exact Nat.mod_lt _ (frameSize_pos s)
  hop _ := by
    have hp := h.size.1
    have hpos : (s.pos + 1) % s.frameSize % s.hopSize = (s.pos + 1) % s.hopSize :=
      mod_frameSize_mod_hopSizeOf s.logN _ hp
    rw [tickState_hopCount, tickState_hopSize, tickState_pos, hpos, h.hop hv]
    exact (succ_mod_eq_ite _ _ (hopSizeOf_pos s.logN hp)).symm

/-- Every instruction that completes keeps the invariant. -/
theorem exec_inv (i : Instr) (s t : State) (hs : s.Inv) (h : exec i s = .next t) : t.Inv := by
  obtain ⟨-, rfl⟩ | ⟨-, rfl⟩ | ⟨main, aux, cfg, -, hv, rfl⟩ := exec_cases i s t h
  · exact resetState_inv s hs.size
  · exact hs.withStreams _ _
  · exact tickState_inv _ _ _ _ s hs hv

/-- Settles O47: an idle step keeps the state, any other step runs one instruction on the state with its words accepted. -/
theorem stepKeepsInvariant : Obligations.StepKeepsInvariant := by
  unfold Obligations.StepKeepsInvariant
  intro s t hs h
  obtain ⟨-, rfl⟩ | ⟨i, rest, -, hexec⟩ := step_cases s t h
  · exact hs
  · exact exec_inv i _ t (hs.withStreams rest s.resps) hexec

end Sys2Proof.Machine
end

section
/-! The counters over a run of TICKs (10_state.md R28). -/

namespace Sys2Proof.Machine

/-- A state of frame size `2^p`, valid, whose two counters stand at `n` TICKs since RESET. -/
structure State.Counted (p n : Nat) (s : State) : Prop where
  logN : s.logN = p
  valid : s.valid = true
  pos : s.pos = n % Machine.frameSize p
  hop : s.hopCount = n % hopSizeOf p

theorem resetOf_counted (p : Nat) : (State.resetOf p).Counted p 0 :=
  ⟨rfl, rfl, (Nat.zero_mod _).symm, (Nat.zero_mod _).symm⟩

/-- One more TICK is one more in both counters. -/
theorem tickState_counted (num : Numerics) (main aux : Word) (cfg : Cfg) (p n : Nat) (s : State) (hp : 2 ≤ p)
    (h : s.Counted p n) : (tickState num main aux cfg s).Counted p (n + 1) where
  logN := by rw [tickState_logN, h.logN]
  valid := by rw [tickState_valid, h.valid]
  pos := by rw [tickState_pos, State.frameSize, h.logN, h.pos, Nat.mod_add_mod]
  hop := by rw [tickState_hopCount, State.hopSize, h.logN, h.hop, succ_mod_eq_ite n _ (hopSizeOf_pos p hp)]

/-- A TICK of a run, after RESET, completes with the state of `tickState`. -/
theorem exec_tickArgs (x : TickArgs) (s : State) (hv : s.valid = true) :
    exec x.instr s = .next (tickState Config.num x.o.main x.o.aux x.cfg s) :=
  tickWith_valid _ _ _ _ s hv

theorem runInstrs_cons_of_next (i : Instr) (is : List Instr) (s t : State) (h : exec i s = .next t) :
    runInstrs (i :: is) s = runInstrs is t := by
  rw [runInstrs, h]

/-- A run of TICKs completes and counts every one of them. -/
theorem runInstrs_counted (p : Nat) (hp : 2 ≤ p) (xs : List TickArgs) (n : Nat) (s : State) (h : s.Counted p n) :
    ∃ t, runInstrs (xs.map TickArgs.instr) s = .next t ∧ t.Counted p (n + xs.length) := by
  induction xs generalizing n s with
  | nil => exact ⟨s, rfl, h⟩
  | cons x xs ih =>
    obtain ⟨t, hrun, ht⟩ := ih (n + 1) _ (tickState_counted Config.num x.o.main x.o.aux x.cfg p n s hp h)
    refine ⟨t, ?_, ?_⟩
    · rw [List.map_cons, runInstrs_cons_of_next _ _ _ _ (exec_tickArgs x s h.valid), hrun]
    · rwa [List.length_cons, Nat.add_comm xs.length, ← Nat.add_assoc]

/-- After `n` TICKs the next one is a hop boundary exactly when it completes a hop. -/
theorem hopNext_iff_of_counted (p n : Nat) (hp : 2 ≤ p) (s : State) (h : s.Counted p n) :
    s.hopNext ↔ (n + 1) % hopSizeOf p = 0 := by
  rw [State.hopNext, State.hopSize, h.logN, h.hop, succ_mod_eq_ite n _ (hopSizeOf_pos p hp)]
  split
  · next he => exact iff_of_true he rfl
  · next he => exact iff_of_false he (Nat.succ_ne_zero _)

/-- Settles O41, by induction on the run from the state after RESET. -/
theorem countersCountTicks : Obligations.CountersCountTicks := by
  unfold Obligations.CountersCountTicks
  intro p xs hp
  obtain ⟨t, hrun, ht⟩ := runInstrs_counted p hp xs 0 _ (resetOf_counted p)
  rw [Nat.zero_add] at ht
  exact ⟨t, hrun, ht.pos, ht.hop, hopNext_iff_of_counted p _ hp t ht⟩

end Sys2Proof.Machine
end

section
/-! The formant word is carried and never read (10_state.md R38): of the configuration, FRAME reads the bypass bit and the
morph of each bin reads the selectors, the morph factor and the invert-phase bit. -/

namespace Sys2Proof.Machine

section
variable (num : Numerics) (cfg : Cfg) (f : Word)

theorem morphPolar_formant (p i : Nat) (a b : Polar) :
    morphPolar p i a b { cfg with formant := f } = morphPolar p i a b cfg := rfl

theorem morph_formant (p : Nat) (xm xa : List Bin) :
    morph num p xm xa { cfg with formant := f } = morph num p xm xa cfg := by
  simp only [morph, morphBin, morphPolar_formant]

theorem resynthesised_formant (p : Nat) (fm fa : List Word) :
    resynthesised num p { cfg with formant := f } fm fa = resynthesised num p cfg fm fa := by
  simp only [resynthesised, spectralPath, morph_formant]

theorem frame_formant (s : State) : frame num { cfg with formant := f } s = frame num cfg s := by
  simp only [frame, resynthesised_formant]

theorem tickState_formant (main aux : Word) (s : State) :
    tickState num main aux { cfg with formant := f } s = tickState num main aux cfg s := by
  simp only [tickState, hopTest, hopBoundary, frame_formant]

theorem tickWith_formant (main aux : Word) (s : State) :
    tickWith num main aux { cfg with formant := f } s = tickWith num main aux cfg s := by
  simp only [tickWith, tickState_formant]

end

/-- Settles O27: either row is the TICK of its command, and the two TICKs differ in the formant word only. -/
theorem formantIsIgnored : Obligations.FormantIsIgnored := by
  unfold Obligations.FormantIsIgnored
  intro i j main aux f cfg s hi hj
  rw [exec_command i _ s hi, exec_command j _ s hj]
  exact (tickWith_formant Config.num cfg f main aux s).symm

end Sys2Proof.Machine
end

section
/-! The crossfade table and the phase ramp (10_state.md R31, R32): each entry is RN32 of one real quotient, so what holds of
RN32 (`rnReal`) gives the ends, the middles, the error and the symmetry. -/

namespace Sys2Proof.Machine

/-! ## RN32 of a negated number -/

theorem fneg_mkWord (neg : Bool) (m : Nat) (h : m < 2 ^ 31) : fneg (mkWord neg m) = mkWord (!neg) m := by
  rw [← mkWord_absBits (fneg (mkWord neg m)), signBit_fneg, absBits_fneg, signBit_mkWord _ _ h, absBits_mkWord _ _ h]

/-- RN32 is odd but at zero, where both signs give `+0.0` (00_scope.md R17). -/
theorem rnReal_neg (v : ℝ) (hv : v ≠ 0) : rnReal (-v) = fneg (rnReal v) := by
  have hsign : decide (-v < 0) = !decide (v < 0) := by
    rw [← decide_not, decide_eq_decide, neg_lt_zero, not_lt, le_iff_lt_or_eq, or_iff_left hv.symm]
  unfold rnReal
  rw [fneg_mkWord _ _ (roundMagReal_lt _), abs_neg, hsign]

/-- The tables give `rn32` a real number as a quotient scaled to units of 2^-149. -/
theorem rn32_scaled (x : Int) (d : Nat) (hd : 0 < d) : rn32 (x * (2 ^ 149 : Nat)) d = rnReal ((x : ℝ) / d) := by
  have hv : ((x * (2 ^ 149 : Nat) : Int) : ℝ) / d / 2 ^ 149 = (x : ℝ) / d := by
    rw [Int.cast_mul, Int.cast_natCast, Nat.cast_pow, Nat.cast_ofNat, div_right_comm, mul_div_cancel_right₀]
    positivity
  rw [← rnReal_div _ d hd, hv]

/-! ## The crossfade table -/

theorem cast_frameSize (p : Nat) : (frameSize p : ℝ) = 2 ^ p := by
  rw [frameSize, Nat.cast_pow, Nat.cast_ofNat]

theorem blend_eq_rnReal (p i : Nat) : blend p i = rnReal (2 * i / 2 ^ p) := by
  have hN : 0 < frameSize p := Nat.two_pow_pos p
  rw [blend, Nat.cast_mul (2 * i), rn32_scaled _ _ hN, cast_frameSize]
  push_cast
  rfl

theorem rnReal_half : rnReal (1 / 2) = halfW := by
  have h := rn32_scaled 1 2 two_pos
  rw [Int.cast_one, Nat.cast_ofNat] at h
  rw [← h]
  decide +kernel

theorem blend_first (p : Nat) : blend p 0 = posZero := by
  rw [blend_eq_rnReal, Nat.cast_zero, mul_zero, zero_div, rnReal_zero]

/-- The frame size as a real number, in hops. -/
theorem two_pow_eq_four_hops (p : Nat) (hp : 2 ≤ p) : (2 : ℝ) ^ p = 4 * hopSizeOf p := by
  exact_mod_cast frameSize_eq_four_hops p hp

theorem cast_hopSizeOf_pos (p : Nat) (hp : 2 ≤ p) : (0 : ℝ) < hopSizeOf p := by
  exact_mod_cast hopSizeOf_pos p hp

theorem blend_middle (p : Nat) (hp : 2 ≤ p) : blend p (frameSize p / 4) = halfW := by
  have hh := cast_hopSizeOf_pos p hp
  have hv : 2 * (hopSizeOf p : ℝ) / 2 ^ p = 1 / 2 := by
    rw [two_pow_eq_four_hops p hp]
    field_simp
    norm_num
  rw [blend_eq_rnReal, ← rnReal_half, ← hv]
  rfl

theorem blend_last (p : Nat) (hp : 2 ≤ p) : blend p (frameSize p / 2) = oneW := by
  have hh := cast_hopSizeOf_pos p hp
  have hv : 2 * ((2 * hopSizeOf p : Nat) : ℝ) / 2 ^ p = 1 := by
    rw [two_pow_eq_four_hops p hp]
    push_cast
    field_simp
    norm_num
  rw [blend_eq_rnReal, half_frameSize_eq_two_hops p hp, hv, rnReal_one]

/-! ## The phase ramp -/

/-- The number that a ramp entry rounds: `pi*(4*i - N)/N` with the model's value of pi (log 9). -/
noncomputable def rampValue (p i : Nat) : ℝ := (piNum : ℝ) / 2 ^ 192 * ((4 * i - 2 ^ p) / 2 ^ p)

theorem ramp_eq_rnReal (p i : Nat) : ramp p i = rnReal (rampValue p i) := by
  have hv : ((((4 * i : Nat) - (frameSize p : Int)) * piNum : Int) : ℝ) / (2 ^ 192 * frameSize p : Nat) =
      rampValue p i := by
    rw [rampValue, div_mul_div_comm, mul_comm (piNum : ℝ), Nat.cast_mul (2 ^ 192), Nat.cast_pow, Nat.cast_ofNat,
      ← cast_frameSize p]
    push_cast
    rfl
  have hd : 0 < 2 ^ 192 * frameSize p := Nat.mul_pos (Nat.two_pow_pos 192) (Nat.two_pow_pos p)
  rw [ramp, Nat.cast_mul piNum, ← mul_assoc, rn32_scaled _ _ hd, hv]

/-- RN32 of the model's pi is PI_F (45_numerics.md R221). -/
theorem rnReal_piNum : rnReal ((piNum : ℝ) / 2 ^ 192) = piW := by
  have hv : ((piNum : Int) : ℝ) / (2 ^ 192 : Nat) = (piNum : ℝ) / 2 ^ 192 := by
    rw [Int.cast_natCast, Nat.cast_pow, Nat.cast_ofNat]
  rw [← hv, ← rn32_scaled _ _ (Nat.two_pow_pos 192)]
  decide +kernel

theorem piNum_pos : (0 : ℝ) < (piNum : ℝ) / 2 ^ 192 := by
  unfold piNum
  positivity

/-- Mirrored entries round opposite numbers. -/
theorem rampValue_mirror (p i : Nat) (hp : 2 ≤ p) (hi : i ≤ frameSize p / 2) :
    rampValue p (frameSize p / 2 - i) = -rampValue p i := by
  rw [half_frameSize_eq_two_hops p hp] at hi ⊢
  unfold rampValue
  rw [Nat.cast_sub hi, two_pow_eq_four_hops p hp]
  push_cast
  ring

theorem rampValue_middle (p : Nat) (hp : 2 ≤ p) : rampValue p (frameSize p / 4) = 0 := by
  have h4 : (4 : ℝ) * (frameSize p / 4 : Nat) - 2 ^ p = 0 := sub_eq_zero.2 (two_pow_eq_four_hops p hp).symm
  rw [rampValue, h4, zero_div, mul_zero]

/-- Only the middle entry rounds a zero. -/
theorem rampValue_ne_zero (p i : Nat) (hp : 2 ≤ p) (hi : i ≠ frameSize p / 4) : rampValue p i ≠ 0 := by
  have h4 : (4 : ℝ) * i - 2 ^ p ≠ 0 := by
    rw [two_pow_eq_four_hops p hp, ← mul_sub]
    exact mul_ne_zero four_ne_zero (sub_ne_zero.2 (by exact_mod_cast hi))
  exact mul_ne_zero piNum_pos.ne' (div_ne_zero h4 (by positivity))

theorem ramp_middle (p : Nat) (hp : 2 ≤ p) : ramp p (frameSize p / 4) = posZero := by
  rw [ramp_eq_rnReal, rampValue_middle p hp, rnReal_zero]

theorem ramp_mirror (p i : Nat) (hp : 2 ≤ p) (hi : i ≤ frameSize p / 2) (hm : i ≠ frameSize p / 4) :
    ramp p (frameSize p / 2 - i) = fneg (ramp p i) := by
  rw [ramp_eq_rnReal, ramp_eq_rnReal, rampValue_mirror p i hp hi, rnReal_neg _ (rampValue_ne_zero p i hp hm)]

theorem ramp_first (p : Nat) : ramp p 0 = fneg piW := by
  have hv : rampValue p 0 = -((piNum : ℝ) / 2 ^ 192) := by
    rw [rampValue, Nat.cast_zero, mul_zero, zero_sub, neg_div, div_self (by positivity), mul_neg_one]
  rw [ramp_eq_rnReal, hv, rnReal_neg _ piNum_pos.ne', rnReal_piNum]

theorem fneg_fneg (a : Word) : fneg (fneg a) = a := by
  rw [fneg, fneg, BitVec.xor_assoc, BitVec.xor_self, BitVec.xor_zero]

theorem ramp_last (p : Nat) (hp : 2 ≤ p) : ramp p (frameSize p / 2) = piW := by
  have h0 : 0 ≠ frameSize p / 4 := (hopSizeOf_pos p hp).ne
  have h := ramp_mirror p 0 hp (Nat.zero_le _) h0
  rwa [Nat.sub_zero, ramp_first, fneg_fneg] at h

/-- The place of a bin on the ramp, from -1 to 1. -/
theorem abs_rampPlace_le_one (p i : Nat) (hi : i ≤ frameSize p / 2) : |((4 * i - 2 ^ p) / 2 ^ p : ℝ)| ≤ 1 := by
  have hN : (0 : ℝ) < 2 ^ p := by positivity
  have h2 : 2 * i ≤ 2 ^ p := (Nat.mul_comm 2 i).trans_le ((Nat.le_div_iff_mul_le two_pos).1 hi)
  have h2r : 2 * (i : ℝ) ≤ 2 ^ p := by exact_mod_cast h2
  have h0 : (0 : ℝ) ≤ i := i.cast_nonneg
  rw [abs_div, abs_of_pos hN, div_le_one hN, abs_le]
  constructor <;> linarith

/-- Two errors add up: one rounding of a number below 3.142 in magnitude, and the model's value of pi. -/
theorem ramp_close (p i : Nat) (hi : i ≤ frameSize p / 2) : isFinite (ramp p i) = true ∧
    |toReal (ramp p i) - Real.pi * (4 * i - 2 ^ p) / 2 ^ p| ≤ 1 / 2 ^ 22 := by
  have hx := abs_rampPlace_le_one p i hi
  have hpi := piNum_close
  have hpiBound : |(piNum : ℝ) / 2 ^ 192| ≤ 3.142 := by
    rw [abs_of_pos piNum_pos]
    linarith [(abs_le.1 hpi).2, Real.pi_lt_d4]
  have hv : |rampValue p i| ≤ 3.142 := by
    rw [rampValue, abs_mul]
    exact (mul_le_mul hpiBound hx (abs_nonneg _) (by norm_num)).trans (by norm_num)
  obtain ⟨hfin, hround⟩ := rnReal_close (rampValue p i) (hv.trans (by norm_num))
  have hpiErr : |rampValue p i - Real.pi * (4 * i - 2 ^ p) / 2 ^ p| ≤ 1 / 10 ^ 20 := by
    rw [rampValue, mul_div_assoc, ← sub_mul, abs_mul]
    exact (mul_le_mul hpi hx (abs_nonneg _) (by positivity)).trans (mul_one _).le
  rw [ramp_eq_rnReal]
  refine ⟨hfin, ?_⟩
  calc |toReal (rnReal (rampValue p i)) - Real.pi * (4 * i - 2 ^ p) / 2 ^ p|
      ≤ |toReal (rnReal (rampValue p i)) - rampValue p i| + |rampValue p i - Real.pi * (4 * i - 2 ^ p) / 2 ^ p| :=
        abs_sub_le _ _ _
    _ ≤ (3.142 / 2 ^ 24 + 1 / 2 ^ 150) + 1 / 10 ^ 20 :=
        add_le_add (hround.trans (add_le_add_left (div_le_div_of_nonneg_right hv (by positivity)) _)) hpiErr
    _ ≤ 1 / 2 ^ 22 := by norm_num

/-- Settles O52: the entries of both tables, from RN32 of the numbers they round. -/
theorem blendAndRampEntries : Obligations.BlendAndRampEntries := by
  unfold Obligations.BlendAndRampEntries
  intro p hp
  exact ⟨blend_first p, blend_middle p hp, blend_last p hp, fun i _ => blend_eq_rnReal p i, ramp_first p,
    ramp_middle p hp, ramp_last p hp, fun i hi => ramp_close p i hi, fun i hi hm => ramp_mirror p i hp hi hm⟩

end Sys2Proof.Machine
end

section
/-! Words as bytes (20_memory.md R52, log 19): the four bytes of a word, joined again, are the word. -/

namespace Sys2Proof

/-- Each join extends the stretch of the word read so far by the byte below it. -/
theorem bytes_append_eq (w : Word) :
    (w.extractLsb' 24 8 ++ w.extractLsb' 16 8 ++ w.extractLsb' 8 8 ++ w.extractLsb' 0 8 : Word) = w := by
  have h2 : w.extractLsb' 24 8 ++ w.extractLsb' 16 8 = w.extractLsb' 16 16 :=
    BitVec.extractLsb'_append_extractLsb'_eq_extractLsb' rfl
  have h1 : w.extractLsb' 16 16 ++ w.extractLsb' 8 8 = w.extractLsb' 8 24 :=
    BitVec.extractLsb'_append_extractLsb'_eq_extractLsb' rfl
  have h0 : w.extractLsb' 8 24 ++ w.extractLsb' 0 8 = w.extractLsb' 0 32 :=
    BitVec.extractLsb'_append_extractLsb'_eq_extractLsb' rfl
  rw [h2, h1, h0]
  exact BitVec.extractLsb'_eq_self

/-- The reader takes one word's bytes off the head of a stream. -/
theorem wordsOfBytes_bytesOfWord_append (w : Word) (bs : List Byte) :
    wordsOfBytes (bytesOfWord w ++ bs) = w :: wordsOfBytes bs :=
  congrArg (· :: wordsOfBytes bs) (bytes_append_eq w)

theorem wordsOfBytes_bytesOfWords (ws : List Word) : wordsOfBytes (bytesOfWords ws) = ws := by
  induction ws with
  | nil => rfl
  | cons w ws ih =>
    calc wordsOfBytes (bytesOfWords (w :: ws))
        = wordsOfBytes (bytesOfWord w ++ bytesOfWords ws) := by rw [bytesOfWords, List.flatMap_cons, bytesOfWords]
      _ = w :: ws := by rw [wordsOfBytes_bytesOfWord_append, ih]

/-- The byte of a word that starts at bit `n`. -/
theorem toNat_extractLsb'_eight (w : Word) (n : Nat) : (w.extractLsb' n 8).toNat = w.toNat / 2 ^ n % 256 := by
  rw [BitVec.extractLsb'_toNat, Nat.shiftRight_eq_div_pow]

/-- The bytes of a word are its digits to the base 256, least significant first. -/
theorem bytesOfWord_toNat (w : Word) : (bytesOfWord w).map (·.toNat) =
    [w.toNat % 256, w.toNat / 2 ^ 8 % 256, w.toNat / 2 ^ 16 % 256, w.toNat / 2 ^ 24 % 256] := by
  simp only [bytesOfWord, List.map_cons, List.map_nil, toNat_extractLsb'_eight, pow_zero, Nat.div_one]

/-- Settles O4: by induction on the words, as each word is joined again from its four bytes. -/
theorem serialisedWordsReadBack : Obligations.SerialisedWordsReadBack := by
  unfold Obligations.SerialisedWordsReadBack
  exact fun ws => ⟨wordsOfBytes_bytesOfWords ws, fun w _ => bytesOfWord_toNat w⟩

end Sys2Proof
end

section
/-! The decoder reads an encoded instruction back under the decoder's own name (30_encoding.md R72 to R78, log 10), and the
name changes nothing of what the instruction does (R87). -/

namespace Sys2Proof.Machine

theorem decode_encodeTick (msel psel : BitVec 8) (bp iv : Bool) (o : Operands) (rest : List Word) :
    decode (encodeTick msel psel bp iv o ++ rest) = .ok (nameTick msel psel bp iv o, rest) := by
  change decode (tickWord0 msel psel bp iv :: o.m :: o.formant :: o.main :: o.aux :: rest) = _
  rw [decode_tick _ _ (opcode_tickWord0 msel psel bp iv), if_pos (rsvField_tickWord0 msel psel bp iv), decodeTick,
    mselField_tickWord0, pselField_tickWord0, bypField_tickWord0, invphField_tickWord0]

/-- Every well-formed instruction is read back; all rows but RESET, LAT and the reserved one are five words of a TICK. -/
theorem decode_encode (i : Instr) (rest : List Word) (hi : i.wf = true) :
    decode (encode i ++ rest) = .ok (i.named, rest) := by
  cases i with
  | reset => rfl
  | lat => rfl
  | reservedOpcode w => exact decode_reserved w rest (Bool.eq_false_of_not_eq_true' hi)
  | _ => exact decode_encodeTick _ _ _ _ _ rest

theorem exec_named (i : Instr) (s : State) : exec i.named s = exec i s := by
  cases hc : i.command? with
  | none =>
    obtain ⟨w, rfl⟩ := command?_none i hc
    rfl
  | some c => rw [exec_command i.named c s ((named_command i).trans hc), exec_command i c s hc]

/-- A step on a stream that begins with the words of `i` runs `i` on the state with those words accepted. -/
theorem step_encode_append (i : Instr) (hi : i.wf = true) (rest : List Word) (s : State) :
    step { s with cmds := encode i ++ rest } = exec i { s with cmds := rest } := by
  rw [step_ok _ i.named rest (decode_encode i rest hi), exec_named]

end Sys2Proof.Machine
end

section
/-! No instruction looks at the command stream (20_memory.md R62, 30_encoding.md R70): a step accepts its words, and what it
then does is the same whatever words follow. -/

namespace Sys2Proof.Machine

theorem tickState_withCmds (num : Numerics) (main aux : Word) (cfg : Cfg) (s : State) (cs : List Word) :
    tickState num main aux cfg { s with cmds := cs } = { tickState num main aux cfg s with cmds := cs } := by
  by_cases h : s.hopCount + 1 = s.hopSize
  · rw [tickState_hop _ _ _ _ s h, tickState_hop _ _ _ _ { s with cmds := cs } h]
    rfl
  · rw [tickState_noHop _ _ _ _ s h, tickState_noHop _ _ _ _ { s with cmds := cs } h]
    rfl

/-- Whatever the command stream holds, an instruction completes with the same state, the stream untouched, or is refused
for the same reason. -/
theorem exec_withCmds (i : Instr) (s : State) (cs : List Word) :
    (∃ t, exec i s = .next t ∧ t.cmds = s.cmds ∧ exec i { s with cmds := cs } = .next { t with cmds := cs }) ∨
      ∃ r, exec i s = .refused r ∧ exec i { s with cmds := cs } = .refused r := by
  cases hc : i.command? with
  | none =>
    obtain ⟨w, rfl⟩ := command?_none i hc
    exact .inr ⟨_, rfl, rfl⟩
  | some c =>
    rw [exec_command i c s hc, exec_command i c _ hc]
    cases c with
    | reset => exact .inl ⟨_, rfl, resetState_cmds s, rfl⟩
    | latency => exact .inl ⟨_, rfl, respond_cmds _ s, rfl⟩
    | tick main aux cfg =>
      obtain hv | hv := Bool.eq_false_or_eq_true s.valid
      · refine .inl ⟨_, tickWith_valid _ _ _ _ s hv, tickState_cmds _ _ _ _ s, ?_⟩
        rw [← tickState_withCmds]
        exact tickWith_valid _ _ _ _ { s with cmds := cs } hv
      · exact .inr ⟨_, tickWith_invalid _ _ _ _ s hv, tickWith_invalid _ _ _ _ { s with cmds := cs } hv⟩

/-- Settles O11: by induction on the instructions, as a step on the words of the first one runs it, with the words of the
others still in the stream. -/
theorem streamRunsInstructions : Obligations.StreamRunsInstructions := by
  unfold Obligations.StreamRunsInstructions
  intro is
  induction is with
  | nil => exact fun _ _ => rfl
  | cons i is ih =>
    intro s hwf
    obtain ⟨hi, his⟩ := List.forall_mem_cons.1 hwf
    have hstep := step_encode_append i hi (is.flatMap encode ++ s.cmds) s
    rw [List.flatMap_cons, List.append_assoc, List.length_cons, runSteps, runInstrs, hstep]
    obtain ⟨t, hrun, hcmds, hrun'⟩ | ⟨r, hrun, hrun'⟩ := exec_withCmds i s (is.flatMap encode ++ s.cmds)
    · rw [hrun, hrun', ← hcmds]
      exact ih t his
    · rw [hrun, hrun']

end Sys2Proof.Machine
end

section
/-! The words of an instruction and the decoder's name for it are those of the command it stands for (30_encoding.md R79,
R87, log 10): whatever is said of one row of a TICK holds of every row with the same five words. -/

namespace Sys2Proof

/-- The words that spell a command (R74, R75). -/
def Command.words : Command → List Word
  | .reset => [0x10000000#32]
  | .latency => [0x30000000#32]
  | .tick main aux cfg => encodeTick cfg.msel cfg.psel cfg.byp cfg.invph ⟨cfg.m, cfg.formant, main, aux⟩

/-- The row by which the decoder names a command (log 10). -/
def Command.row : Command → Instr
  | .reset => .reset
  | .latency => .lat
  | .tick main aux cfg => nameTick cfg.msel cfg.psel cfg.byp cfg.invph ⟨cfg.m, cfg.formant, main, aux⟩

theorem encode_of_command (i : Instr) (c : Command) (h : i.command? = some c) : encode i = c.words := by
  cases i <;> cases h <;> rfl

theorem named_of_command (i : Instr) (c : Command) (h : i.command? = some c) : i.named = c.row := by
  cases i <;> cases h <;> rfl

/-! ## The name of a TICK -/

section
variable (msel psel : BitVec 8) (bp iv : Bool) (o : Operands)

theorem encode_nameTick : encode (nameTick msel psel bp iv o) = encodeTick msel psel bp iv o :=
  encode_of_command _ _ (nameTick_command msel psel bp iv o)

theorem named_nameTick : (nameTick msel psel bp iv o).named = nameTick msel psel bp iv o :=
  named_of_command _ _ (nameTick_command msel psel bp iv o)

theorem nameByMag_wf : (nameByMag msel o).wf = true := by
  unfold nameByMag
  split <;> rfl

theorem nameByPhase_wf : (nameByPhase psel o).wf = true := by
  unfold nameByPhase
  split <;> rfl

/-- The decoder names a TICK by an out-of-range row only where it has found that selector out of range. -/
theorem nameTick_wf : (nameTick msel psel bp iv o).wf = true := by
  unfold nameTick
  split
  · rfl
  split
  · rfl
  split
  · split
    · rfl
    · exact nameByMag_wf msel o
  split
  · exact nameByPhase_wf psel o
  split
  · next hmsel => exact hmsel
  split
  · next hpsel => exact hpsel
  · rfl

end

/-! ## The decoder's name of an instruction -/

theorem named_wf (i : Instr) (hi : i.wf = true) : i.named.wf = true := by
  cases i with
  | reset => rfl
  | lat => rfl
  | reservedOpcode w => exact hi
  | _ => exact nameTick_wf _ _ _ _ _

theorem encode_named (i : Instr) : encode i.named = encode i := by
  cases hc : i.command? with
  | none =>
    obtain ⟨w, rfl⟩ := Machine.command?_none i hc
    rfl
  | some c => rw [encode_of_command i.named c ((named_command i).trans hc), encode_of_command i c hc]

theorem named_named (i : Instr) : i.named.named = i.named := by
  cases hc : i.command? with
  | none =>
    obtain ⟨w, rfl⟩ := Machine.command?_none i hc
    rfl
  | some c => rw [named_of_command i.named c ((named_command i).trans hc), named_of_command i c hc]

/-- Settles O1: the words are read back under the decoder's name, which has the same words and is its own name. -/
theorem decodeReadsEncodedInstruction : Obligations.DecodeReadsEncodedInstruction := by
  unfold Obligations.DecodeReadsEncodedInstruction
  exact fun i rest hi => ⟨Machine.decode_encode i rest hi, encode_named i, named_wf i hi, named_named i⟩

/-- The same words are read as one instruction. -/
theorem named_eq_of_encode_eq (i j : Instr) (hi : i.wf = true) (hj : j.wf = true) (h : encode i = encode j) :
    i.named = j.named := by
  have hread := Machine.decode_encode i [] hi
  rw [h, Machine.decode_encode j [] hj] at hread
  exact (congrArg Prod.fst (Except.ok.inj hread)).symm

/-- Settles O5: either row does what the one instruction does that its words are read as. -/
theorem sameWordsSameEffect : Obligations.SameWordsSameEffect := by
  unfold Obligations.SameWordsSameEffect
  intro i j s hi hj hwords
  rw [← Machine.exec_named i s, named_eq_of_encode_eq i j hi hj hwords, Machine.exec_named j s]

end Sys2Proof
end

section
/-! What the decoder accepts (30_encoding.md R72 to R81): a first word whose opcode and reserved bits are those of a command
is the word that the encoder writes, so no two streams are read alike. -/

namespace Sys2Proof

/-! ## A first word from its fields (R72) -/

theorem opcode_eq_iff (w : Word) (c : BitVec 4) : opcode w = c.toNat ↔ w.extractLsb' 28 4 = c :=
  BitVec.toNat_inj

theorem ofBool_getLsbD (w : Word) (n : Nat) : BitVec.ofBool (w.getLsbD n) = w.extractLsb' n 1 := by
  apply BitVec.eq_of_getLsbD_eq
  intro i hi
  obtain rfl : i = 0 := by omega
  simp

theorem isCommandOpcode_eq_false_iff (w : Word) :
    isCommandOpcode w = false ↔ opcode w ≠ 1 ∧ opcode w ≠ 2 ∧ opcode w ≠ 3 := by
  simp only [isCommandOpcode, Bool.or_eq_false_iff, beq_eq_false_iff_ne, and_assoc]

/-- The opcode and the 28 bits below it make up the word. -/
theorem opcode_append_eq (w : Word) : (w.extractLsb' 28 4 ++ w.extractLsb' 0 28 : Word) = w := by
  have h : w.extractLsb' 28 4 ++ w.extractLsb' 0 28 = w.extractLsb' 0 32 :=
    BitVec.extractLsb'_append_extractLsb'_eq_extractLsb' rfl
  rw [h]
  exact BitVec.extractLsb'_eq_self

/-- The six fields of the first word of a TICK make up the word. -/
theorem fields_append_eq (w : Word) : (w.extractLsb' 28 4 ++ w.extractLsb' 18 10 ++ w.extractLsb' 17 1 ++
    w.extractLsb' 16 1 ++ w.extractLsb' 8 8 ++ w.extractLsb' 0 8 : Word) = w := by
  have h18 : w.extractLsb' 28 4 ++ w.extractLsb' 18 10 = w.extractLsb' 18 14 :=
    BitVec.extractLsb'_append_extractLsb'_eq_extractLsb' rfl
  have h17 : w.extractLsb' 18 14 ++ w.extractLsb' 17 1 = w.extractLsb' 17 15 :=
    BitVec.extractLsb'_append_extractLsb'_eq_extractLsb' rfl
  have h16 : w.extractLsb' 17 15 ++ w.extractLsb' 16 1 = w.extractLsb' 16 16 :=
    BitVec.extractLsb'_append_extractLsb'_eq_extractLsb' rfl
  have h8 : w.extractLsb' 16 16 ++ w.extractLsb' 8 8 = w.extractLsb' 8 24 :=
    BitVec.extractLsb'_append_extractLsb'_eq_extractLsb' rfl
  have h0 : w.extractLsb' 8 24 ++ w.extractLsb' 0 8 = w.extractLsb' 0 32 :=
    BitVec.extractLsb'_append_extractLsb'_eq_extractLsb' rfl
  rw [h18, h17, h16, h8, h0]
  exact BitVec.extractLsb'_eq_self

/-- A RESET or a LAT has one first word: its opcode over 28 zeros. -/
theorem eq_of_opcode_of_shortZero (w : Word) (c : BitVec 4) (hop : opcode w = c.toNat) (hz : shortZero w = true) :
    w = c ++ 0#28 := by
  rw [← opcode_append_eq w, (opcode_eq_iff w c).1 hop, eq_of_beq hz]

/-- The first word of a TICK is the one that the encoder writes from its fields. -/
theorem tickWord0_of_fields (w : Word) (hop : opcode w = 2) (hrsv : rsvField w = 0) :
    tickWord0 (mselField w) (pselField w) (bypField w) (invphField w) = w := by
  have hop' : w.extractLsb' 28 4 = 2#4 := (opcode_eq_iff w 2#4).1 hop
  have hrsv' : w.extractLsb' 18 10 = 0#10 := hrsv
  rw [tickWord0, ← hop', ← hrsv', bypField, invphField, ofBool_getLsbD, ofBool_getLsbD]
  exact fields_append_eq w

/-! ## The decoder read backwards -/

theorem decodeTick_ok (w : Word) (ws : List Word) (i : Instr) (rest : List Word)
    (h : decodeTick w ws = .ok (i, rest)) : ∃ o : Operands, ws = o.m :: o.formant :: o.main :: o.aux :: rest ∧
      i = nameTick (mselField w) (pselField w) (bypField w) (invphField w) o := by
  unfold decodeTick at h
  split at h
  · next m formant main aux _ =>
    cases h
    exact ⟨⟨m, formant, main, aux⟩, rfl, rfl⟩
  · cases h

/-- What the decoder can accept: a word with a reserved opcode, the one word of RESET or of LAT, or the five words of a
TICK, each read under the decoder's name. -/
theorem decode_ok_cases (ws : List Word) (i : Instr) (rest : List Word) (h : decode ws = .ok (i, rest)) :
    (∃ w, isCommandOpcode w = false ∧ i = .reservedOpcode w ∧ ws = w :: rest) ∨
      (i = .reset ∧ ws = 0x10000000#32 :: rest) ∨
      (i = .lat ∧ ws = 0x30000000#32 :: rest) ∨
      ∃ msel psel bp iv o, i = nameTick msel psel bp iv o ∧ ws = encodeTick msel psel bp iv o ++ rest := by
  cases ws with
  | nil => cases h
  | cons w ws =>
    by_cases h1 : opcode w = 1
    · rw [Machine.decode_reset w ws h1] at h
      split at h
      · next hz =>
        cases h
        rw [eq_of_opcode_of_shortZero w 1#4 h1 hz]
        exact .inr (.inl ⟨rfl, rfl⟩)
      · cases h
    by_cases h3 : opcode w = 3
    · rw [Machine.decode_lat w ws h3] at h
      split at h
      · next hz =>
        cases h
        rw [eq_of_opcode_of_shortZero w 3#4 h3 hz]
        exact .inr (.inr (.inl ⟨rfl, rfl⟩))
      · cases h
    by_cases h2 : opcode w = 2
    · rw [Machine.decode_tick w ws h2] at h
      split at h
      · next hrsv =>
        obtain ⟨o, rfl, rfl⟩ := decodeTick_ok w ws i rest h
        refine .inr (.inr (.inr ⟨_, _, _, _, o, rfl, ?_⟩))
        rw [encodeTick, tickWord0_of_fields w h2 hrsv]
        rfl
      · cases h
    · have hc : isCommandOpcode w = false := (isCommandOpcode_eq_false_iff w).2 ⟨h1, h2, h3⟩
      rw [Machine.decode_reserved w ws hc] at h
      cases h
      exact .inl ⟨w, hc, rfl, rfl⟩

/-- Settles O2, by what the decoder can accept. -/
theorem encodeRestoresDecodedWords : Obligations.EncodeRestoresDecodedWords := by
  unfold Obligations.EncodeRestoresDecodedWords
  intro ws i rest h
  obtain ⟨w, hc, rfl, rfl⟩ | ⟨rfl, rfl⟩ | ⟨rfl, rfl⟩ | ⟨msel, psel, bp, iv, o, rfl, rfl⟩ := decode_ok_cases ws i rest h
  · exact ⟨by rw [Instr.wf, hc, Bool.not_false], rfl, rfl⟩
  · exact ⟨rfl, rfl, rfl⟩
  · exact ⟨rfl, rfl, rfl⟩
  · exact ⟨nameTick_wf .., named_nameTick .., by rw [encode_nameTick]⟩

/-- Settles O6: an instruction read is well formed (O2), and the step runs it. -/
theorem stepRunsDecodedInstruction : Obligations.StepRunsDecodedInstruction := by
  unfold Obligations.StepRunsDecodedInstruction
  intro s i rest h
  obtain ⟨hwf, -, -⟩ := encodeRestoresDecodedWords s.cmds i rest h
  exact ⟨hwf, Machine.step_ok s i rest h⟩

/-! ## Reserved opcodes and the examples of the spec -/

/-- The reserved opcodes of R81 are those of no command. -/
theorem isCommandOpcode_of_reserved (w : Word) (h : opcode w = 0 ∨ 4 ≤ opcode w) : isCommandOpcode w = false := by
  rw [isCommandOpcode_eq_false_iff]
  omega

theorem exec_reservedOpcode (w : Word) (s : Machine.State) :
    Machine.exec (.reservedOpcode w) s = .refused (.reservedOpcode w) := rfl

/-- Settles O13: the reserved row is refused, and the decoder reads a word with an opcode of no command as that row. -/
theorem reservedOpcodeIsRefused : Obligations.ReservedOpcodeIsRefused := by
  unfold Obligations.ReservedOpcodeIsRefused
  exact ⟨exec_reservedOpcode, fun w rest h => Machine.decode_reserved w rest (isCommandOpcode_of_reserved w h)⟩

/-- Settles O3: the decoder evaluated on each example. -/
theorem exampleWordsDecode : Obligations.ExampleWordsDecode := by
  unfold Obligations.ExampleWordsDecode
  exact ⟨rfl, rfl, rfl, rfl, rfl, rfl, rfl⟩

end Sys2Proof
end

section
/-! A selector out of range selects as `MSEL = 5` and `PSEL = 4` do (30_encoding.md R82): of the configuration FRAME reads
the bypass bit and the polar result of each bin, and out of range the polar result is that of the pass-through. -/

namespace Sys2Proof.Machine

/-! ## Configurations that FRAME cannot tell apart -/

/-- Two configurations with the same bypass bit and the same polar result for every bin of every frame size. -/
structure SameFrame (cfg cfg' : Cfg) : Prop where
  byp : cfg.byp = cfg'.byp
  polar : ∀ p i a b, morphPolar p i a b cfg = morphPolar p i a b cfg'

section
variable {cfg cfg' : Cfg} (h : SameFrame cfg cfg') (num : Numerics)
include h

theorem SameFrame.morph (p : Nat) (xm xa : List Bin) : morph num p xm xa cfg = morph num p xm xa cfg' := by
  simp only [Machine.morph, morphBin, h.polar]

theorem SameFrame.resynthesised (p : Nat) (fm fa : List Word) :
    resynthesised num p cfg fm fa = resynthesised num p cfg' fm fa := by
  simp only [Machine.resynthesised, spectralPath, h.byp, h.morph]

theorem SameFrame.frame (s : State) : frame num cfg s = frame num cfg' s := by
  simp only [Machine.frame, h.resynthesised]

theorem SameFrame.tickWith (main aux : Word) (s : State) : tickWith num main aux cfg s = tickWith num main aux cfg' s := by
  simp only [Machine.tickWith, tickState, hopTest, hopBoundary, h.frame]

end

/-! ## Selectors out of range -/

section
variable (msel psel : BitVec 8) (bp iv : Bool) (o : Operands)

theorem sameFrame_msel_outOfRange (h : 6 ≤ msel.toNat) :
    SameFrame (cfgOf msel psel bp iv o) (cfgOf 5 psel bp iv o) where
  byp := rfl
  polar p i a b := by simp only [morphPolar, cfgOf, magnitude_outOfRange p i msel _ _ _ h, magnitude_allPass]

theorem sameFrame_psel_outOfRange (h : 6 ≤ psel.toNat) :
    SameFrame (cfgOf msel psel bp iv o) (cfgOf msel 4 bp iv o) where
  byp := rfl
  polar p i a b := by simp only [morphPolar, cfgOf, phase_outOfRange p i psel _ _ _ h, phase_preserveMainIn]

theorem tick_msel_outOfRange (h : 6 ≤ msel.toNat) (s : State) : tick msel psel bp iv o s = tick 5 psel bp iv o s :=
  (sameFrame_msel_outOfRange msel psel bp iv o h).tickWith _ _ _ s

theorem tick_psel_outOfRange (h : 6 ≤ psel.toNat) (s : State) : tick msel psel bp iv o s = tick msel 4 bp iv o s :=
  (sameFrame_psel_outOfRange msel psel bp iv o h).tickWith _ _ _ s

end

/-- Settles O29: either row is a TICK with its selectors, and the two TICKs of each pair run FRAMEs that cannot differ. -/
theorem outOfRangeSelectorsPassThrough : Obligations.OutOfRangeSelectorsPassThrough := by
  unfold Obligations.OutOfRangeSelectorsPassThrough
  refine ⟨fun msel psel bp iv o s h => ?_, fun msel psel bp iv o s h => ?_⟩
  · exact ⟨tick_msel_outOfRange msel psel bp iv o h s, tick_msel_outOfRange msel psel bp iv o h s⟩
  · exact ⟨tick_psel_outOfRange msel psel bp iv o h s, tick_psel_outOfRange msel psel bp iv o h s⟩

end Sys2Proof.Machine
end

section
/-! LAT (40_host_commands.md R102). -/

namespace Sys2Proof.Machine

theorem exec_lat (s : State) : exec .lat s = .next (respond (BitVec.ofNat 32 s.frameSize) s) := rfl

/-- Every frame size of log 3 fits a response word (45_numerics.md R227). -/
theorem toNat_ofNat_frameSize (p : Nat) (hp31 : p ≤ 31) : (BitVec.ofNat 32 (frameSize p)).toNat = 2 ^ p := by
  have hlt : 2 ^ p < 2 ^ 32 := Nat.pow_lt_pow_right one_lt_two (Nat.lt_succ_of_le hp31)
  rw [BitVec.toNat_ofNat, frameSize, Nat.mod_eq_of_lt hlt]

/-- Settles O17: LAT is one response, the word of the frame size. -/
theorem latencyAnswersFrameSize : Obligations.LatencyAnswersFrameSize := by
  unfold Obligations.LatencyAnswersFrameSize
  intro s
  refine ⟨_, BitVec.ofNat 32 s.frameSize, exec_lat s, rfl, toNat_ofNat_frameSize s.logN, fun h => ?_, fun h => ?_⟩
  · rw [State.frameSize, h]
    rfl
  · rw [State.frameSize, h]
    rfl

end Sys2Proof.Machine
end

section
/-! One TICK, whatever row names it (40_host_commands.md R101 to R113): the row is the TICK of its command, and what that
TICK leaves is read off by index in the words of the spec. -/

namespace Sys2Proof.Machine

/-! ## Completion and the response -/

theorem exec_tick_of_valid (i : Instr) (main aux : Word) (cfg : Cfg) (s : State)
    (hi : i.command? = some (.tick main aux cfg)) (hv : s.valid = true) :
    exec i s = .next (tickState Config.num main aux cfg s) :=
  (exec_command i _ s hi).trans (tickWith_valid _ _ _ _ s hv)

theorem exec_tick_of_invalid (i : Instr) (main aux : Word) (cfg : Cfg) (s : State)
    (hi : i.command? = some (.tick main aux cfg)) (hv : s.valid = false) : exec i s = .refused .tickBeforeReset :=
  (exec_command i _ s hi).trans (tickWith_invalid _ _ _ _ s hv)

/-- Settles O19. -/
theorem tickBeforeResetIsRefused : Obligations.TickBeforeResetIsRefused := by
  unfold Obligations.TickBeforeResetIsRefused
  exact exec_tick_of_invalid

/-- Settles O30: the response is the word of the output ring at `pos`, read before the TICK writes anything. -/
theorem responseIgnoresOwnOperands : Obligations.ResponseIgnoresOwnOperands := by
  unfold Obligations.ResponseIgnoresOwnOperands
  intro i j main aux main' aux' cfg cfg' s hi hj hv
  refine ⟨_, _, exec_tick_of_valid i main aux cfg s hi hv, exec_tick_of_valid j main' aux' cfg' s hj hv, ?_⟩
  rw [tickState_resps, tickState_resps]

/-- Settles O26: before RESET both TICKs are refused, and after it neither runs a FRAME, the one reader of the
configuration. -/
theorem configurationActsAtHopOnly : Obligations.ConfigurationActsAtHopOnly := by
  unfold Obligations.ConfigurationActsAtHopOnly
  intro i j main aux cfg cfg' s hi hj hhop
  obtain hv | hv := Bool.eq_false_or_eq_true s.valid
  · rw [exec_tick_of_valid i main aux cfg s hi hv, exec_tick_of_valid j main aux cfg' s hj hv,
      tickState_noHop _ _ _ cfg s hhop, tickState_noHop _ _ _ cfg' s hhop]
  · rw [exec_tick_of_invalid i main aux cfg s hi hv, exec_tick_of_invalid j main aux cfg' s hj hv]

/-! ## What a TICK leaves -/

/-- What a TICK needs of the state it runs in: what the invariant says of the sequencer, the rings and `pos` of a block
that was reset, at any frame size. -/
structure State.Ready (s : State) : Prop where
  idle : s.seq = .idle
  rings : s.mem.wf s.frameSize = true
  pos : s.pos < s.frameSize

theorem State.Inv.ready {s : State} (h : s.Inv) (hv : s.valid = true) : s.Ready := ⟨h.idle, h.rings hv, h.pos hv⟩

/-- `pos` is a place of every ring. -/
theorem State.Ready.pos_lt_length {s : State} (h : s.Ready) (sp : Space) : s.pos < (s.mem.ring sp).length := by
  rw [Memory.wf_ring _ _ sp h.rings]
  exact h.pos

/-- FRAME reads the rings after the input writes and the advance of `pos` (R101, 41_frame_window.md R121, R126). -/
theorem windowed_assemble_beforeHopTest (main aux : Word) (s : State) (sp : Space) (v : Word)
    (hread : ∀ i, memRead sp i (beforeHopTest main aux s) = writtenAt sp v s i) :
    windowed s.logN (assemble sp (beforeHopTest main aux s)) = windowedFrame sp v s := by
  refine List.map_congr_left fun k hk => ?_
  rw [frameAt_assemble sp (beforeHopTest main aux s) k (List.mem_range.1 hk), rotatedIndex_beforeHopTest, hread]

section
variable (num : Numerics) (main aux : Word) (cfg : Cfg) {s : State} (h : s.Ready)
include h

theorem tickState_ready : (tickState num main aux cfg s).Ready where
  idle := tickState_seq _ _ _ _ _ h.idle
  rings := by
    rw [tickState_frameSize]
    exact tickState_wf num main aux cfg s h.rings
  pos := by
    rw [tickState_frameSize, tickState_pos]
    exact Nat.mod_lt _ (frameSize_pos s)

/-- Every TICK does the FIFO steps (R104, R105, R107). -/
theorem tickState_fifo : TickFifo s main aux (tickState num main aux cfg s) where
  inMain i := by
    rw [memRead, Memory.ring_inMain, tickState_inMain]
    exact getD_set _ _ _ _ (h.pos_lt_length .inMain)
  inAux i := by
    rw [memRead, Memory.ring_inAux, tickState_inAux]
    exact getD_set _ _ _ _ (h.pos_lt_length .inAux)
  pos := tickState_pos _ _ _ _ s
  resps := tickState_resps _ _ _ _ s
  rings := tickState_wf _ _ _ _ s h.rings
  seq := tickState_seq _ _ _ _ s h.idle
  valid := tickState_valid _ _ _ _ s
  logN := tickState_logN _ _ _ _ s
  cmds := tickState_cmds _ _ _ _ s

theorem tickState_noFrame (hhop : ¬ s.hopNext) : NoFrame s (tickState num main aux cfg s) := by
  rw [tickState_noHop num main aux cfg s hhop]
  exact ⟨rfl, fun i => memRead_beforeHopTest_out main aux s i (h.pos_lt_length .out)⟩

theorem windowed_inMain_beforeHopTest :
    windowed s.logN (assemble .inMain (beforeHopTest main aux s)) = windowedFrame .inMain main s :=
  windowed_assemble_beforeHopTest main aux s .inMain main
    fun i => memRead_beforeHopTest_inMain main aux s i (h.pos_lt_length .inMain)

theorem windowed_inAux_beforeHopTest :
    windowed s.logN (assemble .inAux (beforeHopTest main aux s)) = windowedFrame .inAux aux s :=
  windowed_assemble_beforeHopTest main aux s .inAux aux
    fun i => memRead_beforeHopTest_inAux main aux s i (h.pos_lt_length .inAux)

/-- What a TICK at a hop boundary makes of the output ring, on either path (R108, 44_overlap_add.md R203). -/
theorem tickState_frameAdded (hhop : s.hopNext) :
    FrameAdded (resynthesised num s.logN cfg (windowedFrame .inMain main s) (windowedFrame .inAux aux s)) s
      (tickState num main aux cfg s) := by
  rw [tickState_hop num main aux cfg s hhop, ← windowed_inMain_beforeHopTest main aux h,
    ← windowed_inAux_beforeHopTest main aux h]
  refine ⟨rfl, fun k hk => ?_⟩
  rw [← memRead_beforeHopTest_out main aux s _ (h.pos_lt_length .out)]
  exact memRead_overlapAdd_rotated _ (enterFrameReady (beforeHopTest main aux s)) k (Nat.mod_lt _ (frameSize_pos s)) hk

end

/-- Settles O20. -/
theorem tickMovesSamples : Obligations.TickMovesSamples := by
  unfold Obligations.TickMovesSamples
  intro i main aux cfg s hi hs hv
  exact ⟨_, exec_tick_of_valid i main aux cfg s hi hv, tickState_fifo Config.num main aux cfg (hs.ready hv)⟩

/-- Settles O21. -/
theorem tickOffHopRunsNoFrame : Obligations.TickOffHopRunsNoFrame := by
  unfold Obligations.TickOffHopRunsNoFrame
  intro i main aux cfg s hi hs hv hhop
  have hready := hs.ready hv
  exact ⟨_, exec_tick_of_valid i main aux cfg s hi hv, tickState_fifo Config.num main aux cfg hready,
    tickState_noFrame Config.num main aux cfg hready hhop⟩

/-! ## The two paths of FRAME -/

section
variable (num : Numerics) (p : Nat) (cfg : Cfg) (fm fa : List Word)

theorem resynthesised_bypass (h : cfg.byp = true) : resynthesised num p cfg fm fa = fm := if_pos h

theorem resynthesised_spectral (h : cfg.byp = false) :
    resynthesised num p cfg fm fa = num.irfft p (morph num p (num.rfft p fm) (num.rfft p fa) cfg) :=
  if_neg (ne_true_of_eq_false h)

end

/-- The morphed spectrum of a TICK, with the strategies its selectors name and the invert-phase pass (43_morph.md R160,
R178). -/
theorem morph_eq_morphedSpectrum (main aux : Word) (cfg : Cfg) (s : State) :
    morph Config.num s.logN (Config.num.rfft s.logN (windowedFrame .inMain main s))
        (Config.num.rfft s.logN (windowedFrame .inAux aux s)) cfg =
      morphedSpectrum main aux s (fun k a b => magnitude s.logN k cfg.msel cfg.m a b)
        (fun k a b => if cfg.invph then fneg (phase s.logN k cfg.psel cfg.m a b)
          else phase s.logN k cfg.psel cfg.m a b) := by
  unfold morph morphedSpectrum
  refine List.map_congr_left fun k _ => ?_
  simp only [morphBin, rectangular, morphPolar, polar, invertPhase]

/-- Settles O22: the FRAME of `tickState_frameAdded`, on the path that the bypass bit takes. -/
theorem tickAtHopRunsFrame : Obligations.TickAtHopRunsFrame := by
  unfold Obligations.TickAtHopRunsFrame
  intro i main aux cfg s hi hs hv hhop
  have hready := hs.ready hv
  have hfifo := tickState_fifo Config.num main aux cfg hready
  have hframe := tickState_frameAdded Config.num main aux cfg hready hhop
  refine ⟨_, exec_tick_of_valid i main aux cfg s hi hv, fun hbyp => ⟨hfifo, ?_⟩, fun hbyp => ⟨hfifo, ?_⟩⟩
  · rwa [resynthesised_bypass _ _ _ _ _ hbyp] at hframe
  · rwa [resynthesised_spectral _ _ _ _ _ hbyp, morph_eq_morphedSpectrum] at hframe

end Sys2Proof.Machine
end

section
/-! Runs of TICKs, by one induction (40_host_commands.md R103, R110): what every TICK of a run carries on from one state to
the next holds at its end. -/

namespace Sys2Proof.Machine

/-- The state after a TICK of a run. -/
abbrev TickArgs.after (x : TickArgs) (s : State) : State := tickState Config.num x.o.main x.o.aux x.cfg s

/-- A run of TICKs from a state that was reset completes, and ends in what every TICK of it keeps. `P n` is said of the
state after `n` TICKs. -/
theorem runInstrs_induction (xs : List TickArgs) (P : Nat → State → Prop) (hvalid : ∀ n s, P n s → s.valid = true)
    (hstep : ∀ n s, n < xs.length → P n s → P (n + 1) ((tickNumber xs n).after s)) (s : State) (h : P 0 s) :
    ∃ t, runInstrs (xs.map TickArgs.instr) s = .next t ∧ P xs.length t := by
  induction xs generalizing P s with
  | nil => exact ⟨s, rfl, h⟩
  | cons x xs ih =>
    obtain ⟨t, hrun, ht⟩ := ih (fun n => P (n + 1)) (fun n => hvalid (n + 1))
      (fun n s hn => hstep (n + 1) s (Nat.succ_lt_succ hn)) _ (hstep 0 s (Nat.succ_pos _) h)
    exact ⟨t, (runInstrs_cons_of_next _ _ _ _ (exec_tickArgs x s (hvalid 0 s h))).trans hrun, ht⟩

/-! ## BLOCK (R85, R103) -/

/-- One TICK of a BLOCK. -/
def ConfigLit.args (cfg : ConfigLit) (x : FloatLit × FloatLit) : TickArgs :=
  ⟨cfg.mag.field, cfg.ph.field, cfg.byp, cfg.inv, ⟨cfg.m.word, cfg.formant.word, x.1.word, x.2.word⟩⟩

theorem assembleLines_singleton (l : AsmLine) : assembleLines [l] = l.commands.flatMap encode := by
  rw [assembleLines, List.flatMap_singleton]

/-- The words of a BLOCK are those of its TICKs in order. -/
theorem assembleLines_block (cfg : ConfigLit) (samples : List (FloatLit × FloatLit)) :
    assembleLines [.block cfg samples] = samples.flatMap fun x => assembleLines [.tick x.1 x.2 cfg] := by
  simp only [assembleLines_singleton, AsmLine.commands, List.flatMap_map, List.flatMap_singleton]

/-- The TICKs of a BLOCK as a run. -/
theorem assembleLines_block_args (cfg : ConfigLit) (samples : List (FloatLit × FloatLit)) :
    assembleLines [.block cfg samples] = ((samples.map cfg.args).map TickArgs.instr).flatMap encode := by
  rw [assembleLines_singleton, List.map_map]
  rfl

theorem tickArgs_wf (xs : List TickArgs) : ∀ i ∈ xs.map TickArgs.instr, i.wf = true := by
  intro i hi
  obtain ⟨x, -, rfl⟩ := List.mem_map.1 hi
  rfl

/-- A run of TICKs accepts no words of its own and answers one response each. -/
theorem runInstrs_resps_length (xs : List TickArgs) (s : State) (hv : s.valid = true) :
    ∃ t, runInstrs (xs.map TickArgs.instr) s = .next t ∧ t.valid = true ∧ t.cmds = s.cmds ∧
      t.resps.length = s.resps.length + xs.length := by
  refine runInstrs_induction xs
    (fun n t => t.valid = true ∧ t.cmds = s.cmds ∧ t.resps.length = s.resps.length + n) (fun _ _ h => h.1) ?_ s
    ⟨hv, rfl, rfl⟩
  rintro n t - ⟨htv, hcmds, hresps⟩
  refine ⟨by rw [tickState_valid, htv], by rw [tickState_cmds, hcmds], ?_⟩
  rw [tickState_resps, List.length_append, hresps, List.length_singleton, Nat.add_assoc]

/-- Settles O46: a step runs the words of one TICK (`streamRunsInstructions`), and the TICKs run to the end. -/
theorem blockIsItsTicks : Obligations.BlockIsItsTicks := by
  unfold Obligations.BlockIsItsTicks
  intro cfg samples s hv hcmds
  refine ⟨assembleLines_block cfg samples, ?_⟩
  obtain ⟨t, hrun, -, htcmds, hresps⟩ := runInstrs_resps_length (samples.map cfg.args) s hv
  have hstream := streamRunsInstructions _ s (tickArgs_wf (samples.map cfg.args))
  rw [hcmds, List.append_nil, ← assembleLines_block_args, List.length_map, List.length_map] at hstream
  rw [List.length_map] at hresps
  exact ⟨t, hstream.trans hrun, htcmds.trans hcmds, hresps⟩

end Sys2Proof.Machine
end

section
/-! The latency law (40_host_commands.md R110): what every word of the rings is after `n` TICKs. Places are named by the
TICK that reads them: place `q % N`, for `n ≤ q < n + N`, is the place that TICK `q` writes and answers, so the words at it
are an input of TICK `q - N` and a part of the response of TICK `q`. -/

namespace Sys2Proof.Machine

/-! ## Places -/

/-- Two TICKs fewer than N apart use different places. -/
theorem mod_ne_of_lt_of_lt_add {n q N : Nat} (hnq : n < q) (hq : q < n + N) : q % N ≠ n % N := by
  intro h
  have hdvd : N ∣ q - n := (Nat.modEq_iff_dvd' hnq.le).1 h.symm
  have hle := Nat.le_of_dvd (Nat.sub_pos_of_lt hnq) hdvd
  omega

/-- Every place is that of one of the next N TICKs. -/
theorem exists_mod_eq (n i N : Nat) (hi : i < N) : ∃ q, n ≤ q ∧ q < n + N ∧ q % N = i := by
  have hN : 0 < N := Nat.zero_lt_of_lt hi
  have hlt := Nat.mod_lt n hN
  have hdiv := Nat.mod_add_div n N
  refine ⟨n + (i + (N - n % N)) % N, Nat.le_add_right _ _, Nat.add_lt_add_left (Nat.mod_lt _ hN) n, ?_⟩
  rw [Nat.add_mod_mod, show n + (i + (N - n % N)) = i + N + N * (n / N) by omega, Nat.add_mul_mod_self_left,
    Nat.add_mod_right, Nat.mod_eq_of_lt hi]

theorem placeAfter_of_counted {p n : Nat} {s : State} (h : s.Counted p n) (k : Nat) :
    placeAfter s k = (n + 1 + k) % frameSize p := by
  rw [placeAfter, State.frameSize, h.logN, h.pos, Nat.mod_add_mod, Nat.add_assoc, Nat.mod_add_mod, Nat.add_assoc]

/-! ## The words of the rings -/

/-- The word of an input ring at the place of TICK `q`, before that TICK: the input of TICK `q - N`, or the reset value. -/
def ringInput (sel : TickArgs → Word) (p : Nat) (xs : List TickArgs) (q : Nat) : Word :=
  if q < frameSize p then posZero else sel (tickNumber xs (q - frameSize p))

theorem frameInput_eq_ringInput (sel : TickArgs → Word) (p : Nat) (xs : List TickArgs) (tj k : Nat) :
    frameInput sel p xs tj k = ringInput sel p xs (tj + 1 + k) := rfl

/-- What FRAME number `j` adds to the response of TICK `q`. -/
def frameContribution (num : Numerics) (p : Nat) (xs : List TickArgs) (q j : Nat) : Word :=
  contribution p (resynthesisedFrame num p xs j) (q - (j + 1) * hopSizeOf p)

/-- Of the frames run within `n` TICKs, those that reach TICK `q`. -/
def framesReaching (p n q : Nat) : List Nat :=
  (List.range (n / hopSizeOf p)).filter fun j => decide (q < (j + 1) * hopSizeOf p + frameSize p)

/-- The part of the response of TICK `q` that the output ring holds after `n` TICKs. -/
def partialResponse (num : Numerics) (p : Nat) (xs : List TickArgs) (n q : Nat) : Word :=
  (framesReaching p n q).foldl (fun acc j => fadd acc (frameContribution num p xs q j)) posZero

/-- The law is about the word that the output ring holds when TICK `t` begins. -/
theorem lawResponse_eq_partialResponse (num : Numerics) (p : Nat) (xs : List TickArgs) (t : Nat) :
    lawResponse num p xs t = partialResponse num p xs t t := rfl

/-- The word of a ring after `n` TICKs at the place of TICK `q`. -/
def ringWord (p : Nat) (xs : List TickArgs) (n : Nat) : Space → Nat → Word
  | .inMain, q => ringInput (fun x => x.o.main) p xs q
  | .inAux, q => ringInput (fun x => x.o.aux) p xs q
  | .out, q => partialResponse Config.num p xs n q

/-! ## Frames -/

section
variable (p n : Nat)

/-- The frames run within `n` TICKs are those whose hop boundary is among them. -/
theorem frame_mul_hopSizeOf_le (j : Nat) (hj : j ∈ List.range (n / hopSizeOf p)) : (j + 1) * hopSizeOf p ≤ n :=
  (Nat.mul_le_mul_right _ (List.mem_range.1 hj)).trans (Nat.div_mul_le_self n _)

/-- The number of the frame that TICK number `n` runs at a hop boundary. -/
theorem frameNumber_mul_hopSizeOf (hhop : (n + 1) % hopSizeOf p = 0) : (n / hopSizeOf p + 1) * hopSizeOf p = n + 1 := by
  have hdvd := Nat.dvd_of_mod_eq_zero hhop
  rw [← Nat.succ_div_of_dvd hdvd, Nat.div_mul_cancel hdvd]

/-- Between hop boundaries no frame comes in. -/
theorem framesReaching_succ_of_not_hop (q : Nat) (hhop : (n + 1) % hopSizeOf p ≠ 0) :
    framesReaching p (n + 1) q = framesReaching p n q := by
  rw [framesReaching, Nat.succ_div_of_not_dvd (mt Nat.mod_eq_zero_of_dvd hhop), framesReaching]

/-- At a hop boundary the new frame is the last one; it reaches the next N TICKs. -/
theorem framesReaching_succ_of_hop (q : Nat) (hhop : (n + 1) % hopSizeOf p = 0) (hq : q < n + 1 + frameSize p) :
    framesReaching p (n + 1) q = framesReaching p n q ++ [n / hopSizeOf p] := by
  have hdvd := Nat.dvd_of_mod_eq_zero hhop
  rw [framesReaching, Nat.succ_div_of_dvd hdvd, List.range_succ, List.filter_append,
    List.filter_singleton, frameNumber_mul_hopSizeOf p n hhop, decide_eq_true hq, framesReaching]
  rfl

/-- No frame so far reaches the place that has just been answered. -/
theorem framesReaching_past : framesReaching p n (n + frameSize p) = [] := by
  refine List.filter_eq_nil_iff.2 fun j hj => ?_
  have hle := frame_mul_hopSizeOf_le p n j hj
  rw [decide_eq_true_iff]
  omega

/-- The last four frames reach the next TICK, of as many as there are. -/
theorem framesReaching_length (hp : 2 ≤ p) : (framesReaching p n n).length = min (n / hopSizeOf p) 4 := by
  have hreach (j : Nat) : n < (j + 1) * hopSizeOf p + frameSize p ↔ n / hopSizeOf p < j + 5 := by
    rw [frameSize_eq_four_hops p hp, ← Nat.add_mul, Nat.div_lt_iff_lt_mul (hopSizeOf_pos p hp)]
  unfold framesReaching
  simp only [hreach]
  generalize n / hopSizeOf p = k
  have hk : k = (k - 4) + min k 4 := by omega
  have hold : ((List.range (k - 4)).filter fun j => decide (k < j + 5)) = [] := by
    refine List.filter_eq_nil_iff.2 fun j hj => ?_
    have hj := List.mem_range.1 hj
    rw [decide_eq_true_iff]
    omega
  have hnew : (((List.range (min k 4)).map (k - 4 + ·)).filter fun j => decide (k < j + 5)) =
      (List.range (min k 4)).map (k - 4 + ·) := by
    refine List.filter_eq_self.2 fun j hj => ?_
    obtain ⟨i, -, rfl⟩ := List.mem_map.1 hj
    rw [decide_eq_true_iff]
    omega
  have hrange : List.range k = List.range (k - 4) ++ (List.range (min k 4)).map (k - 4 + ·) := by
    rw [← List.range_add, ← hk]
  rw [hrange, List.filter_append, hold, hnew, List.nil_append, List.length_map, List.length_range]

end

section
variable (num : Numerics) (p : Nat) (xs : List TickArgs) (n : Nat)

theorem partialResponse_past : partialResponse num p xs n (n + frameSize p) = posZero := by
  rw [partialResponse, framesReaching_past]
  rfl

theorem partialResponse_succ_of_not_hop (q : Nat) (hhop : (n + 1) % hopSizeOf p ≠ 0) :
    partialResponse num p xs (n + 1) q = partialResponse num p xs n q := by
  rw [partialResponse, framesReaching_succ_of_not_hop p n q hhop, partialResponse]

/-- A TICK at a hop boundary runs the frame of its own number, and adds its contribution (R110). -/
theorem partialResponse_succ_of_hop (k : Nat) (hhop : (n + 1) % hopSizeOf p = 0) (hk : k < frameSize p) :
    partialResponse num p xs (n + 1) (n + 1 + k) =
      fadd (partialResponse num p xs n (n + 1 + k)) (contribution p (resynthesised num p (tickNumber xs n).cfg
        (frameOfRun (fun x => x.o.main) p xs n) (frameOfRun (fun x => x.o.aux) p xs n)) k) := by
  rw [partialResponse, framesReaching_succ_of_hop p n _ hhop (Nat.add_lt_add_left hk _), List.foldl_concat,
    ← partialResponse, frameContribution, resynthesisedFrame, frameNumber_mul_hopSizeOf p n hhop,
    Nat.add_sub_cancel_left, Nat.add_sub_cancel]
  rfl

end

/-! ## The words after each TICK -/

/-- The state after `n` TICKs of a run from RESET. -/
structure State.Traced (p : Nat) (xs : List TickArgs) (n : Nat) (s : State) : Prop where
  counted : s.Counted p n
  ready : s.Ready
  words : ∀ sp q, n ≤ q → q < n + Machine.frameSize p → memRead sp (q % Machine.frameSize p) s = ringWord p xs n sp q
  resps : s.resps = (List.range n).map (lawResponse Config.num p xs)

theorem resetOf_traced (p : Nat) (xs : List TickArgs) : (State.resetOf p).Traced p xs 0 where
  counted := resetOf_counted p
  ready := ⟨rfl, resetOf_mem_wf p, frameSize_pos (State.resetOf p)⟩
  words sp q _ hq := by
    rw [Nat.zero_add] at hq
    have hzero : memRead sp (q % frameSize p) (State.resetOf p) = posZero := by
      change ((Memory.zero (2 ^ p)).ring sp).getD _ posZero = posZero
      rw [Memory.zero_ring]
      exact List.getD_replicate _ (Nat.mod_lt q (Nat.two_pow_pos p))
    have hin (sel : TickArgs → Word) : ringInput sel p xs q = posZero := if_pos hq
    have hout : partialResponse Config.num p xs 0 q = posZero := by
      rw [partialResponse, framesReaching, Nat.zero_div]
      rfl
    rw [hzero]
    cases sp with
    | inMain => exact (hin fun x => x.o.main).symm
    | inAux => exact (hin fun x => x.o.aux).symm
    | out => exact hout.symm
  resps := rfl

section
variable {p n : Nat} {xs : List TickArgs} {s : State}

/-- The input writes, by the TICK of each place. -/
theorem writtenAt_eq_ringInput (h : s.Counted p n) (sp : Space) (sel : TickArgs → Word)
    (hold : ∀ q, n ≤ q → q < n + frameSize p → memRead sp (q % frameSize p) s = ringInput sel p xs q)
    (q : Nat) (hnq : n < q) (hq : q ≤ n + frameSize p) :
    writtenAt sp (sel (tickNumber xs n)) s (q % frameSize p) = ringInput sel p xs q := by
  rw [writtenAt, h.pos]
  obtain hlt | rfl := Nat.lt_or_eq_of_le hq
  · rw [if_neg (mod_ne_of_lt_of_lt_add hnq hlt)]
    exact hold q hnq.le hlt
  · rw [Nat.add_mod_right, if_pos rfl, ringInput, if_neg (Nat.not_lt.2 (Nat.le_add_left _ _)), Nat.add_sub_cancel]

/-- The zeroing, by the TICK of each place. -/
theorem zeroedAt_eq_partialResponse (h : s.Traced p xs n) (q : Nat) (hnq : n < q) (hq : q ≤ n + frameSize p) :
    zeroedAt s (q % frameSize p) = partialResponse Config.num p xs n q := by
  rw [zeroedAt, h.counted.pos]
  obtain hlt | rfl := Nat.lt_or_eq_of_le hq
  · rw [if_neg (mod_ne_of_lt_of_lt_add hnq hlt)]
    exact h.words .out q hnq.le hlt
  · rw [Nat.add_mod_right, if_pos rfl, partialResponse_past]

/-- The frame that a TICK of the run reads is the frame of R110. -/
theorem windowedFrame_eq_frameOfRun (h : s.Counted p n) (sp : Space) (sel : TickArgs → Word)
    (hold : ∀ q, n ≤ q → q < n + frameSize p → memRead sp (q % frameSize p) s = ringInput sel p xs q) :
    windowedFrame sp (sel (tickNumber xs n)) s = frameOfRun sel p xs n := by
  rw [windowedFrame, frameOfRun, State.frameSize, h.logN]
  refine List.map_congr_left fun k hk => ?_
  have hk := List.mem_range.1 hk
  rw [placeAfter_of_counted h, frameInput_eq_ringInput, writtenAt_eq_ringInput h sp sel hold _ (by omega) (by omega)]

/-- The output ring after TICK number `n`: as it was but for the zeroing, or with one contribution more. -/
theorem tickState_out_eq_partialResponse (hp : 2 ≤ p) (h : s.Traced p xs n) (q : Nat) (hnq : n < q)
    (hq : q ≤ n + frameSize p) :
    memRead .out (q % frameSize p) ((tickNumber xs n).after s) = partialResponse Config.num p xs (n + 1) q := by
  have hzeroed := zeroedAt_eq_partialResponse h q hnq hq
  by_cases hhop : s.hopNext
  · have hmod := (hopNext_iff_of_counted p n hp s h.counted).1 hhop
    obtain ⟨-, hadded⟩ := tickState_frameAdded Config.num (tickNumber xs n).o.main (tickNumber xs n).o.aux
      (tickNumber xs n).cfg h.ready hhop
    obtain ⟨k, rfl⟩ := Nat.exists_eq_add_of_lt hnq
    rw [Nat.add_right_comm] at hzeroed hq ⊢
    have hk : k < frameSize p := by omega
    have hplace := hadded k (by rw [State.frameSize, h.counted.logN]; exact hk)
    rw [placeAfter_of_counted h.counted, hzeroed, h.counted.logN,
      windowedFrame_eq_frameOfRun h.counted .inMain (fun x => x.o.main) (h.words .inMain),
      windowedFrame_eq_frameOfRun h.counted .inAux (fun x => x.o.aux) (h.words .inAux)] at hplace
    exact hplace.trans (partialResponse_succ_of_hop _ p xs n k hmod hk).symm
  · have hmod := mt (hopNext_iff_of_counted p n hp s h.counted).2 hhop
    obtain ⟨-, hout⟩ := tickState_noFrame Config.num (tickNumber xs n).o.main (tickNumber xs n).o.aux
      (tickNumber xs n).cfg h.ready hhop
    rw [hout, hzeroed, partialResponse_succ_of_not_hop _ p xs n q hmod]

/-- One more TICK. -/
theorem tickState_traced (hp : 2 ≤ p) (h : s.Traced p xs n) : ((tickNumber xs n).after s).Traced p xs (n + 1) where
  counted := tickState_counted _ _ _ _ p n s hp h.counted
  ready := tickState_ready _ _ _ _ h.ready
  words sp q hnq hq := by
    have hfifo := tickState_fifo Config.num (tickNumber xs n).o.main (tickNumber xs n).o.aux (tickNumber xs n).cfg h.ready
    have hq : q ≤ n + frameSize p := by omega
    cases sp with
    | inMain =>
      rw [hfifo.inMain]
      exact writtenAt_eq_ringInput h.counted .inMain (fun x => x.o.main) (h.words .inMain) q hnq hq
    | inAux =>
      rw [hfifo.inAux]
      exact writtenAt_eq_ringInput h.counted .inAux (fun x => x.o.aux) (h.words .inAux) q hnq hq
    | out => exact tickState_out_eq_partialResponse hp h q hnq hq
  resps := by
    have hread := h.words .out n le_rfl (Nat.lt_add_of_pos_right (Nat.two_pow_pos p))
    rw [tickState_resps, h.counted.pos, hread, h.resps, List.range_succ, List.map_append]
    rfl

end

/-- A run of TICKs from RESET. -/
theorem runInstrs_traced (p : Nat) (hp : 2 ≤ p) (xs : List TickArgs) :
    ∃ t, runInstrs (xs.map TickArgs.instr) (State.resetOf p) = .next t ∧ t.Traced p xs xs.length :=
  runInstrs_induction xs (fun n s => s.Traced p xs n) (fun _ _ h => h.counted.valid)
    (fun _ _ _ h => tickState_traced hp h) _ (resetOf_traced p xs)

/-! ## The law, and the first hop -/

/-- Settles O42: the responses are those of `runInstrs_traced`, and the frames are counted by `framesReaching_length`. -/
theorem latencyLaw : Obligations.LatencyLaw := by
  unfold Obligations.LatencyLaw
  intro p xs hp
  obtain ⟨s, hrun, hs⟩ := runInstrs_traced p hp xs
  refine ⟨⟨s, hrun, hs.resps⟩, fun t => (framesReaching_length p t hp).trans ?_⟩
  have hfull : t < frameSize p ↔ t / hopSizeOf p < 4 := by
    rw [frameSize_eq_four_hops p hp, Nat.div_lt_iff_lt_mul (hopSizeOf_pos p hp)]
  split <;> omega

/-- No frame has run before the first hop boundary. -/
theorem lawResponse_of_lt_hopSizeOf (num : Numerics) (p : Nat) (xs : List TickArgs) (t : Nat) (h : t < hopSizeOf p) :
    lawResponse num p xs t = posZero := by
  rw [lawResponse_eq_partialResponse, partialResponse, framesReaching, Nat.div_eq_of_lt h]
  rfl

/-- Settles O40, by the latency law. -/
theorem firstResponsesAreZero : Obligations.FirstResponsesAreZero := by
  unfold Obligations.FirstResponsesAreZero
  intro p xs hp hlen
  obtain ⟨s, hrun, hs⟩ := runInstrs_traced p hp xs
  refine ⟨s, hrun, ?_⟩
  rw [hs.resps, List.eq_replicate_iff, List.length_map, List.length_range]
  refine ⟨rfl, fun w hw => ?_⟩
  obtain ⟨t, ht, rfl⟩ := List.mem_map.1 hw
  exact lawResponse_of_lt_hopSizeOf _ p xs t ((List.mem_range.1 ht).trans_le hlen)

end Sys2Proof.Machine
end

section
/-! The memory of the block is short (40_host_commands.md R110, R112): every word that the rings hold after `n` TICKs is made
of frames whose inputs are among the last `2N - 1` TICKs. -/

namespace Sys2Proof.Machine

/-- Two runs agree in the last `2N - 1` TICKs before TICK number `n`. -/
def AgreeBefore (p : Nat) (xs ys : List TickArgs) (n : Nat) : Prop :=
  ∀ u, u < n → n < u + 2 * frameSize p → tickNumber xs u = tickNumber ys u

section
variable {p n : Nat} {xs ys : List TickArgs} (h : AgreeBefore p xs ys n)
include h

theorem ringInput_congr (sel : TickArgs → Word) (q : Nat) (hnq : n < q + frameSize p) (hq : q < n + frameSize p) :
    ringInput sel p xs q = ringInput sel p ys q := by
  unfold ringInput
  split
  · rfl
  · rw [h (q - frameSize p) (by omega) (by omega)]

/-- The frame of a TICK that reaches TICK `n` reads at most N - 1 TICKs before it. -/
theorem frameOfRun_congr (sel : TickArgs → Word) (tj : Nat) (htj : tj < n) (hn : n < tj + 1 + frameSize p) :
    frameOfRun sel p xs tj = frameOfRun sel p ys tj := by
  refine List.map_congr_left fun k hk => ?_
  have hk := List.mem_range.1 hk
  rw [frameInput_eq_ringInput, frameInput_eq_ringInput, ringInput_congr h sel _ (by omega) (by omega)]

theorem resynthesisedFrame_congr (num : Numerics) (hp : 2 ≤ p) (j : Nat) (hj : (j + 1) * hopSizeOf p ≤ n)
    (hn : n < (j + 1) * hopSizeOf p + frameSize p) : resynthesisedFrame num p xs j = resynthesisedFrame num p ys j := by
  have hpos : 0 < (j + 1) * hopSizeOf p := Nat.mul_pos (Nat.succ_pos j) (hopSizeOf_pos p hp)
  have hframe (sel : TickArgs → Word) := frameOfRun_congr h sel ((j + 1) * hopSizeOf p - 1) (by omega) (by omega)
  have htick := h ((j + 1) * hopSizeOf p - 1) (by omega) (by omega)
  simp only [resynthesisedFrame, hframe, htick]

theorem partialResponse_congr (num : Numerics) (hp : 2 ≤ p) (q : Nat) (hq : n ≤ q) :
    partialResponse num p xs n q = partialResponse num p ys n q := by
  refine List.foldl_ext _ _ _ fun acc j hj => ?_
  obtain ⟨hrun, hreach⟩ := List.mem_filter.1 hj
  have hle := frame_mul_hopSizeOf_le p n j hrun
  rw [frameContribution, frameContribution,
    resynthesisedFrame_congr h num hp j hle (hq.trans_lt (of_decide_eq_true hreach))]

theorem ringWord_congr (hp : 2 ≤ p) (sp : Space) (q : Nat) (hnq : n ≤ q) (hq : q < n + frameSize p) :
    ringWord p xs n sp q = ringWord p ys n sp q := by
  cases sp with
  | inMain => exact ringInput_congr h (fun x => x.o.main) q (by omega) hq
  | inAux => exact ringInput_congr h (fun x => x.o.aux) q (by omega) hq
  | out => exact partialResponse_congr h _ hp q hnq

end

/-- Memories with the same rings are the same. -/
theorem Memory.eq_of_ring_eq (m m' : Memory) (h : ∀ sp, m.ring sp = m'.ring sp) : m = m' := by
  obtain ⟨inMain, inAux, out⟩ := m
  obtain ⟨inMain', inAux', out'⟩ := m'
  obtain rfl : inMain = inMain' := h .inMain
  obtain rfl : inAux = inAux' := h .inAux
  obtain rfl : out = out' := h .out
  rfl

/-- Rings in canonical form with the same words are the same. -/
theorem mem_eq_of_memRead_eq (N : Nat) (s t : State) (hs : s.mem.wf N = true) (ht : t.mem.wf N = true)
    (h : ∀ sp i, i < N → memRead sp i s = memRead sp i t) : s.mem = t.mem := by
  refine Memory.eq_of_ring_eq _ _ fun sp => ?_
  have hls := Memory.wf_ring N _ sp hs
  refine List.ext_getElem (hls.trans (Memory.wf_ring N _ sp ht).symm) fun i hi hi' => ?_
  have hread := h sp i (hls ▸ hi)
  rwa [memRead, memRead, List.getD_eq_getElem _ _ hi, List.getD_eq_getElem _ _ hi'] at hread

section
variable {p n : Nat} {xs ys : List TickArgs} {s t : State}

theorem mem_eq_of_traced (hp : 2 ≤ p) (hs : s.Traced p xs n) (ht : t.Traced p ys n) (h : AgreeBefore p xs ys n) :
    s.mem = t.mem := by
  have hswf := hs.ready.rings
  have htwf := ht.ready.rings
  rw [State.frameSize, hs.counted.logN] at hswf
  rw [State.frameSize, ht.counted.logN] at htwf
  refine mem_eq_of_memRead_eq (frameSize p) s t hswf htwf fun sp i hi => ?_
  obtain ⟨q, hnq, hq, rfl⟩ := exists_mod_eq n i (frameSize p) hi
  rw [hs.words sp q hnq hq, ht.words sp q hnq hq, ringWord_congr h hp sp q hnq hq]

theorem getD_resps_of_traced (hs : s.Traced p xs n) (k : Nat) (hk : k < n) :
    s.resps.getD k 0 = lawResponse Config.num p xs k := by
  simp [hs.resps, List.getD_eq_getElem?_getD, hk]

end

/-- Settles O44: the words after both runs and the responses of TICK `n` are those of the latency law. -/
theorem recentTicksDetermineState : Obligations.RecentTicksDetermineState := by
  unfold Obligations.RecentTicksDetermineState
  intro p xs ys hp hlen
  obtain ⟨s, hrun, hs⟩ := runInstrs_traced p hp xs
  obtain ⟨t, hrun', ht⟩ := runInstrs_traced p hp ys
  rw [← hlen] at ht
  refine ⟨s, t, hrun, hrun', fun h => mem_eq_of_traced hp hs ht h, fun n hn h => ?_⟩
  rw [getD_resps_of_traced hs n hn, getD_resps_of_traced ht n hn]
  exact partialResponse_congr h Config.num hp n le_rfl

end Sys2Proof.Machine
end

section
/-! The window table (41_frame_window.md R123 to R125, R129): each entry is RN32 of one half less half the model's cosine of
the entry's turn, so the exact entries and the symmetry are those of that cosine, and the sums of entries a hop apart are
those of the Hann value. -/

namespace Sys2Proof.Machine

/-! ## The model's cosine at the ends of a quarter turn, and its mirror -/

/-- Without an angle every level of the exponential is 1. -/
theorem expTurn_zero (d f k : Nat) : expTurn 0 d f k = (((expTurn 0 d f k).2.2 : Int), 0, (expTurn 0 d f k).2.2) := by
  cases f with
  | zero => rfl
  | succ f => rw [expTurn, zero_mul, sub_zero, zero_mul]

theorem octant_zero (p : Nat) : octant p 0 = ((turnDen p : Int), 0, turnDen p) := expTurn_zero _ _ _

theorem cosQuadrant_zero (p : Nat) : cosQuadrant p 0 = turnDen p := by
  rw [cosQuadrant, mul_zero, if_pos (Nat.two_pow_pos p), octant_zero]

theorem cosQuadrant_quarter (p : Nat) (hp : 2 ≤ p) : cosQuadrant p (2 ^ p / 4) = 0 := by
  have h4 := four_le_frameSize p hp
  unfold frameSize at h4
  rw [cosQuadrant, if_neg (by omega), if_neg (by omega), Nat.sub_self, octant_zero]

theorem cosTurn_first_quarter (p r : Nat) (h : 4 * r ≤ 2 ^ p) : cosTurn p r = cosQuadrant p r := by
  have hpos := Nat.two_pow_pos p
  have hr : r % 2 ^ p = r := Nat.mod_eq_of_lt (by omega)
  simp only [cosTurn]
  rw [hr, if_neg (by omega : ¬2 ^ p < 2 * r), if_neg (by omega)]

theorem cosTurn_second_quarter (p r : Nat) (h4 : 2 ^ p < 4 * r) (h2 : 2 * r ≤ 2 ^ p) :
    cosTurn p r = -cosQuadrant p (2 ^ p / 2 - r) := by
  have hr : r % 2 ^ p = r := Nat.mod_eq_of_lt (by omega)
  simp only [cosTurn]
  rw [hr, if_neg (by omega : ¬2 ^ p < 2 * r), if_pos h4]

/-- The second half of the turn mirrors the first. -/
theorem cosTurn_mirror (p n : Nat) (h0 : 0 < n) (hn : n < 2 ^ p) : cosTurn p (2 ^ p - n) = cosTurn p n := by
  have hfold : (if 2 ^ p < 2 * (2 ^ p - n) then 2 ^ p - (2 ^ p - n) else 2 ^ p - n) =
      if 2 ^ p < 2 * n then 2 ^ p - n else n := by
    split <;> split <;> omega
  simp only [cosTurn]
  rw [Nat.mod_eq_of_lt hn, Nat.mod_eq_of_lt (Nat.sub_lt (Nat.two_pow_pos p) h0), hfold]

/-! ## The exact entries -/

theorem cast_turnDen_ne_zero (p : Nat) : (turnDen p : ℝ) ≠ 0 := Nat.cast_ne_zero.2 (turnDen_pos p).ne'

theorem window_eq_rnReal (p n : Nat) : window p n = rnReal (1 / 2 - 1 / 2 * ((cosTurn p n : ℝ) / turnDen p)) := by
  have hd := cast_turnDen_ne_zero p
  rw [window, rn32_scaled _ _ (Nat.mul_pos two_pos (turnDen_pos p))]
  congr 1
  push_cast
  field_simp

theorem window_of_cosTurn_eq_den (p n : Nat) (h : cosTurn p n = turnDen p) : window p n = posZero := by
  rw [window_eq_rnReal, h, Int.cast_natCast, div_self (cast_turnDen_ne_zero p), mul_one, sub_self, rnReal_zero]

theorem window_of_cosTurn_eq_neg_den (p n : Nat) (h : cosTurn p n = -turnDen p) : window p n = oneW := by
  rw [window_eq_rnReal, h, Int.cast_neg, Int.cast_natCast, neg_div, div_self (cast_turnDen_ne_zero p), mul_neg_one,
    sub_neg_eq_add, add_halves, rnReal_one]

theorem window_of_cosTurn_eq_zero (p n : Nat) (h : cosTurn p n = 0) : window p n = halfW := by
  rw [window_eq_rnReal, h, Int.cast_zero, zero_div, mul_zero, sub_zero, rnReal_half]

theorem window_first (p : Nat) : window p 0 = posZero :=
  window_of_cosTurn_eq_den p 0 ((cosTurn_first_quarter p 0 (Nat.zero_le _)).trans (cosQuadrant_zero p))

theorem window_quarter (p : Nat) (hp : 2 ≤ p) : window p (frameSize p / 4) = halfW :=
  window_of_cosTurn_eq_zero p _
    ((cosTurn_first_quarter p _ (Nat.mul_div_le (2 ^ p) 4)).trans (cosQuadrant_quarter p hp))

theorem window_half (p : Nat) (hp : 2 ≤ p) : window p (frameSize p / 2) = oneW := by
  refine window_of_cosTurn_eq_neg_den p _ ?_
  have h4 := four_le_frameSize p hp
  unfold frameSize at h4 ⊢
  rw [cosTurn_second_quarter p _ (by omega) (by omega), Nat.sub_self, cosQuadrant_zero]

theorem window_mirror (p n : Nat) (h0 : 0 < n) (hn : n < frameSize p) : window p (frameSize p - n) = window p n := by
  rw [window_eq_rnReal, window_eq_rnReal, frameSize, cosTurn_mirror p n h0 hn]

theorem window_threeQuarters (p : Nat) (hp : 2 ≤ p) : window p (3 * (frameSize p / 4)) = halfW := by
  have hN : frameSize p = 4 * (frameSize p / 4) := frameSize_eq_four_hops p hp
  have h4 := four_le_frameSize p hp
  have hmirror := window_mirror p (frameSize p / 4) (by omega) (by omega)
  rw [window_quarter p hp] at hmirror
  rwa [show 3 * (frameSize p / 4) = frameSize p - frameSize p / 4 by omega]

/-- Settles O49: the model's cosine is exact at the quarter turns and mirrors at the half turn. -/
theorem windowExactEntries : Obligations.WindowExactEntries := by
  unfold Obligations.WindowExactEntries
  intro p hp
  exact ⟨window_first p, window_half p hp, window_quarter p hp, window_threeQuarters p hp, fun n => window_mirror p n⟩

/-! ## The Hann value -/

/-- The number that a window entry stands for, `0.5 - 0.5*cos(2*pi*n/N)` in real arithmetic (R124). -/
noncomputable def hannValue (p n : Nat) : ℝ := 1 / 2 - 1 / 2 * Real.cos (turnAngle p n)

theorem abs_hannValue_le_one (p n : Nat) : |hannValue p n| ≤ 1 := by
  have hlo := Real.neg_one_le_cos (turnAngle p n)
  have hhi := Real.cos_le_one (turnAngle p n)
  unfold hannValue
  rw [abs_le]
  constructor <;> linarith

/-- Half the error of the model's cosine, and one rounding. -/
theorem window_close_hannValue (p n : Nat) (hp : 2 ≤ p) :
    isFinite (window p n) = true ∧ |toReal (window p n) - hannValue p n| ≤ 1 / 2 ^ 23 := by
  have hd := cast_turnDen_ne_zero p
  have herr : (((turnDen p : Int) - cosTurn p n : Int) : ℝ) / (2 * turnDen p : Nat) - hannValue p n =
      -((cosTurn p n : ℝ) / turnDen p - Real.cos (turnAngle p n)) / 2 := by
    unfold hannValue
    push_cast
    field_simp
    ring
  have hclose : |(((turnDen p : Int) - cosTurn p n : Int) : ℝ) / (2 * turnDen p : Nat) - hannValue p n| ≤ turnErr := by
    rw [herr, abs_div, abs_neg, abs_two]
    exact (half_le_self (abs_nonneg _)).trans (cosTurn_close p n hp)
  obtain ⟨hfin, hround⟩ :=
    turn_entry_close _ _ _ (Nat.mul_pos two_pos (turnDen_pos p)) (abs_hannValue_le_one p n) hclose
  exact ⟨hfin, hround.trans (by norm_num)⟩

/-- Settles O50: the model's cosine is within 2^-60 of the real one, and the entry is rounded once. -/
theorem windowNearHann : Obligations.WindowNearHann := by
  unfold Obligations.WindowNearHann
  intro p n hp
  exact window_close_hannValue p n hp

/-! ## Four entries a hop apart -/

theorem cos_turnAngle_mod (p n : Nat) : Real.cos (turnAngle p (n % frameSize p)) = Real.cos (turnAngle p n) := by
  have hn : turnAngle p n = turnAngle p (n % 2 ^ p) + (n / 2 ^ p : Nat) * (2 * Real.pi) := by
    rw [← turnAngle_mul_pow, ← turnAngle_add, Nat.mod_add_div']
  rw [hn, Real.cos_add_nat_mul_two_pi, frameSize]

theorem turnAngle_hops (p j : Nat) (hp : 2 ≤ p) : turnAngle p (j * hopSizeOf p) = j * (Real.pi / 2) := by
  have hquarter : turnAngle p (hopSizeOf p) = Real.pi / 2 := turnAngle_quarter p hp
  rw [turnAngle_mul] at hquarter ⊢
  rw [Nat.cast_mul, mul_assoc, hquarter]

/-- A hop is a quarter turn. -/
theorem hannValue_hops (p n j : Nat) (hp : 2 ≤ p) :
    hannValue p ((n + j * hopSizeOf p) % frameSize p) = 1 / 2 - 1 / 2 * Real.cos (turnAngle p n + j * (Real.pi / 2)) := by
  rw [hannValue, cos_turnAngle_mod, turnAngle_add, turnAngle_hops p j hp]

theorem cos_add_two_quarters (θ : ℝ) : Real.cos (θ + 2 * (Real.pi / 2)) = -Real.cos θ := by
  rw [mul_div_cancel₀ _ two_ne_zero, Real.cos_add_pi]

theorem cos_add_three_quarters (θ : ℝ) : Real.cos (θ + 3 * (Real.pi / 2)) = Real.sin θ := by
  rw [show θ + 3 * (Real.pi / 2) = θ + Real.pi / 2 + Real.pi by ring, Real.cos_add_pi, Real.cos_add_pi_div_two, neg_neg]

/-- The four cosines are `c`, `-s`, `-c` and `s`. -/
theorem sum_map_hannValue_hops (f : ℝ → ℝ) (p n : Nat) (hp : 2 ≤ p) :
    ∑ j ∈ Finset.range 4, f (hannValue p ((n + j * hopSizeOf p) % frameSize p)) =
      f (1 / 2 - 1 / 2 * Real.cos (turnAngle p n)) + f (1 / 2 - 1 / 2 * -Real.sin (turnAngle p n)) +
        f (1 / 2 - 1 / 2 * -Real.cos (turnAngle p n)) + f (1 / 2 - 1 / 2 * Real.sin (turnAngle p n)) := by
  simp only [hannValue_hops p n _ hp, Finset.sum_range_succ, Finset.sum_range_zero, Nat.cast_zero, Nat.cast_one,
    Nat.cast_ofNat, zero_mul, one_mul, zero_add, add_zero, Real.cos_add_pi_div_two, cos_add_two_quarters,
    cos_add_three_quarters]

theorem sum_hannValue_hops (p n : Nat) (hp : 2 ≤ p) :
    ∑ j ∈ Finset.range 4, hannValue p ((n + j * hopSizeOf p) % frameSize p) = 2 := by
  rw [sum_map_hannValue_hops (fun x => x) p n hp]
  ring

theorem sum_sq_hannValue_hops (p n : Nat) (hp : 2 ≤ p) :
    ∑ j ∈ Finset.range 4, hannValue p ((n + j * hopSizeOf p) % frameSize p) ^ 2 = 3 / 2 := by
  rw [sum_map_hannValue_hops (fun x => x ^ 2) p n hp]
  linear_combination (1 / 2) * Real.sin_sq_add_cos_sq (turnAngle p n)

/-- A sum of four terms, each near its own target. -/
theorem sum_four_close (c c' : Nat → ℝ) (e : ℝ) (h : ∀ j, |c j - c' j| ≤ e) :
    |∑ j ∈ Finset.range 4, c j - ∑ j ∈ Finset.range 4, c' j| ≤ e * 4 := by
  simpa using sum_close 4 (fun _ => 1) c c' e h

theorem window_sq_close (p n : Nat) (hp : 2 ≤ p) :
    |toReal (window p n) ^ 2 - hannValue p n ^ 2| ≤ 1 / 2 ^ 23 * 3 := by
  have hclose := (window_close_hannValue p n hp).2
  have hsum : |toReal (window p n) + hannValue p n| ≤ 3 := by
    have hh := abs_le.1 (abs_hannValue_le_one p n)
    have hw := abs_le.1 (hclose.trans (by norm_num : (1 : ℝ) / 2 ^ 23 ≤ 1))
    rw [abs_le]
    constructor <;> linarith [hh.1, hh.2, hw.1, hw.2]
  rw [sq_sub_sq, mul_comm, abs_mul]
  exact mul_le_mul hclose hsum (abs_nonneg _) (by positivity)

/-- Settles O51: the sums of the Hann value are exact, and each of the four entries is near its own. -/
theorem windowOverlapSums : Obligations.WindowOverlapSums := by
  unfold Obligations.WindowOverlapSums
  intro p n hp
  have hsum := sum_four_close _ _ _ fun j => (window_close_hannValue p ((n + j * hopSizeOf p) % frameSize p) hp).2
  have hsq := sum_four_close _ _ _ fun j => window_sq_close p ((n + j * hopSizeOf p) % frameSize p) hp
  rw [sum_hannValue_hops p n hp] at hsum
  rw [sum_sq_hannValue_hops p n hp] at hsq
  exact ⟨hsum.trans (by norm_num), hsq.trans (by norm_num)⟩

end Sys2Proof.Machine
end

section
/-! The transforms in real arithmetic invert each other (42_transform.md R141, R144 to R146, R152). Both are read over the
complex numbers: the forward one sums the samples against the powers of a root of unity, the inverse one sums the conjugate
extension of the spectrum (R150) against the powers of its inverse, and the powers of the two roots are orthogonal. -/

namespace Sys2Proof.Machine

/-! ## The discrete Fourier sum and its inverse -/

section
variable (p : Nat) (inverse : Bool)

theorem stageRoot_pow_mul_not (k : Nat) : stageRoot p inverse ^ k * stageRoot p (!inverse) ^ k = 1 := by
  have h1 : stageRoot p inverse * stageRoot p (!inverse) = 1 := by
    unfold stageRoot
    rw [← Complex.exp_add, Complex.exp_eq_one_iff]
    exact ⟨0, by cases inverse <;> simp⟩
  rw [← mul_pow, h1, one_pow]

section
variable (hp : 2 ≤ p)
include hp

theorem stageRoot_isPrimitiveRoot : IsPrimitiveRoot (stageRoot p inverse) (2 ^ p) := by
  obtain ⟨q, rfl⟩ : ∃ q, p = q + 1 := ⟨p - 1, by omega⟩
  have hhalf : stageRoot (q + 1) inverse ^ 2 ^ q = -1 := stageRoot_half (q + 1) inverse hp
  have horder : orderOf (stageRoot (q + 1) inverse) = 2 ^ (q + 1) :=
    orderOf_eq_prime_pow (by rw [hhalf]; norm_num) (stageRoot_full (q + 1) inverse hp)
  exact horder ▸ IsPrimitiveRoot.orderOf _

/-- Orthogonality: the powers of the one root at `m` against those of the other at `n` cancel unless `m = n`. -/
theorem sum_stageRoot_pow_mul (m n : Nat) (hm : m < 2 ^ p) (hn : n < 2 ^ p) :
    ∑ k ∈ Finset.range (2 ^ p), stageRoot p inverse ^ (k * m) * stageRoot p (!inverse) ^ (n * k) =
      if m = n then 2 ^ p else 0 := by
  have hterm : ∀ k, stageRoot p inverse ^ (k * m) * stageRoot p (!inverse) ^ (n * k) =
      (stageRoot p inverse ^ m * stageRoot p (!inverse) ^ n) ^ k := fun k => by
    rw [mul_pow, ← pow_mul, ← pow_mul, mul_comm k m]
  rw [Finset.sum_congr rfl fun k _ => hterm k]
  split
  · next h => simp [h, stageRoot_pow_mul_not]
  · next h =>
    have hone : stageRoot p inverse ^ m * stageRoot p (!inverse) ^ n ≠ 1 := by
      intro he
      refine h ((stageRoot_isPrimitiveRoot p inverse hp).pow_inj hm hn ?_)
      exact mul_right_cancel₀ (pow_ne_zero n (Complex.exp_ne_zero _)) (he.trans (stageRoot_pow_mul_not p inverse n).symm)
    rw [geom_sum_eq hone, mul_pow, pow_right_comm, stageRoot_full p inverse hp, pow_right_comm,
      stageRoot_full p _ hp, one_pow, one_pow, mul_one, sub_self, zero_div]

/-- The discrete Fourier sum of one root is inverted, up to the factor N, by that of the other. -/
theorem fourier_inversion (z : Nat → ℂ) (n : Nat) (hn : n < 2 ^ p) :
    ∑ k ∈ Finset.range (2 ^ p), (∑ m ∈ Finset.range (2 ^ p), z m * stageRoot p inverse ^ (k * m)) *
      stageRoot p (!inverse) ^ (n * k) = 2 ^ p * z n := by
  calc _ = ∑ m ∈ Finset.range (2 ^ p), z m *
        ∑ k ∈ Finset.range (2 ^ p), stageRoot p inverse ^ (k * m) * stageRoot p (!inverse) ^ (n * k) := by
        simp only [Finset.sum_mul, Finset.mul_sum, mul_assoc]
        exact Finset.sum_comm
    _ = ∑ m ∈ Finset.range (2 ^ p), z m * if m = n then 2 ^ p else 0 :=
        Finset.sum_congr rfl fun m hm => by
          rw [sum_stageRoot_pow_mul p inverse hp m n (Finset.mem_range.1 hm) hn]
    _ = 2 ^ p * z n := by
        simp [hn, mul_comm]

end
end

/-! ## The forward transform of a real frame -/

section
variable (p : Nat) (x : Nat → ℝ)

/-- `X[k]` of a real frame (R141). -/
noncomputable def realRfft (k : Nat) : ℂ := ⟨realRfftRe p x k, realRfftIm p x k⟩

theorem realRfft_eq_sum (k : Nat) :
    realRfft p x k = ∑ n ∈ Finset.range (2 ^ p), (x n : ℂ) * stageRoot p false ^ (k * n) := by
  apply Complex.ext
  · simp [realRfft, realRfftRe, Complex.re_sum, stageRoot_pow, frameSize]
  · simp [realRfft, realRfftIm, Complex.im_sum, stageRoot_pow, frameSize]

/-- The conjugate symmetry of the spectrum of a real frame (R146). -/
theorem realRfft_mirror (hp : 2 ≤ p) (k : Nat) (hk : k ≤ 2 ^ p) :
    realRfft p x (2 ^ p - k) = (starRingEnd ℂ) (realRfft p x k) := by
  rw [realRfft_eq_sum, realRfft_eq_sum, map_sum]
  refine Finset.sum_congr rfl fun n _ => ?_
  rw [map_mul, Complex.conj_ofReal, stageRoot_mirror p false hp k n hk]

theorem realRfftIm_first : realRfftIm p x 0 = 0 := by
  simp [realRfftIm, turnAngle]

/-- The middle bin is its own mirror. -/
theorem realRfftIm_middle (hp : 2 ≤ p) : realRfftIm p x (frameSize p / 2) = 0 := by
  have hN := half_pow p hp
  have hmiddle : 2 ^ p - 2 ^ p / 2 = 2 ^ p / 2 := by omega
  have h := realRfft_mirror p x hp (2 ^ p / 2) (Nat.div_le_self _ _)
  rw [hmiddle] at h
  exact Complex.conj_eq_iff_im.1 h.symm

end

/-! ## The inverse transform of a spectrum -/

section
variable (p : Nat) (re im : Nat → ℝ)

/-- A bin as the inverse transform reads it: the imaginary parts of bins 0 and N/2 are absent (R145). -/
noncomputable def readBin (k : Nat) : ℂ := ⟨re k, if k = 0 ∨ k = frameSize p / 2 then 0 else im k⟩

/-- The conjugate extension of a spectrum to all N bins (R150). -/
noncomputable def conjugateExtension (k : Nat) : ℂ :=
  if k ≤ frameSize p / 2 then readBin p re im k else (starRingEnd ℂ) (readBin p re im (frameSize p - k))

theorem readBin_of_real (k : Nat) (hk : k = 0 ∨ k = frameSize p / 2) : readBin p re im k = re k := by
  rw [readBin, if_pos hk]
  rfl

theorem readBin_of_inner (k : Nat) (h0 : k ≠ 0) (hh : k ≠ frameSize p / 2) : readBin p re im k = ⟨re k, im k⟩ := by
  rw [readBin, if_neg (not_or.2 ⟨h0, hh⟩)]

theorem conjugateExtension_of_le {k : Nat} (hk : k ≤ frameSize p / 2) :
    conjugateExtension p re im k = readBin p re im k := if_pos hk

theorem conjugateExtension_of_lt {k : Nat} (hk : frameSize p / 2 < k) :
    conjugateExtension p re im k = (starRingEnd ℂ) (readBin p re im (frameSize p - k)) := if_neg hk.not_ge

section
variable (hp : 2 ≤ p)
include hp

/-- An inner bin and its mirror together give twice the real part of the one. -/
theorem conjugateExtension_pair (n j : Nat) (hj : j < frameSize p / 2 - 1) :
    conjugateExtension p re im (j + 1) * stageRoot p true ^ (n * (j + 1)) +
      conjugateExtension p re im (frameSize p - (j + 1)) * stageRoot p true ^ (n * (frameSize p - (j + 1))) =
      ((2 * (re (j + 1) * Real.cos (turnAngle p ((j + 1) * n)) - im (j + 1) * Real.sin (turnAngle p ((j + 1) * n))) : ℝ) : ℂ) := by
  have hN : frameSize p = 2 * 2 ^ (p - 1) := half_pow p hp
  have hroot : stageRoot p true ^ (n * (frameSize p - (j + 1))) =
      (starRingEnd ℂ) (stageRoot p true ^ (n * (j + 1))) := by
    rw [mul_comm n, mul_comm n]
    exact stageRoot_mirror p true hp (j + 1) n (by change j + 1 ≤ frameSize p; omega)
  rw [conjugateExtension_of_le p re im (by omega), conjugateExtension_of_lt p re im (by omega), hroot, ← map_mul,
    show frameSize p - (frameSize p - (j + 1)) = j + 1 by omega, Complex.add_conj,
    readBin_of_inner p re im (j + 1) (by omega) (by omega), stageRoot_pow, mul_comm n]
  simp

/-- The inverse transform is the inverse Fourier sum of the conjugate extension (R144, R150). -/
theorem sum_conjugateExtension (n : Nat) :
    ∑ k ∈ Finset.range (2 ^ p), conjugateExtension p re im k * stageRoot p true ^ (n * k) =
      2 ^ p * (realIrfft p re im n : ℂ) := by
  have hN : frameSize p = 2 * 2 ^ (p - 1) := half_pow p hp
  have hhalf : frameSize p / 2 = 2 ^ (p - 1) := by omega
  have hN0 : (frameSize p : ℝ) ≠ 0 := Nat.cast_ne_zero.2 (Nat.two_pow_pos p).ne'
  have hsample : (2 ^ p * (realIrfft p re im n : ℂ)) = ((frameSize p * realIrfft p re im n : ℝ) : ℂ) := by
    simp [frameSize]
  have hmiddle : stageRoot p true ^ (n * 2 ^ (p - 1)) = (-1) ^ n := by
    rw [mul_comm, pow_mul, stageRoot_half p true hp]
  have hpairs := Finset.sum_congr rfl fun j hj =>
    conjugateExtension_pair p re im hp n j (hhalf ▸ Finset.mem_range.1 hj)
  rw [hN] at hpairs
  rw [hsample, realIrfft, mul_div_cancel₀ _ hN0, half_pow p hp, sum_mirror _ _ Nat.one_le_two_pow, hpairs, hmiddle,
    conjugateExtension_of_le p re im (Nat.zero_le _), readBin_of_real p re im 0 (.inl rfl),
    conjugateExtension_of_le p re im hhalf.ge, readBin_of_real p re im _ (.inr hhalf.symm), hhalf]
  push_cast
  rw [Nat.mul_zero, pow_zero, mul_one, mul_comm ((-1 : ℂ) ^ n), ← Finset.mul_sum]

/-- `rfft(irfft(X))` is the bin that the inverse transform read. -/
theorem realRfft_realIrfft (k : Nat) (hk : k ≤ frameSize p / 2) :
    realRfft p (realIrfft p re im) k = readBin p re im k := by
  have hkN : k < 2 ^ p := lt_of_le_of_lt hk (Nat.div_lt_self (Nat.two_pow_pos p) one_lt_two)
  have hN0 : (2 ^ p : ℂ) ≠ 0 := pow_ne_zero p two_ne_zero
  have hinv := fourier_inversion p true hp (conjugateExtension p re im) k hkN
  rw [conjugateExtension_of_le p re im hk] at hinv
  apply mul_left_cancel₀ hN0
  rw [← hinv, realRfft_eq_sum, Finset.mul_sum]
  refine Finset.sum_congr rfl fun n _ => ?_
  rw [← mul_assoc, ← sum_conjugateExtension p re im hp n]
  simp only [Bool.not_true, mul_comm n]

end
end

/-- The conjugate extension of the spectrum of a real frame is its N bins. -/
theorem conjugateExtension_realRfft (p : Nat) (hp : 2 ≤ p) (x : Nat → ℝ) (k : Nat) (hk : k < 2 ^ p) :
    conjugateExtension p (realRfftRe p x) (realRfftIm p x) k = realRfft p x k := by
  have hread : ∀ j, readBin p (realRfftRe p x) (realRfftIm p x) j = realRfft p x j := by
    intro j
    rw [readBin, realRfft]
    split
    · next hj =>
      rcases hj with rfl | rfl
      · rw [realRfftIm_first]
      · rw [realRfftIm_middle p x hp]
    · rfl
  unfold conjugateExtension
  split
  · exact hread k
  · rw [hread]
    change (starRingEnd ℂ) (realRfft p x (2 ^ p - k)) = _
    rw [realRfft_mirror p x hp k hk.le, Complex.conj_conj]

/-- `irfft(rfft(x)) = x` in real arithmetic. -/
theorem realIrfft_realRfft (p : Nat) (hp : 2 ≤ p) (x : Nat → ℝ) (n : Nat) (hn : n < frameSize p) :
    realIrfft p (realRfftRe p x) (realRfftIm p x) n = x n := by
  have hN0 : (2 ^ p : ℂ) ≠ 0 := pow_ne_zero p two_ne_zero
  apply Complex.ofReal_injective
  apply mul_left_cancel₀ hN0
  rw [← sum_conjugateExtension p _ _ hp n, ← fourier_inversion p false hp (fun m => (x m : ℂ)) n hn]
  refine Finset.sum_congr rfl fun k hk => ?_
  rw [conjugateExtension_realRfft p hp x k (Finset.mem_range.1 hk), realRfft_eq_sum]
  rfl

/-- Settles O10: the one direction is Fourier inversion of the frame, the other of the conjugate extension. -/
theorem realTransformsInvert : Obligations.RealTransformsInvert := by
  unfold Obligations.RealTransformsInvert
  intro p hp
  refine ⟨realIrfft_realRfft p hp, fun re im k hk => ?_⟩
  have h := realRfft_realIrfft p re im hp k hk
  exact ⟨congr_arg Complex.re h, congr_arg Complex.im h⟩

end Sys2Proof.Machine
end

section
/-! The error of the round trip (42_transform.md R148, R152): the spectrum that NUM makes of a frame is near the exact one, the
exact inverse of the difference is small, and what the inverse of NUM adds is measured by the spectrum, which is not much
larger than the frame. -/

namespace Sys2Proof.Machine

/-! ## The exact inverse of a small spectrum -/

/-- The inverse transform is linear: a difference of spectra becomes the difference of their samples. -/
theorem realIrfft_sub (p : Nat) (re im re' im' : Nat → ℝ) (n : Nat) :
    realIrfft p re im n - realIrfft p re' im' n = realIrfft p (fun k => re k - re' k) (fun k => im k - im' k) n := by
  simp only [realIrfft, sub_mul, Finset.sum_sub_distrib]
  ring

theorem abs_mul_cos_sub_mul_sin_le {a b e : ℝ} (θ : ℝ) (ha : |a| ≤ e) (hb : |b| ≤ e) :
    |a * Real.cos θ - b * Real.sin θ| ≤ 2 * e := by
  have hc : |a * Real.cos θ| ≤ |a| :=
    (abs_mul a _).trans_le (mul_le_of_le_one_right (abs_nonneg a) (Real.abs_cos_le_one θ))
  have hs : |b * Real.sin θ| ≤ |b| :=
    (abs_mul b _).trans_le (mul_le_of_le_one_right (abs_nonneg b) (Real.abs_sin_le_one θ))
  linarith [abs_sub (a * Real.cos θ) (b * Real.sin θ)]

theorem two_mul_numBinsOf (p : Nat) (hp : 2 ≤ p) : 2 * numBinsOf p = frameSize p + 2 := by
  have := half_pow p hp
  unfold numBinsOf frameSize
  omega

/-- The N components that the inverse transform reads, each at most `e`, give a sample of at most `2 * e`. -/
theorem abs_realIrfft_le (p : Nat) (hp : 2 ≤ p) (re im : Nat → ℝ) (e : ℝ)
    (h : ∀ k < numBinsOf p, |re k| ≤ e ∧ |im k| ≤ e) (n : Nat) : |realIrfft p re im n| ≤ 2 * e := by
  obtain ⟨q, hq⟩ : ∃ q, numBinsOf p = q + 2 :=
    ⟨numBinsOf p - 2, by have := four_le_frameSize p hp; unfold numBinsOf; omega⟩
  have hhalf : frameSize p / 2 = q + 1 := by unfold numBinsOf at hq; omega
  have hN : frameSize p = 2 * (q + 1) := by have := two_mul_numBinsOf p hp; omega
  have hNr : (frameSize p : ℝ) = 2 * (q + 1) := by rw [hN]; push_cast; rfl
  obtain ⟨hfirst, -⟩ := h 0 (by omega)
  have he : 0 ≤ e := (abs_nonneg _).trans hfirst
  have hmiddle : |(-1) ^ n * re (q + 1)| ≤ e := by
    rw [abs_mul, abs_pow, abs_neg, abs_one, one_pow, one_mul]
    exact (h (q + 1) (by omega)).1
  have hinner : |∑ j ∈ Finset.range q, (re (j + 1) * Real.cos (turnAngle p ((j + 1) * n)) -
      im (j + 1) * Real.sin (turnAngle p ((j + 1) * n)))| ≤ q * (2 * e) := by
    refine (Finset.abs_sum_le_sum_abs _ _).trans ((Finset.sum_le_card_nsmul _ _ (2 * e) fun j hj => ?_).trans_eq ?_)
    · obtain ⟨hre, him⟩ := h (j + 1) (by have := Finset.mem_range.1 hj; omega)
      exact abs_mul_cos_sub_mul_sin_le _ hre him
    · rw [Finset.card_range, nsmul_eq_mul]
  unfold realIrfft
  rw [hhalf, Nat.add_sub_cancel, abs_div, Nat.abs_cast, div_le_iff₀ (by rw [hNr]; positivity), hNr]
  refine (abs_add_three _ _ _).trans ?_
  rw [abs_mul 2, abs_two]
  linarith

/-! ## A spectrum near the exact one -/

/-- Every component of the spectrum is within `e` of that of the frame in real arithmetic. -/
def SpectrumNear (p : Nat) (x : List Word) (s : List Bin) (e : ℝ) : Prop :=
  ∀ k < numBinsOf p, |toReal (binAt s k).re - dftRe p x k| ≤ e ∧ |toReal (binAt s k).im - dftIm p x k| ≤ e

/-- The inverse in real arithmetic of the exact spectrum is the frame. -/
theorem realIrfft_dft (p : Nat) (hp : 2 ≤ p) (x : List Word) (n : Nat) (hn : n < frameSize p) :
    realIrfft p (dftRe p x) (dftIm p x) n = toReal (frameAt x n) :=
  realIrfft_realRfft p hp (fun m => toReal (frameAt x m)) n hn

section
variable {p : Nat} {x : List Word} {s : List Bin} {e : ℝ} (h : SpectrumNear p x s e)
include h

theorem SpectrumNear.error_nonneg : 0 ≤ e :=
  (abs_nonneg _).trans (h 0 (Nat.succ_pos _)).1

variable (hp : 2 ≤ p)
include hp

theorem SpectrumNear.idft_close {n : Nat} (hn : n < frameSize p) : |idft p s n - toReal (frameAt x n)| ≤ 2 * e := by
  rw [← realIrfft_dft p hp x n hn, idft, realIrfft_sub]
  exact abs_realIrfft_le p hp _ _ e h n

/-- Each of the N + 2 components is at most the sum of magnitudes of the frame and the error. -/
theorem SpectrumNear.l1Spectrum_le : l1Spectrum p s ≤ (frameSize p + 2) * (l1Frame p x + e) := by
  have hbin : ∀ k ∈ Finset.range (numBinsOf p),
      |toReal (binAt s k).re| + |toReal (binAt s k).im| ≤ 2 * (l1Frame p x + e) := by
    intro k hk
    obtain ⟨hre, him⟩ := h k (Finset.mem_range.1 hk)
    have h1 := abs_sub_abs_le_abs_sub (toReal (binAt s k).re) (dftRe p x k)
    have h2 := abs_sub_abs_le_abs_sub (toReal (binAt s k).im) (dftIm p x k)
    linarith [dftRe_le p x k, dftIm_le p x k]
  have hcount : (2 : ℝ) * numBinsOf p = frameSize p + 2 := by exact_mod_cast two_mul_numBinsOf p hp
  calc l1Spectrum p s ≤ (Finset.range (numBinsOf p)).card • (2 * (l1Frame p x + e)) :=
        Finset.sum_le_card_nsmul _ _ _ hbin
    _ = (frameSize p + 2) * (l1Frame p x + e) := by
        rw [Finset.card_range, nsmul_eq_mul, ← mul_assoc, mul_comm _ (2 : ℝ), hcount]

/-- As N is at least 4, `2/N` times N + 2 components is at most three. -/
theorem SpectrumNear.inverseLetter_le (tol : Tolerances) :
    inverseLetter p tol s ≤ 3 * (tol.fft * l1Frame p x + tol.fft * e) := by
  have hN : (4 : ℝ) ≤ frameSize p := by exact_mod_cast four_le_frameSize p hp
  have hsum : 0 ≤ l1Frame p x + e := add_nonneg (l1Frame_nonneg p x) (h.error_nonneg)
  have hmean : 2 / (frameSize p : ℝ) * l1Spectrum p s ≤ 3 * (l1Frame p x + e) := by
    rw [div_mul_eq_mul_div, div_le_iff₀ (by linarith)]
    have h1 := h.l1Spectrum_le hp
    have h2 := mul_le_mul_of_nonneg_right hN hsum
    linarith
  calc inverseLetter p tol s = tol.fft * (2 / frameSize p * l1Spectrum p s) := mul_assoc _ _ _
    _ ≤ tol.fft * (3 * (l1Frame p x + e)) := mul_le_mul_of_nonneg_left hmean tol.fft_pos.le
    _ = _ := by ring

/-- The error of the round trip: that of the inverse on the spectrum, and that of the spectrum carried through the inverse. -/
theorem SpectrumNear.sample_close {n : Nat} (hn : n < frameSize p) {w : Word} {b : ℝ} (hw : Within w (idft p s n) b) :
    |toReal w - toReal (frameAt x n)| ≤ b + 2 * e :=
  (abs_sub_le _ (idft p s n) _).trans (add_le_add hw.2 (h.idft_close hp hn))

/-- The bound of R152, in terms of a spectrum error `e` that is no smaller than the letter of P3: the inverse may be off by its
own letter, or by `e` where that is larger. -/
theorem SpectrumNear.roundTrip_close (tol : Tolerances) (he : forwardLetter p tol x ≤ e) {n : Nat} (hn : n < frameSize p)
    {w : Word} {b : ℝ} (hb : b ≤ max (inverseLetter p tol s) e) (hw : Within w (idft p s n) b) :
    |toReal w - toReal (frameAt x n)| ≤ (5 + 3 * tol.fft) * e := by
  have hletter := h.inverseLetter_le hp tol
  have hte : 0 ≤ tol.fft * e := mul_nonneg tol.fft_pos.le (h.error_nonneg)
  have hmax : max (inverseLetter p tol s) e ≤ 3 * (e + tol.fft * e) := by
    unfold forwardLetter at he
    exact max_le (by linarith) (by linarith [h.error_nonneg])
  refine (h.sample_close hp hn hw).trans ?_
  linarith

end

/-! ## A NUM that meets the letter of P3 twice -/

/-- "Seven tolerances" (R152): what the sum of the two errors comes to with `TOL_FFT` at most 2/3. -/
theorem five_add_le_seven {t : ℝ} (ht : t ≤ 2 / 3) (l : ℝ) (hl : 0 ≤ t * l) : (5 + 3 * t) * (t * l) ≤ 7 * t * l := by
  rw [mul_assoc 7]
  exact mul_le_mul_of_nonneg_right (by linarith) hl

theorem forwardLetter_nonneg (p : Nat) (tol : Tolerances) (x : List Word) : 0 ≤ forwardLetter p tol x :=
  mul_nonneg tol.fft_pos.le (l1Frame_nonneg p x)

section
variable {num : Numerics} {p : Nat} {tol : Tolerances} {x : List Word} {n : Nat} (hp : 2 ≤ p) (hn : n < frameSize p)

theorem Numerics.MeetsForward.spectrumNear (h : num.MeetsForward p tol x) :
    SpectrumNear p x (num.rfft p x) (forwardLetter p tol x) := fun k hk =>
  ⟨(h k hk).1.2, (h k hk).2.2⟩

include hp hn in
theorem Numerics.MeetsForward.roundTrip_error (hf : num.MeetsForward p tol x)
    (hi : num.MeetsInverse p tol (num.rfft p x) n) :
    |toReal (frameAt (num.roundTrip p x) n) - toReal (frameAt x n)| ≤ (5 + 3 * tol.fft) * (tol.fft * l1Frame p x) :=
  hf.spectrumNear.roundTrip_close hp tol le_rfl hn (le_max_left _ _) hi

/-! ## An admissible NUM -/

theorem inverseSlack_le_forwardSlack (p : Nat) : inverseSlack ≤ forwardSlack p := by
  have hN : (1 : ℝ) ≤ frameSize p := by exact_mod_cast Nat.one_le_two_pow
  unfold inverseSlack forwardSlack
  exact div_le_div_of_nonneg_right (by linarith) (by positivity)

theorem inverseBound_le (p : Nat) (tol : Tolerances) (x : List Word) (s : List Bin) :
    inverseBound p tol s ≤ max (inverseLetter p tol s) (forwardBound p tol x) :=
  max_le_max le_rfl ((inverseSlack_le_forwardSlack p).trans (le_max_right _ _))

section
variable (h : num.Admissible p tol)
include h

theorem Numerics.Admissible.spectrumNear (hx : ForwardRange p x) :
    SpectrumNear p x (num.rfft p x) (forwardBound p tol x) := fun _ hk =>
  ⟨(h.forward_within hx hk).1.2, (h.forward_within hx hk).2.2⟩

include hp hn in
theorem Numerics.Admissible.roundTrip_error (ha : num.AppliesTwice p x)
    (hf : isFinite (frameAt (num.roundTrip p x) n) = true) :
    |toReal (frameAt (num.roundTrip p x) n) - toReal (frameAt x n)| ≤ (5 + 3 * tol.fft) * forwardBound p tol x :=
  (h.spectrumNear ha.1).roundTrip_close hp tol (le_max_left _ _) hn (inverseBound_le p tol x _)
    (h.inverse_within ha.2 hn hf)

theorem Numerics.Admissible.rfft_finite (hx : ForwardRange p x) : ∀ b ∈ num.rfft p x, binFinite b = true := by
  intro b hb
  obtain ⟨k, hk, rfl⟩ := List.getElem_of_mem hb
  have hw := h.forward_within hx (h.rfft_length x ▸ hk)
  have he : binAt (num.rfft p x) k = (num.rfft p x)[k] := List.getD_eq_getElem _ _ hk
  rw [he] at hw
  exact (binFinite_iff _).2 ⟨hw.1.1, hw.2.1⟩

include hn in
/-- A sample is finite where that of NUM_RADIX2 is (log 20). -/
theorem Numerics.Admissible.irfft_finite {s : List Bin} (hs : InverseRange p s)
    (hr : isFinite (frameAt (radix2Irfft p s) n) = true) : isFinite (frameAt (num.irfft p s) n) = true := by
  rcases h.irfft_close s hs n hn with hc | ⟨hf, -⟩
  · exact hc.within_max.1
  · exact absurd (hr.symm.trans hf) (by decide)

end
end

/-! ## Where P3 applies twice -/

/-- The frames on which P3 applies twice with room to spare: finite, with `4 * N * L1(x)` at most 2^126. -/
structure SmallFrame (p : Nat) (x : List Word) : Prop where
  length : x.length = frameSize p
  finite : ∀ w ∈ x, isFinite w = true
  small : 4 * frameSize p * l1Frame p x ≤ 2 ^ 126

section
variable {num : Numerics} {p : Nat} {tol : Tolerances} {x : List Word} (hp : 2 ≤ p) (hx : SmallFrame p x)
include hp hx

theorem SmallFrame.forwardRange : ForwardRange p x := by
  have hN : (4 : ℝ) ≤ frameSize p := by exact_mod_cast four_le_frameSize p hp
  have hL := l1Frame_nonneg p x
  have hlt : l1Frame p x < 2 ^ 127 := by
    have h1 := mul_le_mul_of_nonneg_right hN hL
    have h2 := hx.small
    norm_num at h2 ⊢
    linarith
  exact ⟨hx.length, hx.finite, fun k _ => ⟨(dftRe_le p x k).trans_lt hlt, (dftIm_le p x k).trans_lt hlt⟩⟩

variable (hp31 : p ≤ 31) (h : num.Admissible p tol) (ht : tol.fft ≤ 2 / 3)
include hp31 h ht

theorem SmallFrame.l1Spectrum_le : l1Spectrum p (num.rfft p x) ≤ 2 ^ 126 := by
  have hN : (4 : ℝ) ≤ frameSize p := by exact_mod_cast four_le_frameSize p hp
  have hN31 : (frameSize p : ℝ) ≤ 2 ^ 31 := by
    unfold frameSize
    exact_mod_cast Nat.pow_le_pow_right two_pos hp31
  have hL := l1Frame_nonneg p x
  have hbound : forwardBound p tol x ≤ 2 / 3 * l1Frame p x + 1 := by
    refine max_le ?_ ?_
    · exact (mul_le_mul_of_nonneg_right ht hL).trans (by linarith)
    · have hslack : forwardSlack p ≤ 8 * 2 ^ 31 / 2 ^ 149 :=
        div_le_div_of_nonneg_right (by linarith) (by positivity)
      refine hslack.trans ?_
      norm_num
      linarith
  calc l1Spectrum p (num.rfft p x)
      ≤ (frameSize p + 2) * (l1Frame p x + forwardBound p tol x) := (h.spectrumNear (hx.forwardRange hp)).l1Spectrum_le hp
    _ ≤ 3 / 2 * frameSize p * (5 / 3 * l1Frame p x + 1) := by
        refine mul_le_mul (by linarith) (by linarith) ?_ (by positivity)
        exact add_nonneg hL ((forwardLetter_nonneg p tol x).trans (le_max_left _ _))
    _ = 5 / 8 * (4 * frameSize p * l1Frame p x) + 3 / 2 * frameSize p := by ring
    _ ≤ 2 ^ 126 := by
        have hroom : (3 / 2 * 2 ^ 31 : ℝ) ≤ 3 / 8 * 2 ^ 126 := by norm_num
        linarith [hx.small]

theorem SmallFrame.appliesTwice : num.AppliesTwice p x := by
  have hN : (4 : ℝ) ≤ frameSize p := by exact_mod_cast four_le_frameSize p hp
  have hl := hx.l1Spectrum_le hp hp31 h ht
  have hf := hx.forwardRange hp
  refine ⟨hf, h.rfft_length x, h.rfft_finite hf, fun n _ => (idft_le p _ n hp).trans_lt ?_⟩
  have hq : 2 / (frameSize p : ℝ) ≤ 1 := (div_le_one (by linarith)).2 (by linarith)
  calc 2 / (frameSize p : ℝ) * l1Spectrum p (num.rfft p x) ≤ 1 * 2 ^ 126 :=
        mul_le_mul hq hl (l1Spectrum_nonneg _ _) one_pos.le
    _ < 2 ^ 127 := by norm_num

theorem SmallFrame.roundTrip_finite {n : Nat} (hn : n < frameSize p) :
    isFinite (frameAt (num.roundTrip p x) n) = true := by
  have ha := hx.appliesTwice hp hp31 h ht
  exact h.irfft_finite hn ha.2
    (radix2_irfft_finite p _ hp hp31 ha.2.2.1 (hx.l1Spectrum_le hp hp31 h ht) n hn)

end

/-- Settles O60: the letter of P3 twice, an admissible NUM with the slack, and the frames to which P3 applies twice. -/
theorem transformRoundTrip : Obligations.TransformRoundTrip := by
  unfold Obligations.TransformRoundTrip
  intro num p tol x n hp hn
  have hseven := fun ht => five_add_le_seven ht (l1Frame p x) (forwardLetter_nonneg p tol x)
  refine ⟨fun hf hi => ?_, fun hp31 h => ⟨h.roundTrip_error hp hn, fun ha hfin ht hslack => ?_,
    fun ha hf hi ht => ?_, fun hlen hfin hsmall ht => ?_⟩⟩
  · have herr := hf.roundTrip_error hp hn hi
    exact ⟨herr, fun ht => herr.trans (hseven ht)⟩
  · have hbound : forwardBound p tol x = tol.fft * l1Frame p x := max_eq_left hslack
    exact (hbound ▸ h.roundTrip_error hp hn ha hfin).trans (hseven ht)
  · have hi' := h.meets_inverse ha.2 hn hi
    exact ⟨hi'.1, ((h.meets_forward ha.1 hf).roundTrip_error hp hn hi').trans (hseven ht)⟩
  · have hx : SmallFrame p x := ⟨hlen, hfin, hsmall⟩
    exact ⟨hx.appliesTwice hp hp31 h ht, hx.roundTrip_finite hp hp31 h ht hn⟩

end Sys2Proof.Machine
end

section
/-! The rows of the morph engine at a hop boundary (43_morph.md R160 to R178): a row is the TICK with its selector, so its
FRAME takes the formula that the selector selects; and a morphed spectrum is made bin by bin (R161). -/

namespace Sys2Proof.Machine

/-- A row that does not bypass runs, at a hop boundary, the FRAME of the two formulas its selectors select. -/
theorem exec_spectralTick (i : Instr) (main aux : Word) (cfg : Cfg) (s : State) (magOf phOf : Nat → Word → Word → Word)
    (hi : i.command? = some (.tick main aux cfg)) (hbyp : cfg.byp = false) (hs : s.Inv) (hv : s.valid = true)
    (hhop : s.hopNext) (hmag : ∀ k a b, magnitude s.logN k cfg.msel cfg.m a b = magOf k a b)
    (hph : ∀ k a b, invertPhase cfg.invph (phase s.logN k cfg.psel cfg.m a b) = phOf k a b) :
    ∃ t, exec i s = .next t ∧ SpectralTick main aux magOf phOf s t := by
  obtain ⟨t, hexec, -, hspectral⟩ := tickAtHopRunsFrame i main aux cfg s hi hs hv hhop
  obtain rfl : (fun k a b => magnitude s.logN k cfg.msel cfg.m a b) = magOf :=
    funext fun k => funext fun a => funext fun b => hmag k a b
  obtain rfl : (fun k a b => invertPhase cfg.invph (phase s.logN k cfg.psel cfg.m a b)) = phOf :=
    funext fun k => funext fun a => funext fun b => hph k a b
  exact ⟨t, hexec, hspectral hbyp⟩

/-- Settles O23: each row is the TICK with its magnitude selector. -/
theorem magnitudeRowsAtHop : Obligations.MagnitudeRowsAtHop := by
  unfold Obligations.MagnitudeRowsAtHop
  intro psel iv o s hs hv hhop
  have row := fun i msel magOf (hi : i.command? = some (.tick o.main o.aux (cfgOf msel psel false iv o))) hmag =>
    exec_spectralTick i o.main o.aux _ s magOf _ hi rfl hs hv hhop hmag fun _ _ _ => rfl
  exact ⟨row _ 0 _ rfl fun k a b => magnitude_add s.logN k o.m a b,
    row _ 1 _ rfl fun k a b => magnitude_subtract s.logN k o.m a b,
    row _ 2 _ rfl fun k a b => magnitude_multiply s.logN k o.m a b,
    row _ 3 _ rfl fun k a b => magnitude_divide s.logN k o.m a b,
    row _ 4 _ rfl fun k a b => magnitude_linearBlend s.logN k o.m a b,
    row _ 5 _ rfl fun k a b => magnitude_allPass s.logN k o.m a b,
    fun msel h => row _ msel _ rfl fun k a b => magnitude_outOfRange s.logN k msel o.m a b h⟩

/-- Settles O24: each row is the TICK with its phase selector. -/
theorem phaseRowsAtHop : Obligations.PhaseRowsAtHop := by
  unfold Obligations.PhaseRowsAtHop
  intro msel o s hs hv hhop
  have row := fun i psel phOf (hi : i.command? = some (.tick o.main o.aux (cfgOf msel psel false false o))) hph =>
    exec_spectralTick i o.main o.aux _ s _ phOf hi rfl hs hv hhop (fun _ _ _ => rfl) hph
  exact ⟨row _ 0 _ rfl fun k a b => phase_add s.logN k o.m a b,
    row _ 1 _ rfl fun k a b => phase_linear s.logN k o.m a b,
    row _ 2 _ rfl fun k a b => phase_linearNatural s.logN k o.m a b,
    row _ 3 _ rfl fun k a b => phase_smoothStep s.logN k o.m a b,
    row _ 4 _ rfl fun k a b => phase_preserveMainIn s.logN k o.m a b,
    row _ 5 _ rfl fun k a b => phase_preserveAuxIn s.logN k o.m a b,
    fun psel h => row _ psel _ rfl fun k a b => phase_outOfRange s.logN k psel o.m a b h⟩

/-- Settles O32: bin `i` of a morph is `morphBin` of the two bins `i`. -/
theorem morphBinsAreLanes : Obligations.MorphBinsAreLanes := by
  unfold Obligations.MorphBinsAreLanes
  intro num p xm xa ym ya cfg
  refine ⟨by rw [morph, List.length_map, List.length_range], fun i hi hm ha => ?_⟩
  rw [binAt_morph _ _ _ _ _ i hi, binAt_morph _ _ _ _ _ i hi, hm, ha]

end Sys2Proof.Machine
end

section
/-! The polar decomposition on the real axis (43_morph.md R162): the anchors of `fatan2` (45_numerics.md R223). -/

namespace Sys2Proof.Machine

section
variable (y x : Word) (hy : isZero y = true) (hx : isNaN x = false)
include hy hx

theorem fatan2_of_zero_right (hs : signBit x = false) : Config.num.fatan2 y x = y :=
  (Config.num_admissible 2 le_rfl (by decide)).fatan2_zero_right y x hy hx hs

theorem fatan2_of_zero_left (hs : signBit x = true) : Config.num.fatan2 y x = mkWord (signBit y) (absBits piW) :=
  (Config.num_admissible 2 le_rfl (by decide)).fatan2_zero_left y x hy hx hs

end

theorem polar_of_parts (b : Bin) (m a : Word) (hm : fsqrt (fadd (fmul b.re b.re) (fmul b.im b.im)) = m)
    (ha : Config.num.fatan2 b.im b.re = a) : polar Config.num b = ⟨m, a⟩ := by rw [polar, hm, ha]

/-- Settles O33: the magnitudes are evaluated, the angles are anchors of R223. -/
theorem polarCornerCases : Obligations.PolarCornerCases := by
  unfold Obligations.PolarCornerCases
  have angle := fatan2_of_zero_left
  exact ⟨polar_of_parts _ _ _ (by decide +kernel) (fatan2_of_zero_right _ _ (by decide) (by decide) (by decide)),
    polar_of_parts _ _ _ (by decide +kernel) (angle _ _ (by decide) (by decide) (by decide)),
    polar_of_parts _ _ _ (by decide +kernel) (angle _ _ (by decide) (by decide) (by decide)),
    polar_of_parts _ _ _ (by decide +kernel) (angle _ _ (by decide) (by decide) (by decide))⟩

end Sys2Proof.Machine
end

section
/-! The ordered comparisons and what a selection keeps to (45_numerics.md R217, R218), and the clamps of the magnitude
divisions (43_morph.md R165 to R167, R183). -/

namespace Sys2Proof.Machine

/-! ## The order of the words that are no NaN -/

section
variable (a b : Word)

theorem flt_iff : flt a b = true ↔ isNaN a = false ∧ isNaN b = false ∧ orderKey a < orderKey b := by
  simp only [flt, Bool.and_eq_true, Bool.not_eq_true', decide_eq_true_eq, and_assoc]

theorem fle_iff : fle a b = true ↔ isNaN a = false ∧ isNaN b = false ∧ orderKey a ≤ orderKey b := by
  simp only [fle, Bool.and_eq_true, Bool.not_eq_true', decide_eq_true_eq, and_assoc]

/-- A comparison that is false, of two words neither of which is a NaN. -/
theorem orderKey_le_of_flt_false (ha : isNaN a = false) (hb : isNaN b = false) (h : ¬ flt a b = true) :
    orderKey b ≤ orderKey a :=
  not_lt.1 fun hlt => h ((flt_iff a b).2 ⟨ha, hb, hlt⟩)

theorem natAbs_orderKey : (orderKey a).natAbs = absBits a := by
  unfold orderKey
  split
  · rw [Int.natAbs_neg, Int.natAbs_natCast]
  · rw [Int.natAbs_natCast]

theorem orderKey_fneg : orderKey (fneg a) = -orderKey a := by
  unfold orderKey
  rw [signBit_fneg, absBits_fneg]
  cases signBit a
  · rfl
  · exact (neg_neg _).symm

theorem isNaN_fneg : isNaN (fneg a) = isNaN a := by rw [isNaN, isNaN, absBits_fneg]

theorem isZero_fneg : isZero (fneg a) = isZero a := by rw [isZero, isZero, absBits_fneg]

theorem orderKey_of_signBit_false (h : signBit a = false) : orderKey a = absBits a := by
  rw [orderKey, if_neg (ne_true_of_eq_false h)]

end

/-! ## The selections -/

section
variable (a b : Word) (hb : isNaN b = false)
include hb

theorem fmin_le_right : isNaN (fmin a b) = true ∨ fle (fmin a b) b = true := by
  rw [or_iff_not_imp_left, Bool.not_eq_true, fmin]
  split
  · exact fun _ => (fle_iff b b).2 ⟨hb, hb, le_rfl⟩
  · next hlt => exact fun ha => (fle_iff a b).2 ⟨ha, hb, orderKey_le_of_flt_false b a hb ha hlt⟩

theorem right_le_fmax : isNaN (fmax a b) = true ∨ fle b (fmax a b) = true := by
  rw [or_iff_not_imp_left, Bool.not_eq_true, fmax]
  split
  · exact fun _ => (fle_iff b b).2 ⟨hb, hb, le_rfl⟩
  · next hlt => exact fun ha => (fle_iff b a).2 ⟨hb, ha, orderKey_le_of_flt_false a b ha hb hlt⟩

end

theorem signBit_fabs (a : Word) : signBit (fabs a) = false := by
  rw [signBit, fabs, BitVec.msb_and]
  exact Bool.and_false _

/-- Settles O36: the three clamps are selections against a constant, and the difference is taken without its sign. -/
theorem magnitudeClamps : Obligations.MagnitudeClamps := by
  unfold Obligations.MagnitudeClamps
  have hone : isNaN oneW = false := by decide
  have heps : isNaN epsW = false := by decide
  exact fun m a b => ⟨fmin_le_right _ _ hone, right_le_fmax _ _ hone, right_le_fmax _ _ heps, signBit_fabs _⟩

end Sys2Proof.Machine
end

section
/-! The wrap function (43_morph.md R180): its range as a bound on the magnitude bits, and its integer reduction read over the
real numbers. -/

namespace Sys2Proof.Machine

/-! ## A range with both signs -/

section
variable (w a : Word) (hw : isNaN w = false) (hs : signBit w = false)
include hw hs

/-- A word lies between `-w` and `w` when its magnitude bits are at most those of `w`. -/
theorem fle_fneg_and_fle_iff : (fle (fneg w) a && fle a w) = true ↔ absBits a ≤ absBits w := by
  have hnan : absBits a ≤ absBits w → isNaN a = false := fun h =>
    decide_eq_false (not_lt.2 (h.trans (not_lt.1 (of_decide_eq_false hw))))
  have hkey := natAbs_orderKey a
  rw [Bool.and_eq_true, fle_iff, fle_iff, isNaN_fneg, orderKey_fneg, orderKey_of_signBit_false w hs]
  constructor
  · rintro ⟨⟨-, -, hlo⟩, -, -, hhi⟩
    omega
  · intro h
    exact ⟨⟨hw, hnan h, by omega⟩, hnan h, hw, by omega⟩

/-- What the limit of R180 leaves lies in the range. -/
theorem absBits_limit_le (ha : isNaN a = false) :
    absBits (if flt w a then w else if flt a (fneg w) then fneg w else a) ≤ absBits w := by
  split
  · exact le_rfl
  · next hhi =>
    split
    · rw [absBits_fneg]
    · next hlo =>
      have hle := orderKey_le_of_flt_false w a hw ha hhi
      have hge := orderKey_le_of_flt_false a (fneg w) ha (by rw [isNaN_fneg, hw]) hlo
      exact (fle_fneg_and_fle_iff w a hw hs).1
        (Bool.and_eq_true_iff.2 ⟨(fle_iff _ _).2 ⟨by rw [isNaN_fneg, hw], ha, hge⟩, (fle_iff _ _).2 ⟨ha, hw, hle⟩⟩)

end

/-! ## The reduction in real arithmetic -/

theorem units_twoPiW_pos : 0 < units twoPiW := by decide +kernel

theorem wrapQuotient_eq_floor (phi : Word) :
    (units phi + units piW) / units twoPiW = ⌊(toReal phi + toReal piW) / toReal twoPiW⌋ := by
  have hA : (2 : ℝ) ^ 149 ≠ 0 := by positivity
  have hv : (toReal phi + toReal piW) / toReal twoPiW = ((units phi + units piW : Int) : ℝ) / (units twoPiW : ℝ) := by
    rw [add_units, toReal, div_div_div_cancel_right₀ hA]
  rw [hv, Int.floor_div_cast_of_nonneg units_twoPiW_pos.le, Int.floor_intCast]

theorem wrapRemainder_eq_rnReal (phi : Word) (q : Int) :
    rn32 (units phi - q * units twoPiW) 1 = rnReal (toReal phi - q * toReal twoPiW) := by
  rw [← rnReal_div _ 1 one_pos, toReal, toReal, Nat.cast_one, div_one, Int.cast_sub, Int.cast_mul, sub_div, mul_div_assoc]

theorem isNaN_rn32 (x : Int) (d : Nat) : isNaN (rn32 x d) = false := by
  rw [isNaN, absBits_rn32]
  exact decide_eq_false (not_lt.2 (roundMag_le_inf _ _))

/-! ## The cases of the wrap -/

theorem between_piW_iff (phi : Word) : (fle (fneg piW) phi && fle phi piW) = true ↔ absBits phi ≤ absBits piW :=
  fle_fneg_and_fle_iff piW phi (by decide) (by decide)

theorem isFinite_eq_false_iff (a : Word) : isFinite a = false ↔ (isNaN a || isInf a) = true := by
  simp only [isFinite, isNaN, isInf, decide_eq_false_iff_not, Bool.or_eq_true, decide_eq_true_eq]
  omega

theorem wrap_of_not_finite (phi : Word) (h : isFinite phi = false) : wrap phi = freeNaN .wrap phi phi := by
  rw [wrap, if_pos ((isFinite_eq_false_iff phi).1 h)]

theorem wrap_of_finite (phi : Word) (h : isFinite phi = true) :
    wrap phi = if fle (fneg piW) phi && fle phi piW then phi else
      let r := rn32 (units phi - (units phi + units piW) / units twoPiW * units twoPiW) 1
      if flt piW r then piW else if flt r (fneg piW) then fneg piW else r := by
  rw [wrap, if_neg fun hn => Bool.false_ne_true (((isFinite_eq_false_iff phi).2 hn).symm.trans h)]

theorem wrap_of_le (phi : Word) (h : absBits phi ≤ absBits piW) : wrap phi = phi := by
  rw [wrap_of_finite phi (isFinite_of_absBits_le h (by decide)), if_pos ((between_piW_iff phi).2 h)]

theorem wrap_of_gt (phi : Word) (hfin : isFinite phi = true) (h : absBits piW < absBits phi) :
    wrap phi =
      let r := rn32 (units phi - (units phi + units piW) / units twoPiW * units twoPiW) 1
      if flt piW r then piW else if flt r (fneg piW) then fneg piW else r := by
  rw [wrap_of_finite phi hfin, if_neg fun hin => h.not_ge ((between_piW_iff phi).1 hin)]

theorem absBits_wrap_le (phi : Word) (hfin : isFinite phi = true) : absBits (wrap phi) ≤ absBits piW := by
  rcases Nat.lt_or_ge (absBits piW) (absBits phi) with h | h
  · rw [wrap_of_gt phi hfin h]
    exact absBits_limit_le piW _ (by decide) (by decide) (isNaN_rn32 _ _)
  · rwa [wrap_of_le phi h]

/-- Settles O37, case by case. -/
theorem wrapLandsInRange : Obligations.WrapLandsInRange := by
  unfold Obligations.WrapLandsInRange
  refine fun phi => ⟨wrap_of_le phi, fun hfin h => ?_, absBits_wrap_le phi, fun hfin => ?_⟩
  · rw [wrap_of_gt phi hfin h, wrapQuotient_eq_floor, wrapRemainder_eq_rnReal]
  · rw [wrap_of_not_finite phi hfin]
    exact isNaN_freeNaN _ _ _

end Sys2Proof.Machine
end

section
/-! Exact results (45_numerics.md R212, R213): RN32 of a finite word is the word, so a product with 1.0 and a sum with a zero
are the other operand, but for the sign of a zero. -/

namespace Sys2Proof.Machine

/-! ## RN32 of a word -/

/-- Magnitude bits as a scale and a significand of at most 24 bits, of exactly 24 past the subnormals. -/
theorem exists_scale_significand (m : Nat) :
    ∃ k r, m = k * 2 ^ 23 + r ∧ (k = 0 ∨ 2 ^ 23 ≤ r) ∧ r < 2 ^ 24 :=
  ⟨m / 2 ^ 23 - 1, m - (m / 2 ^ 23 - 1) * 2 ^ 23, by omega, by omega, by omega⟩

theorem log2_significand (k r : Nat) (hlo : k = 0 ∨ 2 ^ 23 ≤ r) (hhi : r < 2 ^ 24) : Nat.log2 (r * 2 ^ k) - 23 = k := by
  rcases Nat.lt_or_ge r (2 ^ 23) with hr | hr
  · obtain rfl : k = 0 := by omega
    rw [pow_zero, Nat.mul_one]
    rcases Nat.eq_zero_or_pos r with rfl | hpos
    · rfl
    · have := (Nat.log2_lt hpos.ne').2 hr
      omega
  · have hpos : r * 2 ^ k ≠ 0 := (Nat.mul_pos (by omega) (by positivity)).ne'
    have hlog : Nat.log2 (r * 2 ^ k) = 23 + k := by
      refine (Nat.log2_eq_iff hpos).2 ⟨?_, ?_⟩
      · rw [pow_add]
        exact Nat.mul_le_mul_right _ hr
      · rw [show 23 + k + 1 = 24 + k by omega, pow_add]
        exact Nat.mul_lt_mul_of_pos_right hhi (by positivity)
    omega

theorem roundEven_mul_self (r d : Nat) (hd : 0 < d) : roundEven (r * d) d = r := by
  unfold roundEven
  simp only
  rw [Nat.mul_div_cancel _ hd, Nat.mul_mod_left, if_neg (by omega)]

/-- Rounding the value of magnitude bits gives those bits. -/
theorem roundMag_unitsOfBits (m : Nat) (h : m ≤ infBits) : roundMag (unitsOfBits m) 1 = m := by
  obtain ⟨k, r, rfl, hlo, hhi⟩ := exists_scale_significand m
  unfold roundMag
  simp only
  rw [unitsOfBits_normal k r hlo hhi.le, Nat.div_one, log2_significand k r hlo hhi, Nat.one_mul,
    roundEven_mul_self r _ (by positivity), min_eq_left h]

theorem roundMag_mul_left (n d : Nat) (hd : 0 < d) : roundMag (d * n) d = roundMag n 1 := by
  have hdr : (d : ℝ) ≠ 0 := Nat.cast_ne_zero.2 hd.ne'
  rw [← roundMagReal_div _ _ hd, ← roundMagReal_div _ _ one_pos, Nat.cast_mul, mul_div_cancel_left₀ _ hdr, Nat.cast_one,
    div_one]

/-! ## The sign and the magnitude of a word in units -/

theorem natAbs_units (a : Word) : (units a).natAbs = mag a := by
  unfold units
  split
  · rw [Int.natAbs_neg, Int.natAbs_natCast]
  · rw [Int.natAbs_natCast]

theorem units_neg_eq_signBit (a : Word) (h0 : isZero a = false) : decide (units a < 0) = signBit a := by
  have hpos := mag_pos a h0
  unfold units
  split
  · next hs => exact (decide_eq_true (by omega)).trans hs.symm
  · next hs => exact (decide_eq_false (by omega)).trans (Bool.eq_false_of_not_eq_true hs).symm

/-- A zero that is not negative is `+0.0`. -/
theorem eq_posZero (a : Word) (hz : isZero a = true) (hs : signBit a = false) : a = posZero := by
  rw [← mkWord_absBits a, hs, of_decide_eq_true hz]
  rfl

section
variable (a : Word) (ha : isFinite a = true)
include ha

theorem roundMag_mag : roundMag (mag a) 1 = absBits a :=
  roundMag_unitsOfBits _ (of_decide_eq_true ha : absBits a < infBits).le

theorem rn32_units (h0 : isZero a = false) : rn32 (units a) 1 = a := by
  rw [rn32, rnd, natAbs_units, roundMag_mag a ha, units_neg_eq_signBit a h0, mkWord_absBits]

/-! ## Products with 1.0 and with zeros -/

theorem fmul_comm_of_finite (b : Word) (hb : isFinite b = true) : fmul a b = fmul b a := by
  rw [fmul_eq_rnd a b ha hb, fmul_eq_rnd b a hb ha, Nat.mul_comm, bne_comm]

theorem fmul_isZero_right (z : Word) (hz : isZero z = true) : isZero (fmul a z) = true := by
  rw [fmul_comm_of_finite a ha z (isFinite_of_isZero z hz)]
  exact fmul_isZero z a hz ha

theorem fmul_oneW_left : fmul oneW a = a := by
  have hone : mag oneW = 2 ^ 149 := by decide +kernel
  have hsign : (signBit oneW != signBit a) = signBit a := Bool.false_xor _
  rw [fmul_eq_rnd oneW a (by decide) ha, hone, rnd, roundMag_mul_left _ _ (by positivity), roundMag_mag a ha, hsign,
    mkWord_absBits]

/-! ## Sums with zeros -/

theorem fadd_comm_of_finite (b : Word) (hb : isFinite b = true) : fadd a b = fadd b a := by
  rw [fadd_eq_addFinite a b ha hb, fadd_eq_addFinite b a hb ha, addFinite, addFinite, add_comm, Bool.and_comm]

section
variable (z : Word) (hz : isZero z = true)
include hz

theorem fadd_zero_right (h0 : isZero a = false) : fadd a z = a := by
  rw [fadd_eq_addFinite a z ha (isFinite_of_isZero z hz), addFinite, units_zero z hz, add_zero,
    if_neg (units_ne_zero a h0), rn32_units a ha h0]

/-- A sum with a zero is the other term, up to the sign of a zero. -/
theorem fadd_zero_right_or : fadd a z = a ∨ isZero a = true ∧ isZero (fadd a z) = true := by
  cases h0 : isZero a with
  | false => exact .inl (fadd_zero_right a ha z hz h0)
  | true => exact .inr ⟨rfl, fadd_isZero a z h0 hz⟩

/-- So its magnitude is that of the other term. -/
theorem absBits_fadd_zero_right : absBits (fadd a z) = absBits a := by
  obtain h | ⟨h0, hsum⟩ := fadd_zero_right_or a ha z hz
  · rw [h]
  · exact (of_decide_eq_true hsum : absBits (fadd a z) = 0).trans (of_decide_eq_true h0 : absBits a = 0).symm

end
end

/-- A sum of zeros is negative only where both are. -/
theorem fadd_of_zeros (y z : Word) (hy : isZero y = true) (hz : isZero z = true) (hs : signBit y = false) :
    fadd y z = posZero := by
  rw [fadd_eq_addFinite y z (isFinite_of_isZero y hy) (isFinite_of_isZero z hz), addFinite, units_zero y hy,
    units_zero z hz, if_pos (add_zero 0), hs, Bool.false_and, if_neg Bool.false_ne_true]

/-- A sum of a word that is not negative with a zero. -/
theorem fadd_zero_right_of_nonneg (a z : Word) (ha : isFinite a = true) (hs : signBit a = false) (hz : isZero z = true) :
    fadd a z = a := by
  cases h0 : isZero a with
  | false => exact fadd_zero_right a ha z hz h0
  | true => rw [fadd_of_zeros a z h0 hz hs, eq_posZero a h0 hs]

/-! ## The magnitude of a word -/

theorem absBits_fabs (a : Word) : absBits (fabs a) = absBits a := by
  have hmask : (0x7FFFFFFF#32).toNat = 2 ^ 31 - 1 := rfl
  rw [absBits, absBits, fabs, BitVec.toNat_and, hmask, Nat.and_two_pow_sub_one_eq_mod, Nat.mod_mod]

/-- The word that is not negative of the same magnitude bits. -/
theorem fabs_eq_of_absBits_eq (a b : Word) (h : absBits a = absBits b) (hs : signBit b = false) : fabs a = b := by
  rw [← mkWord_absBits (fabs a), signBit_fabs, absBits_fabs, h, ← hs, mkWord_absBits]

end Sys2Proof.Machine
end

section
/-! Sizes (43_morph.md R183): words below a power of two stay below a later one through a product or a sum, so that no
strategy leaves the finite words on phases in range and a morph factor in [0, 1]. -/

namespace Sys2Proof.Machine

/-- Finite and of magnitude at most `2^k`. -/
def Bounded (k : Nat) (w : Word) : Prop := isFinite w = true ∧ |toReal w| ≤ 2 ^ k

theorem Bounded.mono {k l : Nat} {w : Word} (h : Bounded k w) (hkl : k ≤ l) : Bounded l w :=
  ⟨h.1, h.2.trans (pow_le_pow_right₀ one_le_two hkl)⟩

theorem abs_toReal (w : Word) : |toReal w| = mag w / 2 ^ 149 := by
  rw [toReal, abs_div, abs_units, abs_of_pos (by positivity : (0 : ℝ) < 2 ^ 149)]

/-- The bound of a constant, in units of 2^-149. -/
theorem bounded_of_mag_le {k : Nat} {w : Word} (hf : isFinite w = true) (h : mag w ≤ 2 ^ (k + 149)) : Bounded k w := by
  refine ⟨hf, ?_⟩
  rw [abs_toReal, div_le_iff₀ (by positivity), ← pow_add]
  exact_mod_cast h

theorem Bounded.of_absBits_le {k : Nat} {w v : Word} (hv : Bounded k v) (h : absBits w ≤ absBits v) : Bounded k w := by
  refine ⟨isFinite_of_absBits_le h hv.1, le_trans ?_ hv.2⟩
  rw [abs_toReal, abs_toReal]
  exact div_le_div_of_nonneg_right (by exact_mod_cast unitsOfBits_mono h) (by positivity)

/-- One rounding of a number of magnitude at most `2^k` stays below the next power of two. -/
theorem abs_le_of_rounded {r v : ℝ} {k : Nat} (hv : |v| ≤ 2 ^ k) (hr : |r - v| ≤ |v| / 2 ^ 24 + 1 / 2 ^ 150) :
    |r| ≤ 2 ^ (k + 1) := by
  have h1 : (1 : ℝ) ≤ 2 ^ k := one_le_pow₀ one_le_two
  have htri : |r| ≤ |r - v| + |v| := by simpa using abs_add_le (r - v) v
  have hrel : |v| / 2 ^ 24 ≤ 2 ^ k / 2 := div_le_div₀ (by positivity) hv two_pos (by norm_num)
  have habs : (1 : ℝ) / 2 ^ 150 ≤ 2 ^ k / 2 := div_le_div₀ (by positivity) h1 two_pos (by norm_num)
  rw [pow_succ]
  linarith

section
variable {j k : Nat} {a b : Word}

theorem Bounded.fneg (ha : Bounded k a) : Bounded k (fneg a) := ha.of_absBits_le (absBits_fneg a).le

theorem two_pow_le_overflow (hk : k ≤ 126) : (2 : ℝ) ^ k ≤ 3 * 2 ^ 126 :=
  (pow_le_pow_right₀ one_le_two hk).trans (by linarith [show (0 : ℝ) < 2 ^ 126 by positivity])

theorem Bounded.fmul (ha : Bounded j a) (hb : Bounded k b) (hjk : j + k ≤ 126) : Bounded (j + k + 1) (fmul a b) := by
  have hv : |toReal a * toReal b| ≤ 2 ^ (j + k) := by
    rw [abs_mul, pow_add]
    exact mul_le_mul ha.2 hb.2 (abs_nonneg _) (by positivity)
  have hf := fmul_finite a b ha.1 hb.1 (hv.trans (two_pow_le_overflow hjk))
  exact ⟨hf, abs_le_of_rounded hv (fmul_error a b hf)⟩

theorem Bounded.fadd (ha : Bounded k a) (hb : Bounded k b) (hk : k + 1 ≤ 126) : Bounded (k + 2) (fadd a b) := by
  have hv : |toReal a + toReal b| ≤ 2 ^ (k + 1) := by
    rw [pow_succ, mul_two]
    exact (abs_add_le _ _).trans (add_le_add ha.2 hb.2)
  have hf := fadd_finite a b ha.1 hb.1 (hv.trans (two_pow_le_overflow hk))
  exact ⟨hf, abs_le_of_rounded hv (fadd_error a b hf)⟩

theorem Bounded.fsub (ha : Bounded k a) (hb : Bounded k b) (hk : k + 1 ≤ 126) : Bounded (k + 2) (fsub a b) := by
  rw [fsub_eq_fadd a b ha.1 hb.1]
  exact ha.fadd hb.fneg hk

end

theorem bounded_oneW : Bounded 0 oneW := bounded_of_mag_le (by decide) (by decide +kernel)

theorem Bounded.oneMinus {k : Nat} {m : Word} (hm : Bounded k m) (hk : k + 1 ≤ 126) : Bounded (k + 2) (oneMinus m) :=
  (bounded_oneW.mono (Nat.zero_le k)).fsub hm hk

/-- The phases in range (43_morph.md R162). -/
theorem bounded_of_phase {a : Word} (h : absBits a ≤ absBits piW) : Bounded 2 a :=
  Bounded.of_absBits_le (bounded_of_mag_le (by decide) (by decide +kernel)) h

/-! ## The ramp -/

/-- The ramp lies in the range of a phase. -/
theorem absBits_ramp_le (p i : Nat) (hi : i < numBinsOf p) : absBits (ramp p i) ≤ absBits piW := by
  rw [ramp_eq_rnReal, ← rnReal_piNum]
  refine absBits_rnReal_mono ?_
  rw [rampValue, abs_mul]
  exact mul_le_of_le_one_right (abs_nonneg _) (abs_rampPlace_le_one p i (Nat.lt_succ_iff.1 hi))

/-- Off the middle the number that a ramp entry rounds is at least a step away from zero. -/
theorem le_abs_rampValue (p i : Nat) (hp : 2 ≤ p) (hp31 : p ≤ 31) (hi : i ≠ frameSize p / 4) :
    1 / 2 ^ 31 ≤ |rampValue p i| := by
  have hN : (0 : ℝ) < 2 ^ p := by positivity
  have hplace : (1 : ℝ) ≤ |4 * (i : ℝ) - 2 ^ p| := by
    have hne : 4 * (i : Int) - 4 * hopSizeOf p ≠ 0 := fun h => hi (by change i = hopSizeOf p; omega)
    rw [two_pow_eq_four_hops p hp]
    exact_mod_cast Int.one_le_abs hne
  have hpi : (1 : ℝ) ≤ |(piNum : ℝ) / 2 ^ 192| := by
    rw [abs_of_pos piNum_pos]
    linarith [(abs_le.1 piNum_close).1, Real.pi_gt_three, show (1 : ℝ) / 10 ^ 20 ≤ 1 by norm_num]
  calc (1 : ℝ) / 2 ^ 31 ≤ 1 / 2 ^ p := one_div_le_one_div_of_le hN (pow_le_pow_right₀ one_le_two hp31)
    _ ≤ |4 * (i : ℝ) - 2 ^ p| / 2 ^ p := div_le_div_of_nonneg_right hplace hN.le
    _ ≤ |(piNum : ℝ) / 2 ^ 192| * (|4 * (i : ℝ) - 2 ^ p| / 2 ^ p) := le_mul_of_one_le_left (by positivity) hpi
    _ = |rampValue p i| := by rw [rampValue, abs_mul, abs_div (4 * (i : ℝ) - 2 ^ p), abs_of_pos hN]

/-- A zero of the ramp is `+0.0`, and stands in the middle. -/
theorem ramp_eq_posZero (p i : Nat) (hp : 2 ≤ p) (hp31 : p ≤ 31) (hz : isZero (ramp p i) = true) :
    ramp p i = posZero := by
  by_cases hm : i = frameSize p / 4
  · rw [hm, ramp_middle p hp]
  · have hstep : |(((1 : Int) : ℝ) / (2 ^ 31 : Nat))| ≤ |rampValue p i| := by
      rw [abs_of_pos (by positivity), Int.cast_one, Nat.cast_pow, Nat.cast_ofNat]
      exact le_abs_rampValue p i hp hp31 hm
    have hpos : 0 < absBits (rn32 (1 * (2 ^ 149 : Nat)) (2 ^ 31)) := by decide +kernel
    have hle := absBits_rnReal_mono hstep
    rw [← rn32_scaled 1 _ (by positivity), ← ramp_eq_rnReal, of_decide_eq_true hz] at hle
    exact absurd hle hpos.not_ge

end Sys2Proof.Machine
end

section
/-! The boundary values of the strategies (43_morph.md R184): at m = 1 one term has the factor 1.0 and the other a zero, at
m = 0 the other way round. PH.smoothStep is PH.add with its cubic weight, MAG.linearBlend is MAG.add with the crossfade weight
and the inputs exchanged. -/

namespace Sys2Proof.Machine

theorem oneMinus_oneW : oneMinus oneW = posZero := by decide +kernel
theorem oneMinus_posZero : oneMinus posZero = oneW := by decide +kernel
theorem smoothWeight_oneW : smoothWeight oneW = oneW := by decide +kernel
theorem smoothWeight_posZero : smoothWeight posZero = posZero := by decide +kernel

theorem magAdd_eq_phAdd (m a b : Word) : magAdd m a b = phAdd m a b := rfl
theorem phSmoothStep_eq_phAdd (m a b : Word) : phSmoothStep m a b = phAdd (smoothWeight m) a b := rfl
theorem magLinearBlend_eq_phAdd (w a b : Word) : magLinearBlend w a b = phAdd w b a := rfl

theorem isZero_posZero_fmul (a : Word) (ha : isFinite a = true) : isZero (fmul posZero a) = true :=
  fmul_isZero posZero a isZero_posZero ha

/-! ## The weighted sum -/

theorem phAdd_oneW (a b : Word) (ha : isFinite a = true) : phAdd oneW a b = fadd a (fmul posZero b) := by
  rw [phAdd, oneMinus_oneW, fmul_oneW_left a ha]

section
variable (a b : Word) (ha : isFinite a = true) (hb : isFinite b = true)
include ha hb

theorem phAdd_posZero : phAdd posZero a b = fadd b (fmul posZero a) := by
  have hz := isFinite_of_isZero _ (isZero_posZero_fmul a ha)
  rw [phAdd, oneMinus_posZero, fmul_oneW_left b hb, fadd_comm_of_finite _ hz b hb]

theorem phAdd_oneW_or : phAdd oneW a b = a ∨ isZero a = true ∧ isZero (phAdd oneW a b) = true := by
  rw [phAdd_oneW a b ha]
  exact fadd_zero_right_or a ha _ (isZero_posZero_fmul b hb)

theorem phAdd_posZero_or : phAdd posZero a b = b ∨ isZero b = true ∧ isZero (phAdd posZero a b) = true := by
  rw [phAdd_posZero a b ha hb]
  exact fadd_zero_right_or b hb _ (isZero_posZero_fmul a ha)

theorem phAdd_oneW_of_nonneg (hs : signBit a = false) : phAdd oneW a b = a := by
  rw [phAdd_oneW a b ha]
  exact fadd_zero_right_of_nonneg a _ ha hs (isZero_posZero_fmul b hb)

theorem phAdd_posZero_of_nonneg (hs : signBit b = false) : phAdd posZero a b = b := by
  rw [phAdd_posZero a b ha hb]
  exact fadd_zero_right_of_nonneg b _ hb hs (isZero_posZero_fmul a ha)

/-! ## The magnitude of the weighted difference -/

theorem magSubtract_oneW (hs : signBit a = false) : magSubtract oneW a b = a := by
  have hz := isZero_posZero_fmul b hb
  refine fabs_eq_of_absBits_eq _ a ?_ hs
  rw [oneMinus_oneW, fmul_oneW_left a ha, fsub_eq_fadd _ _ ha (isFinite_of_isZero _ hz)]
  exact absBits_fadd_zero_right a ha _ (by rwa [isZero_fneg])

theorem magSubtract_posZero (hs : signBit b = false) : magSubtract posZero a b = b := by
  have hz := isZero_posZero_fmul a ha
  have hnb : isFinite (fneg b) = true := by rw [isFinite_fneg, hb]
  refine fabs_eq_of_absBits_eq _ b ?_ hs
  rw [oneMinus_posZero, fmul_oneW_left b hb, fsub_eq_fadd _ _ (isFinite_of_isZero _ hz) hb,
    fadd_comm_of_finite _ (isFinite_of_isZero _ hz) _ hnb, absBits_fadd_zero_right _ hnb _ hz, absBits_fneg]

end

/-! ## The ramp -/

/-- A zero added to a ramp entry. -/
theorem fadd_isZero_ramp (p i : Nat) (z : Word) (hp : 2 ≤ p) (hp31 : p ≤ 31) (hi : i < numBinsOf p)
    (hz : isZero z = true) : fadd z (ramp p i) = ramp p i := by
  have hr : isFinite (ramp p i) = true := (bounded_of_phase (absBits_ramp_le p i hi)).1
  rw [fadd_comm_of_finite z (isFinite_of_isZero z hz) _ hr]
  cases h0 : isZero (ramp p i) with
  | false => exact fadd_zero_right _ hr z hz h0
  | true =>
    have h := ramp_eq_posZero p i hp hp31 h0
    exact fadd_zero_right_of_nonneg _ z hr (by rw [h]; rfl) hz

theorem phLinearNatural_posZero (p i : Nat) (a b : Word) (hp : 2 ≤ p) (hp31 : p ≤ 31) (hi : i < numBinsOf p)
    (ha : absBits a ≤ absBits piW) (hb : absBits b ≤ absBits piW) : phLinearNatural (ramp p i) posZero a b = ramp p i := by
  have hr := absBits_ramp_le p i hi
  have hhalf : Bounded 0 halfW := bounded_of_mag_le (by decide) (by decide +kernel)
  have hmean := (((bounded_of_phase ha).fadd (bounded_of_phase hb) (by norm_num)).fmul hhalf (by norm_num)).1
  rw [phLinearNatural, oneMinus_posZero, fmul_oneW_left _ (bounded_of_phase hr).1,
    fadd_isZero_ramp p i _ hp hp31 hi (isZero_posZero_fmul _ hmean), wrap_of_le _ hr]

/-- Settles O34: PH.smoothStep has the weights 1 and 0 at m = 1 and m = 0, so all four are weighted sums or differences there. -/
theorem boundaryMorphFactors : Obligations.BoundaryMorphFactors := by
  unfold Obligations.BoundaryMorphFactors
  refine ⟨fun a b ha hb hsa hsb => ?_, fun a b ha hb => ?_, phLinearNatural_posZero⟩
  · rw [magAdd_eq_phAdd, magAdd_eq_phAdd]
    exact ⟨phAdd_oneW_of_nonneg a b ha hb hsa, phAdd_posZero_of_nonneg a b ha hb hsb,
      magSubtract_oneW a b ha hb hsa, magSubtract_posZero a b ha hb hsb⟩
  · rw [phSmoothStep_eq_phAdd, phSmoothStep_eq_phAdd, smoothWeight_oneW, smoothWeight_posZero]
    exact ⟨phAdd_oneW_or a b ha hb, phAdd_posZero_or a b ha hb, phAdd_oneW_or a b ha hb, phAdd_posZero_or a b ha hb⟩

/-- Settles O35: the ends of the crossfade table are 0.0 and 1.0. -/
theorem linearBlendEnds : Obligations.LinearBlendEnds := by
  unfold Obligations.LinearBlendEnds
  intro p a b hp ha hb hsa hsb
  rw [blend_first, blend_last p hp, magLinearBlend_eq_phAdd, magLinearBlend_eq_phAdd]
  exact ⟨phAdd_posZero_of_nonneg b a hb ha hsa, phAdd_oneW_of_nonneg b a hb ha hsb⟩

end Sys2Proof.Machine
end

section
/-! Silence (43_morph.md R188): zeros of either sign through every magnitude strategy are zeros, and every phase strategy
leaves a finite phase, so a silent bin is rebuilt as a silent bin. -/

namespace Sys2Proof.Machine

/-! ## Operations on zeros -/

section
variable (z : Word) (hz : isZero z = true)
include hz

theorem orderKey_of_isZero : orderKey z = 0 := by
  rw [← Int.natAbs_eq_zero, natAbs_orderKey]
  exact of_decide_eq_true hz

theorem isZero_fabs : isZero (fabs z) = true := by rwa [isZero, absBits_fabs]

theorem fsqrt_of_isZero : fsqrt z = z := by
  rw [fsqrt, if_neg (ne_true_of_eq_false (not_isNaN_of_isZero z hz)), if_pos hz]

theorem fmax_of_isZero (w : Word) (hw : isNaN w = false) (hpos : 0 < orderKey w) : fmax z w = w :=
  if_pos ((flt_iff z w).2 ⟨not_isNaN_of_isZero z hz, hw, by rwa [orderKey_of_isZero z hz]⟩)

theorem fmin_of_isZero (w : Word) (hpos : 0 < orderKey w) : fmin z w = z :=
  if_neg fun h => by
    obtain ⟨-, -, hlt⟩ := (flt_iff w z).1 h
    rw [orderKey_of_isZero z hz] at hlt
    exact hlt.not_gt hpos

theorem isZero_fdiv (d : Word) (hd : isFinite d = true) (h0 : isZero d = false) : isZero (fdiv z d) = true := by
  have hf := isFinite_of_isZero z hz
  have hmag : mag z = 0 := by rw [mag, of_decide_eq_true hz]; rfl
  simp only [fdiv, not_isNaN_of_finite z hf, not_isNaN_of_finite d hd, not_isInf_of_finite z hf, not_isInf_of_finite d hd,
    h0, Bool.or_self, Bool.false_eq_true, if_false]
  rw [isZero, rnd, hmag, Nat.zero_mul, roundMag_zero, absBits_mkWord _ _ (by norm_num)]
  rfl

end

/-! ## The magnitude strategies -/

section
variable (m a b : Word) (hm : isFinite m = true) (hom : isFinite (oneMinus m) = true) (ha : isZero a = true)
  (hb : isZero b = true)
include hm hom ha hb

theorem isZero_magAdd : isZero (magAdd m a b) = true :=
  fadd_isZero _ _ (fmul_isZero_right m hm a ha) (fmul_isZero_right _ hom b hb)

theorem isZero_magSubtract : isZero (magSubtract m a b) = true :=
  isZero_fabs _ (fsub_isZero _ _ (fmul_isZero_right m hm a ha) (fmul_isZero_right _ hom b hb))

theorem isZero_magMultiply : isZero (magMultiply m a b) = true := by
  have hnum := fmul_isZero _ _ (fmul_isZero_right m hm a ha) (isFinite_of_isZero _ (fmul_isZero_right _ hom b hb))
  rw [magMultiply, fmax_of_isZero _ (fmul_isZero a b ha (isFinite_of_isZero b hb)) oneW (by decide) (by decide)]
  exact isZero_fdiv _ (isZero_fabs _ hnum) oneW (by decide) (by decide)

theorem isZero_magDivide : isZero (magDivide m a b) = true := by
  have hquot := isZero_fdiv _ (fmul_isZero_right m hm a ha) epsW (by decide) (by decide)
  rw [magDivide, fmax_of_isZero _ (fmul_isZero_right _ hom b hb) epsW (by decide) (by decide),
    fmin_of_isZero _ hquot oneW (by decide)]
  exact hquot

end

/-- The crossfade weights are at most 1. -/
theorem bounded_blend (p i : Nat) (hi : i < numBinsOf p) : Bounded 0 (blend p i) := by
  have h2 : 2 * i ≤ 2 ^ p := (Nat.mul_comm 2 i).trans_le ((Nat.le_div_iff_mul_le two_pos).1 (Nat.lt_succ_iff.1 hi))
  rw [blend_eq_rnReal]
  refine bounded_oneW.of_absBits_le (absBits_rnReal_le_one _ ?_)
  rw [abs_of_nonneg (by positivity), div_le_one (by positivity)]
  exact_mod_cast h2

/-- Every magnitude strategy, out of range included, takes zeros to a zero. -/
theorem isZero_magnitude (p i : Nat) (sel : BitVec 8) (m a b : Word) (hi : i < numBinsOf p) (hm : Bounded 0 m)
    (ha : isZero a = true) (hb : isZero b = true) : isZero (magnitude p i sel m a b) = true := by
  have hom := hm.oneMinus (by norm_num)
  have hblend := bounded_blend p i hi
  rw [magnitude_select]
  split_ifs
  · exact isZero_magAdd m a b hm.1 hom.1 ha hb
  · exact isZero_magSubtract m a b hm.1 hom.1 ha hb
  · exact isZero_magMultiply m a b hm.1 hom.1 ha hb
  · exact isZero_magDivide m a b hm.1 hom.1 ha hb
  · exact isZero_magAdd (blend p i) b a hblend.1 (hblend.oneMinus (by norm_num)).1 hb ha
  · exact ha

/-! ## The phase strategies -/

theorem bounded_smoothWeight {m : Word} (hm : Bounded 0 m) : Bounded 6 (smoothWeight m) := by
  have hthree : Bounded 2 threeW := bounded_of_mag_le (by decide) (by decide +kernel)
  have htwo : Bounded 1 twoW := bounded_of_mag_le (by decide) (by decide +kernel)
  have hsq := hm.fmul hm (by norm_num)
  exact (hthree.fmul hsq (by norm_num)).fsub (htwo.fmul (hsq.fmul hm (by norm_num)) (by norm_num)) (by norm_num)

section
variable {m a b : Word} (ha : absBits a ≤ absBits piW) (hb : absBits b ≤ absBits piW)
include ha hb

/-- A weight as large as that of PH.smoothStep. -/
theorem isFinite_phAdd (hm : Bounded 6 m) : isFinite (phAdd m a b) = true :=
  (((hm.fmul (bounded_of_phase ha) (by norm_num)).mono (by norm_num)).fadd
    ((hm.oneMinus (by norm_num)).fmul (bounded_of_phase hb) (by norm_num)) (by norm_num)).1

theorem isFinite_phLinearNatural {r : Word} (hm : Bounded 0 m) (hr : absBits r ≤ absBits piW) :
    isFinite (phLinearNatural r m a b) = true := by
  have hhalf : Bounded 0 halfW := bounded_of_mag_le (by decide) (by decide +kernel)
  have hmean := ((bounded_of_phase ha).fadd (bounded_of_phase hb) (by norm_num)).fmul hhalf (by norm_num)
  have hsum := (hm.fmul hmean (by norm_num)).fadd
    (((hm.oneMinus (by norm_num)).fmul (bounded_of_phase hr) (by norm_num)).mono (by norm_num)) (by norm_num)
  exact (bounded_of_phase (absBits_wrap_le _ hsum.1)).1

/-- Every phase strategy, out of range included, takes phases in range to a finite one. -/
theorem isFinite_phase (p i : Nat) (sel : BitVec 8) (hi : i < numBinsOf p) (hm : Bounded 0 m) :
    isFinite (phase p i sel m a b) = true := by
  have hr := absBits_ramp_le p i hi
  rw [phase_select]
  split_ifs
  · exact isFinite_phAdd ha hb (hm.mono (by norm_num))
  · rw [phLinear, wrap_of_le _ hr]
    exact (bounded_of_phase hr).1
  · exact isFinite_phLinearNatural ha hb hm hr
  · exact isFinite_phAdd ha hb (bounded_smoothWeight hm)
  · exact (bounded_of_phase hb).1
  · exact (bounded_of_phase ha).1

end

/-! ## The silent bin -/

/-- A morph factor in [0, 1]. -/
theorem bounded_of_morphFactor {m : Word} (h0 : fle posZero m = true) (h1 : fle m oneW = true) : Bounded 0 m := by
  obtain ⟨-, -, hlo⟩ := (fle_iff posZero m).1 h0
  obtain ⟨-, -, hhi⟩ := (fle_iff m oneW).1 h1
  rw [orderKey_of_isZero posZero isZero_posZero] at hlo
  refine bounded_oneW.of_absBits_le ?_
  rw [← natAbs_orderKey m, ← natAbs_orderKey oneW]
  omega

theorem isZero_polar_mag (num : Numerics) (b : Bin) (hb : binZero b = true) : isZero (polar num b).mag = true := by
  obtain ⟨hre, him⟩ := (binZero_iff b).1 hb
  have hsum := fadd_isZero _ _ (fmul_isZero _ _ hre (isFinite_of_isZero _ hre)) (fmul_isZero _ _ him (isFinite_of_isZero _ him))
  rwa [polar, fsqrt_of_isZero _ hsum]

section
variable {num : Numerics} {p : Nat} {tol : Tolerances} (h : num.Admissible p tol)
include h

theorem Numerics.Admissible.polar_ph_range (b : Bin) (hb : binZero b = true) : absBits (polar num b).ph ≤ absBits piW := by
  obtain ⟨hre, him⟩ := (binZero_iff b).1 hb
  exact h.fatan2_range _ _ (not_isNaN_of_isZero _ him) (not_isNaN_of_isZero _ hre)

/-- A zero magnitude with a finite phase is a silent bin. -/
theorem Numerics.Admissible.binZero_rectangular (q : Polar) (hmag : isZero q.mag = true) (hph : isFinite q.ph = true) :
    binZero (rectangular num q) = true := by
  have hone : isFinite oneW = true := by decide
  exact (binZero_iff _).2 ⟨fmul_isZero _ _ hmag (isFinite_of_absBits_le (h.fcos_range _ hph) hone),
    fmul_isZero _ _ hmag (isFinite_of_absBits_le (h.fsin_range _ hph) hone)⟩

theorem Numerics.Admissible.binZero_morphBin (i : Nat) (a b : Bin) (cfg : Cfg) (hi : i < numBinsOf p)
    (ha : binZero a = true) (hb : binZero b = true) (hm : Bounded 0 cfg.m) : binZero (morphBin num p i a b cfg) = true := by
  have hph := isFinite_phase (h.polar_ph_range a ha) (h.polar_ph_range b hb) p i cfg.psel hi hm
  refine h.binZero_rectangular _ (isZero_magnitude p i _ _ _ _ hi hm (isZero_polar_mag num a ha) (isZero_polar_mag num b hb)) ?_
  rw [morphPolar, invertPhase]
  split
  · rwa [isFinite_fneg]
  · exact hph

end

/-- Settles O38: the magnitude of the bin stays a zero and its phase stays finite. -/
theorem silentBinsStaySilent : Obligations.SilentBinsStaySilent := by
  unfold Obligations.SilentBinsStaySilent
  intro p i a b cfg hp hp31 hi ha hb h0 h1
  exact (Config.num_admissible p hp hp31).binZero_morphBin i a b cfg hi ha hb (bounded_of_morphFactor h0 h1)

end Sys2Proof.Machine
end

section
/-! A run on zero samples (43_morph.md R188, 40_host_commands.md R110): by the latency law each response is a sum from `+0.0`
of contributions, and every frame that a FRAME resynthesises of zero samples is a frame of zeros. -/

namespace Sys2Proof.Machine

/-- A TICK with zero samples of either sign and a morph factor of magnitude at most 1. -/
structure TickArgs.Silent (x : TickArgs) : Prop where
  main : isZero x.o.main = true
  aux : isZero x.o.aux = true
  morph : Bounded 0 x.o.m

theorem silent_none : TickArgs.none.Silent where
  main := isZero_posZero
  aux := isZero_posZero
  morph := bounded_oneW.of_absBits_le (by decide)

theorem silent_tickNumber (xs : List TickArgs) (h : ∀ x ∈ xs, x.Silent) (t : Nat) : (tickNumber xs t).Silent := by
  rcases Nat.lt_or_ge t xs.length with ht | ht
  · rw [tickNumber, List.getD_eq_getElem _ _ ht]
    exact h _ (List.getElem_mem ht)
  · rw [tickNumber, List.getD_eq_default _ _ ht]
    exact silent_none

/-! ## The frames -/

theorem isZero_frameOfRun (sel : TickArgs → Word) (p : Nat) (hp : 2 ≤ p) (xs : List TickArgs) (tj : Nat)
    (h : ∀ t, isZero (sel (tickNumber xs t)) = true) : ∀ w ∈ frameOfRun sel p xs tj, isZero w = true := by
  intro w hw
  obtain ⟨k, -, rfl⟩ := List.mem_map.1 hw
  refine fmul_isZero _ _ ?_ (windowNearHann p k hp).1
  rw [frameInput]
  split
  · exact isZero_posZero
  · exact h _

section
variable {num : Numerics} {p : Nat} {tol : Tolerances} (h : num.Admissible p tol)
include h

theorem Numerics.Admissible.binZero_morph (xm xa : List Bin) (cfg : Cfg) (hm : ∀ b ∈ xm, binZero b = true)
    (ha : ∀ b ∈ xa, binZero b = true) (hcfg : Bounded 0 cfg.m) : ∀ b ∈ morph num p xm xa cfg, binZero b = true := by
  intro b hb
  obtain ⟨i, hi, rfl⟩ := List.mem_map.1 hb
  exact h.binZero_morphBin i _ _ cfg (List.mem_range.1 hi) (binAt_zero xm hm i) (binAt_zero xa ha i) hcfg

/-- The FRAME of a silent run resynthesises zeros, bypassed or not. -/
theorem Numerics.Admissible.isZero_resynthesisedFrame (hp : 2 ≤ p) (xs : List TickArgs) (hxs : ∀ x ∈ xs, x.Silent)
    (j : Nat) : ∀ w ∈ resynthesisedFrame num p xs j, isZero w = true := by
  have hsilent := silent_tickNumber xs hxs
  have hmain := isZero_frameOfRun (fun x => x.o.main) p hp xs ((j + 1) * hopSizeOf p - 1) fun t => (hsilent t).main
  have haux := isZero_frameOfRun (fun x => x.o.aux) p hp xs ((j + 1) * hopSizeOf p - 1) fun t => (hsilent t).aux
  unfold resynthesisedFrame
  simp only
  split
  · exact hmain
  · exact h.irfft_zero _ (h.binZero_morph _ _ _ (h.rfft_zero _ hmain) (h.rfft_zero _ haux) (hsilent _).morph)

end

/-! ## The responses -/

/-- A sum of zeros from `+0.0` is `+0.0`, whatever their signs. -/
theorem foldl_fadd_of_zeros (f : Nat → Word) (js : List Nat) (h : ∀ j, isZero (f j) = true) :
    js.foldl (fun acc j => fadd acc (f j)) posZero = posZero := by
  induction js with
  | nil => rfl
  | cons j js ih => rw [List.foldl_cons, fadd_of_zeros posZero (f j) isZero_posZero (h j) rfl, ih]

theorem Numerics.Admissible.lawResponse_of_silent {num : Numerics} {p : Nat} {tol : Tolerances} (h : num.Admissible p tol)
    (hp : 2 ≤ p) (xs : List TickArgs) (hxs : ∀ x ∈ xs, x.Silent) (t : Nat) : lawResponse num p xs t = posZero := by
  refine foldl_fadd_of_zeros _ _ fun j => ?_
  have hy := frameAt_zero _ (h.isZero_resynthesisedFrame hp xs hxs j) (t - (j + 1) * hopSizeOf p)
  exact fmul_isZero _ _ (fmul_isZero _ _ hy (windowNearHann p _ hp).1) (by decide)

/-- Settles O39, by the latency law. -/
theorem silenceInSilenceOut : Obligations.SilenceInSilenceOut := by
  unfold Obligations.SilenceInSilenceOut
  intro p xs hp hp31 hxs
  have hsilent : ∀ x ∈ xs, x.Silent := fun x hx => by
    obtain ⟨hmain, haux, hlo, hhi⟩ := hxs x hx
    exact ⟨hmain, haux, bounded_of_morphFactor hlo hhi⟩
  obtain ⟨⟨s, hrun, hresps⟩, -⟩ := latencyLaw p xs hp
  refine ⟨s, hrun, ?_⟩
  rw [hresps, List.eq_replicate_iff, List.length_map, List.length_range]
  refine ⟨rfl, fun w hw => ?_⟩
  obtain ⟨t, -, rfl⟩ := List.mem_map.1 hw
  exact (Config.num_admissible p hp hp31).lawResponse_of_silent hp xs hsilent t

end Sys2Proof.Machine
end

section
/-! The bypass path (44_overlap_add.md R204): at a hop boundary FRAME overlap-adds the windowed main frame, whichever row
carries the bypass bit, and reads nothing of the configuration but that bit and nothing of the aux ring. -/

namespace Sys2Proof.Machine

/-! ## The modifier rows -/

/-- A row that bypasses runs, at a hop boundary, the FRAME that overlap-adds the windowed main frame. -/
theorem exec_bypassedTick (i : Instr) (main aux : Word) (cfg : Cfg) (s : State)
    (hi : i.command? = some (.tick main aux cfg)) (hbyp : cfg.byp = true) (hs : s.Inv) (hv : s.valid = true)
    (hhop : s.hopNext) :
    ∃ t, exec i s = .next t ∧ TickFifo s main aux t ∧ FrameAdded (windowedFrame .inMain main s) s t := by
  obtain ⟨t, hexec, hbypassed, -⟩ := tickAtHopRunsFrame i main aux cfg s hi hs hv hhop
  exact ⟨t, hexec, hbypassed hbyp⟩

/-- Settles O25: BYP is the TICK with the bypass bit, INVPH the one with the invert-phase bit, which a bypassed FRAME does
not read. -/
theorem modifierRowsAtHop : Obligations.ModifierRowsAtHop := by
  unfold Obligations.ModifierRowsAtHop
  intro msel psel o s hs hv hhop
  have bypassed := fun i iv (hi : i.command? = some (.tick o.main o.aux (cfgOf msel psel true iv o))) =>
    exec_bypassedTick i o.main o.aux _ s hi rfl hs hv hhop
  refine ⟨fun iv => bypassed (.byp msel psel iv o) iv rfl, ?_, bypassed (.invph msel psel true o) true rfl⟩
  exact exec_spectralTick (.invph msel psel false o) o.main o.aux (cfgOf msel psel false true o) s _ _ rfl rfl hs hv hhop
    (fun _ _ _ => rfl) fun _ _ _ => rfl

/-! ## What a bypassed FRAME reads -/

theorem frame_of_bypass (num : Numerics) (cfg : Cfg) (s : State) (h : cfg.byp = true) :
    frame num cfg s = overlapAdd (windowed s.logN (assemble .inMain s)) s := by
  rw [frame, resynthesised_bypass _ _ _ _ _ h]

/-- The output ring after a bypassed TICK is made of the main sample and the state before it: at a hop boundary by
`frame_of_bypass`, elsewhere by the zeroing alone. -/
theorem tickState_out_of_bypass (num : Numerics) (main aux aux' : Word) (cfg cfg' : Cfg) (s : State)
    (h : cfg.byp = true) (h' : cfg'.byp = true) :
    (tickState num main aux cfg s).mem.out = (tickState num main aux' cfg' s).mem.out := by
  by_cases hhop : s.hopNext
  · rw [tickState_hop _ _ _ _ _ hhop, tickState_hop _ _ _ _ _ hhop, hopBoundary, hopBoundary,
      frame_of_bypass _ _ _ h, frame_of_bypass _ _ _ h']
    rfl
  · rw [tickState_noHop _ _ _ _ _ hhop, tickState_noHop _ _ _ _ _ hhop]
    rfl

/-- Settles O28: the output ring by `tickState_out_of_bypass`, the rest is the same for every two TICKs with one main
sample. -/
theorem bypassIgnoresMorphOperands : Obligations.BypassIgnoresMorphOperands := by
  unfold Obligations.BypassIgnoresMorphOperands
  intro i j main aux aux' cfg cfg' s hi hj hbyp hbyp' hv
  refine ⟨_, _, exec_tick_of_valid i main aux cfg s hi hv, exec_tick_of_valid j main aux' cfg' s hj hv,
    tickState_out_of_bypass _ _ _ _ _ _ s hbyp hbyp', ?_, ?_, ?_, ?_⟩
  · rw [tickState_inMain, tickState_inMain]
  · rw [tickState_pos, tickState_pos]
  · rw [tickState_hopCount, tickState_hopCount]
  · rw [tickState_resps, tickState_resps]

end Sys2Proof.Machine
end

section
/-! Errors that build up (44_overlap_add.md R206): a word near a real number after some roundings, with a relative part that
counts the roundings and an absolute part in halves of the smallest subnormal. -/

namespace Sys2Proof.Machine

/-- The relative error that `k` roundings build up. -/
noncomputable def roundingGrowth (k : Nat) : ℝ := (1 + 1 / 2 ^ 24) ^ k - 1

theorem roundingGrowth_succ (k : Nat) : roundingGrowth (k + 1) = roundingGrowth k + (1 + roundingGrowth k) / 2 ^ 24 := by
  unfold roundingGrowth
  ring

theorem roundingGrowth_mono {k l : Nat} (h : k ≤ l) : roundingGrowth k ≤ roundingGrowth l :=
  sub_le_sub_right (pow_le_pow_right₀ (by norm_num) h) 1

/-- One rounding more: of a number `v'` that is near `v` itself. -/
theorem abs_sub_le_of_rounded {r v' v e : ℝ} {k : Nat} (hv : |v' - v| ≤ roundingGrowth k * |v| + e)
    (hr : |r - v'| ≤ |v'| / 2 ^ 24 + 1 / 2 ^ 150) :
    |r - v| ≤ roundingGrowth (k + 1) * |v| + (e + e / 2 ^ 24 + 1 / 2 ^ 150) := by
  have htri : |v'| ≤ |v' - v| + |v| := by simpa using abs_add_le (v' - v) v
  rw [roundingGrowth_succ]
  generalize roundingGrowth k = g at hv ⊢
  calc |r - v| ≤ |r - v'| + |v' - v| := abs_sub_le _ _ _
    _ ≤ ((|v' - v| + |v|) / 2 ^ 24 + 1 / 2 ^ 150) + |v' - v| := by linarith
    _ ≤ ((g * |v| + e + |v|) / 2 ^ 24 + 1 / 2 ^ 150) + (g * |v| + e) := by linarith
    _ = (g + (1 + g) / 2 ^ 24) * |v| + (e + e / 2 ^ 24 + 1 / 2 ^ 150) := by ring

/-- `w` is at most `2 ^ b` and stands for `v` after `k` roundings, with an absolute error of `d` halves of the smallest
subnormal. -/
structure Approx (b k d : Nat) (w : Word) (v : ℝ) : Prop where
  bounded : Bounded b w
  close : |toReal w - v| ≤ roundingGrowth k * |v| + d / 2 ^ 150

theorem Bounded.approx {b : Nat} {w : Word} (h : Bounded b w) : Approx b 0 0 w (toReal w) where
  bounded := h
  close := by simp [roundingGrowth]

section
variable {b k d : Nat} {w : Word} {v : ℝ}

theorem Approx.mono {b' k' : Nat} (h : Approx b k d w v) (hb : b ≤ b') (hk : k ≤ k') : Approx b' k' d w v where
  bounded := h.bounded.mono hb
  close := h.close.trans (by gcongr; exact roundingGrowth_mono hk)

/-- A product with a word of magnitude at most 2. -/
theorem Approx.fmul {c : Word} (h : Approx b k d w v) (hc : Bounded 1 c) (hb : b + 1 ≤ 126) :
    Approx (b + 2) (k + 1) (3 * d + 1) (fmul w c) (v * toReal c) where
  bounded := h.bounded.fmul hc hb
  close := by
    have hscaled : |toReal w * toReal c - v * toReal c| ≤ roundingGrowth k * |v * toReal c| + d / 2 ^ 150 * 2 := by
      have hd : (d / 2 ^ 150 : ℝ) * |toReal c| ≤ d / 2 ^ 150 * 2 :=
        mul_le_mul_of_nonneg_left (hc.2.trans_eq (pow_one 2)) (by positivity)
      calc |toReal w * toReal c - v * toReal c| = |toReal w - v| * |toReal c| := by rw [← sub_mul, abs_mul]
        _ ≤ (roundingGrowth k * |v| + d / 2 ^ 150) * |toReal c| := mul_le_mul_of_nonneg_right h.close (abs_nonneg _)
        _ = roundingGrowth k * |v * toReal c| + d / 2 ^ 150 * |toReal c| := by rw [abs_mul]; ring
        _ ≤ roundingGrowth k * |v * toReal c| + d / 2 ^ 150 * 2 := by gcongr
    refine (abs_sub_le_of_rounded hscaled (fmul_error w c (h.bounded.fmul hc hb).1)).trans ?_
    have hd : (0 : ℝ) ≤ d / 2 ^ 150 := by positivity
    push_cast
    rw [add_div, mul_div_assoc]
    linarith

/-- A sum of two numbers of one sign. -/
theorem Approx.fadd {d' : Nat} {w' : Word} {v' : ℝ} (h : Approx b k d w v) (h' : Approx b k d' w' v') (hsign : 0 ≤ v * v')
    (hb : b + 1 ≤ 126) : Approx (b + 2) (k + 1) (2 * (d + d') + 1) (fadd w w') (v + v') where
  bounded := h.bounded.fadd h'.bounded hb
  close := by
    have habs : |v + v'| = |v| + |v'| := abs_add_eq_add_abs_iff v v' |>.2 (mul_nonneg_iff.1 hsign)
    have hsum : |toReal w + toReal w' - (v + v')| ≤ roundingGrowth k * |v + v'| + (d + d') / 2 ^ 150 := by
      rw [add_sub_add_comm, habs, mul_add, add_div]
      linarith [abs_add_le (toReal w - v) (toReal w' - v'), h.close, h'.close]
    refine (abs_sub_le_of_rounded hsum (fadd_error w w' (h.bounded.fadd h'.bounded hb).1)).trans ?_
    have hd : (0 : ℝ) ≤ (d + d') / 2 ^ 150 := by positivity
    push_cast
    rw [add_div (2 * _), mul_div_assoc]
    linarith

end

end Sys2Proof.Machine
end

section
/-! The reconstruction law on the bypass path (44_overlap_add.md R206): four frames reach a response, each gives the sample
of N TICKs ago times the square of its window entry and the gain, and the four squares sum to 3/2. -/

namespace Sys2Proof.Machine

/-! ## One contribution -/

/-- What a bypassed frame adds where its input sample is `x` and its place is `k`: the window twice and the gain (R126,
R203). -/
def bypassContribution (p : Nat) (x : Word) (k : Nat) : Word := fmul (fmul (fmul x (window p k)) (window p k)) gainW

theorem toReal_gainW : toReal gainW = 11184811 / 2 ^ 24 := by
  have hunits : units gainW = 11184811 * 2 ^ 125 := by decide +kernel
  rw [toReal, hunits]
  norm_num

theorem bounded_gainW : Bounded 1 gainW := bounded_of_mag_le (by decide) (by decide +kernel)

theorem bounded_window (p k : Nat) (hp : 2 ≤ p) : Bounded 1 (window p k) := by
  obtain ⟨hfin, hclose⟩ := window_close_hannValue p k hp
  have htri := abs_add_le (toReal (window p k) - hannValue p k) (hannValue p k)
  rw [sub_add_cancel] at htri
  refine ⟨hfin, htri.trans ?_⟩
  calc _ ≤ 1 / 2 ^ 23 + 1 := add_le_add hclose (abs_hannValue_le_one p k)
    _ ≤ (2 : ℝ) ^ 1 := by norm_num

/-- What a bypassed contribution multiplies the sample by, in real arithmetic. -/
noncomputable def bypassWeight (p k : Nat) : ℝ := toReal (window p k) ^ 2 * toReal gainW

theorem bypassWeight_nonneg (p k : Nat) : 0 ≤ bypassWeight p k := by
  rw [bypassWeight, toReal_gainW]
  positivity

theorem bypassContribution_approx (p k : Nat) (hp : 2 ≤ p) {x : Word} (hx : Bounded 100 x) :
    Approx 106 3 13 (bypassContribution p x k) (toReal x * bypassWeight p k) := by
  have hw := bounded_window p k hp
  have h := ((hx.approx.fmul hw (by decide)).fmul hw (by decide)).fmul bounded_gainW (by decide)
  rwa [mul_assoc (toReal x), ← sq, mul_assoc] at h

/-! ## The sum of the contributions -/

theorem bounded_posZero : Bounded 0 posZero := bounded_oneW.of_absBits_le (by decide)

/-- `n` contributions added from `+0.0` are the sample times the sum of their weights. -/
theorem foldl_bypassContribution_approx (p : Nat) (hp : 2 ≤ p) {x : Word} (hx : Bounded 100 x) (k : Nat → Nat) (n : Nat)
    (hn : n ≤ 4) :
    Approx (106 + 2 * n) (3 + n) (27 * (2 ^ n - 1))
      ((List.range n).foldl (fun acc i => fadd acc (bypassContribution p x (k i))) posZero)
      (toReal x * ∑ i ∈ Finset.range n, bypassWeight p (k i)) := by
  induction n with
  | zero =>
    have h := bounded_posZero.approx
    rw [toReal_posZero] at h
    rw [Finset.sum_range_zero, mul_zero (toReal x)]
    exact h.mono (Nat.zero_le _) (Nat.zero_le _)
  | succ n ih =>
    have hterm := (bypassContribution_approx p (k n) hp hx).mono (Nat.le_add_right 106 (2 * n)) (Nat.le_add_right 3 n)
    have hsign : 0 ≤ (toReal x * ∑ i ∈ Finset.range n, bypassWeight p (k i)) * (toReal x * bypassWeight p (k n)) := by
      rw [mul_mul_mul_comm]
      exact mul_nonneg (mul_self_nonneg _)
        (mul_nonneg (Finset.sum_nonneg fun i _ => bypassWeight_nonneg p (k i)) (bypassWeight_nonneg p (k n)))
    have h := (ih (by omega)).fadd hterm hsign (by omega)
    have hd : 2 * (27 * (2 ^ n - 1) + 13) + 1 = 27 * (2 ^ (n + 1) - 1) := by
      have hpos : 1 ≤ 2 ^ n := Nat.one_le_two_pow
      omega
    rw [hd, ← mul_add, ← Finset.sum_range_succ] at h
    rwa [List.range_succ, List.foldl_concat]

/-! ## The four frames that reach a response -/

theorem tickNumber_mem (xs : List TickArgs) (t : Nat) (h : t < xs.length) : tickNumber xs t ∈ xs := by
  rw [tickNumber, List.getD_eq_getElem _ _ h]
  exact List.getElem_mem h

section
variable (p t : Nat) (hp : 2 ≤ p) (ht : frameSize p ≤ t)
include hp ht

theorem four_le_hops : 4 ≤ t / hopSizeOf p := by
  rwa [Nat.le_div_iff_mul_le (hopSizeOf_pos p hp), ← frameSize_eq_four_hops p hp]

/-- Once the FIFO has filled, the frames that reach TICK `t` are the last four (R110). -/
theorem framesReaching_eq_last_four : framesReaching p t t = (List.range 4).map (t / hopSizeOf p - 4 + ·) := by
  have hfour := four_le_hops p t hp ht
  have hreach (j : Nat) : t < (j + 1) * hopSizeOf p + frameSize p ↔ t / hopSizeOf p < j + 5 := by
    rw [frameSize_eq_four_hops p hp, ← Nat.add_mul, Nat.div_lt_iff_lt_mul (hopSizeOf_pos p hp)]
  unfold framesReaching
  simp only [hreach]
  generalize t / hopSizeOf p = k at hfour
  have hrange : List.range k = List.range (k - 4) ++ (List.range 4).map (k - 4 + ·) := by
    rw [← List.range_add, Nat.sub_add_cancel hfour]
  have hold : ((List.range (k - 4)).filter fun j => decide (k < j + 5)) = [] := by
    refine List.filter_eq_nil_iff.2 fun j hj => ?_
    have hj := List.mem_range.1 hj
    rw [decide_eq_true_iff]
    omega
  rw [hrange, List.filter_append, hold, List.nil_append, List.filter_eq_self]
  intro j hj
  obtain ⟨i, -, rfl⟩ := List.mem_map.1 hj
  rw [decide_eq_true_iff]
  omega

/-- TICK `t` answers place `t % hopSize + (3 - i) * hopSize` of the frame number `i` of the last four (R206). -/
theorem frame_add_place_eq (i : Nat) (hi : i < 4) :
    (t / hopSizeOf p - 4 + i + 1) * hopSizeOf p + (t % hopSizeOf p + (3 - i) * hopSizeOf p) = t := by
  have hfour := four_le_hops p t hp ht
  calc _ = (t / hopSizeOf p - 4 + i + 1 + (3 - i)) * hopSizeOf p + t % hopSizeOf p := by ring
    _ = hopSizeOf p * (t / hopSizeOf p) + t % hopSizeOf p := by
      rw [show t / hopSizeOf p - 4 + i + 1 + (3 - i) = t / hopSizeOf p by omega, Nat.mul_comm]
    _ = t := Nat.div_add_mod t _

end

/-- A hop place of those four lies in the frame. -/
theorem place_lt_frameSize (p n i : Nat) (hp : 2 ≤ p) (hn : n < hopSizeOf p) (hi : i ≤ 3) :
    n + i * hopSizeOf p < frameSize p := by
  have hhops : i * hopSizeOf p ≤ 3 * hopSizeOf p := Nat.mul_le_mul_right _ hi
  rw [frameSize_eq_four_hops p hp]
  omega

section
variable {p : Nat} {xs : List TickArgs} {t : Nat} (hp : 2 ≤ p) (hbyp : ∀ x ∈ xs, x.bp = true) (ht : frameSize p ≤ t)
  (hlen : t < xs.length)
include hp hbyp ht hlen

/-- In a run that bypasses, a frame that reaches TICK `t` holds the input of N TICKs ago at the place that `t` answers. -/
theorem frameContribution_of_bypass (num : Numerics) (j k : Nat) (hjk : (j + 1) * hopSizeOf p + k = t)
    (hk : k < frameSize p) :
    frameContribution num p xs t j = bypassContribution p (tickNumber xs (t - frameSize p)).o.main k := by
  have hpos : 0 < (j + 1) * hopSizeOf p := Nat.mul_pos (Nat.succ_pos j) (hopSizeOf_pos p hp)
  rw [frameContribution, resynthesisedFrame]
  generalize (j + 1) * hopSizeOf p = n at hjk hpos
  have hbp : (tickNumber xs (n - 1)).bp = true := hbyp _ (tickNumber_mem xs _ (by omega))
  have hinput : frameInput (fun x => x.o.main) p xs (n - 1) k = (tickNumber xs (t - frameSize p)).o.main := by
    rw [frameInput, Nat.sub_add_cancel hpos, hjk, if_neg (Nat.not_lt.2 ht)]
  have hframe : frameAt (frameOfRun (fun x => x.o.main) p xs (n - 1)) k =
      fmul (tickNumber xs (t - frameSize p)).o.main (window p k) := by
    rw [← hinput, frameOfRun, frameAt_getElem _ _ (by simpa using hk), List.getElem_map, List.getElem_range]
  rw [if_pos hbp, contribution, ← hjk, Nat.add_sub_cancel_left, hjk, hframe, bypassContribution]

/-- The response of a run that bypasses (R206): the four places are a hop apart, the last first. -/
theorem lawResponse_of_bypass (num : Numerics) :
    lawResponse num p xs t = (List.range 4).foldl (fun acc i => fadd acc (bypassContribution p
      (tickNumber xs (t - frameSize p)).o.main (t % hopSizeOf p + (3 - i) * hopSizeOf p))) posZero := by
  rw [lawResponse_eq_partialResponse, partialResponse, framesReaching_eq_last_four p t hp ht, List.foldl_map]
  refine List.foldl_ext _ _ _ fun acc i hi => ?_
  have hplace := place_lt_frameSize p _ (3 - i) hp (Nat.mod_lt t (hopSizeOf_pos p hp)) (Nat.sub_le 3 i)
  rw [frameContribution_of_bypass hp hbyp ht hlen num _ _ (frame_add_place_eq p t hp ht i (List.mem_range.1 hi)) hplace]

end

/-! ## Unity gain -/

/-- The four weights sum to 1, to the rounding of the table (`windowOverlapSums`) and of the gain. -/
theorem sum_bypassWeight_close (p n : Nat) (hp : 2 ≤ p) (hn : n < hopSizeOf p) :
    |∑ i ∈ Finset.range 4, bypassWeight p (n + (3 - i) * hopSizeOf p) - 1| ≤ 11 / 2 ^ 23 := by
  have hplaces : ∑ i ∈ Finset.range 4, bypassWeight p (n + (3 - i) * hopSizeOf p) =
      (∑ j ∈ Finset.range 4, toReal (window p ((n + j * hopSizeOf p) % frameSize p)) ^ 2) * toReal gainW := by
    rw [Finset.sum_mul, ← Finset.sum_range_reflect]
    refine Finset.sum_congr rfl fun i hi => ?_
    have hi : i ≤ 3 := Nat.le_of_lt_succ (Finset.mem_range.1 hi)
    rw [bypassWeight, show 3 - (4 - 1 - i) = i by omega, Nat.mod_eq_of_lt (place_lt_frameSize p n i hp hn hi)]
  have hsum := abs_le.1 (windowOverlapSums p n hp).2
  rw [hplaces, toReal_gainW, abs_le]
  constructor <;> linarith [hsum.1, hsum.2]

/-- The bound of the law: seven roundings on the way of a sample, and the error of the four weights. -/
theorem response_close {r x m : ℝ} (hr : |r - x * m| ≤ roundingGrowth 7 * |x * m| + 405 / 2 ^ 150)
    (hm : |m - 1| ≤ 11 / 2 ^ 23) : |r - x| ≤ |x| / 2 ^ 19 + 1 / 2 ^ 140 := by
  have hgrowth : roundingGrowth 7 ≤ 8 / 2 ^ 24 := by
    unfold roundingGrowth
    norm_num
  have hweight : |m| ≤ 1 + 11 / 2 ^ 23 := by
    have htri := abs_add_le (m - 1) 1
    rw [sub_add_cancel, abs_one] at htri
    linarith
  have hx := abs_nonneg x
  calc |r - x| ≤ |r - x * m| + |x * m - x| := abs_sub_le _ _ _
    _ = |r - x * m| + |x| * |m - 1| := by rw [← mul_sub_one, abs_mul]
    _ ≤ (8 / 2 ^ 24 * (|x| * (1 + 11 / 2 ^ 23)) + 405 / 2 ^ 150) + |x| * (11 / 2 ^ 23) := by
      refine add_le_add (hr.trans ?_) (mul_le_mul_of_nonneg_left hm hx)
      rw [abs_mul]
      gcongr
    _ ≤ |x| / 2 ^ 19 + 1 / 2 ^ 140 := by linarith

/-- Settles O43: the response is the sum of `lawResponse_of_bypass`, near the sample times the sum of the weights. -/
theorem bypassReconstructsInput : Obligations.BypassReconstructsInput := by
  unfold Obligations.BypassReconstructsInput
  intro p xs s t hp hbyp hmain hrun ht hlen
  obtain ⟨s', hrun', hs⟩ := runInstrs_traced p hp xs
  obtain rfl : s' = s := by
    rw [hrun] at hrun'
    cases hrun'
    rfl
  have hx : Bounded 100 (tickNumber xs (t - frameSize p)).o.main :=
    hmain _ (tickNumber_mem xs _ ((Nat.sub_le t _).trans_lt hlen))
  have hresp := foldl_bypassContribution_approx p hp hx (fun i => t % hopSizeOf p + (3 - i) * hopSizeOf p) 4 le_rfl
  rw [← lawResponse_of_bypass hp hbyp ht hlen Config.num] at hresp
  rw [getD_resps_of_traced hs t hlen]
  refine ⟨hresp.bounded.1, response_close ?_ (sum_bypassWeight_close p _ hp (Nat.mod_lt t (hopSizeOf_pos p hp)))⟩
  exact_mod_cast hresp.close

end Sys2Proof.Machine
end

section
/-! The sign operations, the comparisons and the selections (45_numerics.md R216 to R218): the order of the words that
`orderKey` reads off their bits is that of their values. -/

namespace Sys2Proof.Machine

/-- Settles O57: the two masks, bit by bit. -/
theorem signOperations : Obligations.SignOperations := by
  unfold Obligations.SignOperations
  intro a n
  have hmask : 0x7FFFFFFF#32 = ~~~BitVec.twoPow 32 31 := by decide
  have hflip : 0x80000000#32 = BitVec.twoPow 32 31 := by decide
  rw [fabs, fneg, hmask, hflip, BitVec.getLsbD_and, BitVec.getLsbD_xor, BitVec.getLsbD_not, BitVec.getLsbD_twoPow]
  obtain hn | hn := Nat.lt_or_ge n 32
  · simp [hn, eq_comm (a := n)]
  · simp [BitVec.getLsbD_of_ge a n hn, show n ≠ 31 by omega, show 31 ≠ n by omega]

/-! ## The order of the magnitudes -/

section
variable {a b : Nat} (ha : a ≤ infBits) (hb : b ≤ infBits)
include ha hb

theorem unitsOfBits_inj (h : unitsOfBits a = unitsOfBits b) : a = b := by
  rw [← roundMag_unitsOfBits a ha, h, roundMag_unitsOfBits b hb]

theorem unitsOfBits_lt_iff : unitsOfBits a < unitsOfBits b ↔ a < b :=
  ⟨fun h => lt_of_not_ge fun hba => h.not_ge (unitsOfBits_mono hba),
    fun h => (unitsOfBits_mono h.le).lt_of_ne fun he => h.ne (unitsOfBits_inj ha hb he)⟩

end

theorem unitsOfBits_pos_iff {a : Nat} (ha : a ≤ infBits) : 0 < unitsOfBits a ↔ 0 < a :=
  unitsOfBits_lt_iff (Nat.zero_le _) ha

/-! ## The order of the values -/

section
variable (a b : Word) (ha : isFinite a = true) (hb : isFinite b = true)
include ha hb

theorem orderKey_lt_iff_units_lt : orderKey a < orderKey b ↔ units a < units b := by
  have ha' : absBits a ≤ infBits := (of_decide_eq_true ha : absBits a < infBits).le
  have hb' : absBits b ≤ infBits := (of_decide_eq_true hb : absBits b < infBits).le
  have hlt := unitsOfBits_lt_iff ha' hb'
  have hgt := unitsOfBits_lt_iff hb' ha'
  have hapos := unitsOfBits_pos_iff ha'
  have hbpos := unitsOfBits_pos_iff hb'
  unfold orderKey units mag
  cases signBit a <;> cases signBit b <;> simp only [if_true, Bool.false_eq_true, if_false] <;> omega

theorem orderKey_lt_iff_toReal_lt : orderKey a < orderKey b ↔ toReal a < toReal b := by
  rw [orderKey_lt_iff_units_lt a b ha hb, toReal, toReal, div_lt_div_iff_of_pos_right (by positivity), Int.cast_lt]

theorem flt_iff_toReal_lt : flt a b = true ↔ toReal a < toReal b := by
  rw [flt_iff, orderKey_lt_iff_toReal_lt a b ha hb]
  simp only [not_isNaN_of_finite a ha, not_isNaN_of_finite b hb, true_and]

theorem fle_iff_toReal_le : fle a b = true ↔ toReal a ≤ toReal b := by
  rw [fle_iff, ← not_lt, ← not_lt, orderKey_lt_iff_toReal_lt b a hb ha]
  simp only [not_isNaN_of_finite a ha, not_isNaN_of_finite b hb, true_and]

end

/-! ## Unordered operands -/

section
variable (a b : Word) (h : (isNaN a || isNaN b) = true)
include h

theorem flt_of_isNaN : flt a b = false := by
  rw [flt, ← Bool.not_or, h]
  rfl

theorem fle_of_isNaN : fle a b = false := by
  rw [fle, ← Bool.not_or, h]
  rfl

end

/-- Settles O58. -/
theorem orderedComparisons : Obligations.OrderedComparisons := by
  unfold Obligations.OrderedComparisons
  exact ⟨fun a b ha hb => ⟨flt_iff_toReal_lt a b ha hb, fle_iff_toReal_le a b ha hb⟩,
    fun a b h => ⟨flt_of_isNaN a b h, fle_of_isNaN a b h⟩, by decide⟩

/-- Settles O59: a selection tests one comparison, which is false on a NaN in either place. -/
theorem selectionKeepsFirstOperand : Obligations.SelectionKeepsFirstOperand := by
  unfold Obligations.SelectionKeepsFirstOperand
  refine fun a b => ⟨fun h => if_pos h, fun h => if_neg (ne_true_of_eq_false h), fun h => if_pos h,
    fun h => if_neg (ne_true_of_eq_false h), fun h => ⟨?_, ?_⟩⟩
  · exact if_neg (ne_true_of_eq_false (flt_of_isNaN a b h))
  · exact if_neg (ne_true_of_eq_false (flt_of_isNaN b a (by rwa [Bool.or_comm])))

end Sys2Proof.Machine
end

section
/-! RN32 rounds once (45_numerics.md R212 to R214): to nearest, ties to even, an infinity from half a step past the largest
finite value on. -/

namespace Sys2Proof.Machine

/-! ## Ties -/

theorem roundEvenReal_cases (y : ℝ) : (roundEvenReal y = ⌊y⌋₊ + 1 ∧ 1 / 2 ≤ y - ⌊y⌋₊) ∨
    (roundEvenReal y = ⌊y⌋₊ ∧ y - ⌊y⌋₊ ≤ 1 / 2) := by
  unfold roundEvenReal
  simp only
  split
  · next hup => exact .inl ⟨rfl, hup.elim le_of_lt fun h => h.1.ge⟩
  · next hdown => exact .inr ⟨rfl, not_lt.1 fun h => hdown (.inl h)⟩

theorem even_roundEvenReal_of_half (y : ℝ) (h : y - ⌊y⌋₊ = 1 / 2) : roundEvenReal y % 2 = 0 := by
  unfold roundEvenReal
  simp only [h, lt_irrefl, true_and, false_or]
  split <;> omega

/-- Of two integers at the same distance from a number, the one it is rounded to is even. -/
theorem roundEvenReal_tie (y : ℝ) (hy : 0 ≤ y) (z : Nat) (htie : |(roundEvenReal y : ℝ) - y| = |(z : ℝ) - y|) :
    z = roundEvenReal y ∨ roundEvenReal y % 2 = 0 := by
  rw [or_iff_not_imp_left]
  intro hz
  have hsum : (roundEvenReal y : ℝ) + z = 2 * y := by
    rcases abs_eq_abs.1 htie with h | h
    · exact absurd (Nat.cast_injective (sub_left_injective h)).symm hz
    · linarith
  have hfloor := Nat.floor_le hy
  have hfloor' := Nat.lt_floor_add_one y
  apply even_roundEvenReal_of_half
  rcases roundEvenReal_cases y with ⟨hr, hhalf⟩ | ⟨hr, hhalf⟩ <;> rw [hr] at hsum hz <;> push_cast at hsum
  · have hlo : ⌊y⌋₊ ≤ z := by exact_mod_cast (by linarith : (⌊y⌋₊ : ℝ) ≤ z)
    have hhi : z < ⌊y⌋₊ + 1 := by exact_mod_cast (by linarith : (z : ℝ) < ⌊y⌋₊ + 1)
    obtain rfl : z = ⌊y⌋₊ := by omega
    linarith
  · have hlo : ⌊y⌋₊ ≤ z := by exact_mod_cast (by linarith : (⌊y⌋₊ : ℝ) ≤ z)
    have hhi : z ≤ ⌊y⌋₊ + 1 := by exact_mod_cast (by linarith : (z : ℝ) ≤ ⌊y⌋₊ + 1)
    obtain rfl : z = ⌊y⌋₊ + 1 := by omega
    push_cast at hsum
    linarith

/-- Below overflow the rounding is that of the value in steps of a power of two, 24 bits of which are kept past the
subnormals. -/
theorem roundMagReal_of_lt_inf (m : ℝ) (hm : 0 ≤ m) (hfin : roundMagReal m < infBits) :
    ∃ k, roundMagReal m = k * 2 ^ 23 + roundEvenReal (m / 2 ^ k) ∧
      unitsOfBits (roundMagReal m) = roundEvenReal (m / 2 ^ k) * 2 ^ k ∧ (k = 0 ∨ (2 : ℝ) ^ 23 * 2 ^ k ≤ m) := by
  obtain ⟨hlo, hhi, hk⟩ := roundMagReal_significand m
  have hr : roundMagReal m = (Nat.log2 ⌊m⌋₊ - 23) * 2 ^ 23 + roundEvenReal (m / 2 ^ (Nat.log2 ⌊m⌋₊ - 23)) := by
    unfold roundMagReal at hfin ⊢
    simp only at hfin ⊢
    omega
  refine ⟨_, hr, by rw [hr, unitsOfBits_normal _ _ hlo hhi], hk.imp_right fun h => ?_⟩
  rw [← pow_add, Nat.add_comm 23]
  exact le_trans (by exact_mod_cast h) (Nat.floor_le hm)

/-- The distance of a multiple of a step from a number, in steps. -/
theorem abs_mul_step_sub (c m s : ℝ) (hs : 0 < s) : |c * s - m| = |c - m / s| * s := by
  rw [← abs_of_pos hs, ← abs_mul, abs_of_pos hs, sub_mul, div_mul_cancel₀ _ hs.ne']

/-- Of two values at the same distance from a number, the one it is rounded to has an even magnitude. -/
theorem roundMagReal_tie (m : ℝ) (hm : 0 ≤ m) (hfin : roundMagReal m < infBits) (a : Nat) (ha : a ≤ infBits)
    (htie : |(unitsOfBits (roundMagReal m) : ℝ) - m| = |(unitsOfBits a : ℝ) - m|) :
    a = roundMagReal m ∨ roundMagReal m % 2 = 0 := by
  obtain ⟨k, hr, hunits, hk⟩ := roundMagReal_of_lt_inf m hm hfin
  have hstep : (0 : ℝ) < 2 ^ k := by positivity
  have hround : |(unitsOfBits (roundMagReal m) : ℝ) - m| = |(roundEvenReal (m / 2 ^ k) : ℝ) - m / 2 ^ k| * 2 ^ k := by
    rw [hunits, Nat.cast_mul, Nat.cast_pow, Nat.cast_ofNat, abs_mul_step_sub _ _ _ hstep]
  have hmultiple : ∀ c : Nat, unitsOfBits a = c * 2 ^ k → a = roundMagReal m ∨ roundMagReal m % 2 = 0 := by
    intro c hc
    rw [hround, hc, Nat.cast_mul, Nat.cast_pow, Nat.cast_ofNat, abs_mul_step_sub _ _ _ hstep] at htie
    rcases roundEvenReal_tie _ (by positivity) c (mul_right_cancel₀ hstep.ne' htie) with rfl | heven
    · exact .inl (unitsOfBits_inj ha hfin.le (hc.trans hunits.symm))
    · exact .inr (by omega)
  rcases hk with rfl | hk
  · exact hmultiple (unitsOfBits a) (by rw [pow_zero, Nat.mul_one])
  rcases Nat.lt_or_ge (unitsOfBits a) (2 ^ (k + 23)) with hlt | hge
  · have hlt : (unitsOfBits a : ℝ) < 2 ^ 23 * 2 ^ k := by
      rw [← pow_add, Nat.add_comm 23]
      exact_mod_cast hlt
    have hnear := mul_le_mul_of_nonneg_right (roundEvenReal_nearest (m / 2 ^ k) (by positivity) (2 ^ 23)) hstep.le
    rw [← hround, ← abs_mul_step_sub _ _ _ hstep, Nat.cast_pow, Nat.cast_ofNat, htie, abs_of_nonpos (by linarith),
      abs_of_nonpos (by linarith)] at hnear
    linarith
  · obtain ⟨c, hc⟩ := unitsOfBits_dvd a k hge
    exact hmultiple c (by rw [hc, Nat.mul_comm])

/-! ## Overflow -/

/-- Half a step past the largest finite value, in units of 2^-149. -/
def overflowUnits : Nat := (2 ^ 25 - 1) * 2 ^ 252

theorem cast_overflowUnits : (overflowUnits : ℝ) = overflowBound * 2 ^ 149 := by
  rw [overflowUnits, overflowBound, mul_assoc, ← pow_add, Nat.cast_mul, Nat.cast_pow]
  norm_num

theorem roundMagReal_overflowUnits : roundMagReal overflowUnits = infBits := by
  have h : roundMag overflowUnits 1 = infBits := by decide +kernel
  rw [← h, ← roundMagReal_div _ 1 one_pos, Nat.cast_one, div_one]

theorem roundMagReal_of_overflow (m : ℝ) (h : (overflowUnits : ℝ) ≤ m) : roundMagReal m = infBits :=
  (roundMagReal_le_inf m).antisymm (roundMagReal_overflowUnits.symm.le.trans (roundMagReal_mono h))

/-- Below the bound a value of the largest exponent keeps less than 2^24 steps. -/
theorem roundMagReal_lt_inf (m : ℝ) (hm : 0 ≤ m) (h : m < overflowUnits) : roundMagReal m < infBits := by
  obtain ⟨-, hhi, -⟩ := roundMagReal_significand m
  have hfloor : ⌊m⌋₊ < 2 ^ (25 + 252) := by
    refine ((Nat.floor_lt hm).2 h).trans ?_
    rw [overflowUnits, pow_add]
    exact Nat.mul_lt_mul_of_pos_right (by norm_num) (by positivity)
  have hlog : Nat.log2 ⌊m⌋₊ ≤ 276 := by
    rcases Nat.eq_zero_or_pos ⌊m⌋₊ with h0 | hpos
    · rw [h0]
      exact Nat.zero_le _
    · exact Nat.lt_succ_iff.1 ((Nat.log2_lt hpos.ne').2 hfloor)
  have htop : roundEvenReal (m / 2 ^ 253) < 2 ^ 24 := by
    have hclose := (abs_le.1 (roundEvenReal_close (m / 2 ^ 253) (by positivity))).2
    have hm253 : m / 2 ^ 253 < 2 ^ 24 - 1 / 2 := by
      rw [div_lt_iff₀ (by positivity)]
      refine h.trans_eq ?_
      rw [overflowUnits, Nat.cast_mul, Nat.cast_pow, pow_succ _ 252]
      norm_num
    exact_mod_cast (by linarith : (roundEvenReal (m / 2 ^ 253) : ℝ) < 2 ^ 24)
  unfold roundMagReal infBits
  simp only
  rcases Nat.lt_or_ge (Nat.log2 ⌊m⌋₊ - 23) 253 with hk | hk
  · omega
  · rw [show Nat.log2 ⌊m⌋₊ - 23 = 253 by omega]
    omega

/-! ## One rounding of a real number -/

theorem isRounded_rnReal (v : ℝ) : IsRounded (rnReal v) v := by
  have hA : (0 : ℝ) < 2 ^ 149 := by positivity
  have hm : 0 ≤ |v| * 2 ^ 149 := by positivity
  refine ⟨fun hv => ?_, fun hv => ?_⟩
  · have hfin : roundMagReal (|v| * 2 ^ 149) < infBits := by
      refine roundMagReal_lt_inf _ hm ?_
      rw [cast_overflowUnits]
      exact mul_lt_mul_of_pos_right hv hA
    have hf : isFinite (rnReal v) = true := by
      rw [isFinite, absBits_rnReal]
      exact decide_eq_true hfin
    refine ⟨hf, fun w hw => ⟨rnReal_nearest v hf w, fun htie => ?_⟩⟩
    rw [absBits_rnReal]
    refine roundMagReal_tie _ hm hfin _ (of_decide_eq_true hw : absBits w < infBits).le
      (le_antisymm (roundMagReal_nearest _ hm hfin _) ?_)
    have hmag : |(unitsOfBits (absBits w) : ℝ) - |v| * 2 ^ 149| / 2 ^ 149 ≤ |toReal w - v| := by
      refine le_of_eq_of_le ?_ (abs_abs_sub_abs_le (toReal w) v)
      rw [abs_toReal, mag, ← abs_of_pos hA, ← abs_div, abs_of_pos hA, sub_div, mul_div_cancel_right₀ _ hA.ne']
    rw [← htie, abs_rnReal_sub] at hmag
    exact (div_le_div_iff_of_pos_right hA).1 hmag
  · have hinf : roundMagReal (|v| * 2 ^ 149) = infBits := by
      refine roundMagReal_of_overflow _ ?_
      rw [cast_overflowUnits]
      exact mul_le_mul_of_nonneg_right hv hA.le
    rw [isInf, absBits_rnReal, signBit_rnReal]
    exact ⟨decide_eq_true hinf, decide_eq_true_iff⟩

/-- Settles O53. -/
theorem roundsToNearestEven : Obligations.RoundsToNearestEven := by
  unfold Obligations.RoundsToNearestEven
  intro x d hd
  rw [← rnReal_div x d hd]
  exact isRounded_rnReal _

/-! ## One rounding of an operation's result -/

/-- A zero of either sign is the number zero rounded. -/
theorem isRounded_of_isZero (r : Word) (hr : isZero r = true) : IsRounded r 0 := by
  have hbound : 0 < overflowBound := by
    unfold overflowBound
    norm_num
  refine ⟨fun _ => ⟨isFinite_of_isZero r hr, fun w _ => ⟨?_, fun _ => .inr ?_⟩⟩, fun h => ?_⟩
  · rw [toReal_of_isZero r hr, sub_zero, abs_zero]
    exact abs_nonneg _
  · rw [of_decide_eq_true hr]
  · rw [abs_zero] at h
    exact absurd h hbound.not_ge

/-- The rounding of a sign and a magnitude. -/
theorem isRounded_rnd (neg : Bool) (n d : Nat) (hd : 0 < d) (v : ℝ)
    (hv : v = (if neg then -1 else 1) * ((n : ℝ) / d / 2 ^ 149)) : IsRounded (rnd neg n d) v := by
  rcases Nat.eq_zero_or_pos n with rfl | hn
  · rw [Nat.cast_zero, zero_div, zero_div, mul_zero] at hv
    rw [hv]
    refine isRounded_of_isZero _ (decide_eq_true ?_)
    rw [rnd, roundMag_zero, absBits_mkWord _ _ (by norm_num)]
  · have hpos : (0 : ℝ) < n / d / 2 ^ 149 := by positivity
    have habs : |v| * 2 ^ 149 = n / d := by
      rw [hv, abs_mul, abs_of_pos hpos, apply_ite abs, abs_neg, abs_one, ite_self, one_mul,
        div_mul_cancel₀ _ (by positivity)]
    have hsign : decide (v < 0) = neg := by
      rw [hv]
      cases neg
      · simpa using hpos.le
      · simpa using hpos
    have hrnd : rnd neg n d = rnReal v := by
      rw [rnReal, habs, roundMagReal_div n d hd, rnd, ← hsign]
    rw [hrnd]
    exact isRounded_rnReal v

section
variable (a b : Word) (ha : isFinite a = true) (hb : isFinite b = true)
include ha hb

theorem isRounded_fadd : IsRounded (fadd a b) (toReal a + toReal b) := by
  rw [fadd_eq_addFinite a b ha hb]
  rcases addFinite_cases a b with hsum | ⟨h0, hz⟩
  · rw [hsum]
    exact isRounded_rnd _ _ _ one_pos _ ((add_units a b).trans (int_signed _))
  · rw [h0]
    exact isRounded_of_isZero _ hz

theorem isRounded_fsub : IsRounded (fsub a b) (toReal a - toReal b) := by
  rw [fsub_eq_fadd a b ha hb, sub_fneg]
  exact isRounded_fadd a (fneg b) ha (by rwa [isFinite_fneg])

theorem isRounded_fmul : IsRounded (fmul a b) (toReal a * toReal b) := by
  rw [fmul_eq_rnd a b ha hb]
  exact isRounded_rnd _ _ _ (by positivity) _ (mul_signed a b)

theorem fdiv_eq_rnd (h0 : isZero b = false) :
    fdiv a b = rnd (signBit a != signBit b) (mag a * 2 ^ 149) (mag b) := by
  simp only [fdiv, not_isNaN_of_finite a ha, not_isNaN_of_finite b hb, not_isInf_of_finite a ha, not_isInf_of_finite b hb,
    h0, Bool.or_self, Bool.false_eq_true, if_false]

end

theorem div_signed (a b : Word) : toReal a / toReal b
    = (if signBit a != signBit b then -1 else 1) * (((mag a * 2 ^ 149 : Nat) : ℝ) / mag b / 2 ^ 149) := by
  have hA : (2 : ℝ) ^ 149 ≠ 0 := by positivity
  have hmag : ((mag a * 2 ^ 149 : Nat) : ℝ) / mag b / 2 ^ 149 = (mag a / 2 ^ 149) / (mag b / 2 ^ 149) := by
    rw [Nat.cast_mul, Nat.cast_pow, Nat.cast_ofNat, div_right_comm, mul_div_cancel_right₀ _ hA,
      div_div_div_cancel_right₀ hA]
  rw [toReal_signed a, toReal_signed b, hmag]
  cases signBit a <;> cases signBit b <;> simp [neg_div, div_neg]

/-- Settles O54: each operation rounds a sign and a magnitude, or gives a zero where its exact result is one. -/
theorem arithmeticRoundsOnce : Obligations.ArithmeticRoundsOnce := by
  unfold Obligations.ArithmeticRoundsOnce
  refine fun a b ha hb => ⟨isRounded_fadd a b ha hb, isRounded_fsub a b ha hb, isRounded_fmul a b ha hb, fun h0 => ?_⟩
  rw [fdiv_eq_rnd a b ha hb h0]
  exact isRounded_rnd _ _ _ (mag_pos b h0) _ (div_signed a b)

end Sys2Proof.Machine
end

section
/-! The square root (45_numerics.md R215): RN32 of the real root. An inexact root lies strictly between two integers of units,
so large that RN32 rounds every number between them alike. -/

namespace Sys2Proof.Machine

/-! ## Numbers strictly between two integers -/

section
variable {y : ℝ} {r : Nat} (hlo : (r : ℝ) < y) (hhi : y < r + 1)
include hlo hhi

theorem floor_of_between : ⌊y⌋₊ = r := (Nat.floor_eq_iff ((Nat.cast_nonneg r).trans hlo.le)).2 ⟨hlo.le, hhi⟩

theorem cast_lt_iff_of_between (c : Nat) : (c : ℝ) < y ↔ c ≤ r := by
  refine ⟨fun h => ?_, fun h => lt_of_le_of_lt (by exact_mod_cast h) hlo⟩
  exact Nat.lt_succ_iff.1 (by exact_mod_cast h.trans hhi)

theorem ne_cast_of_between (c : Nat) : y ≠ c := by
  rintro rfl
  have hrc : r < c := by exact_mod_cast hlo
  have hcr : c < r + 1 := by exact_mod_cast hhi
  omega

/-- In even steps, whether such a number is rounded up is told from the integer below it, and it is never a tie. -/
theorem roundEvenReal_of_between (k : Nat) (hk : 0 < k) : roundEvenReal (y / 2 ^ k) =
    if (2 * (r / 2 ^ k) + 1) * 2 ^ (k - 1) ≤ r then r / 2 ^ k + 1 else r / 2 ^ k := by
  have hfloor : ⌊y / 2 ^ k⌋₊ = r / 2 ^ k := by
    have hcast : (2 : ℝ) ^ k = ((2 ^ k : Nat) : ℝ) := by rw [Nat.cast_pow, Nat.cast_ofNat]
    rw [hcast, Nat.floor_div_natCast, floor_of_between hlo hhi]
  have hhalf : ∀ q : Nat, y / 2 ^ k - q = 1 / 2 + (y - ((2 * q + 1) * 2 ^ (k - 1) : Nat)) / 2 ^ k := by
    intro q
    have hstep : (2 : ℝ) ^ k = 2 ^ (k - 1) * 2 := by rw [← pow_succ, Nat.sub_add_cancel hk]
    have hpos : (0 : ℝ) < 2 ^ (k - 1) := by positivity
    rw [hstep]
    push_cast
    field_simp
    ring
  have hpos : (0 : ℝ) < 2 ^ k := by positivity
  unfold roundEvenReal
  simp only [hfloor, hhalf, lt_add_iff_pos_right, add_eq_left, div_pos_iff_of_pos_right hpos, div_eq_zero_iff, hpos.ne',
    or_false, sub_pos, sub_eq_zero, cast_lt_iff_of_between hlo hhi, ne_cast_of_between hlo hhi, false_and]

end

/-- RN32 rounds all numbers between two large integers alike. -/
theorem roundMagReal_congr_of_between {y y' : ℝ} {r : Nat} (hr : 2 ^ 24 ≤ r) (hlo : (r : ℝ) < y) (hhi : y < r + 1)
    (hlo' : (r : ℝ) < y') (hhi' : y' < r + 1) : roundMagReal y = roundMagReal y' := by
  have hlog : 24 ≤ Nat.log2 r := (Nat.le_log2 (by omega)).2 hr
  have hk : 0 < Nat.log2 r - 23 := by omega
  unfold roundMagReal
  simp only [floor_of_between hlo hhi, floor_of_between hlo' hhi', roundEvenReal_of_between hlo hhi _ hk,
    roundEvenReal_of_between hlo' hhi' _ hk]

/-! ## The root of an integer -/

/-- What `fsqrt` rounds, in halves of a unit: the integer root, or the half past it for an inexact one. -/
theorem roundMag_isqrt (x : Nat) (hx : 2 ^ 48 ≤ x) :
    roundMag (2 * isqrt x + (if isqrt x * isqrt x = x then 0 else 1)) 2 = roundMagReal (√x) := by
  obtain ⟨hle, hlt⟩ := isqrt_spec x
  generalize isqrt x = r at hle hlt
  have hr : (0 : ℝ) ≤ r := Nat.cast_nonneg r
  rw [← roundMagReal_div _ _ two_pos]
  split
  · next hexact =>
    rw [← hexact, Nat.cast_mul, Real.sqrt_mul_self hr, Nat.add_zero, Nat.cast_mul, mul_div_cancel_left₀]
    exact Nat.cast_ne_zero.2 two_ne_zero
  · next hinexact =>
    have hlarge : 2 ^ 24 ≤ r := by
      by_contra hsmall
      have := Nat.mul_le_mul (show r + 1 ≤ 2 ^ 24 by omega) (show r + 1 ≤ 2 ^ 24 by omega)
      omega
    have hlo : (r : ℝ) < √x := by
      rw [Real.lt_sqrt hr, sq]
      exact_mod_cast hle.lt_of_ne hinexact
    have hhi : √x < r + 1 := by
      rw [Real.sqrt_lt' (by positivity), sq]
      exact_mod_cast hlt
    have hhalf : ((2 * r + 1 : Nat) : ℝ) / (2 : Nat) = r + 1 / 2 := by
      push_cast
      ring
    rw [hhalf]
    exact roundMagReal_congr_of_between hlarge (by linarith) (by linarith) hlo hhi

/-! ## The root of a word -/

section
variable (a : Word) (ha : isFinite a = true) (h0 : isZero a = false) (hs : signBit a = false)
include ha h0 hs

theorem fsqrt_of_pos : fsqrt a = rnd false (2 * isqrt (mag a * 2 ^ 149) +
    (if isqrt (mag a * 2 ^ 149) * isqrt (mag a * 2 ^ 149) = mag a * 2 ^ 149 then 0 else 1)) 2 := by
  simp only [fsqrt, not_isNaN_of_finite a ha, h0, hs, not_isInf_of_finite a ha, Bool.false_eq_true, if_false]

theorem fsqrt_eq_rnReal : fsqrt a = rnReal (√(toReal a)) := by
  have hA : (0 : ℝ) < 2 ^ 149 := by positivity
  have hroot : |√(toReal a)| * 2 ^ 149 = √((mag a * 2 ^ 149 : Nat) : ℝ) := by
    have hval : ((mag a * 2 ^ 149 : Nat) : ℝ) = toReal a * (2 ^ 149) ^ 2 := by
      rw [toReal_signed, hs, if_neg Bool.false_ne_true, one_mul, sq, ← mul_assoc, div_mul_cancel₀ _ hA.ne', Nat.cast_mul,
        Nat.cast_pow, Nat.cast_ofNat]
    rw [hval, Real.sqrt_mul' _ (sq_nonneg _), Real.sqrt_sq hA.le, abs_of_nonneg (Real.sqrt_nonneg _)]
  have hlarge : 2 ^ 48 ≤ mag a * 2 ^ 149 :=
    (Nat.pow_le_pow_right two_pos (by norm_num)).trans (Nat.le_mul_of_pos_left _ (mag_pos a h0))
  have hnonneg : decide (√(toReal a) < 0) = false := decide_eq_false (Real.sqrt_nonneg _).not_gt
  rw [fsqrt_of_pos a ha h0 hs, rnd, roundMag_isqrt _ hlarge, rnReal, hroot, hnonneg]

end

/-- A root is far from overflow. -/
theorem sqrt_toReal_le (a : Word) (ha : isFinite a = true) : |√(toReal a)| ≤ 3 * 2 ^ 126 := by
  have h64 : √(toReal a) ≤ 2 ^ 64 := by
    rw [Real.sqrt_le_left (by positivity), ← pow_mul]
    exact (le_abs_self _).trans (abs_toReal_le a ha)
  rw [abs_of_nonneg (Real.sqrt_nonneg _)]
  exact h64.trans (two_pow_le_overflow (by norm_num))

/-- Settles O55: the root of a zero is that zero, any other is the real root rounded. -/
theorem squareRootRoundsCorrectly : Obligations.SquareRootRoundsCorrectly := by
  unfold Obligations.SquareRootRoundsCorrectly
  intro a w ha hs _
  cases h0 : isZero a with
  | true =>
    rw [fsqrt_of_isZero a h0, toReal_of_isZero a h0, Real.sqrt_zero, sub_self, abs_zero]
    exact ⟨ha, abs_nonneg _⟩
  | false =>
    rw [fsqrt_eq_rnReal a ha h0 (hs.resolve_right (ne_true_of_eq_false h0))]
    have hf := rnReal_finite _ (sqrt_toReal_le a ha)
    exact ⟨hf, rnReal_nearest _ hf w⟩

end Sys2Proof.Machine
end

section
/-! The special cases of the arithmetic (45_numerics.md R213 to R215, R219): what each operation gives on zeros, infinities and
NaNs, one equation per kind of operands. -/

namespace Sys2Proof.Machine

/-! ## Kinds of words -/

section
variable (a : Word) (h : isInf a = true)
include h

theorem not_isNaN_of_isInf : isNaN a = false := by
  rw [isNaN, of_decide_eq_true h]
  exact decide_eq_false (lt_irrefl _)

theorem not_isZero_of_isInf : isZero a = false := by
  rw [isZero, of_decide_eq_true h]
  rfl

theorem isInf_fneg_of_isInf : isInf (fneg a) = true := by rwa [isInf, absBits_fneg]

end

theorem isInf_mkInf (s : Bool) : isInf (mkWord s infBits) = true := decide_eq_true (absBits_mkWord _ _ (by decide))

theorem signBit_mkInf (s : Bool) : signBit (mkWord s infBits) = s := signBit_mkWord _ _ (by decide)

/-! ## NaN operands -/

/-- The quiet bit, the first of the fraction. -/
theorem getLsbD_quietNaN (b : BitVec 23) : (quietNaN b).getLsbD 22 = true := by
  have hb : b.toNat % 2 ^ 22 < 2 ^ 22 := Nat.mod_lt _ (by norm_num)
  rw [← BitVec.testBit_toNat, quietNaN, toNat_mkWord _ _ (by omega), Nat.testBit_eq_decide_div_mod_eq, decide_eq_true_eq]
  split <;> omega

theorem getLsbD_freeNaN (op : Config.FpOp) (a b : Word) : (freeNaN op a b).getLsbD 22 = true := getLsbD_quietNaN _

section
variable (a b : Word) (h : (isNaN a || isNaN b) = true)
include h

theorem fadd_of_isNaN : fadd a b = freeNaN .add a b := if_pos h

theorem fsub_of_isNaN : fsub a b = freeNaN .sub a b := if_pos h

theorem fmul_of_isNaN : fmul a b = freeNaN .mul a b := if_pos h

theorem fdiv_of_isNaN : fdiv a b = freeNaN .div a b := if_pos h

end

/-! ## Infinities in sums -/

section
variable (a b : Word)

theorem fadd_infinities (ha : isInf a = true) (hb : isInf b = true) :
    fadd a b = if signBit a = signBit b then a else freeNaN .add a b := by
  simp [fadd, not_isNaN_of_isInf a ha, not_isNaN_of_isInf b hb, ha, hb]

theorem fadd_infinity_left (ha : isInf a = true) (hb : isFinite b = true) : fadd a b = a := by
  simp [fadd, not_isNaN_of_isInf a ha, not_isNaN_of_finite b hb, ha, not_isInf_of_finite b hb]

theorem fadd_infinity_right (ha : isFinite a = true) (hb : isInf b = true) : fadd a b = b := by
  simp [fadd, not_isNaN_of_finite a ha, not_isNaN_of_isInf b hb, not_isInf_of_finite a ha, hb]

/-- A difference of two infinities is the sum with the negated one, but for the NaN. -/
theorem fsub_infinities (ha : isInf a = true) (hb : isInf b = true) :
    fsub a b = if signBit a = signBit b then freeNaN .sub a b else a := by
  have hsum := fadd_infinities a (fneg b) ha (isInf_fneg_of_isInf b hb)
  rw [signBit_fneg] at hsum
  cases hsa : signBit a <;> cases hsb : signBit b <;>
    simp [fsub, not_isNaN_of_isInf a ha, not_isNaN_of_isInf b hb, ha, hb, hsum, hsa, hsb]

theorem fsub_infinity_left (ha : isInf a = true) (hb : isFinite b = true) : fsub a b = a := by
  simp [fsub, not_isNaN_of_isInf a ha, not_isNaN_of_finite b hb, not_isInf_of_finite b hb,
    fadd_infinity_left a (fneg b) ha (by rwa [isFinite_fneg])]

theorem fsub_infinity_right (ha : isFinite a = true) (hb : isInf b = true) : fsub a b = fneg b := by
  simp [fsub, not_isNaN_of_finite a ha, not_isNaN_of_isInf b hb, not_isInf_of_finite a ha,
    fadd_infinity_right a (fneg b) ha (isInf_fneg_of_isInf b hb)]

/-- A finite value less itself is `+0.0`: its two signs differ. -/
theorem fsub_self (ha : isFinite a = true) : fsub a a = posZero := by
  rw [fsub_eq_fadd a a ha ha, fadd_eq_addFinite a (fneg a) ha (by rwa [isFinite_fneg]), addFinite, units_fneg,
    add_neg_cancel, if_pos rfl, signBit_fneg, Bool.and_not_self, if_neg Bool.false_ne_true]

/-! ## Infinities and zeros in products -/

theorem fmul_infinity (hinf : (isInf a || isInf b) = true) (ha : isNaN a = false) (hb : isNaN b = false) :
    fmul a b = if isZero a || isZero b then freeNaN .mul a b else mkWord (signBit a != signBit b) infBits := by
  simp only [fmul, ha, hb, hinf, Bool.or_self, Bool.false_eq_true, if_false, if_true]

theorem signBit_fmul_of_finite (ha : isFinite a = true) (hb : isFinite b = true) :
    signBit (fmul a b) = (signBit a != signBit b) := by
  rw [fmul_eq_rnd a b ha hb]
  exact signBit_mkWord _ _ (roundMag_lt _ _)

/-! ## Infinities and zeros in quotients -/

theorem fdiv_infinities (ha : isInf a = true) (hb : isInf b = true) : fdiv a b = freeNaN .div a b := by
  simp [fdiv, not_isNaN_of_isInf a ha, not_isNaN_of_isInf b hb, ha, hb]

theorem fdiv_infinity_left (ha : isInf a = true) (hb : isFinite b = true) :
    fdiv a b = mkWord (signBit a != signBit b) infBits := by
  simp [fdiv, not_isNaN_of_isInf a ha, not_isNaN_of_finite b hb, ha, not_isInf_of_finite b hb]

theorem fdiv_infinity_right (ha : isFinite a = true) (hb : isInf b = true) :
    fdiv a b = mkWord (signBit a != signBit b) 0 := by
  simp [fdiv, not_isNaN_of_finite a ha, not_isNaN_of_isInf b hb, not_isInf_of_finite a ha, hb]

theorem fdiv_zero_right (ha : isFinite a = true) (hb : isZero b = true) :
    fdiv a b = if isZero a then freeNaN .div a b else mkWord (signBit a != signBit b) infBits := by
  have hbf := isFinite_of_isZero b hb
  simp [fdiv, not_isNaN_of_finite a ha, not_isNaN_of_finite b hbf, not_isInf_of_finite a ha, not_isInf_of_finite b hbf, hb]

/-! ## Roots -/

theorem fsqrt_of_isNaN (h : isNaN a = true) : fsqrt a = freeNaN .sqrt a a := if_pos h

theorem fsqrt_of_negative (hn : isNaN a = false) (h0 : isZero a = false) (hs : signBit a = true) :
    fsqrt a = freeNaN .sqrt a a := by
  simp [fsqrt, hn, h0, hs]

theorem fsqrt_infinity (ha : isInf a = true) (hs : signBit a = false) : fsqrt a = a := by
  simp [fsqrt, not_isNaN_of_isInf a ha, not_isZero_of_isInf a ha, hs, ha]

end

/-! ## The statement, operation by operation -/

theorem infinities_add_sub (a b : Word) (ha : isInf a = true) (hb : isInf b = true) :
    (signBit a ≠ signBit b → isNaN (fadd a b) = true ∧ fsub a b = a) ∧
      (signBit a = signBit b → isNaN (fsub a b) = true ∧ fadd a b = a) := by
  rw [fadd_infinities a b ha hb, fsub_infinities a b ha hb]
  refine ⟨fun h => ?_, fun h => ?_⟩
  · rw [if_neg h, if_neg h]
    exact ⟨isNaN_freeNaN _ _ _, rfl⟩
  · rw [if_pos h, if_pos h]
    exact ⟨isNaN_freeNaN _ _ _, rfl⟩

/-- An infinity times a value that is neither a NaN nor a zero. -/
theorem fmul_infinity_of_not_isZero (a b : Word) (ha : isInf a = true) (hb : isNaN b = false) (h0 : isZero b = false) :
    fmul a b = mkWord (signBit a != signBit b) infBits ∧ fmul b a = mkWord (signBit a != signBit b) infBits := by
  have hna := not_isNaN_of_isInf a ha
  have h0a := not_isZero_of_isInf a ha
  rw [fmul_infinity a b (by rw [ha, Bool.true_or]) hna hb, fmul_infinity b a (by rw [ha, Bool.or_true]) hb hna, h0, h0a,
    bne_comm (a := signBit b)]
  exact ⟨rfl, rfl⟩

theorem fmul_zero_infinity (a b : Word) (ha : isZero a = true) (hb : isInf b = true) :
    isNaN (fmul a b) = true ∧ isNaN (fmul b a) = true := by
  have hna := not_isNaN_of_isZero a ha
  have hnb := not_isNaN_of_isInf b hb
  rw [fmul_infinity a b (by rw [hb, Bool.or_true]) hna hnb, fmul_infinity b a (by rw [hb, Bool.true_or]) hnb hna, ha,
    Bool.true_or, Bool.or_true, if_pos rfl, if_pos rfl]
  exact ⟨isNaN_freeNaN _ _ _, isNaN_freeNaN _ _ _⟩

theorem fdiv_zero_of_not_isZero (a b : Word) (ha : isFinite a = true) (h0 : isZero a = false) (hb : isZero b = true) :
    isInf (fdiv a b) = true ∧ signBit (fdiv a b) = (signBit a != signBit b) := by
  rw [fdiv_zero_right a b ha hb, if_neg (ne_true_of_eq_false h0)]
  exact ⟨isInf_mkInf _, signBit_mkInf _⟩

theorem fdiv_zeros (a b : Word) (ha : isZero a = true) (hb : isZero b = true) : isNaN (fdiv a b) = true := by
  rw [fdiv_zero_right a b (isFinite_of_isZero a ha) hb, if_pos ha]
  exact isNaN_freeNaN _ _ _

/-- Settles O56, one clause after another. -/
theorem arithmeticSpecialCases : Obligations.ArithmeticSpecialCases := by
  unfold Obligations.ArithmeticSpecialCases
  refine ⟨by decide +kernel, fsub_self, infinities_add_sub, fun a b ha hb => ?_, fmul_infinity_of_not_isZero,
    fun a b ha hb => ?_, fmul_zero_infinity, fun a b ha hb => ?_, fdiv_zero_of_not_isZero, fdiv_zeros,
    fun a b ha hb => ?_, fsqrt_of_isZero, fsqrt_infinity _ (isInf_mkInf _) (signBit_mkInf _), fun a hn h0 hs => ?_,
    fun a ha => ?_, fun a b h => ?_⟩
  · exact ⟨fadd_infinity_left a b ha hb, fadd_infinity_right b a hb ha, fsub_infinity_left a b ha hb,
      fsub_infinity_right b a hb ha⟩
  · rw [fdiv_infinity_left a b ha hb, fdiv_infinity_right b a hb ha, bne_comm (a := signBit b)]
    exact ⟨rfl, rfl⟩
  · exact ⟨fmul_isZero_right a ha b hb, signBit_fmul_of_finite a b ha (isFinite_of_isZero b hb)⟩
  · rw [fdiv_infinities a b ha hb]
    exact isNaN_freeNaN _ _ _
  · rw [fsqrt_of_negative a hn h0 hs]
    exact isNaN_freeNaN _ _ _
  · rw [fsqrt_of_isNaN a ha]
    exact ⟨isNaN_freeNaN _ _ _, getLsbD_freeNaN _ _ _⟩
  · rw [fadd_of_isNaN a b h, fsub_of_isNaN a b h, fmul_of_isNaN a b h, fdiv_of_isNaN a b h]
    simp only [isNaN_freeNaN, getLsbD_freeNaN, and_self]

end Sys2Proof.Machine
end

section
/-! The machine with a given NUM (45_numerics.md R230, R234): a step fetches as `step` does and runs the decoded command, and a
run of TICKs is one state after another, of which NUM makes nothing but the output ring. -/

namespace Sys2Proof.Machine

/-! ## The step -/

theorem exec_eq_execWith (i : Instr) (s : State) : exec i s = execWith Config.num i s := by
  cases hc : i.command? with
  | none =>
    obtain ⟨w, rfl⟩ := command?_none i hc
    rfl
  | some c => rw [exec_command i c s hc, execWith_command _ i c s hc]

/-- Settles O12: both steps fetch alike. -/
theorem stepIsNamedMachineAtOpenNum : Obligations.StepIsNamedMachineAtOpenNum := by
  unfold Obligations.StepIsNamedMachineAtOpenNum
  intro s
  rw [step, stepWith]
  cases fetch s with
  | ok r => exact exec_eq_execWith r.1 r.2
  | error e => cases e <;> rfl

/-- A step runs the instruction whose words stand at the head of the stream, under whatever name. -/
theorem stepWith_encode_append (num : Numerics) (i : Instr) (c : Command) (hi : i.wf = true) (hc : i.command? = some c)
    (rest : List Word) (s : State) :
    stepWith num { s with cmds := encode i ++ rest } = commandWith num c { s with cmds := rest } := by
  rw [stepWith, fetch_ok _ i.named rest (decode_encode i rest hi)]
  exact execWith_command num _ c _ ((named_command i).trans hc)

/-! ## A run of TICKs -/

/-- The state after a run of TICKs with a given NUM. -/
def ticksWith (num : Numerics) (xs : List TickArgs) (s : State) : State :=
  xs.foldl (fun t x => tickState num x.o.main x.o.aux x.cfg t) s

theorem ticksWith_nil (num : Numerics) (s : State) : ticksWith num [] s = s := rfl

theorem ticksWith_cons (num : Numerics) (x : TickArgs) (xs : List TickArgs) (s : State) :
    ticksWith num (x :: xs) s = ticksWith num xs (tickState num x.o.main x.o.aux x.cfg s) := rfl

/-- A run on the words of TICKs, in a block that was reset, completes with all of them accepted. -/
theorem runWith_ticks (num : Numerics) (xs : List TickArgs) (rest : List Word) (s : State) (hv : s.valid = true) :
    runWith num xs.length { s with cmds := (xs.flatMap fun x => encode x.instr) ++ rest } =
      .next { ticksWith num xs s with cmds := rest } := by
  induction xs generalizing s with
  | nil => rfl
  | cons x xs ih =>
    rw [List.length_cons, runWith, List.flatMap_cons, List.append_assoc,
      stepWith_encode_append num x.instr (.tick x.o.main x.o.aux x.cfg) rfl rfl, commandWith, tickWith_valid]
    · rw [tickState_withCmds]
      exact ih _ ((tickState_valid _ _ _ _ s).trans hv)
    · exact hv

theorem ticksWith_counted (num : Numerics) (p : Nat) (hp : 2 ≤ p) (xs : List TickArgs) (n : Nat) (s : State)
    (h : s.Counted p n) : (ticksWith num xs s).Counted p (n + xs.length) := by
  induction xs generalizing n s with
  | nil => exact h
  | cons x xs ih =>
    rw [List.length_cons, Nat.add_comm xs.length, ← Nat.add_assoc]
    exact ih (n + 1) _ (tickState_counted num x.o.main x.o.aux x.cfg p n s hp h)

/-! ## What does not depend on NUM -/

section
variable (num num' : Numerics)

/-- The input rings hold the samples written at `pos`. -/
theorem ticksWith_inputRings (xs : List TickArgs) (s t : State) (hlogN : s.logN = t.logN) (hpos : s.pos = t.pos)
    (hmain : s.mem.inMain = t.mem.inMain) (haux : s.mem.inAux = t.mem.inAux) :
    (ticksWith num xs s).mem.inMain = (ticksWith num' xs t).mem.inMain ∧
      (ticksWith num xs s).mem.inAux = (ticksWith num' xs t).mem.inAux := by
  induction xs generalizing s t with
  | nil => exact ⟨hmain, haux⟩
  | cons x xs ih =>
    refine ih _ _ ?_ ?_ ?_ ?_
    · rw [tickState_logN, tickState_logN, hlogN]
    · rw [tickState_pos, tickState_pos, State.frameSize, State.frameSize, hlogN, hpos]
    · rw [tickState_inMain, tickState_inMain, hmain, hpos]
    · rw [tickState_inAux, tickState_inAux, haux, hpos]

/-- One TICK that bypasses if it is at a hop boundary. -/
theorem tickState_of_bypass_at_hop (main aux : Word) (cfg : Cfg) (s : State) (h : s.hopNext → cfg.byp = true) :
    tickState num main aux cfg s = tickState num' main aux cfg s := by
  by_cases hhop : s.hopNext
  · rw [tickState_hop _ _ _ _ s hhop, tickState_hop _ _ _ _ s hhop, hopBoundary, hopBoundary,
      frame_of_bypass num _ _ (h hhop), frame_of_bypass num' _ _ (h hhop)]
  · rw [tickState_noHop _ _ _ _ s hhop, tickState_noHop _ _ _ _ s hhop]

theorem ticksWith_of_bypass_at_hop (p : Nat) (hp : 2 ≤ p) (xs : List TickArgs) (n : Nat) (s : State) (hs : s.Counted p n)
    (h : ∀ k, k < xs.length → (n + k + 1) % hopSizeOf p = 0 → (tickNumber xs k).bp = true) :
    ticksWith num xs s = ticksWith num' xs s := by
  induction xs generalizing n s with
  | nil => rw [ticksWith_nil, ticksWith_nil]
  | cons x xs ih =>
    have hfirst : s.hopNext → x.cfg.byp = true := fun hhop =>
      h 0 (Nat.succ_pos _) ((hopNext_iff_of_counted p n hp s hs).1 hhop)
    rw [ticksWith_cons, ticksWith_cons, tickState_of_bypass_at_hop num num' _ _ _ s hfirst]
    refine ih (n + 1) _ (tickState_counted num' x.o.main x.o.aux x.cfg p n s hp hs) fun k hk hhop => ?_
    exact h (k + 1) (Nat.succ_lt_succ hk) (by rwa [← Nat.add_assoc, Nat.add_right_comm n k 1])

end

/-- Settles O45: both runs end in the states of `ticksWith`, whose counters count the TICKs. -/
theorem bypassRunsAgreeForEveryNum : Obligations.BypassRunsAgreeForEveryNum := by
  unfold Obligations.BypassRunsAgreeForEveryNum
  intro num num' p xs hp
  have hrun (num : Numerics) := runWith_ticks num xs [] (State.resetOf p) rfl
  simp only [List.append_nil] at hrun
  have hs := ticksWith_counted num p hp xs 0 _ (resetOf_counted p)
  have ht := ticksWith_counted num' p hp xs 0 _ (resetOf_counted p)
  obtain ⟨hmain, haux⟩ := ticksWith_inputRings num num' xs (State.resetOf p) (State.resetOf p) rfl rfl rfl rfl
  refine ⟨_, _, hrun num, hrun num', hmain, haux, hs.pos.trans ht.pos.symm, hs.hop.trans ht.hop.symm, fun h => ?_⟩
  rw [ticksWith_of_bypass_at_hop num num' p hp xs 0 _ (resetOf_counted p) (by simpa only [Nat.zero_add] using h)]

end Sys2Proof.Machine
end

section
/-! What a step does with the first word of the stream (60_exceptions.md R240, R243 to R248): the opcode decides which bits
are reserved and how many words must have arrived, and each refusal ends the step before the next one is looked for. -/

namespace Sys2Proof.Machine

/-! ## What completes -/

theorem completes_next (t : State) : Completes (.next t) := ⟨t, rfl⟩

theorem not_completes_refused (r : Refusal) : ¬ Completes (.refused r) := by
  rintro ⟨t, h⟩
  cases h

/-- A TICK completes once RESET was executed (R113, R114). -/
theorem completes_tickWith_iff (num : Numerics) (main aux : Word) (cfg : Cfg) (s : State) :
    Completes (tickWith num main aux cfg s) ↔ s.valid = true := by
  simp only [Completes, tickWith_next, exists_and_left, exists_eq, and_true]

/-! ## The opcode, the reserved bits (R80) and the operand words (R245) -/

theorem opcode_of_isCommandOpcode (w : Word) (h : isCommandOpcode w = true) :
    opcode w = 2 ∨ opcode w = 1 ∨ opcode w = 3 := by
  simp only [isCommandOpcode, Bool.or_eq_true, beq_iff_eq] at h
  omega

theorem shortZero_iff (w : Word) : shortZero w = true ↔ w.extractLsb' 0 28 = 0 := beq_iff_eq

/-- The bits reserved in RESET and LAT are those reserved in every command and the 18 bits of a TICK's fields. -/
theorem fields_eq_zero_of_shortZero (w : Word) (hz : shortZero w = true) :
    w.extractLsb' 18 10 = 0 ∧ w.extractLsb' 0 18 = 0 := by
  have hsplit : w.extractLsb' 18 10 ++ w.extractLsb' 0 18 = w.extractLsb' 0 28 :=
    BitVec.extractLsb'_append_extractLsb'_eq_extractLsb' rfl
  rw [(shortZero_iff w).1 hz] at hsplit
  constructor
  · rw [← BitVec.extractLsb'_append_eq_left (a := w.extractLsb' 18 10) (b := w.extractLsb' 0 18), hsplit]
    rfl
  · rw [← BitVec.extractLsb'_append_eq_right (a := w.extractLsb' 18 10) (b := w.extractLsb' 0 18), hsplit]
    rfl

theorem decodeTick_of_missing (w : Word) (rest : List Word) (h : rest.length < 4) :
    decodeTick w rest = .error (.truncated (w :: rest)) := by
  unfold decodeTick
  split
  · next m formant main aux rest' =>
    simp only [List.length_cons] at h
    omega
  · rfl

theorem decodeTick_of_arrived (w : Word) (rest : List Word) (h : 4 ≤ rest.length) :
    ∃ i main aux cfg rest', i.command? = some (.tick main aux cfg) ∧ decodeTick w rest = .ok (i, rest') := by
  match rest, h with
  | _ :: _ :: _ :: _ :: rest', _ => exact ⟨_, _, _, _, rest', nameTick_command .., rfl⟩

/-! ## The step by the first word -/

/-- Settles O7: the decoder finds no command. -/
theorem stepOfIdleBlock : Obligations.StepOfIdleBlock := by
  unfold Obligations.StepOfIdleBlock
  intro s h
  exact step_noCommand s (h ▸ decode_nil)

section
variable {s : State} {w : Word} {rest : List Word} (h : s.cmds = w :: rest)
include h

theorem step_of_reservedOpcode (hop : isCommandOpcode w = false) : step s = .refused (.reservedOpcode w) := by
  rw [step_ok s _ rest (h ▸ decode_reserved w rest hop), exec_reservedOpcode]

theorem step_of_reset (hop : opcode w = 1) (hz : shortZero w = true) :
    step s = .next (resetState { s with cmds := rest }) := by
  rw [step_ok s .reset rest (by rw [h, decode_reset w rest hop, if_pos hz])]
  rfl

theorem step_of_lat (hop : opcode w = 3) (hz : shortZero w = true) :
    step s = .next (respond (BitVec.ofNat 32 s.frameSize) { s with cmds := rest }) := by
  rw [step_ok s .lat rest (by rw [h, decode_lat w rest hop, if_pos hz])]
  rfl

theorem step_of_short_reservedBits (hop : opcode w = 1 ∨ opcode w = 3) (hz : ¬ shortZero w = true) :
    step s = .refused (.reservedBits w) := by
  refine step_reservedBits s w ?_
  rw [h]
  obtain hop | hop := hop
  · rw [decode_reset w rest hop, if_neg hz]
  · rw [decode_lat w rest hop, if_neg hz]

theorem step_of_tick_reservedBits (hop : opcode w = 2) (hrsv : w.extractLsb' 18 10 ≠ 0) :
    step s = .refused (.reservedBits w) :=
  step_reservedBits s w (by rw [h, decode_tick w rest hop, rsvField, if_neg hrsv])

/-- The reserved bits of every command, and of RESET and LAT the bits below them too. -/
theorem step_of_reservedBits (hcommand : isCommandOpcode w = true)
    (hbits : w.extractLsb' 18 10 ≠ 0 ∨ (opcode w ≠ 2 ∧ w.extractLsb' 0 18 ≠ 0)) :
    step s = .refused (.reservedBits w) := by
  obtain htick | hshort := opcode_of_isCommandOpcode w hcommand
  · exact step_of_tick_reservedBits h htick (hbits.resolve_right fun ⟨hne, _⟩ => hne htick)
  · refine step_of_short_reservedBits h hshort fun hz => ?_
    obtain ⟨hrsv, hfields⟩ := fields_eq_zero_of_shortZero w hz
    exact hbits.elim (· hrsv) fun ⟨_, hne⟩ => hne hfields

theorem step_of_tick_missing (hop : opcode w = 2) (hrsv : w.extractLsb' 18 10 = 0) (hlen : rest.length < 4) :
    step s = .refused (.truncatedCommand (w :: rest)) :=
  step_truncated s _ (by rw [h, decode_tick w rest hop, rsvField, if_pos hrsv, decodeTick_of_missing w rest hlen])

theorem step_of_tick_arrived (hop : opcode w = 2) (hrsv : w.extractLsb' 18 10 = 0) (hlen : 4 ≤ rest.length) :
    ∃ main aux cfg rest', step s = tickWith Config.num main aux cfg { s with cmds := rest' } := by
  obtain ⟨i, main, aux, cfg, rest', hi, hdecode⟩ := decodeTick_of_arrived w rest hlen
  refine ⟨main, aux, cfg, rest', ?_⟩
  rw [step_ok s i rest' (by rw [h, decode_tick w rest hop, rsvField, if_pos hrsv, hdecode]), exec_command i _ _ hi]
  rfl

theorem step_of_tick_before_reset (hop : opcode w = 2) (hrsv : w.extractLsb' 18 10 = 0) (hlen : 4 ≤ rest.length)
    (hv : s.valid = false) : step s = .refused .tickBeforeReset := by
  obtain ⟨main, aux, cfg, rest', hstep⟩ := step_of_tick_arrived h hop hrsv hlen
  exact hstep.trans (tickWith_invalid _ _ _ _ _ hv)

/-! ## When a step completes -/

theorem completes_step_of_short (hop : opcode w = 1 ∨ opcode w = 3) :
    Completes (step s) ↔ w.extractLsb' 0 28 = 0 := by
  rw [← shortZero_iff]
  by_cases hz : shortZero w = true
  · refine iff_of_true ?_ hz
    obtain hop | hop := hop
    · exact step_of_reset h hop hz ▸ completes_next _
    · exact step_of_lat h hop hz ▸ completes_next _
  · exact iff_of_false (step_of_short_reservedBits h hop hz ▸ not_completes_refused _) hz

theorem completes_step_of_tick (hop : opcode w = 2) :
    Completes (step s) ↔ w.extractLsb' 18 10 = 0 ∧ 4 ≤ rest.length ∧ s.valid = true := by
  by_cases hrsv : w.extractLsb' 18 10 = 0
  · obtain hlen | hlen := Nat.lt_or_ge rest.length 4
    · rw [step_of_tick_missing h hop hrsv hlen]
      exact iff_of_false (not_completes_refused _) fun ⟨_, hlen', _⟩ => Nat.not_le.2 hlen hlen'
    · obtain ⟨main, aux, cfg, rest', hstep⟩ := step_of_tick_arrived h hop hrsv hlen
      rw [hstep, completes_tickWith_iff]
      exact ⟨fun hv => ⟨hrsv, hlen, hv⟩, fun ⟨_, _, hv⟩ => hv⟩
  · rw [step_of_tick_reservedBits h hop hrsv]
    exact iff_of_false (not_completes_refused _) fun ⟨hrsv', _⟩ => hrsv hrsv'

/-- A step on a stream that is not empty completes exactly on a command that the decoder accepts and that is no TICK before
RESET. -/
theorem completes_step_iff : Completes (step s) ↔
    (opcode w = 1 ∧ w.extractLsb' 0 28 = 0) ∨ (opcode w = 3 ∧ w.extractLsb' 0 28 = 0) ∨
      (opcode w = 2 ∧ w.extractLsb' 18 10 = 0 ∧ 4 ≤ rest.length ∧ s.valid = true) := by
  by_cases h1 : opcode w = 1
  · simp [completes_step_of_short h (.inl h1), h1]
  by_cases h3 : opcode w = 3
  · simp [completes_step_of_short h (.inr h3), h3]
  by_cases h2 : opcode w = 2
  · simp [completes_step_of_tick h h2, h2]
  have hstep := step_of_reservedOpcode h ((isCommandOpcode_eq_false_iff w).2 ⟨h1, h2, h3⟩)
  simp [hstep, not_completes_refused, h1, h2, h3]

end

/-- Settles O9: the step of an empty stream is idle, the others are `completes_step_iff`. -/
theorem stepCompletesWhenAccepted : Obligations.StepCompletesWhenAccepted := by
  unfold Obligations.StepCompletesWhenAccepted
  intro s
  cases hc : s.cmds with
  | nil => exact iff_of_true ⟨s, stepOfIdleBlock s hc⟩ (.inl rfl)
  | cons w rest =>
    rw [completes_step_iff hc]
    constructor
    · exact fun h => .inr ⟨w, rest, rfl, h⟩
    · rintro (h | ⟨w', rest', h, haccepted⟩)
      · cases h
      · cases h
        exact haccepted

/-- Settles O8: each clause is the step on a first word of its kind. -/
theorem stepRefusesInOrder : Obligations.StepRefusesInOrder := by
  unfold Obligations.StepRefusesInOrder
  intro s w rest h
  exact ⟨step_of_reservedOpcode h, step_of_reservedBits h, step_of_tick_missing h, step_of_tick_before_reset h⟩

end Sys2Proof.Machine
end

section
/-! The hop boundary (60_exceptions.md R249, R250, 41_frame_window.md R120): what entry into FrameReady, FRAME and the return
write. -/

namespace Sys2Proof.Machine

/-- Settles O31: FRAME runs in the state of the entry, and field by field it keeps all but the output ring. -/
theorem hopBoundaryEntersAndReturns : Obligations.HopBoundaryEntersAndReturns := by
  unfold Obligations.HopBoundaryEntersAndReturns
  intro num cfg s
  exact ⟨frame num cfg (enterFrameReady s), rfl, rfl, frame_seq .., frame_pos .., frame_hopCount .., frame_inMain ..,
    frame_inAux .., frame_valid .., frame_logN .., frame_cmds .., frame_resps .., rfl⟩

end Sys2Proof.Machine
end

section
/-! The frame size is a parameter of the instance (70_reset_and_hazards.md R284, 00_scope.md R9): no command writes it. -/

namespace Sys2Proof.Machine

theorem exec_keeps_logN (i : Instr) (s t : State) (h : exec i s = .next t) : t.logN = s.logN := by
  obtain ⟨-, rfl⟩ | ⟨-, rfl⟩ | ⟨main, aux, cfg, -, -, rfl⟩ := exec_cases i s t h
  · exact resetState_logN s
  · exact respond_logN _ s
  · exact tickState_logN _ main aux cfg s

/-- Settles O18: an idle step keeps the state, any other step runs one instruction, and accepting its words keeps the frame
size too. -/
theorem frameSizeIsFixed : Obligations.FrameSizeIsFixed := by
  unfold Obligations.FrameSizeIsFixed
  refine ⟨exec_keeps_logN, fun s t h => ?_⟩
  obtain ⟨-, rfl⟩ | ⟨i, rest, -, hexec⟩ := step_cases s t h
  · rfl
  · exact exec_keeps_logN i { s with cmds := rest } t hexec

end Sys2Proof.Machine
end

section
/-! RESET forgets (70_reset_and_hazards.md R270, R274, 10_state.md R46): what it leaves depends on the frame size and the two
host streams alone, and no later command looks at either stream. -/

namespace Sys2Proof.Machine

theorem resetState_resetState (s : State) : resetState (resetState s) = resetState s := rfl

/-- Settles O15: RESET always completes, and resetting the reset state writes what is there. -/
theorem resetTwiceEqualsOnce : Obligations.ResetTwiceEqualsOnce := by
  unfold Obligations.ResetTwiceEqualsOnce
  intro s
  refine ⟨resetState s, exec_reset s, ?_⟩
  rw [exec_reset, resetState_resetState]

/-- Two instances of one frame size differ after RESET in their streams only. -/
theorem resetState_of_same_logN (s s' : State) (h : s.logN = s'.logN) :
    resetState s' = { resetState s with cmds := s'.cmds, resps := s'.resps } := by
  simp only [resetState, State.frameSize, h]

/-! ## The host streams are written, never read -/

theorem tickState_withStreams (num : Numerics) (main aux : Word) (cfg : Cfg) (s : State) (cs qs : List Word) :
    tickState num main aux cfg { s with cmds := cs, resps := qs } =
      { tickState num main aux cfg s with cmds := cs, resps := qs ++ [memRead .out s.pos s] } := by
  by_cases h : s.hopCount + 1 = s.hopSize
  · rw [tickState_hop _ _ _ _ s h, tickState_hop _ _ _ _ { s with cmds := cs, resps := qs } h]
    rfl
  · rw [tickState_noHop _ _ _ _ s h, tickState_noHop _ _ _ _ { s with cmds := cs, resps := qs } h]
    rfl

/-- An instruction that completes answers the same words, and leaves the same state, whatever the streams hold. -/
theorem exec_withStreams (i : Instr) (s t : State) (h : exec i s = .next t) :
    ∃ rs, t.resps = s.resps ++ rs ∧ ∀ cs qs : List Word,
      exec i { s with cmds := cs, resps := qs } = .next { t with cmds := cs, resps := qs ++ rs } := by
  obtain ⟨rfl, rfl⟩ | ⟨rfl, rfl⟩ | ⟨main, aux, cfg, hi, hv, rfl⟩ := exec_cases i s t h
  · refine ⟨[], (List.append_nil _).symm, fun cs qs => ?_⟩
    rw [List.append_nil]
    exact exec_reset { s with cmds := cs, resps := qs }
  · exact ⟨_, respond_resps _ s, fun cs qs => exec_lat { s with cmds := cs, resps := qs }⟩
  · refine ⟨_, tickState_resps _ main aux cfg s, fun cs qs => ?_⟩
    rw [← tickState_withStreams]
    exact exec_tick_of_valid i main aux cfg { s with cmds := cs, resps := qs } hi hv

/-- A run that completes begins with an instruction that does. -/
theorem runInstrs_cons_next (i : Instr) (is : List Instr) (s t : State) (h : runInstrs (i :: is) s = .next t) :
    ∃ u, exec i s = .next u ∧ runInstrs is u = .next t := by
  rw [runInstrs] at h
  cases hu : exec i s with
  | next u =>
    rw [hu] at h
    exact ⟨u, rfl, h⟩
  | fault r => cases r
  | refused r =>
    rw [hu] at h
    cases h

/-- A run that completes answers the same words, and leaves the same state, whatever the streams hold. -/
theorem runInstrs_withStreams (is : List Instr) (s t : State) (h : runInstrs is s = .next t) :
    ∃ rs, t.resps = s.resps ++ rs ∧ ∀ cs qs : List Word,
      runInstrs is { s with cmds := cs, resps := qs } = .next { t with cmds := cs, resps := qs ++ rs } := by
  induction is generalizing s with
  | nil =>
    cases h
    exact ⟨[], (List.append_nil _).symm, fun cs qs => by rw [List.append_nil]; rfl⟩
  | cons i is ih =>
    obtain ⟨u, hexec, hrun⟩ := runInstrs_cons_next i is s t h
    obtain ⟨rs₁, hresps₁, hexec'⟩ := exec_withStreams i s u hexec
    obtain ⟨rs₂, hresps₂, hrun'⟩ := ih u hrun
    refine ⟨rs₁ ++ rs₂, by rw [hresps₂, hresps₁, List.append_assoc], fun cs qs => ?_⟩
    rw [runInstrs_cons_of_next i is _ _ (hexec' cs qs), ← List.append_assoc]
    exact hrun' cs (qs ++ rs₁)

/-- Settles O16: after RESET the two instances differ in their streams only, and so they do after the run. -/
theorem resetForgetsThePast : Obligations.ResetForgetsThePast := by
  unfold Obligations.ResetForgetsThePast
  intro s s' is t hlogN hrun
  rw [runInstrs_cons_of_next _ is s _ (exec_reset s)] at hrun
  obtain ⟨rs, hresps, hrun'⟩ := runInstrs_withStreams is (resetState s) t hrun
  refine ⟨{ t with cmds := s'.cmds, resps := s'.resps ++ rs }, rs, ?_, hresps, rfl, rfl, rfl, rfl, rfl, rfl, rfl⟩
  rw [runInstrs_cons_of_next _ is s' _ (exec_reset s'), resetState_of_same_logN s s' hlogN]
  exact hrun' s'.cmds s'.resps

end Sys2Proof.Machine
end
